-- ==== Sys2Proof/Word.lean ====
section
/-! DEFINITION. The plain value types of the Forlap SP24: bytes, codes, channel, node and point numbers (00_scope.md, "Terms", "Conventions"). -/

namespace Sys2Proof

/-- One byte of a frame, of a record layout or of a payload. -/
abbrev Byte := BitVec 8

/-- A code or a setpoint: an unsigned 16-bit quantity (00_scope.md, "Codes"). -/
abbrev Code := BitVec 16

/-- A channel number, 0 to 23 (00_scope.md, "Numbering"). -/
abbrev ChannelNo := Fin 24

/-- A field node.  The node with address n, 1 to 30, is stored as n - 1 (00_scope.md, "Numbering"). -/
abbrev Node := Fin 30

/-- An output point of a node, 0 to 3. -/
abbrev Point := Fin 4

end Sys2Proof
end

