-- ==== Sys2Proof/Config.lean ====
section
/-! DEFINITION. The free values: choices that the spec leaves open, with no body, so that no proof can see what they are. -/

namespace Sys2Proof

/-- FREE VALUE (notes/assumptions/3.md).  R177 lets an idle transmitter begin the head entry "at once".  When one event
offers a second ALARM or PART report for an entry that the same event has placed at the head of an otherwise idle
transmitter, the spec does not say whether that entry's transmission has begun between the two offers (R178 gives both
outcomes).  The argument is the counter `State.freeCount`: each such meeting is decided afresh. -/
opaque Config.transmissionBeganFirst : Nat → Bool

/-- FREE VALUE (notes/assumptions/4.md).  R160 charges a frame with the first failure detected.  When a byte with a bad stop
bit also fails the KIND, LENGTH or CHECK check made at that same byte, the spec does not say which of the two is charged.
The argument is the list of byte values received so far. -/
opaque Config.framingChargedFirst : List Byte → Bool

end Sys2Proof
end

