-- ==== Sys2Proof/Syntax.lean ====
section
/-! DEFINITION. The commands of the block: one constructor per row of spec/opcode_table.json, with the row's operands. -/

namespace Sys2Proof

/-- One setpoint pair of a SETPOINT payload (Section 9.7): any channel number 0 to 255 and a 16-bit setpoint.  `waits` is no part of
the payload: it says that another event is taken between the pair before it and this one (R14, R18, notes/assumptions/1.md). -/
structure SetpointPair where
  channel : Byte
  data    : Code
  waits   : Bool := false
deriving DecidableEq, Repr

/-- One character received on RXD: its value and whether its stop bit was good (R158, R160). -/
structure LinkByte where
  value  : Byte
  stopOk : Bool
deriving DecidableEq, Repr

/-- One character received on FRX: its value, whether its stop bit was good, and whether more than two field byte-times of
idle passed between the byte before it on the line and this byte (R65). -/
structure FieldByte where
  value      : Byte
  stopOk     : Bool
  idleBefore : Bool
deriving DecidableEq, Repr

/-- The fields of a valid READING frame (Section 4.2, R65).  `idleBefore` is no field of the frame: it says whether more than two
field byte-times of idle passed before its first byte. -/
structure Reading where
  node        : Byte
  point       : Byte
  value       : Code
  measureFail : Bool
  idleBefore  : Bool := true
deriving DecidableEq, Repr

/-- The commands: every operation and event of spec/opcode_table.json.

The management commands (readStatus to restart) stand for the event of R164 at which MGX TAKES the frame at the head of the
management queue; their operands are the tag and the arguments that this frame carries.  The frame itself arrives by
`mgmtFrame`. -/
inductive Instr where
  /-- POWER_ON (R183). -/
  | powerOn
  /-- ENTER_RUN (R184): the next `steps` steps of the start-up sequence; 26 steps are the whole of it (notes/assumptions/5.md). -/
  | enterRun (steps : Nat)
  /-- RECEIVER_READY (R159). -/
  | receiverReady
  /-- SETPOINT_FRAME (R10): a SETPOINT frame with these pairs that passes the checks of R160.  With no pairs it is no frame: SPH goes
  on with the pairs that wait of the frame that it is taking (R14, R18, notes/assumptions/1.md). -/
  | setpointFrame (pairs : List SetpointPair)
  /-- MGMT_FRAME (R163): a MGMT frame with this payload that passes the checks of R160. -/
  | mgmtFrame (payload : List Byte)
  /-- BAD_FRAME (R160): received characters that fail the BYTE_FRAMING, KIND, LENGTH or CHECK check. -/
  | badFrame (received : List LinkByte)
  /-- LINK_GAP_ERROR (R160). -/
  | linkGapError
  /-- READ_STATUS (R167). -/
  | readStatus (tag : Byte)
  /-- READ_CHANNEL (R168). -/
  | readChannel (tag channel : Byte)
  /-- READ_ENTRY_CHANNEL (R8). -/
  | readEntryChannel (tag index : Byte)
  /-- READ_ENTRY_SEQUENCE (R87). -/
  | readEntrySequence (tag index : Byte)
  /-- READ_ENTRY_NODE (R100). -/
  | readEntryNode (tag index : Byte)
  /-- READ_ENTRY_PRESET (R148). -/
  | readEntryPreset (tag index : Byte)
  /-- READ_ENTRY_PART (R169). -/
  | readEntryPart (tag index : Byte)
  /-- WRITE_ENTRY_CHANNEL (R6): the carried record has 31 bytes. -/
  | writeEntryChannel (tag index : Byte) (record : List Byte)
  /-- WRITE_ENTRY_SEQUENCE (R87): the carried record has 39 bytes. -/
  | writeEntrySequence (tag index : Byte) (record : List Byte)
  /-- WRITE_ENTRY_NODE (R100): the carried record has 6 bytes. -/
  | writeEntryNode (tag index : Byte) (record : List Byte)
  /-- WRITE_ENTRY_PRESET (R148): the carried record has 4 bytes. -/
  | writeEntryPreset (tag index : Byte) (record : List Byte)
  /-- WRITE_ENTRY_PART (R170): the carried record has 7 bytes. -/
  | writeEntryPart (tag index : Byte) (record : List Byte)
  /-- BAD_COMMAND (R165): a frame that names no command, has a wrong argument length, names no table (R169) or names no
  SLEW_BYPASS argument (R172). -/
  | badCommand (payload : List Byte)
  /-- ENABLE_CHANNEL (R36). -/
  | enableChannel (tag channel : Byte)
  /-- DISABLE_CHANNEL (R37). -/
  | disableChannel (tag channel : Byte)
  /-- RELEASE_CHANNEL (R43). -/
  | releaseChannel (tag channel : Byte)
  /-- READ_ALARMS (R125): 0xFF names all channels. -/
  | readAlarms (tag channel : Byte)
  /-- INJECT_READBACK (R110). -/
  | injectReadback (tag channel : Byte) (value : Code) (count : Byte)
  /-- SEQ_RUN (R90). -/
  | seqRun (tag : Byte)
  /-- SEQ_STOP (R97). -/
  | seqStop (tag : Byte)
  /-- APPLY_PRESET (R150). -/
  | applyPreset (tag start count : Byte)
  /-- ABORT_PRESET (R155). -/
  | abortPreset (tag : Byte)
  /-- FLUSH_OUTPUT (R57). -/
  | flushOutput (tag : Byte)
  /-- SLEW_BYPASS_ON (R30). -/
  | slewBypassOn (tag : Byte)
  /-- SLEW_BYPASS_OFF (R30). -/
  | slewBypassOff (tag : Byte)
  /-- STORE_SAVE (R180). -/
  | storeSave (tag : Byte)
  /-- STORE_CLEAR (R181). -/
  | storeClear (tag : Byte)
  /-- RESTART (R173). -/
  | restart (tag : Byte)
  /-- SAVE_ERASE_END (R180). -/
  | saveEraseEnd
  /-- SAVE_PROGRAM_END (R180): `verified` says whether every byte matched; "either may follow any save". -/
  | saveProgramEnd (verified : Bool)
  /-- CLEAR_END (R181). -/
  | clearEnd
  /-- TRANSMIT_END (R177). -/
  | transmitEnd
  /-- GRANT (R80). -/
  | grant
  /-- FIELD_GAP_EXPIRY (R68). -/
  | fieldGapExpiry
  /-- STROBE (R71). -/
  | strobe
  /-- FBSY_ASSERTED (R72): an event on the pin FBSY. -/
  | fbsyAsserted
  /-- FBSY_RELEASED (R72): an event on the pin FBSY. -/
  | fbsyReleased
  /-- HELD_TIMEOUT (R70). -/
  | heldTimeout
  /-- BUSY_TIMEOUT_EXPIRY (R72). -/
  | busyTimeoutExpiry
  /-- RESPONSE_TIMEOUT_EXPIRY (R73). -/
  | responseTimeoutExpiry
  /-- READING_RECEIVED (R73): a valid READING completes on FRX. -/
  | readingReceived (reading : Reading)
  /-- MALFORMED_READING (R65): characters on FRX that are malformed or whose check fails. -/
  | malformedReading (received : List FieldByte)
  /-- STEP_TIMER_EXPIRY (R29). -/
  | stepTimerExpiry (channel : ChannelNo)
  /-- SPACING_TIMER_EXPIRY (R93). -/
  | spacingTimerExpiry
  /-- CYCLE_TIMER_EXPIRY (R95). -/
  | cycleTimerExpiry
  /-- SILENCE_TIMER_EXPIRY (R142). -/
  | silenceTimerExpiry
  /-- PRESET_SPACING_EXPIRY (R151). -/
  | presetSpacingExpiry
  /-- FRX_IDLE (R65). -/
  | frxIdle
deriving DecidableEq, Repr

end Sys2Proof
end

