-- ==== Sys2Proof/Machine/Bytes.lean ====
section
/-! DEFINITION. Bytes and checks: byte order (R158, Section 4.2: most significant byte first), the CRC computations of R64, R160
and R179, the frames of the controller link (R159, R160) and of the field bus (R63 to R65). -/

namespace Sys2Proof.Machine

/-- The 16-bit value of two bytes, most significant byte first. -/
def be16 (hi lo : Byte) : Code := BitVec.ofNat 16 (hi.toNat * 256 + lo.toNat)

/-- The two bytes of a 16-bit value, most significant byte first. -/
def bytes16 (w : BitVec 16) : List Byte := [BitVec.ofNat 8 (w.toNat / 256), BitVec.ofNat 8 w.toNat]

/-- The four bytes of a 32-bit value, most significant byte first. -/
def bytes32 (w : BitVec 32) : List Byte :=
  [BitVec.ofNat 8 (w.toNat / 16777216), BitVec.ofNat 8 (w.toNat / 65536), BitVec.ofNat 8 (w.toNat / 256), BitVec.ofNat 8 w.toNat]

/-- A count or number as one byte. -/
def byteOf (n : Nat) : Byte := BitVec.ofNat 8 n

/-- yes/no as 1/0 (Section 9.7, common encodings). -/
def yesNo (b : Bool) : Byte := if b then 1 else 0

/-- The yes/no that a byte codes, if it codes one. -/
def yesNo? (b : Byte) : Option Bool := if b = 0 then some false else if b = 1 then some true else none

/-- One bit of a CRC, most significant bit first. -/
def crcShift {w : Nat} (poly crc : BitVec w) : BitVec w := if crc.msb then (crc <<< 1) ^^^ poly else crc <<< 1

/-- The `n` bits of a CRC step, one after the other. -/
def crcShifts {w : Nat} (poly : BitVec w) : Nat → BitVec w → BitVec w
  | 0, crc => crc
  | n + 1, crc => crcShifts poly n (crcShift poly crc)

/-- One byte taken into a CRC, most significant bit first. -/
def crcByte {w : Nat} (poly crc : BitVec w) (b : Byte) : BitVec w :=
  crcShifts poly 8 (crc ^^^ (b.setWidth w <<< (w - 8)))

/-- The check of a field frame: CRC-8, polynomial 0x2F, initial value 0xFF, no inversion (R64). -/
def crc8 (bytes : List Byte) : Byte := bytes.foldl (crcByte 0x2F) 0xFF

/-- The CHECK of a link frame: CRC-16, polynomial 0x1021, initial value 0xFFFF, no inversion (R160). -/
def crc16 (bytes : List Byte) : BitVec 16 := bytes.foldl (crcByte 0x1021) 0xFFFF

/-- The check value of the profile image: CRC-32, polynomial 0x04C11DB7, initial value 0xFFFFFFFF, no inversion (R179). -/
def crc32 (bytes : List Byte) : BitVec 32 := bytes.foldl (crcByte 0x04C11DB7) 0xFFFFFFFF

/-! ### Frames of the controller link -/

/-- KIND of a SETPOINT frame (R160). -/
def kindSetpoint : Byte := 0x51
/-- KIND of a MGMT frame (R160). -/
def kindMgmt : Byte := 0x5C

/-- A whole frame: KIND, LEN, payload, CHECK (R159, R160). -/
def linkFrame (kind : Byte) (payload : List Byte) : List Byte :=
  let body := kind :: byteOf payload.length :: payload
  body ++ bytes16 (crc16 body)

/-- The payload of a SETPOINT frame (Section 9.7). -/
def setpointPayload (pairs : List SetpointPair) : List Byte :=
  pairs.flatMap fun p => p.channel :: bytes16 p.data

/-- The receive errors of R160 and R161. -/
inductive LinkError where
  | byteFraming | check | length | kind | gap | overrun
deriving DecidableEq, Repr

/-- What the receive checks make of the characters received since the receiver was READY. -/
inductive LinkVerdict where
  /-- A check failed. -/
  | failed (e : LinkError)
  /-- A frame is complete and has passed every check. -/
  | accepted (kind : Byte) (payload : List Byte)
  /-- No check has failed and no frame is complete. -/
  | incomplete
deriving DecidableEq, Repr

/-- LEN is allowed for the kind (R160). -/
def lenAllowed (kind len : Byte) : Bool :=
  if kind = kindSetpoint then 3 ≤ len.toNat && len.toNat ≤ 24 && len.toNat % 3 == 0
  else 2 ≤ len.toNat && len.toNat ≤ 60

/-- The check of R160 that is made at the last byte of `bytes`, the bytes of the frame received so far, and fails. -/
def checkAt (bytes : List Byte) : Option LinkError :=
  match bytes with
  | [kind] => if kind = kindSetpoint ∨ kind = kindMgmt then none else some .kind
  | [kind, len] => if lenAllowed kind len then none else some .length
  | _ :: len :: _ =>
    if bytes.length = 4 + len.toNat then
      (if bytes.drop (2 + len.toNat) = bytes16 (crc16 (bytes.take (2 + len.toNat))) then none else some .check)
    else none
  | [] => none

/-- `bytes` is a complete frame: 4 + LEN bytes (R159). -/
def frameComplete (bytes : List Byte) : Bool :=
  match bytes with
  | _ :: len :: _ => bytes.length == 4 + len.toNat
  | _ => false

/-- The receive checks of R160, applied as bytes arrive; `sofar` are the bytes of the frame received before. -/
def linkVerdictFrom (sofar : List Byte) : List LinkByte → LinkVerdict
  | [] => .incomplete
  | b :: rest =>
    let bytes := sofar ++ [b.value]
    match b.stopOk, checkAt bytes with
    | false, none => .failed .byteFraming
    | false, some e => .failed (if Config.framingChargedFirst bytes then .byteFraming else e)
    | true, some e => .failed e
    | true, none =>
      if frameComplete bytes then .accepted (bytes.headD 0) ((bytes.drop 2).take (bytes.length - 4))
      else linkVerdictFrom bytes rest

/-- The receive checks applied to the characters received from READY on. -/
def linkVerdict (received : List LinkByte) : LinkVerdict := linkVerdictFrom [] received

/-- The characters of a frame received without a bad stop bit. -/
def cleanLinkBytes (bytes : List Byte) : List LinkByte := bytes.map fun b => ⟨b, true⟩

/-! ### Frames of the field bus -/

/-- A field frame: its bytes and their check (R64). -/
def fieldFrame (bytes : List Byte) : List Byte := bytes ++ [crc8 bytes]

/-- The READING frame of a node (Section 4.2). -/
def readingFrame (r : Reading) : List Byte :=
  fieldFrame ([0x3A, r.node, r.point] ++ bytes16 r.value ++ [yesNo r.measureFail])

/-- What the FRX receiver makes of the characters of one frame (R64, R65). -/
inductive ReadingVerdict where
  /-- Malformed by a bad stop bit, a type byte that is not 0x3A, or a flags byte that is neither 0 nor 1. -/
  | malformed
  /-- Malformed by an idle interval inside the frame; the byte after it begins the next frame (notes/assumptions/10.md). -/
  | broken
  /-- Well formed and complete, but its check does not match (R64). -/
  | badCheck
  /-- A valid reading. -/
  | valid (r : Reading)
  /-- Fewer than seven bytes and not malformed so far. -/
  | incomplete
deriving DecidableEq, Repr

/-- The last of the bytes received so far is a type or flags byte that makes the frame malformed (R65). -/
def malformedAt (bytes : List Byte) : Bool :=
  match bytes with
  | [type] => type != 0x3A
  | [_, _, _, _, _, flags] => (yesNo? flags).isNone
  | _ => false

/-- The judgement of the seven bytes of a frame that is not malformed (R64, R65). -/
def readingOf (idle : Bool) (bytes : List Byte) : ReadingVerdict :=
  match bytes with
  | [type, node, point, hi, lo, flags, check] =>
    if check = crc8 [type, node, point, hi, lo, flags] then .valid ⟨node, point, be16 hi lo, flags == 1, idle⟩ else .badCheck
  | _ => .incomplete

/-- The FRX receiver's judgement, made as the bytes arrive; `idle` says whether idle passed before the frame, `sofar` are the bytes
of the frame received before.  Characters after the judged one are not of the frame. -/
def readingVerdictFrom (idle : Bool) (sofar : List Byte) : List FieldByte → ReadingVerdict
  | [] => .incomplete
  | b :: rest =>
    let bytes := sofar ++ [b.value]
    if b.idleBefore && !sofar.isEmpty then .broken
    else if !b.stopOk || malformedAt bytes then .malformed
    else if bytes.length = 7 then readingOf idle bytes
    else readingVerdictFrom idle bytes rest

/-- Idle passed before the first of these characters. -/
def idleFirst : List FieldByte → Bool
  | [] => false
  | b :: _ => b.idleBefore

/-- The FRX receiver's judgement of the characters of one frame (R65). -/
def readingVerdict (received : List FieldByte) : ReadingVerdict := readingVerdictFrom (idleFirst received) [] received

/-- The characters of field bytes received without a bad stop bit and without idle between them. -/
def cleanFieldBytes (bytes : List Byte) : List FieldByte := bytes.map fun b => ⟨b, true, false⟩

/-- The characters of a reading received whole. -/
def receivedReading (r : Reading) : List FieldByte := ⟨0x3A, true, r.idleBefore⟩ :: cleanFieldBytes (readingFrame r).tail

end Sys2Proof.Machine
end

