-- ==== Sys2Proof/Machine/Commands.lean ====
section
/-! DEFINITION. The management payloads: which command a MGMT payload carries (R165, R169, R172) and the payload of a command
(Section 9.7). -/

namespace Sys2Proof.Machine

/-- The table code of CHANNEL, SEQUENCE, NODE, PRESET and PART (R169). -/
def tableChannel : Byte := 0
/-- See `tableChannel`. -/
def tableSequence : Byte := 1
/-- See `tableChannel`. -/
def tableNode : Byte := 2
/-- See `tableChannel`. -/
def tablePreset : Byte := 3
/-- See `tableChannel`. -/
def tablePart : Byte := 4

/-- The command bytes of R165. -/
def cmdReadStatus : Byte := 0x01
/-- See `cmdReadStatus`. -/
def cmdReadChannel : Byte := 0x02
/-- See `cmdReadStatus`. -/
def cmdReadEntry : Byte := 0x03
/-- See `cmdReadStatus`. -/
def cmdWriteEntry : Byte := 0x04
/-- See `cmdReadStatus`. -/
def cmdEnableChannel : Byte := 0x05
/-- See `cmdReadStatus`. -/
def cmdDisableChannel : Byte := 0x06
/-- See `cmdReadStatus`. -/
def cmdReleaseChannel : Byte := 0x07
/-- See `cmdReadStatus`. -/
def cmdReadAlarms : Byte := 0x08
/-- See `cmdReadStatus`. -/
def cmdInjectReadback : Byte := 0x09
/-- See `cmdReadStatus`. -/
def cmdSeqRun : Byte := 0x0A
/-- See `cmdReadStatus`. -/
def cmdSeqStop : Byte := 0x0B
/-- See `cmdReadStatus`. -/
def cmdApplyPreset : Byte := 0x0C
/-- See `cmdReadStatus`. -/
def cmdAbortPreset : Byte := 0x0D
/-- See `cmdReadStatus`. -/
def cmdFlushOutput : Byte := 0x0E
/-- See `cmdReadStatus`. -/
def cmdSlewBypass : Byte := 0x0F
/-- See `cmdReadStatus`. -/
def cmdStoreSave : Byte := 0x10
/-- See `cmdReadStatus`. -/
def cmdStoreClear : Byte := 0x11
/-- See `cmdReadStatus`. -/
def cmdRestart : Byte := 0x12

/-- The commands without arguments (R165). -/
def noArgCommand (tag cmd : Byte) : Option Instr :=
  if cmd = cmdReadStatus then some (.readStatus tag)
  else if cmd = cmdSeqRun then some (.seqRun tag)
  else if cmd = cmdSeqStop then some (.seqStop tag)
  else if cmd = cmdAbortPreset then some (.abortPreset tag)
  else if cmd = cmdFlushOutput then some (.flushOutput tag)
  else if cmd = cmdStoreSave then some (.storeSave tag)
  else if cmd = cmdStoreClear then some (.storeClear tag)
  else if cmd = cmdRestart then some (.restart tag)
  else none

/-- The commands with one argument byte (R165, R172). -/
def oneArgCommand (tag cmd a : Byte) : Option Instr :=
  if cmd = cmdReadChannel then some (.readChannel tag a)
  else if cmd = cmdEnableChannel then some (.enableChannel tag a)
  else if cmd = cmdDisableChannel then some (.disableChannel tag a)
  else if cmd = cmdReleaseChannel then some (.releaseChannel tag a)
  else if cmd = cmdReadAlarms then some (.readAlarms tag a)
  else if cmd = cmdSlewBypass then
    (if a = 0 then some (.slewBypassOff tag) else if a = 1 then some (.slewBypassOn tag) else none)
  else none

/-- READ_ENTRY of a table (R169). -/
def readEntryCommand (tag table index : Byte) : Option Instr :=
  if table = tableChannel then some (.readEntryChannel tag index)
  else if table = tableSequence then some (.readEntrySequence tag index)
  else if table = tableNode then some (.readEntryNode tag index)
  else if table = tablePreset then some (.readEntryPreset tag index)
  else if table = tablePart then some (.readEntryPart tag index)
  else none

/-- WRITE_ENTRY of a table, with the record length that R169 asks for. -/
def writeEntryCommand (tag table index : Byte) (record : List Byte) : Option Instr :=
  if table = tableChannel ∧ record.length = 31 then some (.writeEntryChannel tag index record)
  else if table = tableSequence ∧ record.length = 39 then some (.writeEntrySequence tag index record)
  else if table = tableNode ∧ record.length = 6 then some (.writeEntryNode tag index record)
  else if table = tablePreset ∧ record.length = 4 then some (.writeEntryPreset tag index record)
  else if table = tablePart ∧ record.length = 7 then some (.writeEntryPart tag index record)
  else none

/-- The command of a tag byte, a command byte and arguments, if they carry one (R165, R169, R172). -/
def commandOf? (tag cmd : Byte) (args : List Byte) : Option Instr :=
  if cmd = cmdWriteEntry then
    match args with
    | table :: index :: record => writeEntryCommand tag table index record
    | _ => none
  else
    match args with
    | [] => noArgCommand tag cmd
    | [a] => oneArgCommand tag cmd a
    | [a, b] =>
      if cmd = cmdReadEntry then readEntryCommand tag a b
      else if cmd = cmdApplyPreset then some (.applyPreset tag a b)
      else none
    | [a, b, c, d] => if cmd = cmdInjectReadback then some (.injectReadback tag a (be16 b c) d) else none
    | _ => none

/-- The command that a MGMT payload carries: a command of R165 with its arguments, or BAD_COMMAND. -/
def commandOf (payload : List Byte) : Instr :=
  match payload with
  | tag :: cmd :: args => (commandOf? tag cmd args).getD (.badCommand payload)
  | _ => .badCommand payload

/-- The MGMT payload of a management command (Section 9.7); none for the rows that MGX does not take. -/
def payloadOf : Instr → Option (List Byte)
  | .readStatus t => some [t, cmdReadStatus]
  | .readChannel t c => some [t, cmdReadChannel, c]
  | .readEntryChannel t i => some [t, cmdReadEntry, tableChannel, i]
  | .readEntrySequence t i => some [t, cmdReadEntry, tableSequence, i]
  | .readEntryNode t i => some [t, cmdReadEntry, tableNode, i]
  | .readEntryPreset t i => some [t, cmdReadEntry, tablePreset, i]
  | .readEntryPart t i => some [t, cmdReadEntry, tablePart, i]
  | .writeEntryChannel t i r => some ([t, cmdWriteEntry, tableChannel, i] ++ r)
  | .writeEntrySequence t i r => some ([t, cmdWriteEntry, tableSequence, i] ++ r)
  | .writeEntryNode t i r => some ([t, cmdWriteEntry, tableNode, i] ++ r)
  | .writeEntryPreset t i r => some ([t, cmdWriteEntry, tablePreset, i] ++ r)
  | .writeEntryPart t i r => some ([t, cmdWriteEntry, tablePart, i] ++ r)
  | .badCommand p => some p
  | .enableChannel t c => some [t, cmdEnableChannel, c]
  | .disableChannel t c => some [t, cmdDisableChannel, c]
  | .releaseChannel t c => some [t, cmdReleaseChannel, c]
  | .readAlarms t c => some [t, cmdReadAlarms, c]
  | .injectReadback t c v n => some ([t, cmdInjectReadback, c] ++ bytes16 v ++ [n])
  | .seqRun t => some [t, cmdSeqRun]
  | .seqStop t => some [t, cmdSeqStop]
  | .applyPreset t a n => some [t, cmdApplyPreset, a, n]
  | .abortPreset t => some [t, cmdAbortPreset]
  | .flushOutput t => some [t, cmdFlushOutput]
  | .slewBypassOn t => some [t, cmdSlewBypass, 1]
  | .slewBypassOff t => some [t, cmdSlewBypass, 0]
  | .storeSave t => some [t, cmdStoreSave]
  | .storeClear t => some [t, cmdStoreClear]
  | .restart t => some [t, cmdRestart]
  | .powerOn | .enterRun _ | .receiverReady | .setpointFrame _ | .mgmtFrame _ | .badFrame _ | .linkGapError
  | .saveEraseEnd | .saveProgramEnd _ | .clearEnd | .transmitEnd | .grant | .fieldGapExpiry | .strobe
  | .fbsyAsserted | .fbsyReleased | .heldTimeout | .busyTimeoutExpiry | .responseTimeoutExpiry
  | .readingReceived _ | .malformedReading _ | .stepTimerExpiry _ | .spacingTimerExpiry | .cycleTimerExpiry
  | .silenceTimerExpiry | .presetSpacingExpiry | .frxIdle => none

end Sys2Proof.Machine
end

