-- ==== Sys2Proof/WellFormed.lean ====
section
/-! DEFINITION. The well-formedness of a command: its operands are those that the row's event can have. -/

namespace Sys2Proof

/-- The number of steps of the start-up sequence: 24 channels considered, the autostart, the entry to RUN (R184). -/
def startUpSteps : Nat := 26

/-- The operands of a command are ones that its row can have. -/
def Instr.wf (i : Instr) : Bool :=
  match i with
  | .enterRun n => decide (1 ≤ n ∧ n ≤ startUpSteps)
  | .setpointFrame pairs => decide (pairs.length ≤ 8)
  | .mgmtFrame p => decide (2 ≤ p.length ∧ p.length ≤ 60)
  | .badFrame r => match Machine.linkVerdict r with
    | .failed _ => true
    | _ => false
  | .malformedReading r => match Machine.readingVerdict r with
    | .malformed | .broken | .badCheck => true
    | _ => false
  | .writeEntryChannel _ _ r => decide (r.length = 31)
  | .writeEntrySequence _ _ r => decide (r.length = 39)
  | .writeEntryNode _ _ r => decide (r.length = 6)
  | .writeEntryPreset _ _ r => decide (r.length = 4)
  | .writeEntryPart _ _ r => decide (r.length = 7)
  | .badCommand p => decide (2 ≤ p.length ∧ p.length ≤ 60 ∧ Machine.commandOf p = .badCommand p)
  | .powerOn | .receiverReady | .linkGapError | .readStatus _ | .readChannel _ _ | .readEntryChannel _ _
  | .readEntrySequence _ _ | .readEntryNode _ _ | .readEntryPreset _ _ | .readEntryPart _ _ | .enableChannel _ _
  | .disableChannel _ _ | .releaseChannel _ _ | .readAlarms _ _ | .injectReadback _ _ _ _ | .seqRun _ | .seqStop _
  | .applyPreset _ _ _ | .abortPreset _ | .flushOutput _ | .slewBypassOn _ | .slewBypassOff _ | .storeSave _
  | .storeClear _ | .restart _ | .saveEraseEnd | .saveProgramEnd _ | .clearEnd | .transmitEnd | .grant
  | .fieldGapExpiry | .strobe | .fbsyAsserted | .fbsyReleased | .heldTimeout | .busyTimeoutExpiry
  | .responseTimeoutExpiry | .readingReceived _ | .stepTimerExpiry _ | .spacingTimerExpiry | .cycleTimerExpiry
  | .silenceTimerExpiry | .presetSpacingExpiry | .frxIdle => true

end Sys2Proof
end

