-- ==== Sys2Proof/Decode.lean ====
section
/-! DEFINITION. The decoder over the rows of spec/opcode_table.json that give bits: no row gives any. -/

namespace Sys2Proof

/-- The command that a word spells by the table's bits.  Every row of spec/opcode_table.json has an empty "fields" list and no
"fixed" bits, so no word spells a command. -/
def decodeTableWord (_nbits _w : Nat) : Option Instr := none

end Sys2Proof
end

