-- ==== Sys2Proof/Machine/State.lean ====
section
/-! DEFINITION. The state of the SP24, as plain data: one field of State per block of 00_scope.md that holds state, and the queue
of waiting commands.  Reset values: the state after POWER_ON with an empty profile store. -/

namespace Sys2Proof.Machine

/-! ### Common values -/

/-- A timer (00_scope.md, "Times").  `running us` is running for a programmed length of `us` µs; `stopped` is the stopped or
unused state of the timers that have one. -/
inductive Timer where
  | stopped | running (us : Nat) | expired
deriving DecidableEq, Repr

/-- A protective action, lowest to highest (R129). -/
inductive Action where
  | none | hold | safe | isolate
deriving DecidableEq, Repr

/-- The drive states of a channel (R19, Section 2.2). -/
inductive DriveState where
  | off | moving | steady | stopping | isolating | isolated | releasing
deriving DecidableEq, Repr

/-- A set of alarm classes (Section 9.7, class set). -/
structure ClassSet where
  trk     : Bool
  high    : Bool
  low     : Bool
  noresp  : Bool
  silence : Bool
deriving DecidableEq, Repr

/-- The empty set of alarm classes. -/
def ClassSet.empty : ClassSet := ⟨false, false, false, false, false⟩

/-- The five link rates (R158). -/
inductive LinkRate where
  | r115200 | r460800 | r1000000 | r2000000 | r4000000
deriving DecidableEq, Repr

/-! ### CT: the channel table (R1 to R5) -/

/-- How a slew step is shaped (R4). -/
inductive SlewShape where
  | linear | eased
deriving DecidableEq, Repr

/-- When a readback is reported (R5, R126). -/
inductive ReportMode where
  | off | every | delta
deriving DecidableEq, Repr

/-- A channel entry, with the fields and ranges of Section 1.1.  `offset` is two's complement; `slewInterval` is in ms. -/
structure ChannelEntry where
  node         : Node
  point        : Point
  startEnabled : Bool
  gainN        : Code
  offset       : BitVec 16
  codeMin      : Code
  codeMax      : Code
  safeCode     : Code
  slewStep     : Fin 4096
  slewInterval : Fin 251
  slewShape    : SlewShape
  settleCount  : Fin 8
  window       : Fin 4096
  limitLo      : Code
  limitHi      : Code
  hysteresis   : Fin 256
  faultLimit   : Fin 8
  norespLimit  : Fin 8
  actTrack     : Action
  actLimit     : Action
  actNoresp    : Action
  actSilence   : Action
  reportMode   : ReportMode
  deadband     : Fin 4096
  alarmMask    : ClassSet
deriving DecidableEq, Repr

/-- The default entry (Section 1.1). -/
def ChannelEntry.default : ChannelEntry where
  node := 0
  point := 0
  startEnabled := false
  gainN := 32768
  offset := 0
  codeMin := 0
  codeMax := 65535
  safeCode := 0
  slewStep := 0
  slewInterval := 10
  slewShape := .linear
  settleCount := 0
  window := 4095
  limitLo := 0
  limitHi := 65535
  hysteresis := 0
  faultLimit := 2
  norespLimit := 2
  actTrack := .none
  actLimit := .none
  actNoresp := .none
  actSilence := .none
  reportMode := .off
  deadband := 0
  alarmMask := .empty

/-! ### The channel context: DRV, RBM and ACT (R19, R106, R129, R149) -/

/-- The runtime record of a channel. -/
structure ChannelCtx where
  drive        : DriveState
  target       : Option Code
  goal         : Option Code
  sent         : Option Code
  applied      : Option Code
  clamped      : Bool
  stepTimer    : Timer
  settleLeft   : Fin 8
  presetTaken  : Bool
  valueFaults  : Nat
  norespFaults : Nat
  active       : ClassSet
  latched      : ClassSet
  injectValue  : Code
  injectLeft   : Fin 16
  lastReading  : Option Code
  lastReported : Option Code
  action       : Action
deriving DecidableEq, Repr

/-- The reset values of a context (R19, R16, R106, R129, R149), which it also takes at every arrival at OFF (R41). -/
def ChannelCtx.reset : ChannelCtx where
  drive := .off
  target := Option.none
  goal := Option.none
  sent := Option.none
  applied := Option.none
  clamped := false
  stepTimer := .expired
  settleLeft := 0
  presetTaken := false
  valueFaults := 0
  norespFaults := 0
  active := .empty
  latched := .empty
  injectValue := 0
  injectLeft := 0
  lastReading := Option.none
  lastReported := Option.none
  action := .none

/-! ### OQ: the output queue (R45, R46) -/

/-- A WRITE entry (R45). -/
structure WriteEntry where
  channel   : ChannelNo
  code      : Code
  reconnect : Bool
deriving DecidableEq, Repr

/-- The output queue: the isolate section ahead of the write section, each oldest first (R46). -/
structure OutputQueue where
  isolates : List ChannelNo
  writes   : List WriteEntry
deriving DecidableEq, Repr

/-! ### FBC: the field bus controller (R62, R65, R67, R79) -/

/-- The kind of a transaction with what the granted request carries (R67, R69).  ZERO's node stands in the record. -/
inductive FieldJob where
  | write (channel : ChannelNo) (code : Code) (reconnect : Bool)
  | isolate (channel : ChannelNo)
  | poll (channel : ChannelNo)
  | zero
deriving DecidableEq, Repr

/-- The transaction record (R67).  The timeouts are in units of 0.1 ms, as in the part config record. -/
structure Transaction where
  job             : FieldJob
  node            : Node
  point           : Option Point
  stale           : Bool
  busyTimeout     : Fin 256
  responseTimeout : Fin 256
deriving DecidableEq, Repr

/-- The FBC states (R67), with the record in the states that have one and the running gap in GAP (µs). -/
inductive FbcState where
  | idle
  | gap (us : Nat)
  | held (t : Transaction)
  | sending (t : Transaction)
  | awaitBusy (t : Transaction)
  | awaitRelease (t : Transaction)
  | awaitReply (t : Transaction)
deriving DecidableEq, Repr

/-- The FRX receiver (R65): the next byte begins a frame, or bytes are discarded until an idle interval, after a malformed frame and
after a complete one. -/
inductive FrxState where
  | taking | discarding
deriving DecidableEq, Repr

/-- The field bus controller and its pins. -/
structure FieldBus where
  state      : FbcState
  passOver   : Fin 5
  fbsy       : Bool
  fstbPulses : Nat
  frx        : FrxState
deriving DecidableEq, Repr

/-! ### PSQ: the poll sequencer (R86, R89) -/

/-- A slot of the sequence record (R86). -/
inductive Slot where
  | empty | channel (c : ChannelNo) | zero (n : Node)
deriving DecidableEq, Repr

/-- The mode of a walk (R86). -/
inductive SeqMode where
  | once | cyclic
deriving DecidableEq, Repr

/-- The sequence record (R86): slot_spacing in units of 0.1 ms, cycle_period in ms. -/
structure SequenceRecord where
  startIndex  : Fin 16
  stopIndex   : Fin 16
  mode        : SeqMode
  slotSpacing : Fin 256
  cyclePeriod : Fin 1001
  autostart   : Bool
  slots       : Vector Slot 16
deriving DecidableEq, Repr

/-- The default record (R86). -/
def SequenceRecord.default : SequenceRecord where
  startIndex := 0
  stopIndex := 0
  mode := .once
  slotSpacing := 10
  cyclePeriod := 0
  autostart := false
  slots := Vector.replicate 16 .empty

/-- The sequencer states (R89). -/
inductive SeqState where
  | idle | running | seqStopping | waiting
deriving DecidableEq, Repr

/-- The progress of the current slot's poll (R89). -/
inductive SlotPoll where
  | none | pending | inFlight | done
deriving DecidableEq, Repr

/-- The request in the poll slot (R89), a POLL with its stale mark (R92). -/
inductive PollRequest where
  | poll (channel : ChannelNo) (stale : Bool)
  | zero (node : Node)
deriving DecidableEq, Repr

/-- The poll sequencer. -/
structure Sequencer where
  record        : SequenceRecord
  state         : SeqState
  currentIndex  : Fin 16
  slotPoll      : SlotPoll
  spacingTimer  : Timer
  cycleTimer    : Timer
  periodElapsed : Bool
  pollSlot      : Option PollRequest
deriving DecidableEq, Repr

/-- The reset values of R89 beside a sequence record. -/
def Sequencer.reset (record : SequenceRecord) : Sequencer where
  record := record
  state := .idle
  currentIndex := 0
  slotPoll := .none
  spacingTimer := .expired
  cycleTimer := .stopped
  periodElapsed := false
  pollSlot := Option.none

/-! ### NT: the node table (R99) -/

/-- Whether a node has been answering (R99). -/
inductive AnswerState where
  | unknown | answering | silent
deriving DecidableEq, Repr

/-- The state of a node's zero correction (R99). -/
inductive ZeroState where
  | none | valid | rejected
deriving DecidableEq, Repr

/-- A node record (R99). -/
structure NodeRecord where
  expected    : Bool
  answerState : AnswerState
  nodeFaults  : Fin 4
  zeroState   : ZeroState
  zeroCorr    : Int
deriving DecidableEq, Repr

/-- The record of a node after reset, beside its expected flag (R99). -/
def NodeRecord.reset (expected : Bool) : NodeRecord := ⟨expected, .unknown, 0, .none, 0⟩

/-! ### ACT: the silence record (R140) -/

/-- The silence state (R140). -/
inductive SilenceState where
  | quiet | silent
deriving DecidableEq, Repr

/-- The silence record. -/
structure SilenceRecord where
  state : SilenceState
  timer : Timer
deriving DecidableEq, Repr

/-! ### PRU: the preset unit (R147, R149) -/

/-- A preset entry (R147). -/
structure PresetEntry where
  valid   : Bool
  channel : ChannelNo
  data    : Code
deriving DecidableEq, Repr

/-- The default preset entry (R147). -/
def PresetEntry.default : PresetEntry := ⟨false, 0, 0⟩

/-- The states of an apply (R149). -/
inductive PresetState where
  | idle | applying
deriving DecidableEq, Repr

/-- The preset list and the apply record. -/
structure PresetUnit where
  list         : Vector PresetEntry 64
  state        : PresetState
  nextIndex    : Fin 65
  remaining    : Fin 65
  spacingTimer : Timer
deriving DecidableEq, Repr

/-- The reset values of R149 beside a preset list. -/
def PresetUnit.reset (list : Vector PresetEntry 64) : PresetUnit := ⟨list, .idle, 0, 0, .stopped⟩

/-! ### RQ: the report queue (R174) -/

/-- The completion codes (R165). -/
inductive Completion where
  | ok | started | badCommand | badIndex | badValue | chActive | chOff | busy | storeBusy | conflict
  | nodeUnknown | notIsolated | alarmActive
deriving DecidableEq, Repr

/-- What the end of a RESPONSE's transmission does: nothing, the link-rate switch of R171, or the restart of R173. -/
inductive AtEnd where
  | nothing | switchRate (rate : LinkRate) | restart
deriving DecidableEq, Repr

/-- The part events (R176). -/
inductive PartEvent where
  | linkError | nodeLost (n : Node) | nodeBack (n : Node) | silenceOn | silenceOff | seqDone | seqOverrun
  | presetDone | presetAborted | storeDone | storeFailed
deriving DecidableEq, Repr

/-- An entry of the report queue (R174).  The three sets of a PART entry are held as the words of its payload (Section 9.7). -/
inductive Report where
  | readback (channel : ChannelNo) (value : Code) (clamped : Bool) (drive : DriveState) (action : Action)
  | alarm (channel : ChannelNo) (active latched : ClassSet) (action : Action) (changes : Nat)
  | part (events : BitVec 16) (lost back : BitVec 32)
  | response (tag command : Byte) (completion : Completion) (data : List Byte) (atEnd : AtEnd)
deriving DecidableEq, Repr

/-! ### CLP: the controller link port (R159, R161, R158, R177) -/

/-- The receiver states (R159). -/
inductive RxState where
  | hunt | ready | inFrame
deriving DecidableEq, Repr

/-- The controller link port; `tx` is the entry being transmitted, none when the transmitter is idle; the link-error set is
held as its byte of Section 9.7. -/
structure LinkPort where
  rx         : RxState
  linkErrors : Byte
  rate       : LinkRate
  tx         : Option Report
deriving DecidableEq, Repr

/-! ### MGX: the management executor (R163, R166, R170, R173) -/

/-- The part config record (R170), in the units of Section 9.7. -/
structure PartConfig where
  silenceTimeout  : Fin 256
  highWater       : Fin 24
  fieldGap        : Fin 256
  busyTimeout     : Fin 256
  responseTimeout : Fin 256
  linkRate        : LinkRate
  presetSpacing   : Fin 256
deriving DecidableEq, Repr

/-- The defaults of R170. -/
def PartConfig.default : PartConfig := ⟨0, 16, 20, 20, 10, .r115200, 0⟩

/-- The part modes (R166). -/
inductive PartMode where
  | loading | run
deriving DecidableEq, Repr

/-- The latched flags of the part status record and its last discarded channel (R166). -/
structure Latches where
  setpointDiscard   : Bool
  strayReading      : Bool
  busHeld           : Bool
  reportsSuppressed : Bool
  seqOverrun        : Bool
  lastDiscarded     : Byte
deriving DecidableEq, Repr

/-- The latches after reset and after READ_STATUS (R166, R167). -/
def Latches.clear : Latches := ⟨false, false, false, false, false, 255⟩

/-- The management executor: queue, pending restart, mode with the start-up step reached, slew bypass, latches, part config. -/
structure Executor where
  queue          : List (List Byte)
  restartPending : Bool
  mode           : PartMode
  startUpStep    : Fin 26
  slewBypass     : Bool
  latches        : Latches
  config         : PartConfig
deriving DecidableEq, Repr

/-- The reset values of MGX beside a part config record. -/
def Executor.reset (config : PartConfig) : Executor := ⟨[], false, .loading, 0, false, .clear, config⟩

/-! ### PST: the profile store (R179, R180) -/

/-- The five tables of the profile image (R179). -/
structure Tables where
  channels : Vector ChannelEntry 24
  sequence : SequenceRecord
  expected : Vector Bool 30
  presets  : Vector PresetEntry 64
  config   : PartConfig
deriving DecidableEq, Repr

/-- The defaults of all tables (R183). -/
def Tables.default : Tables where
  channels := Vector.replicate 24 .default
  sequence := .default
  expected := Vector.replicate 30 false
  presets := Vector.replicate 64 .default
  config := .default

/-- The two phases of a save (R180). -/
inductive SavePhase where
  | erase | program
deriving DecidableEq, Repr

/-- The store states (R179); SAVING with its phase and the copy taken at its start (R180). -/
inductive StoreState where
  | empty | valid | saving (phase : SavePhase) (copy : Tables) | clearing
deriving DecidableEq, Repr

/-- The nonvolatile profile image (R179): its contents, none when erased, and its check value, none when erased. -/
structure Image where
  contents : Option Tables
  check    : Option (BitVec 32)
deriving DecidableEq, Repr

/-- An erased image. -/
def Image.erased : Image := ⟨Option.none, Option.none⟩

/-- The profile store. -/
structure Store where
  state : StoreState
  image : Image
deriving DecidableEq, Repr

/-! ### The whole part -/

/-- The state of the SP24, by the short names of 00_scope.md.  `pending` is the queue of waiting commands, first in, first out;
`freeCount` is the model's own counter for the free value `Config.transmissionBeganFirst`; `sph` holds the pairs of the SETPOINT
frame being taken that SPH has not yet applied (R14, R18). -/
structure State where
  pending   : List Instr
  clp       : LinkPort
  ct        : Vector ChannelEntry 24
  ctx       : Vector ChannelCtx 24
  oq        : OutputQueue
  fbc       : FieldBus
  psq       : Sequencer
  nt        : Vector NodeRecord 30
  act       : SilenceRecord
  pru       : PresetUnit
  rq        : List Report
  mgx       : Executor
  pst       : Store
  freeCount : Nat
  sph       : List SetpointPair
deriving DecidableEq, Repr

/-- A reason to stop with a fault.  It has no constructor: the spec names no event at which the part stops, so no command of
the model faults (nothing raises it; safe, since nothing is cut short). -/
inductive Fault where
deriving DecidableEq, Repr

/-- A reason to have no meaning for a command. -/
inductive Refusal where
  /-- Raised only by an arm of `exec` whose command has no meaning yet (safe: the model stops there).  No arm raises it now. -/
  | notModelled (mnemonic : String)
deriving DecidableEq, Repr

/-- The part right after power-on with an empty profile store: every block at its reset value (R183), in LOADING with the
default tables loaded; FBSY released and an erased image (DESIGN CHOICE, notes/assumptions/7.md and 8.md). -/
def State.reset : State where
  pending := []
  clp := ⟨.hunt, 0, .r115200, Option.none⟩
  ct := Tables.default.channels
  ctx := Vector.replicate 24 .reset
  oq := ⟨[], []⟩
  fbc := ⟨.idle, 0, false, 0, .taking⟩
  psq := .reset .default
  nt := Vector.replicate 30 (.reset false)
  act := ⟨.quiet, .stopped⟩
  pru := .reset Tables.default.presets
  rq := []
  mgx := .reset .default
  pst := ⟨.empty, .erased⟩
  freeCount := 0
  sph := []

end Sys2Proof.Machine
end

