-- ==== Sys2Proof/Machine/Flags.lean ====
section
/-! DEFINITION. Every flag computation: alarm class sets and the effective action (R123, R130), the value conditions, activation
and clearing of RBM (R112 to R118), the NORESP count (R120), the link-error set (R161) and the part event words (R176). -/

namespace Sys2Proof.Machine

/-! ### Sets of alarm classes -/

/-- The classes in either set. -/
def ClassSet.union (a b : ClassSet) : ClassSet :=
  ⟨a.trk || b.trk, a.high || b.high, a.low || b.low, a.noresp || b.noresp, a.silence || b.silence⟩

/-- The classes in both sets. -/
def ClassSet.inter (a b : ClassSet) : ClassSet :=
  ⟨a.trk && b.trk, a.high && b.high, a.low && b.low, a.noresp && b.noresp, a.silence && b.silence⟩

/-- The classes of `a` that are not in `b`. -/
def ClassSet.minus (a b : ClassSet) : ClassSet :=
  ⟨a.trk && !b.trk, a.high && !b.high, a.low && !b.low, a.noresp && !b.noresp, a.silence && !b.silence⟩

/-- The set holds a class. -/
def ClassSet.nonempty (a : ClassSet) : Bool := a.trk || a.high || a.low || a.noresp || a.silence

/-- Every class of `a` is in `b`. -/
def ClassSet.subset (a b : ClassSet) : Bool := !(a.minus b).nonempty

/-- A class of the mask has joined or left between the two sets (R137). -/
def ClassSet.touches (before after mask : ClassSet) : Bool :=
  (((before.minus after).union (after.minus before)).inter mask).nonempty

/-- The three value classes (R43). -/
def ClassSet.valueClasses : ClassSet := ⟨true, true, true, false, false⟩

/-! ### The effective action -/

/-- The order of the actions, lowest to highest (R129). -/
def Action.rank : Action → Nat
  | .none => 0
  | .hold => 1
  | .safe => 2
  | .isolate => 3

/-- The higher of two actions. -/
def Action.max (a b : Action) : Action := if a.rank ≤ b.rank then b else a

/-- The action that a class contributes when it is active. -/
def Action.when (active : Bool) (a : Action) : Action := if active then a else .none

/-- The effective action: the highest action mapped from the active classes (R130). -/
def effectiveAction (e : ChannelEntry) (active : ClassSet) : Action :=
  (((Action.when active.trk e.actTrack).max (Action.when (active.high || active.low) e.actLimit)).max
    (Action.when active.noresp e.actNoresp)).max (Action.when active.silence e.actSilence)

/-! ### The value conditions of RBM -/

/-- The absolute difference of two codes (R27, R113). -/
def distance (a b : Code) : Nat := if a.toNat ≤ b.toNat then b.toNat - a.toNat else a.toNat - b.toNat

/-- HIGH holds (R112). -/
def highHolds (e : ChannelEntry) (value : Code) : Bool := decide (e.limitHi.toNat < value.toNat)

/-- LOW holds (R112). -/
def lowHolds (e : ChannelEntry) (value : Code) : Bool := decide (value.toNat < e.limitLo.toNat)

/-- TRK holds (R113): the applied code is present and the value is further than window from it. -/
def trkHolds (e : ChannelEntry) (applied : Option Code) (value : Code) : Bool :=
  match applied with
  | some a => decide (e.window.val < distance value a)
  | none => false

/-- The clearing bound of HIGH is met (R117). -/
def highClears (e : ChannelEntry) (value : Code) : Bool := decide (value.toNat ≤ e.limitHi.toNat - e.hysteresis.val)

/-- The clearing bound of LOW is met (R117). -/
def lowClears (e : ChannelEntry) (value : Code) : Bool := decide (Nat.min 65535 (e.limitLo.toNat + e.hysteresis.val) ≤ value.toNat)

/-- The clearing bound of TRK is met (R117). -/
def trkClears (e : ChannelEntry) (applied : Option Code) (value : Code) : Bool :=
  match applied with
  | some a => decide (distance value a ≤ e.window.val - e.hysteresis.val)
  | none => false

/-- TRK is suppressed on a reading (R114), among the states in which the value classes are tested. -/
def trkSuppressed (x : ChannelCtx) : Bool := x.drive == .moving || x.settleLeft != 0

/-- The value conditions that hold on a reading taken in MOVING or STEADY, suppressed TRK left out (R112 to R114). -/
def conditions (e : ChannelEntry) (x : ChannelCtx) (value : Code) : ClassSet where
  trk := !trkSuppressed x && trkHolds e x.applied value
  high := highHolds e value
  low := lowHolds e value
  noresp := false
  silence := false

/-- The classes whose clearing bound is met on such a reading (R117). -/
def clearings (e : ChannelEntry) (x : ChannelCtx) (value : Code) : ClassSet where
  trk := !trkSuppressed x && trkClears e x.applied value
  high := highClears e value
  low := lowClears e value
  noresp := false
  silence := false

/-- value_faults after a reading on which `c` are the conditions that hold (R115). -/
def nextValueFaults (e : ChannelEntry) (before : Nat) (c : ClassSet) : Nat :=
  if c.nonempty then Nat.min (before + 1) (e.faultLimit.val + 1) else 0

/-- The active set after a reading (R116, R117): activation when the counter stands at fault_limit+1, and clearing. -/
def evaluatedActive (e : ChannelEntry) (x : ChannelCtx) (value : Code) (active : ClassSet) : ClassSet :=
  let c := conditions e x value
  let joined := if nextValueFaults e x.valueFaults c = e.faultLimit.val + 1 then active.union c else active
  joined.minus (clearings e x value)

/-- noresp_faults after a failure (R120). -/
def nextNorespFaults (e : ChannelEntry) (before : Nat) : Nat := Nat.min (before + 1) (e.norespLimit.val + 1)

/-- The active set after a failure (R120). -/
def norespFailureActive (e : ChannelEntry) (x : ChannelCtx) : ClassSet :=
  if nextNorespFaults e x.norespFaults = e.norespLimit.val + 1 then { x.active with noresp := true } else x.active

/-! ### The link-error set and the part events -/

/-- The bit of an error in the link-error set (Section 9.7). -/
def LinkError.bit : LinkError → Byte
  | .byteFraming => 0x01
  | .check => 0x02
  | .length => 0x04
  | .kind => 0x08
  | .gap => 0x10
  | .overrun => 0x20

/-- The bit of a part event in the event set (Section 9.7). -/
def PartEvent.bit : PartEvent → BitVec 16
  | .linkError => 0x0001
  | .nodeLost _ => 0x0002
  | .nodeBack _ => 0x0004
  | .silenceOn => 0x0008
  | .silenceOff => 0x0010
  | .seqDone => 0x0020
  | .seqOverrun => 0x0040
  | .presetDone => 0x0080
  | .presetAborted => 0x0100
  | .storeDone => 0x0200
  | .storeFailed => 0x0400

/-- The bit of a node in a node set: bit n for node n, 1 to 30 (Section 9.7). -/
def nodeBit (n : Node) : BitVec 32 := 1#32 <<< (n.val + 1)

/-- The lost-node bit that a part event adds (R176). -/
def PartEvent.lost : PartEvent → BitVec 32
  | .nodeLost n => nodeBit n
  | _ => 0

/-- The back-node bit that a part event adds (R176). -/
def PartEvent.back : PartEvent → BitVec 32
  | .nodeBack n => nodeBit n
  | _ => 0

end Sys2Proof.Machine
end

