-- ==== Sys2Proof/Machine/Operands.lean ====
section
/-! DEFINITION. Every operand form: the record layouts of Section 9.7 with the value checks of R7, R87, R100, R148, R169 and R170,
the payloads of the reports and responses, calibration (R13), the slew step (R27) and the zero correction (R108). -/

namespace Sys2Proof.Machine

/-! ### Numbers carried in bytes -/

/-- A number below `n`, if it is one. -/
def finOf? (n x : Nat) : Option (Fin n) := if h : x < n then some ⟨x, h⟩ else none

/-- The channel that a byte names, 0 to 23. -/
def channelOf? (b : Byte) : Option ChannelNo := finOf? 24 b.toNat

/-- The node that a byte names, 1 to 30. -/
def nodeOf? (b : Byte) : Option Node := if b = 0 then none else finOf? 30 (b.toNat - 1)

/-- The address byte of a node. -/
def nodeByte (n : Node) : Byte := byteOf (n.val + 1)

/-- The byte of a channel. -/
def channelByte (c : ChannelNo) : Byte := byteOf c.val

/-! ### Common encodings (Section 9.7) -/

/-- Class set, one byte. -/
def ClassSet.byte (s : ClassSet) : Byte :=
  byteOf (s.trk.toNat + 2 * s.high.toNat + 4 * s.low.toNat + 8 * s.noresp.toNat + 16 * s.silence.toNat)

/-- The class set that a byte codes: bits 5 to 7 zero (R7). -/
def classSetOf? (b : Byte) : Option ClassSet :=
  if b.toNat < 32 then some ⟨b.getLsbD 0, b.getLsbD 1, b.getLsbD 2, b.getLsbD 3, b.getLsbD 4⟩ else none

/-- Action code. -/
def Action.code : Action → Nat
  | .none => 0
  | .hold => 1
  | .safe => 2
  | .isolate => 3

/-- The action of a two-bit code. -/
def actionOf (n : Nat) : Action :=
  match n % 4 with
  | 0 => .none
  | 1 => .hold
  | 2 => .safe
  | _ => .isolate

/-- Drive state code. -/
def DriveState.code : DriveState → Byte
  | .off => 0
  | .moving => 1
  | .steady => 2
  | .stopping => 3
  | .isolating => 4
  | .isolated => 5
  | .releasing => 6

/-- report_mode code. -/
def ReportMode.code : ReportMode → Byte
  | .off => 0
  | .every => 1
  | .delta => 2

/-- The report_mode that a byte codes. -/
def reportModeOf? (b : Byte) : Option ReportMode :=
  if b = 0 then some .off else if b = 1 then some .every else if b = 2 then some .delta else none

/-- link_rate code. -/
def LinkRate.code : LinkRate → Byte
  | .r115200 => 0
  | .r460800 => 1
  | .r1000000 => 2
  | .r2000000 => 3
  | .r4000000 => 4

/-- The link rate that a byte codes. -/
def linkRateOf? (b : Byte) : Option LinkRate :=
  if b = 0 then some .r115200 else if b = 1 then some .r460800 else if b = 2 then some .r1000000
  else if b = 3 then some .r2000000 else if b = 4 then some .r4000000 else none

/-! ### The channel entry (31 bytes) -/

/-- The relations and lower bounds of R7 that the field types do not hold by themselves. -/
def ChannelEntry.ok (e : ChannelEntry) : Bool :=
  e.gainN != 0 && e.slewInterval != 0 && decide (e.codeMin.toNat ≤ e.safeCode.toNat) &&
  decide (e.safeCode.toNat ≤ e.codeMax.toNat) && decide (e.limitLo.toNat ≤ e.limitHi.toNat)

/-- The action byte of a channel entry. -/
def ChannelEntry.actions (e : ChannelEntry) : Byte :=
  byteOf (e.actTrack.code + 4 * e.actLimit.code + 16 * e.actNoresp.code + 64 * e.actSilence.code)

/-- The layout of a channel entry. -/
def ChannelEntry.bytes (e : ChannelEntry) : List Byte :=
  [nodeByte e.node, byteOf e.point.val, byteOf (e.startEnabled.toNat + 2 * (e.slewShape == .eased).toNat)] ++
  bytes16 e.gainN ++ bytes16 e.offset ++ bytes16 e.codeMin ++ bytes16 e.codeMax ++ bytes16 e.safeCode ++
  bytes16 (BitVec.ofNat 16 e.slewStep.val) ++ [byteOf e.slewInterval.val, byteOf e.settleCount.val] ++
  bytes16 (BitVec.ofNat 16 e.window.val) ++ bytes16 e.limitLo ++ bytes16 e.limitHi ++
  [byteOf e.hysteresis.val, byteOf e.faultLimit.val, byteOf e.norespLimit.val, e.actions, e.reportMode.code] ++
  bytes16 (BitVec.ofNat 16 e.deadband.val) ++ [e.alarmMask.byte]

/-- The channel entry that 31 bytes carry, if every value check of R7 and R169 passes. -/
def channelEntryOf? (r : List Byte) : Option ChannelEntry :=
  match r with
  | [b0, b1, b2, b3, b4, b5, b6, b7, b8, b9, b10, b11, b12, b13, b14, b15, b16, b17, b18, b19, b20, b21, b22, b23, b24,
     b25, b26, b27, b28, b29, b30] => do
    let node ← nodeOf? b0
    let point ← finOf? 4 b1.toNat
    let mode ← finOf? 4 b2.toNat
    let slewStep ← finOf? 4096 (be16 b13 b14).toNat
    let slewInterval ← finOf? 251 b15.toNat
    let settleCount ← finOf? 8 b16.toNat
    let window ← finOf? 4096 (be16 b17 b18).toNat
    let faultLimit ← finOf? 8 b24.toNat
    let norespLimit ← finOf? 8 b25.toNat
    let reportMode ← reportModeOf? b27
    let deadband ← finOf? 4096 (be16 b28 b29).toNat
    let alarmMask ← classSetOf? b30
    let e : ChannelEntry :=
      { node, point, startEnabled := mode.val % 2 == 1, gainN := be16 b3 b4, offset := be16 b5 b6, codeMin := be16 b7 b8,
        codeMax := be16 b9 b10, safeCode := be16 b11 b12, slewStep, slewInterval,
        slewShape := if mode.val / 2 = 1 then .eased else .linear, settleCount, window, limitLo := be16 b19 b20,
        limitHi := be16 b21 b22, hysteresis := b23.toFin, faultLimit, norespLimit, actTrack := actionOf b26.toNat,
        actLimit := actionOf (b26.toNat / 4), actNoresp := actionOf (b26.toNat / 16), actSilence := actionOf (b26.toNat / 64),
        reportMode, deadband, alarmMask }
    if e.ok then some e else none
  | _ => none

/-! ### The sequence record (39 bytes) -/

/-- The two bytes of a slot. -/
def Slot.bytes : Slot → List Byte
  | .empty => [0, 0]
  | .channel c => [1, channelByte c]
  | .zero n => [2, nodeByte n]

/-- The slot that two bytes carry (R86, R87). -/
def slotOf? (kind contents : Byte) : Option Slot :=
  if kind = 0 then (if contents = 0 then some .empty else none)
  else if kind = 1 then (channelOf? contents).map .channel
  else if kind = 2 then (nodeOf? contents).map .zero
  else none

/-- The slots that a list of byte pairs carries. -/
def slotsOf? : List Byte → Option (List Slot)
  | [] => some []
  | kind :: contents :: rest => do
    let s ← slotOf? kind contents
    let more ← slotsOf? rest
    some (s :: more)
  | [_] => none

/-- A list of `n` things as a vector. -/
def vectorOf? {α : Type} (n : Nat) (l : List α) : Option (Vector α n) :=
  if h : l.length = n then some ⟨l.toArray, by simpa using h⟩ else none

/-- The layout of the sequence record. -/
def SequenceRecord.bytes (r : SequenceRecord) : List Byte :=
  [byteOf r.startIndex.val, byteOf r.stopIndex.val, if r.mode = .cyclic then 1 else 0, byteOf r.slotSpacing.val] ++
  bytes16 (BitVec.ofNat 16 r.cyclePeriod.val) ++ [yesNo r.autostart] ++ r.slots.toList.flatMap Slot.bytes

/-- The sequence record that 39 bytes carry, if every value check of R87 and R169 passes. -/
def sequenceRecordOf? (r : List Byte) : Option SequenceRecord :=
  match r with
  | b0 :: b1 :: b2 :: b3 :: b4 :: b5 :: b6 :: rest => do
    let startIndex ← finOf? 16 b0.toNat
    let stopIndex ← finOf? 16 b1.toNat
    let cyclic ← yesNo? b2
    let cyclePeriod ← finOf? 1001 (be16 b4 b5).toNat
    let autostart ← yesNo? b6
    let list ← slotsOf? rest
    let slots ← vectorOf? 16 list
    if b3 = 0 then none
    else some { startIndex, stopIndex, mode := if cyclic then .cyclic else .once, slotSpacing := b3.toFin, cyclePeriod,
                autostart, slots }
  | _ => none

/-! ### The node record (6 bytes) -/

/-- answer_state code. -/
def AnswerState.code : AnswerState → Byte
  | .unknown => 0
  | .answering => 1
  | .silent => 2

/-- zero_state code. -/
def ZeroState.code : ZeroState → Byte
  | .none => 0
  | .valid => 1
  | .rejected => 2

/-- The layout of a node record. -/
def NodeRecord.bytes (r : NodeRecord) : List Byte :=
  [yesNo r.expected, r.answerState.code, byteOf r.nodeFaults.val, r.zeroState.code] ++ bytes16 (BitVec.ofInt 16 r.zeroCorr)

/-- The expected flag that a carried node record sets; its other bytes are ignored (R100, R169). -/
def expectedOf? (r : List Byte) : Option Bool :=
  match r with
  | b :: _ => yesNo? b
  | [] => none

/-! ### The preset entry (4 bytes) -/

/-- The layout of a preset entry. -/
def PresetEntry.bytes (p : PresetEntry) : List Byte := [yesNo p.valid, channelByte p.channel] ++ bytes16 p.data

/-- The preset entry that four bytes carry, if the value checks of R148 pass. -/
def presetEntryOf? (r : List Byte) : Option PresetEntry :=
  match r with
  | [b0, b1, b2, b3] => do
    let valid ← yesNo? b0
    let channel ← channelOf? b1
    some ⟨valid, channel, be16 b2 b3⟩
  | _ => none

/-! ### The part config record (7 bytes) -/

/-- The layout of the part config record. -/
def PartConfig.bytes (p : PartConfig) : List Byte :=
  [byteOf p.silenceTimeout.val, byteOf p.highWater.val, byteOf p.fieldGap.val, byteOf p.busyTimeout.val,
   byteOf p.responseTimeout.val, p.linkRate.code, byteOf p.presetSpacing.val]

/-- The ranges of R170 that the field types do not hold by themselves. -/
def PartConfig.ok (p : PartConfig) : Bool :=
  decide (4 ≤ p.highWater.val) && decide (5 ≤ p.fieldGap.val) && p.busyTimeout != 0 && p.responseTimeout != 0

/-- The part config record that seven bytes carry, if the value checks of R170 pass. -/
def partConfigOf? (r : List Byte) : Option PartConfig :=
  match r with
  | [b0, b1, b2, b3, b4, b5, b6] => do
    let highWater ← finOf? 24 b1.toNat
    let linkRate ← linkRateOf? b5
    let p : PartConfig :=
      { silenceTimeout := b0.toFin, highWater, fieldGap := b2.toFin, busyTimeout := b3.toFin, responseTimeout := b4.toFin,
        linkRate, presetSpacing := b6.toFin }
    if p.ok then some p else none
  | _ => none

/-! ### The profile image (R179) -/

/-- The contents of the image, in the order of its check value. -/
def Tables.bytes (t : Tables) : List Byte :=
  t.channels.toList.flatMap ChannelEntry.bytes ++ t.sequence.bytes ++ t.expected.toList.map yesNo ++
  t.presets.toList.flatMap PresetEntry.bytes ++ t.config.bytes

/-- The check value of the image (R179). -/
def Tables.check (t : Tables) : BitVec 32 := crc32 t.bytes

/-- The tables of an image whose computed check matches the saved check value (R183). -/
def Image.load? (i : Image) : Option Tables :=
  match i.contents, i.check with
  | some t, some c => if t.check = c then some t else none
  | _, _ => none

/-! ### Reports and responses (Section 9.7) -/

/-- Completion value (R165). -/
def Completion.code : Completion → Byte
  | .ok => 0x00
  | .started => 0x01
  | .badCommand => 0x10
  | .badIndex => 0x11
  | .badValue => 0x12
  | .chActive => 0x20
  | .chOff => 0x21
  | .busy => 0x22
  | .storeBusy => 0x23
  | .conflict => 0x24
  | .nodeUnknown => 0x25
  | .notIsolated => 0x26
  | .alarmActive => 0x27

/-- KIND of an upstream frame (R177). -/
def Report.kind : Report → Byte
  | .readback .. => 0xA1
  | .alarm .. => 0xA2
  | .part .. => 0xA3
  | .response .. => 0xAC

/-- The payload of an upstream frame. -/
def Report.payload : Report → List Byte
  | .readback c v clamped d a => [channelByte c] ++ bytes16 v ++ [d.code, byteOf a.code, yesNo clamped]
  | .alarm c active latched a n => [channelByte c, active.byte, latched.byte, byteOf a.code, byteOf n]
  | .part ev lost back => bytes16 ev ++ bytes32 lost ++ bytes32 back
  | .response tag cmd completion data _ => [tag, cmd, completion.code] ++ data

/-- The upstream frame of an entry (R177). -/
def Report.frame (r : Report) : List Byte := linkFrame r.kind r.payload

/-- A field that may be absent: two bytes, 0 when it is absent (R168). -/
def optBytes (c : Option Code) : List Byte := bytes16 (c.getD 0)

/-- The READ_CHANNEL data of a channel context. -/
def ChannelCtx.bytes (c : ChannelNo) (x : ChannelCtx) : List Byte :=
  [channelByte c, x.drive.code,
   byteOf (x.target.isSome.toNat + 2 * x.goal.isSome.toNat + 4 * x.sent.isSome.toNat + 8 * x.applied.isSome.toNat +
     16 * x.lastReading.isSome.toNat + 32 * x.lastReported.isSome.toNat + 64 * x.clamped.toNat + 128 * x.presetTaken.toNat)] ++
  optBytes x.target ++ optBytes x.goal ++ optBytes x.sent ++ optBytes x.applied ++
  [byteOf (x.settleLeft.val + (if x.stepTimer matches .running _ then 8 else 0) + 16 * x.injectLeft.val),
   byteOf x.valueFaults, byteOf x.norespFaults, x.active.byte, x.latched.byte, byteOf x.action.code] ++
  bytes16 x.injectValue ++ optBytes x.lastReading ++ optBytes x.lastReported

/-- The two READ_ALARMS bytes of a channel: latched; active and action. -/
def ChannelCtx.alarmBytes (x : ChannelCtx) : List Byte := [x.latched.byte, byteOf (x.active.byte.toNat + 32 * x.action.code)]

/-- The latched flags byte of READ_STATUS. -/
def Latches.byte (l : Latches) : Byte :=
  byteOf (l.setpointDiscard.toNat + 2 * l.strayReading.toNat + 4 * l.busHeld.toNat + 8 * l.reportsSuppressed.toNat +
    16 * l.seqOverrun.toNat)

/-- Sequencer state code. -/
def SeqState.code : SeqState → Byte
  | .idle => 0
  | .running => 1
  | .seqStopping => 2
  | .waiting => 3

/-- Store state code. -/
def StoreState.code : StoreState → Byte
  | .empty => 0
  | .valid => 1
  | .saving _ _ => 2
  | .clearing => 3

/-- The number of entries queued in both sections (R60). -/
def OutputQueue.occupancy (q : OutputQueue) : Nat := q.isolates.length + q.writes.length

/-- The part status record as READ_STATUS returns it (R166, R167). -/
def State.statusBytes (s : State) : List Byte :=
  [0x53, 0x24, 1, if s.mgx.mode = .run then 1 else 0, s.psq.state.code, if s.pru.state = .applying then 1 else 0,
   s.pst.state.code, byteOf ((s.act.state == .silent).toNat + 2 * s.mgx.slewBypass.toNat), byteOf s.oq.occupancy,
   byteOf s.rq.length, s.mgx.latches.byte, s.mgx.latches.lastDiscarded, s.clp.linkErrors]

/-! ### Field frames sent by the part (R63) -/

/-- The frame of a transaction. -/
def Transaction.frame (t : Transaction) : List Byte :=
  let point : Byte := match t.point with
    | some p => byteOf p.val
    | none => 0
  match t.job with
  | .write _ code reconnect => fieldFrame ([0x31, nodeByte t.node, point] ++ bytes16 code ++ [yesNo reconnect])
  | .isolate _ => fieldFrame [0x32, nodeByte t.node, point]
  | .poll _ => fieldFrame [0x33, nodeByte t.node, point]
  | .zero => fieldFrame [0x34, nodeByte t.node]

/-! ### Arithmetic on codes -/

/-- Calibration of a setpoint: the code and whether it was limited (R13). -/
def calibrate (e : ChannelEntry) (data : Code) : Code × Bool :=
  let intermediate : Int := ((data.toNat * e.gainN.toNat / 32768 : Nat) : Int) + e.offset.toInt
  if intermediate < e.codeMin.toNat then (e.codeMin, true)
  else if (e.codeMax.toNat : Int) < intermediate then (e.codeMax, true)
  else (BitVec.ofInt 16 intermediate, false)

/-- The size of a slew step over a distance (R27): slew_step 0 or bypass goes straight to the goal. -/
def stepSize (e : ChannelEntry) (bypass : Bool) (dist : Nat) : Nat :=
  if e.slewStep = 0 ∨ bypass then dist
  else match e.slewShape with
    | .linear => Nat.min e.slewStep.val dist
    | .eased => Nat.min e.slewStep.val ((dist + 1) / 2)

/-- The code of a step from the current code toward the goal (R27). -/
def stepCode (e : ChannelEntry) (bypass : Bool) (current goal : Code) : Code :=
  let d := stepSize e bypass (distance current goal)
  if current.toNat ≤ goal.toNat then BitVec.ofNat 16 (current.toNat + d) else BitVec.ofNat 16 (current.toNat - d)

/-- The corrected reading (R108): raw − zero_corr limited to 0 to 65535 when the zero is VALID. -/
def correctedReading (n : NodeRecord) (raw : Code) : Code :=
  match n.zeroState with
  | .valid =>
    let v : Int := (raw.toNat : Int) - n.zeroCorr
    if v < 0 then 0 else if 65535 < v then 65535 else BitVec.ofInt 16 v
  | .none | .rejected => raw

/-- A node record after an OK ZERO with this raw value (R104). -/
def NodeRecord.zeroed (n : NodeRecord) (raw : Code) : NodeRecord :=
  let zero : Int := (raw.toNat : Int) - 32768
  if -2048 ≤ zero ∧ zero ≤ 2047 then { n with zeroState := .valid, zeroCorr := zero }
  else { n with zeroState := .rejected }

/-- One less, staying at 0. -/
def decr {n : Nat} (i : Fin n) : Fin n := ⟨i.val - 1, by omega⟩

end Sys2Proof.Machine
end

