-- ==== Sys2Proof/Machine/Ops.lean ====
section
/-! DEFINITION. The shared operations on the state: one home for each register, the placements and removals of the output queue
(Chapter 3), the offers to the report queue (R174 to R177), latches and link errors, timer starts. -/

namespace Sys2Proof.Machine

/-! ### Registers -/

/-- The channel numbers in ascending order. -/
def channelsAscending : List ChannelNo := List.finRange 24

/-- The context of a channel. -/
def State.ch (s : State) (c : ChannelNo) : ChannelCtx := s.ctx[c.val]

/-- The entry of a channel. -/
def State.entry (s : State) (c : ChannelNo) : ChannelEntry := s.ct[c.val]

/-- The record of a node. -/
def State.node (s : State) (n : Node) : NodeRecord := s.nt[n.val]

/-- Changes the context of one channel. -/
def State.modCh (s : State) (c : ChannelNo) (f : ChannelCtx → ChannelCtx) : State :=
  { s with ctx := s.ctx.set c.val (f (s.ch c)) }

/-- Changes the context of every channel. -/
def State.modAll (s : State) (f : ChannelCtx → ChannelCtx) : State :=
  { s with ctx := Vector.ofFn fun c => f (s.ch c) }

/-- Writes the entry of a channel. -/
def State.setEntry (s : State) (c : ChannelNo) (e : ChannelEntry) : State := { s with ct := s.ct.set c.val e }

/-- Changes the record of a node. -/
def State.modNode (s : State) (n : Node) (f : NodeRecord → NodeRecord) : State :=
  { s with nt := s.nt.set n.val (f (s.node n)) }

/-- Replaces the queue of waiting commands. -/
def State.setPending (s : State) (x : List Instr) : State := { s with pending := x }
/-- Replaces the link port. -/
def State.setClp (s : State) (x : LinkPort) : State := { s with clp := x }
/-- Replaces the output queue. -/
def State.setOq (s : State) (x : OutputQueue) : State := { s with oq := x }
/-- Replaces the field bus controller. -/
def State.setFbc (s : State) (x : FieldBus) : State := { s with fbc := x }
/-- Replaces the poll sequencer. -/
def State.setPsq (s : State) (x : Sequencer) : State := { s with psq := x }
/-- Replaces the silence record. -/
def State.setAct (s : State) (x : SilenceRecord) : State := { s with act := x }
/-- Replaces the preset unit. -/
def State.setPru (s : State) (x : PresetUnit) : State := { s with pru := x }
/-- Replaces the report queue. -/
def State.setRq (s : State) (x : List Report) : State := { s with rq := x }
/-- Replaces the management executor. -/
def State.setMgx (s : State) (x : Executor) : State := { s with mgx := x }
/-- Replaces the profile store. -/
def State.setPst (s : State) (x : Store) : State := { s with pst := x }
/-- Replaces the free-value counter. -/
def State.setFreeCount (s : State) (x : Nat) : State := { s with freeCount := x }

/-- Replaces the pairs of the frame being taken that wait. -/
def State.setSph (s : State) (x : List SetpointPair) : State := { s with sph := x }

/-- The safe code of a channel. -/
def State.safeCode (s : State) (c : ChannelNo) : Code := (s.entry c).safeCode

/-- The applied code, or the safe code if it is absent (R32, R44, R56, R58). -/
def State.rollbackCode (s : State) (c : ChannelNo) : Code := (s.ch c).applied.getD (s.safeCode c)

/-! ### Timers: each start takes the programmed length as it stands (µs) -/

/-- The length of a slew_interval. -/
def ChannelEntry.stepLength (e : ChannelEntry) : Nat := e.slewInterval.val * 1000

/-- The silence timer as a start leaves it: running in RUN with silence_timeout other than 0, otherwise stopped (R141). -/
def State.silenceStart (s : State) : Timer :=
  if s.mgx.mode = .run ∧ s.mgx.config.silenceTimeout ≠ 0 then .running (s.mgx.config.silenceTimeout.val * 10000) else .stopped

/-- A timer is running. -/
def Timer.isRunning : Timer → Bool
  | .running _ => true
  | .stopped | .expired => false

/-! ### The record of the transaction in flight (R67) -/

/-- The record in a state that has one. -/
def FbcState.record? : FbcState → Option Transaction
  | .idle | .gap _ => none
  | .held t | .sending t | .awaitBusy t | .awaitRelease t | .awaitReply t => some t

/-- Changes the record in a state that has one. -/
def FbcState.mapRecord (f : Transaction → Transaction) : FbcState → FbcState
  | .idle => .idle
  | .gap us => .gap us
  | .held t => .held (f t)
  | .sending t => .sending (f t)
  | .awaitBusy t => .awaitBusy (f t)
  | .awaitRelease t => .awaitRelease (f t)
  | .awaitReply t => .awaitReply (f t)

/-- The channel of a transaction; none for a ZERO (R67). -/
def FieldJob.channel? : FieldJob → Option ChannelNo
  | .write c _ _ | .isolate c | .poll c => some c
  | .zero => none

/-- The transaction is a WRITE of the channel. -/
def FieldJob.isWriteOf (c : ChannelNo) : FieldJob → Bool
  | .write d _ _ => d == c
  | .isolate _ | .poll _ | .zero => false

/-- The transaction is an ISOLATE of the channel. -/
def FieldJob.isIsolateOf (c : ChannelNo) : FieldJob → Bool
  | .isolate d => d == c
  | .write _ _ _ | .poll _ | .zero => false

/-- A WRITE of the channel that is not stale is in flight (R22, R56). -/
def State.writeInFlight (s : State) (c : ChannelNo) : Bool :=
  match s.fbc.state.record? with
  | some t => t.job.isWriteOf c && !t.stale
  | none => false

/-- An ISOLATE of the channel that is not stale is in flight (R22, R42). -/
def State.isolateInFlight (s : State) (c : ChannelNo) : Bool :=
  match s.fbc.state.record? with
  | some t => t.job.isIsolateOf c && !t.stale
  | none => false

/-! ### The output queue -/

/-- The WRITE entry of a channel. -/
def WriteEntry.isOf (c : ChannelNo) (w : WriteEntry) : Bool := w.channel == c

/-- The channel has a WRITE queued. -/
def OutputQueue.hasWrite (q : OutputQueue) (c : ChannelNo) : Bool := q.writes.any (WriteEntry.isOf c)

/-- The channel has an ISOLATE queued. -/
def OutputQueue.hasIsolate (q : OutputQueue) (c : ChannelNo) : Bool := q.isolates.contains c

/-- The channel has an entry queued. -/
def OutputQueue.hasEntry (q : OutputQueue) (c : ChannelNo) : Bool := q.hasIsolate c || q.hasWrite c

/-- The outcome of coalescing on one entry: the new code, and yes if either flag is yes (R47). -/
def WriteEntry.coalesce (c : ChannelNo) (code : Code) (reconnect : Bool) (w : WriteEntry) : WriteEntry :=
  if w.channel = c then { w with code := code, reconnect := w.reconnect || reconnect } else w

/-- A WRITE placement (R47): dropped behind an ISOLATE, coalesced into a queued WRITE, otherwise new at the tail. -/
def OutputQueue.placeWrite (q : OutputQueue) (c : ChannelNo) (code : Code) (reconnect : Bool) : OutputQueue :=
  if q.hasIsolate c then q
  else if q.hasWrite c then { q with writes := q.writes.map (WriteEntry.coalesce c code reconnect) }
  else { q with writes := q.writes ++ [⟨c, code, reconnect⟩] }

/-- An ISOLATE placement (R49): a queued WRITE is displaced, a queued ISOLATE stays, otherwise new at the tail. -/
def OutputQueue.placeIsolate (q : OutputQueue) (c : ChannelNo) : OutputQueue :=
  { isolates := if q.hasIsolate c then q.isolates else q.isolates ++ [c]
    writes := q.writes.filter fun w => !w.isOf c }

/-- Removes the entry of a channel (R55, R56). -/
def OutputQueue.remove (q : OutputQueue) (c : ChannelNo) : OutputQueue :=
  { isolates := q.isolates.filter fun d => d != c
    writes := q.writes.filter fun w => !w.isOf c }

/-- Places a WRITE of a channel. -/
def State.placeWrite (s : State) (c : ChannelNo) (code : Code) (reconnect : Bool) : State :=
  s.setOq (s.oq.placeWrite c code reconnect)

/-- Places an ISOLATE of a channel. -/
def State.placeIsolate (s : State) (c : ChannelNo) : State := s.setOq (s.oq.placeIsolate c)

/-- Removes the queued entry of a channel. -/
def State.removeEntry (s : State) (c : ChannelNo) : State := s.setOq (s.oq.remove c)

/-- An entry of the channel is queued, or is in flight and not stale (R22, R26). -/
def State.hasWork (s : State) (c : ChannelNo) : Bool := s.oq.hasEntry c || s.writeInFlight c || s.isolateInFlight c

/-! ### The report queue -/

/-- The transmitter begins the head entry when it is idle and the queue holds one (R177). -/
def State.beginTransmission (s : State) : State :=
  match s.clp.tx, s.rq with
  | none, r :: rest => { s with clp := { s.clp with tx := some r }, rq := rest }
  | _, _ => s

/-- The meeting of R178, rows 1 and 2, inside one event: the offer concerns the entry at the head of an otherwise idle
transmitter, which this same event placed.  Whether its transmission has begun is the free value (notes/assumptions/3.md). -/
def State.meetTransmission (s : State) (concerns : Report → Bool) : State :=
  if s.clp.tx = none ∧ (s.rq.head?.any concerns) = true then
    (if Config.transmissionBeganFirst s.freeCount then s.beginTransmission else s).setFreeCount (s.freeCount + 1)
  else s

/-- The ALARM entry of a channel. -/
def Report.isAlarmOf (c : ChannelNo) : Report → Bool
  | .alarm d _ _ _ _ => d == c
  | .readback .. | .part .. | .response .. => false

/-- The PART entry. -/
def Report.isPart : Report → Bool
  | .part .. => true
  | .readback .. | .alarm .. | .response .. => false

/-- An ALARM entry of the channel takes the new sets and action and counts one more change, saturating at 255 (R176). -/
def Report.rewriteAlarm (c : ChannelNo) (active latched : ClassSet) (action : Action) : Report → Report
  | .alarm d a l x n => if d = c then .alarm d active latched action (Nat.min 255 (n + 1)) else .alarm d a l x n
  | r => r

/-- The PART entry takes one more event (R176). -/
def Report.addEvent (e : PartEvent) : Report → Report
  | .part ev lost back => .part (ev ||| e.bit) (lost ||| e.lost) (back ||| e.back)
  | r => r

/-- Where an ALARM offer lands: rewritten in place, or new at the tail (R176). -/
def alarmPlaced (rq : List Report) (c : ChannelNo) (active latched : ClassSet) (action : Action) : List Report :=
  if rq.any (Report.isAlarmOf c) then rq.map (Report.rewriteAlarm c active latched action)
  else rq ++ [.alarm c active latched action 1]

/-- Where a PART offer lands: added to the waiting entry, or new at the tail (R176). -/
def partPlaced (rq : List Report) (e : PartEvent) : List Report :=
  if rq.any Report.isPart then rq.map (Report.addEvent e) else rq ++ [.part e.bit e.lost e.back]

/-- Offers an ALARM report (R176). -/
def State.offerAlarm (s : State) (c : ChannelNo) (active latched : ClassSet) (action : Action) : State :=
  let s := s.meetTransmission (Report.isAlarmOf c)
  s.setRq (alarmPlaced s.rq c active latched action)

/-- Offers a part event (R176). -/
def State.offerPart (s : State) (e : PartEvent) : State :=
  let s := s.meetTransmission Report.isPart
  s.setRq (partPlaced s.rq e)

/-- A READBACK offer is admitted (R175). -/
def State.admitsReadback (s : State) : Bool := decide (s.rq.length < s.mgx.config.highWater.val)

/-- Places a report at the tail (R175). -/
def State.placeReport (s : State) (r : Report) : State := s.setRq (s.rq ++ [r])

/-- Places the RESPONSE of a command (R165). -/
def State.respondThen (s : State) (tag cmd : Byte) (completion : Completion) (data : List Byte) (atEnd : AtEnd) : State :=
  s.placeReport (.response tag cmd completion data atEnd)

/-- Places the RESPONSE of a command whose transmission's end does nothing more. -/
def State.respond (s : State) (tag cmd : Byte) (completion : Completion) (data : List Byte) : State :=
  s.respondThen tag cmd completion data .nothing

/-! ### Latches and link errors -/

/-- Changes the latched flags. -/
def State.latch (s : State) (f : Latches → Latches) : State := s.setMgx { s.mgx with latches := f s.mgx.latches }

/-- Latches SETPOINT_DISCARD with the last discarded channel (R11, R12). -/
def State.latchDiscard (s : State) (channel : Byte) : State :=
  s.latch fun l => { l with setpointDiscard := true, lastDiscarded := channel }

/-- A receive error: the receiver enters HUNT, and a new member of the link-error set offers LINK_ERROR (R159 to R161). -/
def State.linkError (s : State) (e : LinkError) : State :=
  let s := s.setClp { s.clp with rx := .hunt }
  if s.clp.linkErrors &&& e.bit = 0 then
    (s.setClp { s.clp with linkErrors := s.clp.linkErrors ||| e.bit }).offerPart .linkError
  else s

/-! ### The outputs -/

/-- The frame being transmitted on TXD (R177). -/
def State.txd (s : State) : Option (List Byte) := s.clp.tx.map Report.frame

/-- The frame being sent on FTX (R62, R71). -/
def State.ftx (s : State) : Option (List Byte) :=
  match s.fbc.state with
  | .sending t => some t.frame
  | .idle | .gap _ | .held _ | .awaitBusy _ | .awaitRelease _ | .awaitReply _ => none

/-! ### The two shapes of an event -/

/-- The end of an event: the state is the next one, and an idle transmitter begins the head of the report queue (R177). -/
def State.done (s : State) : Host.Outcome State Fault Refusal := .next s.beginTransmission

/-- An event that is not due changes nothing (notes/assumptions/2.md). -/
def State.event (s : State) (due : Bool) (effect : State → State) : Host.Outcome State Fault Refusal :=
  if due then (effect s).done else .next s

/-- MGX may take a frame (R164). -/
def State.mgxMayTake (s : State) : Bool :=
  decide (s.mgx.mode = .run) && decide (s.rq.length < s.mgx.config.highWater.val) && !s.mgx.restartPending

/-- MGX takes this command: it may take a frame, and the frame at the head of the management queue carries it (R164, R165). -/
def State.mgxTakes (s : State) (i : Instr) : Bool :=
  s.mgxMayTake && match s.mgx.queue with
    | p :: _ => decide (commandOf p = i)
    | [] => false

/-- The frame at the head leaves the management queue (R164). -/
def State.dropFrame (s : State) : State := s.setMgx { s.mgx with queue := s.mgx.queue.tail }

/-- The event of a management command: taken whole when MGX takes it (R164). -/
def State.takeCommand (s : State) (i : Instr) (effect : State → State) : Host.Outcome State Fault Refusal :=
  s.event (s.mgxTakes i) fun s => effect s.dropFrame

end Sys2Proof.Machine
end

