-- ==== Sys2Proof/Machine/Drive.lean ====
section
/-! DEFINITION. DRV, the channel drive engines (Chapter 2): the step test and the slew engine, goal selection, isolation, field
results, arrival at OFF, enabling, disabling and releasing. -/

namespace Sys2Proof.Machine

/-- The output is at goal (R26). -/
def ChannelCtx.atGoal (x : ChannelCtx) : Bool := x.applied.isSome && x.applied == x.sent && x.sent == x.goal

/-- Steps of the channel go straight to the goal: slew_step 0 or slew bypass (R25, R27). -/
def State.unslewed (s : State) (c : ChannelNo) : Bool := (s.entry c).slewStep == 0 || s.mgx.slewBypass

/-- Places a WRITE for the engine, sets sent_code to its code and starts the step timer (R27, R36, R44). -/
def State.issueWrite (s : State) (c : ChannelNo) (code : Code) (reconnect : Bool) : State :=
  (s.placeWrite c code reconnect).modCh c fun x =>
    { x with sent := some code, stepTimer := .running (s.entry c).stepLength }

/-- A step (R27).  In MOVING the goal and the sent code are present; without them there is no step to compute.  The step is R27's also
after a failed write under HOLD, where it may fall short of the held code (the model's choice beside R132, notes/assumptions/24.md). -/
def State.issueStep (s : State) (c : ChannelNo) : State :=
  match (s.ch c).sent, (s.ch c).goal with
  | some current, some goal => s.issueWrite c (stepCode (s.entry c) s.mgx.slewBypass current goal) false
  | _, _ => s

/-- The output is at goal: the channel becomes STEADY and settle_left is set (R28). -/
def State.enterSteady (s : State) (c : ChannelNo) : State :=
  s.modCh c fun x => { x with drive := .steady, settleLeft := (s.entry c).settleCount }

/-- The step test, made in MOVING (R26). -/
def State.stepTest (s : State) (c : ChannelNo) : State :=
  if (s.ch c).drive ≠ .moving then s
  else if s.hasWork c then s
  else if (s.ch c).atGoal then s.enterSteady c
  else if (s.ch c).stepTimer.isRunning then s
  else s.issueStep c

/-- A queued WRITE is coalesced to a new code and sent_code is set to it (R25, R30, R48). -/
def State.coalesce (s : State) (c : ChannelNo) (code : Code) : State :=
  (s.placeWrite c code false).modCh c fun x => { x with sent := some code }

/-- A WRITE of the channel that is not stale has been granted and its frame has not gone out (R69, R70): a request that comes now may
have fallen together with its grant (R53; the bound at the strobe: notes/assumptions/23.md). -/
def State.writeJustGranted (s : State) (c : ChannelNo) : Bool :=
  match s.fbc.state with
  | .held t | .sending t => t.job.isWriteOf c && !t.stale
  | .idle | .gap _ | .awaitBusy _ | .awaitRelease _ | .awaitReply _ => false

/-- A request that would have coalesced finds its WRITE granted (R53, last paragraph): the WRITE in flight is not touched, and the sent
code names the request's code, which was never sent. -/
def State.meetGrant (s : State) (c : ChannelNo) (code : Code) : State :=
  if s.writeJustGranted c then s.modCh c fun x => { x with sent := some code } else s

/-- A new code is requested for the channel's WRITE: coalesced while it is queued (R25, R30, R48), or after its grant (R53). -/
def State.requestCode (s : State) (c : ChannelNo) (code : Code) : State :=
  if s.oq.hasWrite c then s.coalesce c code else s.meetGrant c code

/-- The goal of an unslewed channel is requested for its WRITE (R25). -/
def State.coalesceToGoal (s : State) (c : ChannelNo) : State :=
  match (s.ch c).goal with
  | some code => if s.unslewed c then s.requestCode c code else s
  | none => s

/-- Sets the goal of a channel in MOVING or STEADY; a goal that takes a different value is a goal change (R25). -/
def State.setGoal (s : State) (c : ChannelNo) (goal : Option Code) : State :=
  if goal = (s.ch c).goal then s
  else
    ((s.modCh c fun x => { x with goal := goal, drive := if x.drive = .steady then .moving else x.drive }).coalesceToGoal c).stepTest c

/-- The goal under an effective action (R24); ISOLATE leaves it unchanged. -/
def State.goalUnder (s : State) (c : ChannelNo) (a : Action) : Option Code :=
  match a with
  | .none => (s.ch c).target
  | .hold => (s.ch c).sent
  | .safe => some (s.safeCode c)
  | .isolate => (s.ch c).goal

/-- Isolation begins: the queued WRITE is displaced by an ISOLATE and the channel becomes ISOLATING (R33, R49). -/
def State.beginIsolation (s : State) (c : ChannelNo) : State :=
  (s.placeIsolate c).modCh c fun x => { x with drive := .isolating }

/-- ACT tells the engine of a change of the effective action (R24, R33). -/
def State.actionChanged (s : State) (c : ChannelNo) (a : Action) : State :=
  match (s.ch c).drive with
  | .moving | .steady => if a = .isolate then s.beginIsolation c else s.setGoal c (s.goalUnder c a)
  | .releasing => if a = .isolate then s.beginIsolation c else s
  | .off | .stopping | .isolating | .isolated => s

/-- SPH tells the engine that the target has changed (R23). -/
def State.targetNotice (s : State) (c : ChannelNo) : State :=
  match (s.ch c).drive with
  | .moving | .steady => if (s.ch c).action = .none then s.setGoal c (s.ch c).target else s
  | .off | .stopping | .isolating | .isolated | .releasing => s

/-- The channel enters MOVING from a release, with the goal set from the effective action in force, and the step test follows
(R25, R43, R44). -/
def State.enterMoving (s : State) (c : ChannelNo) : State :=
  (s.modCh c fun x => { x with drive := .moving, goal := s.goalUnder c x.action }).stepTest c

/-! ### Arrival at OFF -/

/-- The in-flight transaction of a channel becomes stale (R75). -/
def Transaction.markStale (c : ChannelNo) (t : Transaction) : Transaction :=
  if t.job.channel? = some c then { t with stale := true } else t

/-- The waiting POLL of a channel is marked stale (R92). -/
def PollRequest.markStale (c : ChannelNo) : PollRequest → PollRequest
  | .poll d stale => .poll d (stale || d == c)
  | .zero n => .zero n

/-- The transaction in flight and the waiting poll of the channel are marked stale (R75, R92). -/
def State.markStale (s : State) (c : ChannelNo) : State :=
  (s.setFbc { s.fbc with state := s.fbc.state.mapRecord (Transaction.markStale c) }).setPsq
    { s.psq with pollSlot := s.psq.pollSlot.map (PollRequest.markStale c) }

/-- The channel reaches OFF (R41): its context takes the reset values, its transactions become stale (R75, R92), and an ALARM
report is offered if a masked class was active. -/
def State.reachOff (s : State) (c : ChannelNo) : State :=
  let masked := ((s.ch c).active.inter (s.entry c).alarmMask).nonempty
  let off := (s.modCh c fun _ => .reset).markStale c
  if masked then off.offerAlarm c .empty .empty .none else off

/-! ### Field results -/

/-- A WRITE result with OK sets the applied code to the code of the frame (R31). -/
def State.setApplied (s : State) (c : ChannelNo) (code : Code) : State := s.modCh c fun x => { x with applied := some code }

/-- The sent code is rolled back to the applied code, or to the safe code (R32, R56, R58). -/
def State.rollBack (s : State) (c : ChannelNo) : State := s.modCh c fun x => { x with sent := some (s.rollbackCode c) }

/-- The step timer is started (R29). -/
def State.startStepTimer (s : State) (c : ChannelNo) : State :=
  s.modCh c fun x => { x with stepTimer := .running (s.entry c).stepLength }

/-- The engine acts on a WRITE result with OK (R31). -/
def State.writeOk (s : State) (c : ChannelNo) (code : Code) (reconnect : Bool) : State :=
  let s := s.setApplied c code
  match (s.ch c).drive with
  | .moving => s.stepTest c
  | .releasing => if reconnect then s.enterMoving c else s
  | .off | .steady | .stopping | .isolating | .isolated => s

/-- The engine acts on a WRITE result with a failure (R32): the next step starts from the rolled-back sent code, under HOLD too
(notes/assumptions/24.md). -/
def State.writeFailed (s : State) (c : ChannelNo) (reconnect : Bool) : State :=
  let s := s.rollBack c
  match (s.ch c).drive with
  | .moving => s.stepTest c
  | .releasing => if reconnect then s.startStepTimer c else s
  | .off | .steady | .stopping | .isolating | .isolated => s

/-- The engine acts on an ISOLATE result (R33, R50). -/
def State.isolateResult (s : State) (c : ChannelNo) (success : Bool) : State :=
  if (s.ch c).drive = .isolating then
    (if success then s.modCh c fun x => { x with drive := .isolated } else s.placeIsolate c)
  else s

/-- A WRITE that completes in STOPPING is the channel's last write when no entry of the channel is queued behind it (R39, R40,
notes/assumptions/18.md). -/
def State.isLastWrite (s : State) (c : ChannelNo) : Bool := (s.ch c).drive == .stopping && !s.oq.hasEntry c

/-- A reconnecting write of the applied code, or of the safe code if it is absent (R44). -/
def State.issueReconnect (s : State) (c : ChannelNo) : State := s.issueWrite c (s.rollbackCode c) true

/-- The step timer of a channel has expired (R29): the step test in MOVING, the re-issue of the reconnecting write in RELEASING. -/
def State.stepTimerExpired (s : State) (c : ChannelNo) : State :=
  let s := s.modCh c fun x => { x with stepTimer := .expired }
  match (s.ch c).drive with
  | .moving => s.stepTest c
  | .releasing => if s.hasWork c then s else s.issueReconnect c
  | .off | .steady | .stopping | .isolating | .isolated => s

/-! ### Enabling, disabling, releasing -/

/-- Another channel that is not OFF has the same node and point in its entry (R35). -/
def State.mappingConflict (s : State) (c : ChannelNo) : Bool :=
  channelsAscending.any fun d =>
    d != c && (s.ch d).drive != .off && (s.entry d).node == (s.entry c).node && (s.entry d).point == (s.entry c).point

/-- The refusal of an enable, checks 2 to 4 of R35. -/
def State.enableRefusal (s : State) (c : ChannelNo) : Option Completion :=
  if (s.ch c).drive ≠ .off then some .chActive
  else if s.mappingConflict c then some .conflict
  else if !(s.node (s.entry c).node).expected then some .nodeUnknown
  else none

/-- Steps 1 to 3 of an enable (R36). -/
def State.startDriving (s : State) (c : ChannelNo) : State :=
  (s.modCh c fun x => { x with target := some (s.safeCode c), goal := some (s.safeCode c), clamped := false,
                               drive := .moving }).issueWrite c (s.safeCode c) true

/-- A disable of a driving channel (R39). -/
def State.beginStopping (s : State) (c : ChannelNo) : State :=
  (s.placeWrite c (s.safeCode c) ((s.ch c).drive == .releasing)).modCh c fun x =>
    { x with goal := some (s.safeCode c), sent := some (s.safeCode c), drive := .stopping }

/-- A disable of an isolated channel (R38). -/
def State.disableIsolated (s : State) (c : ChannelNo) : State := (s.removeEntry c).reachOff c

/-- The effect of an accepted DISABLE_CHANNEL by drive state (R37). -/
def State.disable (s : State) (c : ChannelNo) : State :=
  match (s.ch c).drive with
  | .isolating | .isolated => s.disableIsolated c
  | .moving | .steady | .releasing => s.beginStopping c
  | .off | .stopping => s

/-- The refusal of a release, checks 2 to 4 of R42. -/
def State.releaseRefusal (s : State) (c : ChannelNo) : Option Completion :=
  if (s.ch c).drive ≠ .isolating ∧ (s.ch c).drive ≠ .isolated then some .notIsolated
  else if s.isolateInFlight c then some .busy
  else if ((s.ch c).active.noresp && (s.entry c).actNoresp == .isolate) ||
          ((s.ch c).active.silence && (s.entry c).actSilence == .isolate) then some .alarmActive
  else none

/-- The engine acts on an accepted release, after the active set and the effective action have changed (R43, R44, R56). -/
def State.resumeDrive (s : State) (c : ChannelNo) : State :=
  match (s.ch c).drive with
  | .isolating =>
    let s := s.removeEntry c
    (if s.writeInFlight c then s else s.rollBack c).enterMoving c
  | .isolated => (s.issueReconnect c).modCh c fun x => { x with drive := .releasing }
  | .off | .moving | .steady | .stopping | .releasing => s

/-! ### FLUSH_OUTPUT and SLEW_BYPASS -/

/-- The effect of a flush on a channel whose WRITE was removed (R58). -/
def State.flushedChannel (s : State) (c : ChannelNo) : State :=
  match (s.ch c).drive with
  | .moving => (s.rollBack c).stepTest c
  | .releasing => (s.rollBack c).startStepTimer c
  | .stopping => s.reachOff c
  | .off | .steady | .isolating | .isolated => s

/-- The channels with a WRITE queued, in ascending order. -/
def State.channelsWithWrite (s : State) : List ChannelNo := channelsAscending.filter s.oq.hasWrite

/-- FLUSH_OUTPUT: every WRITE is removed, then each of their channels is acted on in ascending order (R57). -/
def State.flush (s : State) : State :=
  s.channelsWithWrite.foldl State.flushedChannel (s.setOq { s.oq with writes := [] })

/-- SLEW_BYPASS on, for one channel: the goal is requested for the WRITE of a MOVING channel (R30). -/
def State.bypassChannel (s : State) (c : ChannelNo) : State :=
  match (s.ch c).goal with
  | some code => if (s.ch c).drive = .moving then s.requestCode c code else s
  | none => s

/-- SLEW_BYPASS takes a new value (R30); the value already held changes nothing. -/
def State.setBypass (s : State) (on : Bool) : State :=
  if s.mgx.slewBypass = on then s
  else
    let s := s.setMgx { s.mgx with slewBypass := on }
    if on then channelsAscending.foldl State.bypassChannel s else s

end Sys2Proof.Machine
end

