-- ==== Sys2Proof/Machine/Actions.lean ====
section
/-! DEFINITION. ACT, the action unit (Chapter 7): changes of the active set, the effective action, ALARM offers, and the silence
record; and the setpoint handler SPH (Section 1.4). -/

namespace Sys2Proof.Machine

/-- The effective action is recomputed from the active set; a change is told to the drive engine (R131). -/
def State.recompute (s : State) (c : ChannelNo) : State :=
  let a := effectiveAction (s.entry c) (s.ch c).active
  if a = (s.ch c).action then s else (s.modCh c fun x => { x with action := a }).actionChanged c a

/-- The active set takes new members and loses others; joining classes are latched in the same event (R123). -/
def ChannelCtx.withActive (active : ClassSet) (x : ChannelCtx) : ChannelCtx :=
  { x with active := active, latched := x.latched.union (active.minus x.active) }

/-- An event changes the active set of a channel (R123, R124, R131, R137): the effective action is recomputed and an ALARM is
offered if a masked class has joined or left.  An event that leaves the set as it was is not a change. -/
def State.setActive (s : State) (c : ChannelNo) (active : ClassSet) : State :=
  let before := (s.ch c).active
  if active = before then s
  else
    let s := (s.modCh c (ChannelCtx.withActive active)).recompute c
    if before.touches active (s.entry c).alarmMask then
      s.offerAlarm c (s.ch c).active (s.ch c).latched (s.ch c).action
    else s

/-! ### Enable and release, with their changes of the active set -/

/-- An enable that has passed its checks (R36): SILENCE joins while the part is SILENT. -/
def State.enable (s : State) (c : ChannelNo) : State :=
  let s := s.startDriving c
  if s.act.state = .silent then s.setActive c { (s.ch c).active with silence := true } else s

/-- A release that has passed its checks (R43, R44). -/
def State.release (s : State) (c : ChannelNo) : State :=
  ((s.modCh c fun x => { x with valueFaults := 0 }).setActive c ((s.ch c).active.minus .valueClasses)).resumeDrive c

/-! ### Silence -/

/-- SILENCE joins one channel that is not OFF (R142). -/
def State.silenceJoins (s : State) (c : ChannelNo) : State :=
  if (s.ch c).drive = .off then s else s.setActive c { (s.ch c).active with silence := true }

/-- SILENCE leaves one channel (R143). -/
def State.silenceLeaves (s : State) (c : ChannelNo) : State := s.setActive c { (s.ch c).active with silence := false }

/-- The silence timer expires in QUIET (R142). -/
def State.silenceBegins (s : State) : State :=
  (channelsAscending.foldl State.silenceJoins (s.setAct ⟨.silent, .expired⟩)).offerPart .silenceOn

/-- The silence ends (R143, R144): QUIET, the timer started again if it may run, SILENCE leaves every channel. -/
def State.silenceEnds (s : State) : State :=
  (channelsAscending.foldl State.silenceLeaves (s.setAct ⟨.quiet, s.silenceStart⟩)).offerPart .silenceOff

/-- SPH tells ACT that a setpoint frame has been accepted (R10, R141, R143). -/
def State.setpointNotice (s : State) : State :=
  match s.act.state with
  | .quiet => s.setAct ⟨.quiet, s.silenceStart⟩
  | .silent => s.silenceEnds

/-- A part config write carries another silence_timeout (R144); `s` already holds the new record. -/
def State.silenceTimeoutWritten (s : State) : State :=
  match s.act.state with
  | .quiet => s.setAct ⟨.quiet, s.silenceStart⟩
  | .silent => if s.mgx.config.silenceTimeout = 0 then s.silenceEnds else s

/-! ### SPH: setpoint pairs -/

/-- A pair for this channel is not discarded (R11). -/
def DriveState.takesSetpoints : DriveState → Bool
  | .off | .stopping => false
  | .moving | .steady | .isolating | .isolated | .releasing => true

/-- A pair or a preset entry is calibrated and applied (R13, R14): target and clamped are set and the engine is told;
`takes` marks the channel as taken over (R154). -/
def State.applySetpoint (s : State) (c : ChannelNo) (data : Code) (takes : Bool) : State :=
  let (code, clamped) := calibrate (s.entry c) data
  (s.modCh c fun x => { x with target := some code, clamped := clamped, presetTaken := x.presetTaken || takes }).targetNotice c

/-- One pair of an accepted SETPOINT frame (R11, R13, R14, R154). -/
def State.takePair (s : State) (p : SetpointPair) : State :=
  match channelOf? p.channel with
  | none => s.latchDiscard p.channel
  | some c =>
    if (s.ch c).drive.takesSetpoints then s.applySetpoint c p.data (s.pru.state == .applying)
    else s.latchDiscard p.channel

/-- SPH applies the first of these pairs and those after it, in payload order, up to one before which another event is taken; that
one and the rest wait (R10, R14, R18). -/
def State.applyPairs (s : State) (pairs : List SetpointPair) : State :=
  match pairs with
  | [] => s
  | p :: rest => ((p :: rest.takeWhile fun q => !q.waits).foldl State.takePair s).setSph (rest.dropWhile fun q => !q.waits)

/-- A SETPOINT frame taken by SPH (R10), or discarded whole during LOADING (R12).  What waits of an earlier frame comes first. -/
def State.takeSetpoints (s : State) (pairs : List SetpointPair) : State :=
  match s.mgx.mode with
  | .loading => s.latchDiscard 255
  | .run => (s.sph.foldl State.takePair s).setpointNotice.applyPairs pairs

end Sys2Proof.Machine
end

