-- ==== Sys2Proof/Machine/Monitor.lean ====
section
/-! DEFINITION. RBM, the readback monitor (Chapter 6): taking a reading, its evaluation, the NORESP accounting, readback reports. -/

namespace Sys2Proof.Machine

/-- A failure of a channel's transaction is counted (R120). -/
def State.norespFailure (s : State) (c : ChannelNo) : State :=
  let active := norespFailureActive (s.entry c) (s.ch c)
  (s.modCh c fun x => { x with norespFaults := nextNorespFaults (s.entry c) x.norespFaults }).setActive c active

/-- A success of a channel's transaction is counted (R121). -/
def State.norespSuccess (s : State) (c : ChannelNo) : State :=
  (s.modCh c fun x => { x with norespFaults := 0 }).setActive c { (s.ch c).active with noresp := false }

/-- The NORESP accounting of a WRITE or ISOLATE result (R107). -/
def State.norespResult (s : State) (c : ChannelNo) (success : Bool) : State :=
  if success then s.norespSuccess c else s.norespFailure c

/-- The value used for an OK reading (R108, R109): the injected value, or the corrected reading. -/
def readingValue (x : ChannelCtx) (n : NodeRecord) (raw : Code) : Code :=
  if x.injectLeft = 0 then correctedReading n raw else x.injectValue

/-- The reading is taken (R109, R111): a substitution is consumed and last_reading is set. -/
def ChannelCtx.tookReading (value : Code) (x : ChannelCtx) : ChannelCtx :=
  { x with injectLeft := decr x.injectLeft, lastReading := some value }

/-- The value classes are tested on a reading in this drive state (R111). -/
def DriveState.evaluates : DriveState → Bool
  | .moving | .steady => true
  | .off | .stopping | .isolating | .isolated | .releasing => false

/-- A reading in this drive state is an evaluated reading, considered for a report (R111). -/
def DriveState.reportsReadings : DriveState → Bool
  | .moving | .steady | .isolating | .isolated | .releasing => true
  | .off | .stopping => false

/-- The counters after a reading that is evaluated in MOVING or STEADY: value_faults (R115), settle_left (R114). -/
def ChannelCtx.evaluated (e : ChannelEntry) (value : Code) (x : ChannelCtx) : ChannelCtx :=
  { x with valueFaults := nextValueFaults e x.valueFaults (conditions e x value)
           settleLeft := if x.drive = .steady then decr x.settleLeft else x.settleLeft }

/-- The counters and the reading of a channel after an OK POLL (R107, R111). -/
def ChannelCtx.afterReading (e : ChannelEntry) (value : Code) (x : ChannelCtx) : ChannelCtx :=
  let x := { x.tookReading value with norespFaults := 0 }
  if x.drive.evaluates then x.evaluated e value else x

/-- The active set of a channel after an OK POLL: NORESP is cleared, and the value classes are evaluated or frozen (R111,
R116, R117, R119, R121). -/
def activeAfterReading (e : ChannelEntry) (x : ChannelCtx) (value : Code) : ClassSet :=
  let cleared := { x.active with noresp := false }
  if x.drive.evaluates then evaluatedActive e x value cleared else cleared

/-- A READBACK report is due for an evaluated reading (R126). -/
def readbackDue (e : ChannelEntry) (x : ChannelCtx) (value : Code) : Bool :=
  match e.reportMode with
  | .off => false
  | .every => true
  | .delta => match x.lastReported with
    | none => true
    | some last => decide (e.deadband.val ≤ distance value last)

/-- A READBACK report is offered (R127, R175): admitted with last_reported set, or refused with REPORTS_SUPPRESSED latched. -/
def State.offerReadback (s : State) (c : ChannelNo) (value : Code) : State :=
  if s.admitsReadback then
    (s.placeReport (.readback c value (s.ch c).clamped (s.ch c).drive (s.ch c).action)).modCh c fun x =>
      { x with lastReported := some value }
  else s.latch fun l => { l with reportsSuppressed := true }

/-- RBM takes an OK POLL of a channel (R107): counts and reading, ACT told of the change, then the readback report.  The drive
state, applied code and settle_left used are those held when the completion is taken. -/
def State.pollReading (s : State) (c : ChannelNo) (node : Node) (raw : Code) : State :=
  let x := s.ch c
  let e := s.entry c
  let value := readingValue x (s.node node) raw
  let s := (s.modCh c (ChannelCtx.afterReading e value)).setActive c (activeAfterReading e x value)
  if x.drive.reportsReadings && readbackDue e x value then s.offerReadback c value else s

end Sys2Proof.Machine
end

