-- ==== Sys2Proof/Machine/Polling.lean ====
section
/-! DEFINITION. PSQ, the poll sequencer, and NT, the node table (Chapter 5): slots, walks and cycles; answer state and zero
correction. -/

namespace Sys2Proof.Machine

/-! ### The sequencer -/

/-- Changes the sequencer. -/
def State.modPsq (s : State) (f : Sequencer → Sequencer) : State := s.setPsq (f s.psq)

/-- The last slot of the range (R88). -/
def SequenceRecord.lastSlot (r : SequenceRecord) : Fin 16 := if r.startIndex ≤ r.stopIndex then r.stopIndex else r.startIndex

/-- The cycle timer is used: mode CYCLIC with cycle_period other than 0 (R90, R95). -/
def SequenceRecord.usesCycleTimer (r : SequenceRecord) : Bool := r.mode == .cyclic && r.cyclePeriod != 0

/-- The poll that a slot places at its start (R91). -/
def State.slotRequest (s : State) (slot : Slot) : Option PollRequest :=
  match slot with
  | .empty => none
  | .channel c => if (s.ch c).drive = .off then none else some (.poll c false)
  | .zero n => if (s.node n).expected then some (.zero n) else none

/-- The start of a slot (R91). -/
def State.startSlot (s : State) (i : Fin 16) : State :=
  let request := s.slotRequest s.psq.record.slots[i.val]
  s.modPsq fun q =>
    { q with currentIndex := i, spacingTimer := .running (q.record.slotSpacing.val * 100),
             slotPoll := if request.isSome then .pending else .none, pollSlot := request }

/-- The start of a walk or of a cycle (R90, R96). -/
def State.startCycle (s : State) : State :=
  (s.modPsq fun q =>
    { q with periodElapsed := false, state := .running,
             cycleTimer := if q.record.usesCycleTimer then .running (q.record.cyclePeriod.val * 1000) else .stopped }).startSlot
    s.psq.record.startIndex

/-- The walk ends at the end of its last slot in RUNNING (R94, R96). -/
def State.endWalk (s : State) : State :=
  match s.psq.record.mode with
  | .once => (s.modPsq fun q => { q with state := .idle, cycleTimer := .stopped }).offerPart .seqDone
  | .cyclic =>
    if s.psq.record.cyclePeriod = 0 then s.startCycle
    else if s.psq.periodElapsed then
      ((s.latch fun l => { l with seqOverrun := true }).offerPart .seqOverrun).startCycle
    else s.modPsq fun q => { q with state := .waiting }

/-- The slot after this one, in ascending order. -/
def nextSlot (i : Fin 16) : Fin 16 := i + 1

/-- The end of a slot (R93). -/
def State.endSlot (s : State) : State :=
  let s := s.modPsq fun q => { q with slotPoll := .none }
  match s.psq.state with
  | .running => if s.psq.currentIndex = s.psq.record.lastSlot then s.endWalk else s.startSlot (nextSlot s.psq.currentIndex)
  | .seqStopping => s.modPsq fun q => { q with state := .idle }
  | .idle | .waiting => s

/-- The slot ends when its spacing timer has expired and its poll is NONE or DONE (R93). -/
def State.endSlotIfDue (s : State) : State :=
  if s.psq.spacingTimer = .expired ∧ (s.psq.slotPoll = .none ∨ s.psq.slotPoll = .done) then s.endSlot else s

/-- FBC tells the sequencer the end of its poll (R92). -/
def State.pollEnded (s : State) : State := (s.modPsq fun q => { q with slotPoll := .done }).endSlotIfDue

/-- The spacing timer has expired (R93). -/
def State.spacingExpired (s : State) : State := (s.modPsq fun q => { q with spacingTimer := .expired }).endSlotIfDue

/-- The cycle timer has expired (R95). -/
def State.cycleExpired (s : State) : State :=
  let s := s.modPsq fun q => { q with cycleTimer := .expired }
  match s.psq.state with
  | .running => s.modPsq fun q => { q with periodElapsed := true }
  | .waiting => s.startCycle
  | .seqStopping | .idle => s

/-- A poll waiting in the poll slot is withdrawn, which sets the pass-over count to 0 (R92, R80). -/
def State.withdrawPoll (s : State) : State :=
  (s.modPsq fun q => { q with pollSlot := none, slotPoll := .none }).setFbc { s.fbc with passOver := 0 }

/-- SEQ_STOP (R97).  A withdrawal after the spacing timer has expired ends the slot in this event (R93,
notes/assumptions/14.md). -/
def State.stopSequence (s : State) : State :=
  match s.psq.state with
  | .running =>
    let s := s.modPsq fun q => { q with state := .seqStopping, cycleTimer := .stopped }
    if s.psq.slotPoll = .pending then s.withdrawPoll.endSlotIfDue else s
  | .waiting => s.modPsq fun q => { q with state := .idle, cycleTimer := .stopped }
  | .seqStopping | .idle => s

/-! ### The node table -/

/-- A node record after a success (R103). -/
def NodeRecord.success (n : NodeRecord) : NodeRecord := { n with nodeFaults := 0, answerState := .answering }

/-- node_faults after a failure, saturating at 3 (R103). -/
def nextNodeFaults (f : Fin 4) : Fin 4 := if f = 3 then 3 else f + 1

/-- A node record after a failure (R103). -/
def NodeRecord.failure (n : NodeRecord) : NodeRecord :=
  { n with nodeFaults := nextNodeFaults n.nodeFaults
           answerState := if nextNodeFaults n.nodeFaults = 3 then .silent else n.answerState }

/-- The part event of a change of the answer state (R103). -/
def answerEvent (n : Node) (before after : AnswerState) : Option PartEvent :=
  match before, after with
  | .answering, .silent => some (.nodeLost n)
  | .silent, .answering => some (.nodeBack n)
  | _, _ => none

/-- The result of a transaction is credited to its node (R102, R103). -/
def State.creditNode (s : State) (n : Node) (success : Bool) : State :=
  let before := (s.node n).answerState
  let s := s.modNode n (if success then NodeRecord.success else NodeRecord.failure)
  match answerEvent n before (s.node n).answerState with
  | some e => s.offerPart e
  | none => s

/-- An OK ZERO sets the node's zero correction (R104). -/
def State.zeroResult (s : State) (n : Node) (raw : Code) : State := s.modNode n fun r => r.zeroed raw

end Sys2Proof.Machine
end

