-- ==== Sys2Proof/Machine/FieldBus.lean ====
section
/-! DEFINITION. FBC, the field bus controller (Chapter 4): the arbiter, the start and the completion of a transaction, the
handshake, and the commands of the field bus family. -/

namespace Sys2Proof.Machine

/-! ### The arbiter and the start of a transaction -/

/-- The record of a WRITE, ISOLATE or POLL of a channel, filled from the channel entry and the part config (R69). -/
def State.channelTransaction (s : State) (job : FieldJob) (c : ChannelNo) (marked : Bool) : Transaction :=
  { job, node := (s.entry c).node, point := some (s.entry c).point, stale := marked || (s.ch c).drive == .off,
    busyTimeout := s.mgx.config.busyTimeout, responseTimeout := s.mgx.config.responseTimeout }

/-- The record of a ZERO of a node (R69); it is never stale (R75). -/
def State.zeroTransaction (s : State) (n : Node) : Transaction :=
  { job := .zero, node := n, point := none, stale := false, busyTimeout := s.mgx.config.busyTimeout,
    responseTimeout := s.mgx.config.responseTimeout }

/-- A transaction starts: FBSY is sampled, and FBC enters SENDING or HELD (R69). -/
def State.startTransaction (s : State) (t : Transaction) : State :=
  s.setFbc { s.fbc with state := if s.fbc.fbsy then .held t else .sending t }

/-- The head of the output queue is granted and leaves it (R51, R52, R69). -/
def State.grantQueue (s : State) : State :=
  match s.oq.isolates, s.oq.writes with
  | c :: rest, _ => (s.setOq { s.oq with isolates := rest }).startTransaction (s.channelTransaction (.isolate c) c false)
  | [], w :: rest =>
    (s.setOq { s.oq with writes := rest }).startTransaction
      (s.channelTransaction (.write w.channel w.code w.reconnect) w.channel false)
  | [], [] => s

/-- The poll slot is granted and empties (R69, R92). -/
def State.grantPoll (s : State) : State :=
  let granted := s.modPsq fun q => { q with pollSlot := none, slotPoll := .inFlight }
  match s.psq.pollSlot with
  | some (.poll c stale) => granted.startTransaction (s.channelTransaction (.poll c) c stale)
  | some (.zero n) => granted.startTransaction (s.zeroTransaction n)
  | none => s

/-- The output queue's request is pending (R51). -/
def State.queuePending (s : State) : Bool := !s.oq.isolates.isEmpty || !s.oq.writes.isEmpty

/-- The poll slot's request is pending (R79). -/
def State.pollPending (s : State) : Bool := s.psq.pollSlot.isSome

/-- Sets the pass-over count. -/
def State.setPassOver (s : State) (n : Fin 5) : State := s.setFbc { s.fbc with passOver := n }

/-- The arbiter grants one of the pending requests (R80). -/
def State.arbitrate (s : State) : State :=
  match s.queuePending, s.pollPending with
  | false, false => s
  | true, false => s.grantQueue
  | false, true => (s.setPassOver 0).grantPoll
  | true, true => if s.fbc.passOver = 4 then (s.setPassOver 0).grantPoll else (s.setPassOver (s.fbc.passOver + 1)).grantQueue

/-! ### Results and completion -/

/-- The results of a transaction (R76). -/
inductive FieldResult where
  | ok | value (raw : Code) | noNode | stuck | busHeld | noReply
deriving DecidableEq, Repr

/-- OK is a success; every other result is a failure (R76, R102). -/
def FieldResult.success : FieldResult → Bool
  | .ok | .value _ => true
  | .noNode | .stuck | .busHeld | .noReply => false

/-- A WRITE result of a channel (R31, R32, R40, R107): the engine acts, then RBM counts, unless it ended the stop. -/
def State.takeWrite (s : State) (c : ChannelNo) (code : Code) (reconnect success : Bool) : State :=
  if (s.ch c).drive = .off then s
  else if s.isLastWrite c then (if success then s.setApplied c code else s.rollBack c).reachOff c
  else (if success then s.writeOk c code reconnect else s.writeFailed c reconnect).norespResult c success

/-- An ISOLATE result of a channel (R33, R107). -/
def State.takeIsolate (s : State) (c : ChannelNo) (success : Bool) : State :=
  if (s.ch c).drive = .off then s else (s.isolateResult c success).norespResult c success

/-- RBM's share of a POLL result (R107, R111). -/
def State.monitorPoll (s : State) (c : ChannelNo) (node : Node) (r : FieldResult) : State :=
  match r with
  | .value raw => s.pollReading c node raw
  | .ok => s.norespSuccess c
  | .noNode | .stuck | .busHeld | .noReply => s.norespFailure c

/-- A POLL result of a channel: RBM's share, then the step test that a completion calls for (R26, R107, R111). -/
def State.takePoll (s : State) (c : ChannelNo) (node : Node) (r : FieldResult) : State :=
  if (s.ch c).drive = .off then s else (s.monitorPoll c node r).stepTest c

/-- The owners of the channel's or node's state take the result of a transaction that is not stale (R76). -/
def State.tellOwners (s : State) (t : Transaction) (r : FieldResult) : State :=
  match t.job with
  | .write c code reconnect => s.takeWrite c code reconnect r.success
  | .isolate c => s.takeIsolate c r.success
  | .poll c => s.takePoll c t.node r
  | .zero => match r with
    | .value raw => s.zeroResult t.node raw
    | .ok | .noNode | .stuck | .busHeld | .noReply => s

/-- The poll sequencer is told the end of a POLL or ZERO (R76, R77). -/
def State.tellSequencer (s : State) (job : FieldJob) : State :=
  match job with
  | .poll _ | .zero => s.pollEnded
  | .write _ _ _ | .isolate _ => s

/-- FBC enters GAP with the field_gap in force (R68). -/
def State.enterGap (s : State) : State := s.setFbc { s.fbc with state := .gap s.mgx.config.fieldGap.val }

/-- The completion of a transaction with a result (R76, R77): the record is closed, its owners take the result unless it is
stale, then the node table, then the poll sequencer. -/
def State.complete (s : State) (t : Transaction) (r : FieldResult) : State :=
  let s := s.enterGap
  let s := if t.stale then s else s.tellOwners t r
  (s.creditNode t.node r.success).tellSequencer t.job

/-! ### The commands -/

/-- The bus is available and a request is pending (R80). -/
def State.grantDue (s : State) : Bool := s.fbc.state == .idle && (s.queuePending || s.pollPending)

/-- GRANT (R80). -/
def execGrant (s : State) : Host.Outcome State Fault Refusal := s.event s.grantDue State.arbitrate

/-- The field gap timer is running. -/
def FbcState.isGap : FbcState → Bool
  | .gap _ => true
  | .idle | .held _ | .sending _ | .awaitBusy _ | .awaitRelease _ | .awaitReply _ => false

/-- FIELD_GAP_EXPIRY (R68): FBC enters IDLE and grants any pending request. -/
def execFieldGapExpiry (s : State) : Host.Outcome State Fault Refusal :=
  s.event s.fbc.state.isGap fun s => (s.setFbc { s.fbc with state := .idle }).arbitrate

/-- The state that the strobe leads to (R71). -/
def afterStrobe (fbsy : Bool) (t : Transaction) : FbcState :=
  match t.job with
  | .write _ _ _ | .isolate _ => if fbsy then .awaitRelease t else .awaitBusy t
  | .poll _ | .zero => .awaitReply t

/-- STROBE (R71): the end of the frame in SENDING. -/
def execStrobe (s : State) : Host.Outcome State Fault Refusal :=
  match s.fbc.state with
  | .sending t => (s.setFbc { s.fbc with state := afterStrobe s.fbc.fbsy t, fstbPulses := s.fbc.fstbPulses + 1 }).done
  | .idle | .gap _ | .held _ | .awaitBusy _ | .awaitRelease _ | .awaitReply _ => .next s

/-- FBSY_ASSERTED (R72): the level of the pin, and in AWAIT_BUSY the start of the node's busy. -/
def execFbsyAsserted (s : State) : Host.Outcome State Fault Refusal :=
  let s := s.setFbc { s.fbc with fbsy := true }
  match s.fbc.state with
  | .awaitBusy t => (s.setFbc { s.fbc with state := .awaitRelease t }).done
  | .idle | .gap _ | .held _ | .sending _ | .awaitRelease _ | .awaitReply _ => .next s

/-- FBSY_RELEASED (R70, R72): the level of the pin; in HELD the frame begins, in AWAIT_RELEASE the transaction ends OK. -/
def execFbsyReleased (s : State) : Host.Outcome State Fault Refusal :=
  let s := s.setFbc { s.fbc with fbsy := false }
  match s.fbc.state with
  | .held t => (s.setFbc { s.fbc with state := .sending t }).done
  | .awaitRelease t => (s.complete t .ok).done
  | .idle | .gap _ | .sending _ | .awaitBusy _ | .awaitReply _ => .next s

/-- HELD_TIMEOUT (R70): BUS_HELD is latched and the transaction ends BUS_HELD. -/
def execHeldTimeout (s : State) : Host.Outcome State Fault Refusal :=
  match s.fbc.state with
  | .held t => ((s.latch fun l => { l with busHeld := true }).complete t .busHeld).done
  | .idle | .gap _ | .sending _ | .awaitBusy _ | .awaitRelease _ | .awaitReply _ => .next s

/-- BUSY_TIMEOUT_EXPIRY (R72): NO_NODE in AWAIT_BUSY, STUCK in AWAIT_RELEASE. -/
def execBusyTimeoutExpiry (s : State) : Host.Outcome State Fault Refusal :=
  match s.fbc.state with
  | .awaitBusy t => (s.complete t .noNode).done
  | .awaitRelease t => (s.complete t .stuck).done
  | .idle | .gap _ | .held _ | .sending _ | .awaitReply _ => .next s

/-- RESPONSE_TIMEOUT_EXPIRY (R73): NO_REPLY. -/
def execResponseTimeoutExpiry (s : State) : Host.Outcome State Fault Refusal :=
  match s.fbc.state with
  | .awaitReply t => (s.complete t .noReply).done
  | .idle | .gap _ | .held _ | .sending _ | .awaitBusy _ | .awaitRelease _ => .next s

/-- A valid reading matches the record of a POLL or ZERO (R73). -/
def Transaction.matchesReading (t : Transaction) (r : Reading) : Bool :=
  r.node == nodeByte t.node && match t.job with
    | .poll _ => (match t.point with
      | some p => r.point == byteOf p.val
      | none => false)
    | .zero => r.point == 7
    | .write _ _ _ | .isolate _ => false

/-- The result that a matching reading gives (R73). -/
def readingResult (r : Reading) : FieldResult := if r.measureFail then .noReply else .value r.value

/-- A reading that answers nothing: STRAY_READING is latched (R64, R74). -/
def State.strayReading (s : State) : State := s.latch fun l => { l with strayReading := true }

/-- A valid reading is matched or stray (R73, R74). -/
def State.takeReading (s : State) (r : Reading) : State :=
  match s.fbc.state with
  | .awaitReply t => if t.matchesReading r then s.complete t (readingResult r) else s.strayReading
  | .idle | .gap _ | .held _ | .sending _ | .awaitBusy _ | .awaitRelease _ => s.strayReading

/-- The FRX receiver takes the next byte as the start of a frame, or discards bytes until it has seen idle (R65). -/
def State.setFrx (s : State) (x : FrxState) : State := s.setFbc { s.fbc with frx := x }

/-- A byte begins a frame: it is the first after idle, or the receiver has seen idle and no byte since (R65). -/
def FrxState.beginsFrame (x : FrxState) (idle : Bool) : Bool := idle || x == .taking

/-- READING_RECEIVED (R73, R74): a valid reading completes; a frame after it begins only after idle (R65). -/
def execReadingReceived (r : Reading) (s : State) : Host.Outcome State Fault Refusal :=
  s.event (s.fbc.frx.beginsFrame r.idleBefore) fun s => (s.setFrx .discarding).takeReading r

/-- MALFORMED_READING (R64, R65): STRAY_READING is latched, and a frame begins only after idle.  The idle that breaks a frame off
has been seen: the next byte begins a frame. -/
def execMalformedReading (received : List FieldByte) (s : State) : Host.Outcome State Fault Refusal :=
  match s.fbc.frx.beginsFrame (idleFirst received), readingVerdict received with
  | true, .malformed | true, .badCheck => (s.strayReading.setFrx .discarding).done
  | true, .broken => (s.strayReading.setFrx .taking).done
  | _, _ => .next s

/-- FRX_IDLE (R65): the receiver takes the next byte as the start of a frame. -/
def execFrxIdle (s : State) : Host.Outcome State Fault Refusal := (s.setFrx .taking).done

end Sys2Proof.Machine
end

