-- ==== Sys2Proof/Machine/Profile.lean ====
section
/-! DEFINITION. PST, the profile store, and the start-up sequence (Chapter 10), with the commands of these families. -/

namespace Sys2Proof.Machine

/-- The five tables as they stand (R179, R180). -/
def State.tables (s : State) : Tables where
  channels := s.ct
  sequence := s.psq.record
  expected := Vector.ofFn fun n => (s.node n).expected
  presets := s.pru.list
  config := s.mgx.config

/-- Every block at its reset value around these tables, in LOADING (R183); the inputs, the rate in use, the image and the
model's own fields are those of `s`. -/
def State.resetAround (s : State) (t : Tables) (valid : Bool) : State where
  pending := s.pending
  clp := { rx := .hunt, linkErrors := 0, rate := s.clp.rate, tx := none }
  ct := t.channels
  ctx := Vector.replicate 24 .reset
  oq := ⟨[], []⟩
  fbc := { s.fbc with state := .idle, passOver := 0, frx := .taking }
  psq := .reset t.sequence
  nt := Vector.ofFn fun n => .reset t.expected[n.val]
  act := ⟨.quiet, .stopped⟩
  pru := .reset t.presets
  rq := []
  mgx := .reset t.config
  pst := { state := if valid then .valid else .empty, image := s.pst.image }
  freeCount := s.freeCount
  sph := []

/-- The reset of every block and the profile load (R183): the saved tables if the check matches, the defaults otherwise. -/
def State.resetAndLoad (s : State) : State :=
  match s.pst.image.load? with
  | some t => s.resetAround t true
  | none => s.resetAround .default false

/-- The power-on: at the load the rate in use takes the loaded link_rate (R183). -/
def State.powerOn (s : State) : State :=
  let s := s.resetAndLoad
  (s.setClp { s.clp with rate := s.mgx.config.linkRate }).setFbc { s.fbc with fstbPulses := 0 }

/-- The restart that ends its RESPONSE (R173): as power-on, but the rate in use and link_rate are kept (R170, R183), and FBC
enters GAP with the field_gap in force before (R84). -/
def State.performRestart (s : State) : State :=
  let t := s.resetAndLoad
  (t.setMgx { t.mgx with config := { t.mgx.config with linkRate := s.mgx.config.linkRate } }).setFbc
    { t.fbc with state := .gap s.mgx.config.fieldGap.val }

/-! ### The start-up sequence -/

/-- A start-up enable (R184): the checks of R35, no response. -/
def State.startUpEnable (s : State) (c : ChannelNo) : State :=
  if (s.entry c).startEnabled && (s.enableRefusal c).isNone then s.enable c else s

/-- The autostart (R98, R184): a walk starts as SEQ_RUN in IDLE does. -/
def State.autostart (s : State) : State :=
  if s.psq.record.autostart ∧ s.psq.state = .idle then s.startCycle else s

/-- The entry to RUN (R184, R140). -/
def State.enterRun (s : State) : State :=
  let s := s.setMgx { s.mgx with mode := .run }
  s.setAct { s.act with timer := s.silenceStart }

/-- One step of the start-up sequence (R184): channel 0 to 23 considered, the autostart, the entry to RUN. -/
def State.startUpStep (s : State) : State :=
  match s.mgx.mode with
  | .run => s
  | .loading =>
    let k := s.mgx.startUpStep
    let next := s.setMgx { s.mgx with startUpStep := if k = 25 then 25 else k + 1 }
    match finOf? 24 k.val with
    | some c => next.startUpEnable c
    | none => if k = 24 then next.autostart else next.enterRun

/-- Steps of the start-up sequence, one after the other. -/
def State.startUpRun : Nat → State → State
  | 0, s => s
  | n + 1, s => State.startUpRun n s.startUpStep

/-- POWER_ON (R183). -/
def execPowerOn (s : State) : Host.Outcome State Fault Refusal := s.powerOn.done

/-- ENTER_RUN (R184): the next steps of the start-up sequence (notes/assumptions/5.md). -/
def execEnterRun (steps : Nat) (s : State) : Host.Outcome State Fault Refusal :=
  s.event (s.mgx.mode == .loading) (State.startUpRun steps)

/-! ### The store -/

/-- The store accepts a new operation: EMPTY or VALID (R180, R181). -/
def StoreState.isFree : StoreState → Bool
  | .empty | .valid => true
  | .saving _ _ | .clearing => false

/-- The store is SAVING. -/
def StoreState.isSaving : StoreState → Bool
  | .saving _ _ => true
  | .empty | .valid | .clearing => false

/-- STORE_SAVE (R180): the copy is taken, the check value is erased, the erase phase begins. -/
def execStoreSave (tag : Byte) (s : State) : Host.Outcome State Fault Refusal :=
  s.takeCommand (.storeSave tag) fun s =>
    if s.pst.state.isFree then
      (s.setPst { state := .saving .erase s.tables, image := { s.pst.image with check := none } }).respond tag cmdStoreSave .started []
    else s.respond tag cmdStoreSave .storeBusy []

/-- STORE_CLEAR (R181): the check value is erased. -/
def execStoreClear (tag : Byte) (s : State) : Host.Outcome State Fault Refusal :=
  s.takeCommand (.storeClear tag) fun s =>
    if s.pst.state.isFree then
      (s.setPst { state := .clearing, image := { s.pst.image with check := none } }).respond tag cmdStoreClear .started []
    else s.respond tag cmdStoreClear .storeBusy []

/-- SAVE_ERASE_END (R180): the old image is erased and the program phase begins. -/
def execSaveEraseEnd (s : State) : Host.Outcome State Fault Refusal :=
  match s.pst.state with
  | .saving .erase copy => (s.setPst { state := .saving .program copy, image := .erased }).done
  | .saving .program _ | .empty | .valid | .clearing => .next s

/-- SAVE_PROGRAM_END (R180): with every byte matching the check value is programmed; otherwise no check value. -/
def execSaveProgramEnd (verified : Bool) (s : State) : Host.Outcome State Fault Refusal :=
  match s.pst.state with
  | .saving .program copy =>
    (if verified then (s.setPst { state := .valid, image := ⟨some copy, some copy.check⟩ }).offerPart .storeDone
     else (s.setPst { state := .empty, image := .erased }).offerPart .storeFailed).done
  | .saving .erase _ | .empty | .valid | .clearing => .next s

/-- CLEAR_END (R181). -/
def execClearEnd (s : State) : Host.Outcome State Fault Refusal :=
  match s.pst.state with
  | .clearing => ((s.setPst { state := .empty, image := .erased }).offerPart .storeDone).done
  | .saving _ _ | .empty | .valid => .next s

end Sys2Proof.Machine
end

