-- ==== Sys2Proof/Machine/Link.lean ====
section
/-! DEFINITION. CLP, the controller link port (Sections 9.1 and 9.6): the commands of the receive side and the end of a
transmission. -/

namespace Sys2Proof.Machine

/-- The receiver takes the bytes of a frame: it is not in HUNT, where every byte is discarded (R159). -/
def RxState.takesFrames : RxState → Bool
  | .hunt => false
  | .ready | .inFrame => true

/-- The receiver returns to READY after an accepted frame (R159). -/
def State.rxReady (s : State) : State := s.setClp { s.clp with rx := .ready }

/-- RECEIVER_READY (R159). -/
def execReceiverReady (s : State) : Host.Outcome State Fault Refusal := s.event (s.clp.rx == .hunt) State.rxReady

/-- SETPOINT_FRAME (R10, R12, R162): an accepted frame of 1 to 8 pairs.  In HUNT its bytes are discarded.  Without pairs SPH goes on
with the pairs that wait (R18). -/
def execSetpointFrame (pairs : List SetpointPair) (s : State) : Host.Outcome State Fault Refusal :=
  match pairs with
  | [] => s.event (!s.sph.isEmpty) fun s => s.applyPairs s.sph
  | _ :: _ => s.event (s.clp.rx.takesFrames && (Instr.setpointFrame pairs).wf) fun s => s.rxReady.takeSetpoints pairs

/-- The management queue takes an accepted frame, or is overrun (R163, R160, R159). -/
def State.queueFrame (s : State) (payload : List Byte) : State :=
  if s.mgx.queue.length < 4 then s.setMgx { s.mgx with queue := s.mgx.queue ++ [payload] } else s.linkError .overrun

/-- MGMT_FRAME (R163): an accepted frame with a payload of 2 to 60 bytes.  In HUNT its bytes are discarded. -/
def execMgmtFrame (payload : List Byte) (s : State) : Host.Outcome State Fault Refusal :=
  s.event (s.clp.rx.takesFrames && (Instr.mgmtFrame payload).wf) fun s => s.rxReady.queueFrame payload

/-- BAD_FRAME (R160, R161): the frame is discarded and charged with its first failure.  In HUNT its bytes are discarded. -/
def execBadFrame (received : List LinkByte) (s : State) : Host.Outcome State Fault Refusal :=
  match s.clp.rx.takesFrames, linkVerdict received with
  | true, .failed e => (s.linkError e).done
  | _, _ => .next s

/-- LINK_GAP_ERROR (R160): the frame being received is discarded and charged with GAP. -/
def execLinkGapError (s : State) : Host.Outcome State Fault Refusal :=
  s.event s.clp.rx.takesFrames fun s => s.linkError .gap

/-- Both directions change to a rate and the receiver enters HUNT (R171). -/
def State.switchRate (s : State) (rate : LinkRate) : State := s.setClp { s.clp with rx := .hunt, rate := rate }

/-- What the end of an entry's transmission does (R171, R173). -/
def State.transmitted (s : State) (r : Report) : State :=
  match r with
  | .response _ _ _ _ (.switchRate rate) => s.switchRate rate
  | .response _ _ _ _ .restart => s.performRestart
  | .response _ _ _ _ .nothing | .readback .. | .alarm .. | .part .. => s

/-- TRANSMIT_END (R177): the transmitter becomes idle, the entry's end acts, and the next entry begins. -/
def execTransmitEnd (s : State) : Host.Outcome State Fault Refusal :=
  match s.clp.tx with
  | some r => ((s.setClp { s.clp with tx := none }).transmitted r).done
  | none => .next s

end Sys2Proof.Machine
end

