-- ==== Sys2Proof/Machine/Channels.lean ====
section
/-! DEFINITION. The management commands on channels: reads, enable, disable, release, alarms, injection, and the output commands
FLUSH_OUTPUT and SLEW_BYPASS. -/

namespace Sys2Proof.Machine

/-- READ_STATUS (R167): the record as it stands, then the latches, the last discarded channel and the link-error set are
emptied. -/
def execReadStatus (tag : Byte) (s : State) : Host.Outcome State Fault Refusal :=
  s.takeCommand (.readStatus tag) fun s =>
    (((s.latch fun _ => .clear).setClp { s.clp with linkErrors := 0 })).respond tag cmdReadStatus .ok s.statusBytes

/-- READ_CHANNEL (R168). -/
def execReadChannel (tag channel : Byte) (s : State) : Host.Outcome State Fault Refusal :=
  s.takeCommand (.readChannel tag channel) fun s =>
    match channelOf? channel with
    | none => s.respond tag cmdReadChannel .badIndex []
    | some c => s.respond tag cmdReadChannel .ok ((s.ch c).bytes c)

/-- BAD_COMMAND's completion (R165): BAD_COMMAND, but BAD_INDEX where a table code above 4 is named (R169) and BAD_VALUE for a
SLEW_BYPASS argument above 1 (R172). -/
def badCommandCompletion (payload : List Byte) : Completion :=
  match payload with
  | [_, cmd, arg] => if cmd = cmdSlewBypass ∧ 1 < arg.toNat then .badValue else .badCommand
  | _ :: cmd :: table :: _ :: _ =>
    if (cmd = cmdReadEntry ∨ cmd = cmdWriteEntry) ∧ 4 < table.toNat then .badIndex else .badCommand
  | _ => .badCommand

/-- BAD_COMMAND (R165): the command changes nothing. -/
def execBadCommand (payload : List Byte) (s : State) : Host.Outcome State Fault Refusal :=
  s.takeCommand (.badCommand payload) fun s =>
    s.respond (payload.headD 0) (payload.tail.headD 0) (badCommandCompletion payload) []

/-- ENABLE_CHANNEL (R35, R36). -/
def execEnableChannel (tag channel : Byte) (s : State) : Host.Outcome State Fault Refusal :=
  s.takeCommand (.enableChannel tag channel) fun s =>
    match channelOf? channel with
    | none => s.respond tag cmdEnableChannel .badIndex []
    | some c => match s.enableRefusal c with
      | some refusal => s.respond tag cmdEnableChannel refusal []
      | none => (s.enable c).respond tag cmdEnableChannel .ok []

/-- DISABLE_CHANNEL (R37 to R39). -/
def execDisableChannel (tag channel : Byte) (s : State) : Host.Outcome State Fault Refusal :=
  s.takeCommand (.disableChannel tag channel) fun s =>
    match channelOf? channel with
    | none => s.respond tag cmdDisableChannel .badIndex []
    | some c =>
      if (s.ch c).drive = .off ∨ (s.ch c).drive = .stopping then s.respond tag cmdDisableChannel .chOff []
      else (s.disable c).respond tag cmdDisableChannel .ok []

/-- RELEASE_CHANNEL (R42 to R44). -/
def execReleaseChannel (tag channel : Byte) (s : State) : Host.Outcome State Fault Refusal :=
  s.takeCommand (.releaseChannel tag channel) fun s =>
    match channelOf? channel with
    | none => s.respond tag cmdReleaseChannel .badIndex []
    | some c => match s.releaseRefusal c with
      | some refusal => s.respond tag cmdReleaseChannel refusal []
      | none => (s.release c).respond tag cmdReleaseChannel .ok []

/-- The latched set is set equal to the active set (R125). -/
def ChannelCtx.narrowed (x : ChannelCtx) : ChannelCtx := { x with latched := x.active }

/-- READ_ALARMS (R125): one channel, or all of them with 0xFF. -/
def execReadAlarms (tag channel : Byte) (s : State) : Host.Outcome State Fault Refusal :=
  s.takeCommand (.readAlarms tag channel) fun s =>
    if channel = 0xFF then
      (s.modAll ChannelCtx.narrowed).respond tag cmdReadAlarms .ok (channelsAscending.flatMap fun c => (s.ch c).alarmBytes)
    else match channelOf? channel with
      | none => s.respond tag cmdReadAlarms .badIndex []
      | some c => (s.modCh c ChannelCtx.narrowed).respond tag cmdReadAlarms .ok (channel :: (s.ch c).alarmBytes)

/-- The count of an INJECT_READBACK, 1 to 15 (R110). -/
def injectCount? (count : Byte) : Option (Fin 16) := if count = 0 then none else finOf? 16 count.toNat

/-- INJECT_READBACK (R110). -/
def execInjectReadback (tag channel : Byte) (value : Code) (count : Byte) (s : State) : Host.Outcome State Fault Refusal :=
  s.takeCommand (.injectReadback tag channel value count) fun s =>
    match channelOf? channel with
    | none => s.respond tag cmdInjectReadback .badIndex []
    | some c =>
      if (s.ch c).drive = .off then s.respond tag cmdInjectReadback .chOff []
      else match injectCount? count with
        | none => s.respond tag cmdInjectReadback .badValue []
        | some n => (s.modCh c fun x => { x with injectValue := value, injectLeft := n }).respond tag cmdInjectReadback .ok []

/-- FLUSH_OUTPUT (R57, R58): the data is the number of WRITE entries removed. -/
def execFlushOutput (tag : Byte) (s : State) : Host.Outcome State Fault Refusal :=
  s.takeCommand (.flushOutput tag) fun s => s.flush.respond tag cmdFlushOutput .ok [byteOf s.oq.writes.length]

/-- SLEW_BYPASS_ON (R30, R172). -/
def execSlewBypassOn (tag : Byte) (s : State) : Host.Outcome State Fault Refusal :=
  s.takeCommand (.slewBypassOn tag) fun s => (s.setBypass true).respond tag cmdSlewBypass .ok []

/-- SLEW_BYPASS_OFF (R30, R172). -/
def execSlewBypassOff (tag : Byte) (s : State) : Host.Outcome State Fault Refusal :=
  s.takeCommand (.slewBypassOff tag) fun s => (s.setBypass false).respond tag cmdSlewBypass .ok []

/-- RESTART (R173): the restart is pending until the transmission of this RESPONSE ends. -/
def execRestart (tag : Byte) (s : State) : Host.Outcome State Fault Refusal :=
  s.takeCommand (.restart tag) fun s =>
    (s.setMgx { s.mgx with restartPending := true }).respondThen tag cmdRestart .ok [] .restart

/-- STEP_TIMER_EXPIRY (R29). -/
def execStepTimerExpiry (c : ChannelNo) (s : State) : Host.Outcome State Fault Refusal :=
  s.event (s.ch c).stepTimer.isRunning fun s => s.stepTimerExpired c

/-- SILENCE_TIMER_EXPIRY (R142): it acts in QUIET. -/
def execSilenceTimerExpiry (s : State) : Host.Outcome State Fault Refusal :=
  s.event (s.act.timer.isRunning && s.act.state == .quiet) State.silenceBegins

end Sys2Proof.Machine
end

