-- ==== Sys2Proof/Machine/Tables.lean ====
section
/-! DEFINITION. The management commands on tables (Section 9.4): READ_ENTRY and WRITE_ENTRY of the five tables. -/

namespace Sys2Proof.Machine

/-- A READ_ENTRY answered OK carries the table code, the index and the record (R169). -/
def State.answerEntry (s : State) (tag table index : Byte) (record : List Byte) : State :=
  s.respond tag cmdReadEntry .ok (table :: index :: record)

/-- READ_ENTRY_CHANNEL (R8). -/
def execReadEntryChannel (tag index : Byte) (s : State) : Host.Outcome State Fault Refusal :=
  s.takeCommand (.readEntryChannel tag index) fun s =>
    match channelOf? index with
    | none => s.respond tag cmdReadEntry .badIndex []
    | some c => s.answerEntry tag tableChannel index (s.entry c).bytes

/-- READ_ENTRY_SEQUENCE (R87). -/
def execReadEntrySequence (tag index : Byte) (s : State) : Host.Outcome State Fault Refusal :=
  s.takeCommand (.readEntrySequence tag index) fun s =>
    if index = 0 then s.answerEntry tag tableSequence index s.psq.record.bytes else s.respond tag cmdReadEntry .badIndex []

/-- READ_ENTRY_NODE (R100). -/
def execReadEntryNode (tag index : Byte) (s : State) : Host.Outcome State Fault Refusal :=
  s.takeCommand (.readEntryNode tag index) fun s =>
    match nodeOf? index with
    | none => s.respond tag cmdReadEntry .badIndex []
    | some n => s.answerEntry tag tableNode index (s.node n).bytes

/-- The preset index that a byte names, 0 to 63 (R148). -/
def presetOf? (b : Byte) : Option (Fin 64) := finOf? 64 b.toNat

/-- READ_ENTRY_PRESET (R148). -/
def execReadEntryPreset (tag index : Byte) (s : State) : Host.Outcome State Fault Refusal :=
  s.takeCommand (.readEntryPreset tag index) fun s =>
    match presetOf? index with
    | none => s.respond tag cmdReadEntry .badIndex []
    | some k => s.answerEntry tag tablePreset index (s.pru.list[k.val]).bytes

/-- READ_ENTRY_PART (R169). -/
def execReadEntryPart (tag index : Byte) (s : State) : Host.Outcome State Fault Refusal :=
  s.takeCommand (.readEntryPart tag index) fun s =>
    if index = 0 then s.answerEntry tag tablePart index s.mgx.config.bytes else s.respond tag cmdReadEntry .badIndex []

/-- WRITE_ENTRY_CHANNEL (R6, R7): index, STORE_BUSY, CH_ACTIVE, value checks, in this order. -/
def execWriteEntryChannel (tag index : Byte) (record : List Byte) (s : State) : Host.Outcome State Fault Refusal :=
  s.takeCommand (.writeEntryChannel tag index record) fun s =>
    match channelOf? index with
    | none => s.respond tag cmdWriteEntry .badIndex []
    | some c =>
      if s.pst.state.isSaving then s.respond tag cmdWriteEntry .storeBusy []
      else if (s.ch c).drive ≠ .off then s.respond tag cmdWriteEntry .chActive []
      else match channelEntryOf? record with
        | none => s.respond tag cmdWriteEntry .badValue []
        | some e => (s.setEntry c e).respond tag cmdWriteEntry .ok []

/-- WRITE_ENTRY_SEQUENCE (R87): index, STORE_BUSY, BUSY, value checks, in this order. -/
def execWriteEntrySequence (tag index : Byte) (record : List Byte) (s : State) : Host.Outcome State Fault Refusal :=
  s.takeCommand (.writeEntrySequence tag index record) fun s =>
    if index ≠ 0 then s.respond tag cmdWriteEntry .badIndex []
    else if s.pst.state.isSaving then s.respond tag cmdWriteEntry .storeBusy []
    else if s.psq.state ≠ .idle then s.respond tag cmdWriteEntry .busy []
    else match sequenceRecordOf? record with
      | none => s.respond tag cmdWriteEntry .badValue []
      | some r => (s.setPsq { s.psq with record := r }).respond tag cmdWriteEntry .ok []

/-- A channel that is not OFF has this node in its entry (R100). -/
def State.nodeInUse (s : State) (n : Node) : Bool :=
  channelsAscending.any fun c => (s.ch c).drive != .off && (s.entry c).node == n

/-- WRITE_ENTRY_NODE (R100): index, STORE_BUSY, value check, CONFLICT, in this order; only the expected flag is taken. -/
def execWriteEntryNode (tag index : Byte) (record : List Byte) (s : State) : Host.Outcome State Fault Refusal :=
  s.takeCommand (.writeEntryNode tag index record) fun s =>
    match nodeOf? index with
    | none => s.respond tag cmdWriteEntry .badIndex []
    | some n =>
      if s.pst.state.isSaving then s.respond tag cmdWriteEntry .storeBusy []
      else match expectedOf? record with
        | none => s.respond tag cmdWriteEntry .badValue []
        | some expected =>
          if !expected && s.nodeInUse n then s.respond tag cmdWriteEntry .conflict []
          else (s.modNode n fun r => { r with expected := expected }).respond tag cmdWriteEntry .ok []

/-- WRITE_ENTRY_PRESET (R148): index, STORE_BUSY, BUSY, value checks, in this order. -/
def execWriteEntryPreset (tag index : Byte) (record : List Byte) (s : State) : Host.Outcome State Fault Refusal :=
  s.takeCommand (.writeEntryPreset tag index record) fun s =>
    match presetOf? index with
    | none => s.respond tag cmdWriteEntry .badIndex []
    | some k =>
      if s.pst.state.isSaving then s.respond tag cmdWriteEntry .storeBusy []
      else if s.pru.state = .applying then s.respond tag cmdWriteEntry .busy []
      else match presetEntryOf? record with
        | none => s.respond tag cmdWriteEntry .badValue []
        | some p => (s.setPru { s.pru with list := s.pru.list.set k.val p }).respond tag cmdWriteEntry .ok []

/-- An entry whose transmission's end switches the link rate. -/
def Report.switches : Report → Bool
  | .response _ _ _ _ (.switchRate _) => true
  | .response _ _ _ _ .nothing | .response _ _ _ _ .restart | .readback .. | .alarm .. | .part .. => false

/-- A link-rate switch is pending: its RESPONSE waits or is being transmitted (R171). -/
def State.switchPending (s : State) : Bool := s.clp.tx.any Report.switches || s.rq.any Report.switches

/-- What the end of a part config write's RESPONSE does (R171, notes/assumptions/15.md). -/
def State.rateAtEnd (s : State) (rate : LinkRate) : AtEnd :=
  if rate = s.clp.rate ∧ s.switchPending = false then .nothing else .switchRate rate

/-- The part config record is replaced, and a changed silence_timeout acts on the silence record (R170, R171, R144). -/
def State.writeConfig (s : State) (p : PartConfig) : State :=
  let written := s.setMgx { s.mgx with config := p }
  if p.silenceTimeout = s.mgx.config.silenceTimeout then written else written.silenceTimeoutWritten

/-- WRITE_ENTRY_PART (R170, R171): index, STORE_BUSY, value checks, in this order. -/
def execWriteEntryPart (tag index : Byte) (record : List Byte) (s : State) : Host.Outcome State Fault Refusal :=
  s.takeCommand (.writeEntryPart tag index record) fun s =>
    if index ≠ 0 then s.respond tag cmdWriteEntry .badIndex []
    else if s.pst.state.isSaving then s.respond tag cmdWriteEntry .storeBusy []
    else match partConfigOf? record with
      | none => s.respond tag cmdWriteEntry .badValue []
      | some p => (s.writeConfig p).respondThen tag cmdWriteEntry .ok [] (s.rateAtEnd p.linkRate)

end Sys2Proof.Machine
end

