-- ==== Sys2Proof/Machine/Walks.lean ====
section
/-! DEFINITION. The commands of the poll sequencer (Chapter 5) and of the preset unit (Chapter 8). -/

namespace Sys2Proof.Machine

/-! ### The poll sequencer -/

/-- SEQ_RUN (R90). -/
def execSeqRun (tag : Byte) (s : State) : Host.Outcome State Fault Refusal :=
  s.takeCommand (.seqRun tag) fun s =>
    if s.psq.state = .idle then s.startCycle.respond tag cmdSeqRun .ok [] else s.respond tag cmdSeqRun .busy []

/-- SEQ_STOP (R97). -/
def execSeqStop (tag : Byte) (s : State) : Host.Outcome State Fault Refusal :=
  s.takeCommand (.seqStop tag) fun s => s.stopSequence.respond tag cmdSeqStop .ok []

/-- SPACING_TIMER_EXPIRY (R93). -/
def execSpacingTimerExpiry (s : State) : Host.Outcome State Fault Refusal :=
  s.event s.psq.spacingTimer.isRunning State.spacingExpired

/-- CYCLE_TIMER_EXPIRY (R95). -/
def execCycleTimerExpiry (s : State) : Host.Outcome State Fault Refusal :=
  s.event s.psq.cycleTimer.isRunning State.cycleExpired

/-! ### The preset unit -/

/-- The entry at next_index is applied or skipped (R152). -/
def State.applyOrSkip (s : State) : State :=
  match finOf? 64 s.pru.nextIndex.val with
  | none => s
  | some k =>
    let p := s.pru.list[k.val]
    if p.valid && (s.ch p.channel).drive.takesSetpoints && !(s.ch p.channel).presetTaken then
      s.applySetpoint p.channel p.data false
    else s

/-- next_index is increased by one and remaining decreased by one (R151). -/
def PresetUnit.advance (p : PresetUnit) : PresetUnit :=
  { p with nextIndex := if p.nextIndex = 64 then 64 else p.nextIndex + 1, remaining := decr p.remaining }

/-- The entry at next_index is reached, and with preset_spacing 0 every later one too (R151, R153). `fuel` bounds the entries
reached in one event; the span has at most 64. -/
def State.reachEntries : Nat → State → State
  | 0, s => s
  | fuel + 1, s =>
    let s := s.applyOrSkip
    let s := s.setPru s.pru.advance
    if s.pru.remaining = 0 then (s.setPru { s.pru with state := .idle, spacingTimer := .stopped }).offerPart .presetDone
    else if s.mgx.config.presetSpacing = 0 then State.reachEntries fuel s
    else s.setPru { s.pru with spacingTimer := .running (s.mgx.config.presetSpacing.val * 1000) }

/-- The refusal of an APPLY_PRESET (R150). -/
def State.applyRefusal (s : State) (start count : Byte) : Option Completion :=
  if s.pru.state = .applying then some .busy
  else if count = 0 then some .badValue
  else if 64 < start.toNat + count.toNat then some .badIndex
  else none

/-- An APPLY_PRESET that has passed its checks (R150). -/
def State.startApply (s : State) (start count : Byte) : State :=
  match finOf? 65 start.toNat, finOf? 65 count.toNat with
  | some a, some n =>
    State.reachEntries 64 ((s.modAll fun x => { x with presetTaken := false }).setPru
      { s.pru with state := .applying, nextIndex := a, remaining := n })
  | _, _ => s

/-- APPLY_PRESET (R150, R151). -/
def execApplyPreset (tag start count : Byte) (s : State) : Host.Outcome State Fault Refusal :=
  s.takeCommand (.applyPreset tag start count) fun s =>
    match s.applyRefusal start count with
    | some refusal => s.respond tag cmdApplyPreset refusal []
    | none => (s.startApply start count).respond tag cmdApplyPreset .ok []

/-- ABORT_PRESET (R155). -/
def execAbortPreset (tag : Byte) (s : State) : Host.Outcome State Fault Refusal :=
  s.takeCommand (.abortPreset tag) fun s =>
    match s.pru.state with
    | .applying =>
      ((s.setPru { s.pru with state := .idle, spacingTimer := .stopped }).offerPart .presetAborted).respond tag cmdAbortPreset .ok
        [byteOf s.pru.remaining.val]
    | .idle => s.respond tag cmdAbortPreset .ok [0]

/-- PRESET_SPACING_EXPIRY (R151): the next entry of the span is reached. -/
def execPresetSpacingExpiry (s : State) : Host.Outcome State Fault Refusal :=
  s.event (s.pru.spacingTimer.isRunning && s.pru.state == .applying) fun s =>
    State.reachEntries 64 (s.setPru { s.pru with spacingTimer := .stopped })

end Sys2Proof.Machine
end

