-- ==== Sys2Proof/Machine/Dispatch.lean ====
section
/-! DEFINITION. The dispatch of every command to its meaning. -/

namespace Sys2Proof.Machine

/-- The effect of a command on everything but the queue of waiting commands. -/
def exec (i : Instr) (s : State) : Host.Outcome State Fault Refusal :=
  match i with
  | .powerOn => Sys2Proof.Machine.execPowerOn s
  | .enterRun steps => Sys2Proof.Machine.execEnterRun steps s
  | .receiverReady => Sys2Proof.Machine.execReceiverReady s
  | .setpointFrame pairs => Sys2Proof.Machine.execSetpointFrame pairs s
  | .mgmtFrame payload => Sys2Proof.Machine.execMgmtFrame payload s
  | .badFrame received => Sys2Proof.Machine.execBadFrame received s
  | .linkGapError => Sys2Proof.Machine.execLinkGapError s
  | .readStatus tag => Sys2Proof.Machine.execReadStatus tag s
  | .readChannel tag channel => Sys2Proof.Machine.execReadChannel tag channel s
  | .readEntryChannel tag index => Sys2Proof.Machine.execReadEntryChannel tag index s
  | .readEntrySequence tag index => Sys2Proof.Machine.execReadEntrySequence tag index s
  | .readEntryNode tag index => Sys2Proof.Machine.execReadEntryNode tag index s
  | .readEntryPreset tag index => Sys2Proof.Machine.execReadEntryPreset tag index s
  | .readEntryPart tag index => Sys2Proof.Machine.execReadEntryPart tag index s
  | .writeEntryChannel tag index record => Sys2Proof.Machine.execWriteEntryChannel tag index record s
  | .writeEntrySequence tag index record => Sys2Proof.Machine.execWriteEntrySequence tag index record s
  | .writeEntryNode tag index record => Sys2Proof.Machine.execWriteEntryNode tag index record s
  | .writeEntryPreset tag index record => Sys2Proof.Machine.execWriteEntryPreset tag index record s
  | .writeEntryPart tag index record => Sys2Proof.Machine.execWriteEntryPart tag index record s
  | .badCommand payload => Sys2Proof.Machine.execBadCommand payload s
  | .enableChannel tag channel => Sys2Proof.Machine.execEnableChannel tag channel s
  | .disableChannel tag channel => Sys2Proof.Machine.execDisableChannel tag channel s
  | .releaseChannel tag channel => Sys2Proof.Machine.execReleaseChannel tag channel s
  | .readAlarms tag channel => Sys2Proof.Machine.execReadAlarms tag channel s
  | .injectReadback tag channel value count => Sys2Proof.Machine.execInjectReadback tag channel value count s
  | .seqRun tag => Sys2Proof.Machine.execSeqRun tag s
  | .seqStop tag => Sys2Proof.Machine.execSeqStop tag s
  | .applyPreset tag start count => Sys2Proof.Machine.execApplyPreset tag start count s
  | .abortPreset tag => Sys2Proof.Machine.execAbortPreset tag s
  | .flushOutput tag => Sys2Proof.Machine.execFlushOutput tag s
  | .slewBypassOn tag => Sys2Proof.Machine.execSlewBypassOn tag s
  | .slewBypassOff tag => Sys2Proof.Machine.execSlewBypassOff tag s
  | .storeSave tag => Sys2Proof.Machine.execStoreSave tag s
  | .storeClear tag => Sys2Proof.Machine.execStoreClear tag s
  | .restart tag => Sys2Proof.Machine.execRestart tag s
  | .saveEraseEnd => Sys2Proof.Machine.execSaveEraseEnd s
  | .saveProgramEnd verified => Sys2Proof.Machine.execSaveProgramEnd verified s
  | .clearEnd => Sys2Proof.Machine.execClearEnd s
  | .transmitEnd => Sys2Proof.Machine.execTransmitEnd s
  | .grant => Sys2Proof.Machine.execGrant s
  | .fieldGapExpiry => Sys2Proof.Machine.execFieldGapExpiry s
  | .strobe => Sys2Proof.Machine.execStrobe s
  | .fbsyAsserted => Sys2Proof.Machine.execFbsyAsserted s
  | .fbsyReleased => Sys2Proof.Machine.execFbsyReleased s
  | .heldTimeout => Sys2Proof.Machine.execHeldTimeout s
  | .busyTimeoutExpiry => Sys2Proof.Machine.execBusyTimeoutExpiry s
  | .responseTimeoutExpiry => Sys2Proof.Machine.execResponseTimeoutExpiry s
  | .readingReceived reading => Sys2Proof.Machine.execReadingReceived reading s
  | .malformedReading received => Sys2Proof.Machine.execMalformedReading received s
  | .stepTimerExpiry channel => Sys2Proof.Machine.execStepTimerExpiry channel s
  | .spacingTimerExpiry => Sys2Proof.Machine.execSpacingTimerExpiry s
  | .cycleTimerExpiry => Sys2Proof.Machine.execCycleTimerExpiry s
  | .silenceTimerExpiry => Sys2Proof.Machine.execSilenceTimerExpiry s
  | .presetSpacingExpiry => Sys2Proof.Machine.execPresetSpacingExpiry s
  | .frxIdle => Sys2Proof.Machine.execFrxIdle s

end Sys2Proof.Machine
end

