-- ==== Sys2Proof/Safety.lean ====
section
/-! DEFINITION. What counts as a safe run: a step that answers a next state; the laws of the part that its blocks keep (R20, R21,
R35, R46, R80, R89, R101, R106, R123, R130, R145, R163, R174, R177); and the words in which statements about the part are made. -/

namespace Sys2Proof.Machine

/-- The step answers a next state: it neither faults nor is refused. -/
def Safe (o : Host.Outcome State Fault Refusal) : Prop := ∃ t, o = .next t

/-! ### The laws of the queues -/

/-- R46: at most one entry for a channel, so never more than 24; the isolate section stands ahead by construction. -/
def State.OutputQueueLaw (s : State) : Prop := (s.oq.isolates ++ s.oq.writes.map (·.channel)).Nodup

/-- R163: at most 4 frames in the management queue. -/
def State.ManagementQueueLaw (s : State) : Prop := s.mgx.queue.length ≤ 4

/-- The READBACK and RESPONSE entries, whose admission stands under high_water (R174). -/
def Report.isBounded : Report → Bool
  | .readback .. | .response .. => true
  | .alarm .. | .part .. => false

/-- R174: at most one ALARM entry per channel, at most one PART entry, and READBACK and RESPONSE entries together at most 23. -/
structure State.ReportQueueLaw (s : State) : Prop where
  oneAlarm : ∀ c, s.rq.countP (Report.isAlarmOf c) ≤ 1
  onePart  : s.rq.countP Report.isPart ≤ 1
  bounded  : s.rq.countP Report.isBounded ≤ 23

/-- R177: an idle transmitter leaves no entry waiting. -/
def State.TransmitterLaw (s : State) : Prop := s.clp.tx = none → s.rq = []

/-! ### The laws of the channels -/

/-- The code lies between code_min and code_max of the entry (R20). -/
def ChannelEntry.inRange (e : ChannelEntry) (code : Code) : Prop :=
  e.codeMin.toNat ≤ code.toNat ∧ code.toNat ≤ e.codeMax.toNat

/-- A field that may be absent holds a code of the code range when it is present. -/
def ChannelEntry.inRange? (e : ChannelEntry) (code : Option Code) : Prop := ∀ k, code = some k → e.inRange k

/-- The record is one of this job of the channel, and not stale. -/
def flying (record : Option Transaction) (c : ChannelNo) (job : FieldJob) : Prop :=
  ∃ t, record = some t ∧ t.stale = false ∧ t.job = job ∧ job.channel? = some c

/-- A transaction of the channel that is not stale is in flight. -/
def State.inFlight (s : State) (c : ChannelNo) (job : FieldJob) : Prop := flying s.fbc.state.record? c job

/-- The law of one channel: its entry `e`, its context `x`, the output queue `q` and the record of the transaction in flight
agree. -/
structure ContextLaw (e : ChannelEntry) (x : ChannelCtx) (q : OutputQueue) (record : Option Transaction) (c : ChannelNo) : Prop where
  /-- R7: the entry satisfies its value checks. -/
  entryOk : e.ok = true
  /-- R21, R41: a channel in OFF holds the reset context. -/
  off : x.drive = .off → x = .reset
  /-- R123: the latched set contains the active set. -/
  latched : x.active.subset x.latched = true
  /-- R130: the effective action is the highest action mapped from the active classes. -/
  action : x.action = effectiveAction e x.active
  /-- R106: the ranges of the two fault counters. -/
  valueFaults : x.valueFaults ≤ e.faultLimit.val + 1
  norespFaults : x.norespFaults ≤ e.norespLimit.val + 1
  /-- R36, R41: outside OFF the target, the goal and the sent code are present. -/
  present : x.drive ≠ .off → x.target.isSome = true ∧ x.goal.isSome = true ∧ x.sent.isSome = true
  /-- R20: every code of the drive record lies in the code range. -/
  target : e.inRange? x.target
  goal : e.inRange? x.goal
  sent : e.inRange? x.sent
  applied : e.inRange? x.applied
  /-- R33: an ISOLATE is queued only in ISOLATING. -/
  isolateQueued : q.hasIsolate c = true → x.drive = .isolating
  /-- R47, R58: a WRITE is queued only in MOVING, STOPPING and RELEASING. -/
  writeQueued : q.hasWrite c = true → x.drive = .moving ∨ x.drive = .stopping ∨ x.drive = .releasing
  /-- R20: every queued WRITE carries a code of the code range. -/
  writeCode : ∀ w ∈ q.writes, w.channel = c → e.inRange w.code
  /-- R22, R75: a transaction of the channel that is not stale is one of a channel in use. -/
  flight : ∀ job, flying record c job → x.drive ≠ .off
  /-- R20: a WRITE in flight that is not stale carries a code of the code range, and its channel is not STEADY (R26). -/
  writeFlight : ∀ code r, flying record c (.write c code r) → e.inRange code ∧ x.drive ≠ .steady
  /-- R33, R42: an ISOLATE in flight that is not stale is one of an ISOLATING channel with no ISOLATE queued. -/
  isolateFlight : flying record c (.isolate c) → x.drive = .isolating ∧ q.hasIsolate c = false

/-- The law of one channel of the part. -/
def State.ChannelLaw (s : State) (c : ChannelNo) : Prop :=
  ContextLaw (s.entry c) (s.ch c) s.oq s.fbc.state.record? c

/-- The tables of an image or of a save satisfy the value checks of R7, so a load gives entries that do (R1). -/
def Tables.entriesOk (t : Tables) : Prop := ∀ c : ChannelNo, t.channels[c.val].ok = true

/-- The law of the profile store: what a load can bring satisfies the value checks of R7 (R9, R179). -/
def State.StoreLaw (s : State) : Prop :=
  (∀ t, s.pst.image.contents = some t → t.entriesOk) ∧ (∀ p t, s.pst.state = .saving p t → t.entriesOk)

/-- The law of every channel, with the law of the store that a restart rests on. -/
structure State.DriveLaw (s : State) : Prop where
  channel : ∀ c, s.ChannelLaw c
  store : s.StoreLaw
  queue : s.OutputQueueLaw

/-- R35: no two channels that are not OFF map to the same node and point. -/
def State.MappingLaw (s : State) : Prop :=
  ∀ c d, (s.ch c).drive ≠ .off → (s.ch d).drive ≠ .off → (s.entry c).node = (s.entry d).node →
    (s.entry c).point = (s.entry d).point → c = d

/-- R101: the node of a channel that is not OFF is expected. -/
def State.ExpectedLaw (s : State) : Prop := ∀ c, (s.ch c).drive ≠ .off → (s.node (s.entry c).node).expected = true

/-- R145: SILENCE is active on a channel exactly while the channel is not OFF and the part is SILENT. -/
def State.SilenceLaw (s : State) : Prop :=
  ∀ c, (s.ch c).active.silence = true ↔ ((s.ch c).drive ≠ .off ∧ s.act.state = .silent)

/-! ### The laws of the poll sequencer and of the field bus -/

/-- The transaction in flight is a POLL or a ZERO. -/
def FbcState.isPolling (f : FbcState) : Prop :=
  ∃ t, f.record? = some t ∧ ((∃ c, t.job = .poll c) ∨ t.job = .zero)

/-- R80 and R89: the poll slot holds a request exactly while the slot poll is PENDING, the poll is in flight exactly while it is
IN_FLIGHT, no poll belongs to IDLE or WAITING, and while the poll slot is empty the pass-over count is 0. -/
structure State.SequencerLaw (s : State) : Prop where
  pollSlot : s.psq.pollSlot.isSome = true ↔ s.psq.slotPoll = .pending
  inFlight : s.fbc.state.isPolling ↔ s.psq.slotPoll = .inFlight
  resting : s.psq.state = .idle ∨ s.psq.state = .waiting → s.psq.slotPoll = .none
  passOver : s.psq.pollSlot = none → s.fbc.passOver = 0

/-! ### The words of the statements -/

/-- MGX takes this command now (R164, R165): the part is in RUN, the report queue stands below high_water, no restart is
pending, and the frame at the head of the management queue carries the command, with `rest` waiting behind it. -/
def State.Takes (s : State) (i : Instr) (rest : List (List Byte)) : Prop :=
  s.mgx.mode = .run ∧ s.rq.length < s.mgx.config.highWater.val ∧ s.mgx.restartPending = false ∧
    ∃ p, s.mgx.queue = p :: rest ∧ commandOf p = i

/-- The state with these frames waiting in the management queue. -/
def State.withFrames (s : State) (rest : List (List Byte)) : State := { s with mgx := { s.mgx with queue := rest } }

/-- The state with this report handed on (R175, R177): an idle transmitter begins it at once, otherwise it joins the tail. -/
def State.sends (s : State) (r : Report) : State :=
  match s.clp.tx with
  | none => { s with clp := { s.clp with tx := some r } }
  | some _ => { s with rq := s.rq ++ [r] }

/-- The RESPONSE of a command (R165) whose transmission's end does nothing more. -/
def answer (tag cmd : Byte) (completion : Completion) (data : List Byte) : Report := .response tag cmd completion data .nothing

/-- The reports not yet sent: the one being transmitted, then the queue, oldest first (R174, R177). -/
def State.outgoing (s : State) : List Report := s.clp.tx.toList ++ s.rq

/-- LEN is allowed for the kind (R160): 3, 6, … 24 in a SETPOINT frame, 2 to 60 in a MGMT frame. -/
def linkLengthAllowed (kind : Byte) (len : Nat) : Prop :=
  (kind = 0x51 ∧ 3 ≤ len ∧ len ≤ 24 ∧ len % 3 = 0) ∨ (kind = 0x5C ∧ 2 ≤ len ∧ len ≤ 60)

/-- The poll that a slot places at its start, if it places one (R91): a POLL of a channel that is not OFF, a ZERO of an expected node. -/
def State.places (s : State) (slot : Slot) (request : Option PollRequest) : Prop :=
  match slot with
  | .empty => request = none
  | .channel c =>
    ((s.ch c).drive = .off → request = none) ∧ ((s.ch c).drive ≠ .off → request = some (.poll c false))
  | .zero n => ((s.node n).expected = false → request = none) ∧ ((s.node n).expected = true → request = some (.zero n))

/-- The command ends this WRITE or ISOLATE with a failure: NO_NODE, STUCK (R72) or BUS_HELD (R70). -/
def State.handshakeFails (s : State) (i : Instr) (x : Transaction) : Prop :=
  (i = .busyTimeoutExpiry ∧ (s.fbc.state = .awaitBusy x ∨ s.fbc.state = .awaitRelease x)) ∨
    (i = .heldTimeout ∧ s.fbc.state = .held x)

/-- The command ends this POLL with a failure (R120): no answer in time, an answer that carries MEASURE_FAIL (R73), or BUS_HELD (R70). -/
def State.pollFails (s : State) (i : Instr) (x : Transaction) : Prop :=
  (i = .responseTimeoutExpiry ∧ s.fbc.state = .awaitReply x) ∨ (i = .heldTimeout ∧ s.fbc.state = .held x) ∨
    ∃ r, i = .readingReceived r ∧ s.fbc.state = .awaitReply x ∧ (s.fbc.frx = .taking ∨ r.idleBefore = true) ∧
      x.matchesReading r = true ∧ r.measureFail = true

/-- Nothing of the sequencer differs but the stale mark that a waiting POLL of this channel has in `r` (R92). -/
def Sequencer.marked (c : ChannelNo) (q r : Sequencer) : Prop :=
  (∀ m, q.pollSlot = some (.poll c m) → r = { q with pollSlot := some (.poll c true) }) ∧
  ((∀ m, q.pollSlot ≠ some (.poll c m)) → r = q)

/-- An active class maps to this action (R130): TRK to act_track, HIGH and LOW to act_limit, NORESP to act_noresp, SILENCE to
act_silence. -/
def ChannelEntry.mapsTo (e : ChannelEntry) (active : ClassSet) (a : Action) : Prop :=
  (active.trk = true ∧ e.actTrack = a) ∨ ((active.high = true ∨ active.low = true) ∧ e.actLimit = a) ∨
  (active.noresp = true ∧ e.actNoresp = a) ∨ (active.silence = true ∧ e.actSilence = a)

/-- The absolute difference of two codes, 0 to 65535 (R27, R113). -/
def codesApart (a b : Code) : Nat := ((a.toNat : Int) - b.toNat).natAbs

/-- A READBACK is offered for the value after an evaluated reading (R126). -/
def readbackOffered (e : ChannelEntry) (x : ChannelCtx) (value : Code) : Prop :=
  e.reportMode = .every ∨
    (e.reportMode = .delta ∧ ∀ last, x.lastReported = some last → e.deadband.val ≤ codesApart value last)

/-- The READBACK entries among these reports. -/
def readbacks (rs : List Report) : List Report := rs.filter fun
  | .readback .. => true
  | .alarm .. | .part .. | .response .. => false

/-- The report queue's occupancy as an evaluated reading's READBACK finds it: with the ALARM that the reading's change of the active set
has offered (R126, R137, R175, R176). -/
def State.occupancyAfterAlarm (s : State) (c : ChannelNo) (active : ClassSet) : Nat :=
  if (s.ch c).active.touches active (s.entry c).alarmMask = true ∧ s.rq.any (Report.isAlarmOf c) = false then s.rq.length + 1
  else s.rq.length

/-- From `s` to `t` the READBACK of a channel's evaluated reading has been offered as R126 and R127 say, with the drive state `d` and the
effective action as they stand at the offer: admitted below high_water with last_reported set, refused at it with REPORTS_SUPPRESSED
latched, or not due. -/
structure State.OffersReadback (c : ChannelNo) (value : Code) (d : DriveState) (s t : State) : Prop where
  admitted : readbackOffered (s.entry c) (s.ch c) value → s.occupancyAfterAlarm c (t.ch c).active < s.mgx.config.highWater.val →
    (t.ch c).lastReported = some value ∧ t.mgx.latches.reportsSuppressed = s.mgx.latches.reportsSuppressed ∧
    readbacks t.outgoing = readbacks s.outgoing ++ [.readback c value (s.ch c).clamped d (t.ch c).action]
  refused : readbackOffered (s.entry c) (s.ch c) value → s.mgx.config.highWater.val ≤ s.occupancyAfterAlarm c (t.ch c).active →
    (t.ch c).lastReported = (s.ch c).lastReported ∧ t.mgx.latches.reportsSuppressed = true ∧
    readbacks t.outgoing = readbacks s.outgoing
  notDue : ¬ readbackOffered (s.entry c) (s.ch c) value →
    (t.ch c).lastReported = (s.ch c).lastReported ∧ t.mgx.latches.reportsSuppressed = s.mgx.latches.reportsSuppressed ∧
    readbacks t.outgoing = readbacks s.outgoing

/-- The WRITE entries of a channel (R45). -/
def OutputQueue.writesOf (q : OutputQueue) (c : ChannelNo) : List WriteEntry := q.writes.filter (WriteEntry.isOf c)

/-- The drive state, the goal, the sent code, the step timer and the WRITE entry of a channel stay. -/
def State.driveStays (c : ChannelNo) (s t : State) : Prop :=
  (t.ch c).drive = (s.ch c).drive ∧ (t.ch c).goal = (s.ch c).goal ∧ (t.ch c).sent = (s.ch c).sent ∧
  (t.ch c).stepTimer = (s.ch c).stepTimer ∧ t.oq.writesOf c = s.oq.writesOf c

/-- From `s` to `t` the target of a channel that is not OFF and not STOPPING has become `code`, and its engine has acted on it
(R15, R23, R25 to R28, R48, R53).  Outside `stays`, the channel is MOVING or STEADY with action NONE, and its goal is the new code.  In
`inFlight` the bound at the strobe (`writeJustGranted`) is the model's choice (notes/assumptions/23.md). -/
structure State.TargetTaken (c : ChannelNo) (code : Code) (s t : State) : Prop where
  target : (t.ch c).target = some code
  stays : (s.ch c).action ≠ .none ∨ ((s.ch c).drive ≠ .moving ∧ (s.ch c).drive ≠ .steady) ∨ (s.ch c).goal = some code →
    State.driveStays c s t
  goal : (s.ch c).action = .none → (s.ch c).drive = .moving ∨ (s.ch c).drive = .steady → (t.ch c).goal = some code
  queued : (s.ch c).action = .none → (s.ch c).drive = .moving ∨ (s.ch c).drive = .steady → (s.ch c).goal ≠ some code →
    s.oq.hasIsolate c = false → s.oq.hasWrite c = true →
    (t.ch c).drive = .moving ∧ (t.ch c).stepTimer = (s.ch c).stepTimer ∧
    ((s.entry c).slewStep = 0 ∨ s.mgx.slewBypass = true → (t.ch c).sent = some code ∧
      t.oq.writesOf c = (s.oq.writesOf c).map fun w => { w with code := code }) ∧
    ((s.entry c).slewStep ≠ 0 → s.mgx.slewBypass = false → (t.ch c).sent = (s.ch c).sent ∧ t.oq.writesOf c = s.oq.writesOf c)
  inFlight : (s.ch c).action = .none → (s.ch c).drive = .moving ∨ (s.ch c).drive = .steady → (s.ch c).goal ≠ some code →
    s.oq.hasEntry c = false → s.hasWork c = true →
    (t.ch c).drive = .moving ∧ (t.ch c).stepTimer = (s.ch c).stepTimer ∧ t.oq.writesOf c = [] ∧
    (t.ch c).sent = (if ((s.entry c).slewStep = 0 ∨ s.mgx.slewBypass = true) ∧ s.writeJustGranted c = true then some code
      else (s.ch c).sent)
  atGoal : (s.ch c).action = .none → (s.ch c).drive = .moving ∨ (s.ch c).drive = .steady → (s.ch c).goal ≠ some code →
    s.hasWork c = false → (s.ch c).sent = some code → (s.ch c).applied = some code →
    (t.ch c).drive = .steady ∧ (t.ch c).settleLeft = (s.entry c).settleCount ∧ (t.ch c).sent = some code ∧ t.oq.writesOf c = []
  waits : ∀ k, (s.ch c).action = .none → (s.ch c).drive = .moving ∨ (s.ch c).drive = .steady → (s.ch c).goal ≠ some code →
    s.hasWork c = false → (s.ch c).sent = some k → ¬ ((s.ch c).applied = some k ∧ k = code) → (s.ch c).stepTimer.isRunning = true →
    (t.ch c).drive = .moving ∧ (t.ch c).sent = some k ∧ (t.ch c).stepTimer = (s.ch c).stepTimer ∧ t.oq.writesOf c = []
  steps : ∀ k step, (s.ch c).action = .none → (s.ch c).drive = .moving ∨ (s.ch c).drive = .steady → (s.ch c).goal ≠ some code →
    s.hasWork c = false → (s.ch c).sent = some k → ¬ ((s.ch c).applied = some k ∧ k = code) → (s.ch c).stepTimer.isRunning = false →
    step = stepCode (s.entry c) s.mgx.slewBypass k code →
    (t.ch c).drive = .moving ∧ (t.ch c).sent = some step ∧ (t.ch c).stepTimer = .running ((s.entry c).slewInterval.val * 1000) ∧
    t.oq.writesOf c = [⟨c, step, false⟩]

/-- Nothing but the reports (queue, transmitter, free-value counter) differs. -/
structure State.OnlyReports (s t : State) : Prop where
  link : t.clp.rx = s.clp.rx ∧ t.clp.linkErrors = s.clp.linkErrors ∧ t.clp.rate = s.clp.rate
  tables : t.ct = s.ct ∧ t.nt = s.nt
  channels : t.ctx = s.ctx ∧ t.oq = s.oq
  field : t.fbc = s.fbc ∧ t.psq = s.psq
  units : t.act = s.act ∧ t.pru = s.pru ∧ t.mgx = s.mgx ∧ t.pst = s.pst
  waiting : t.pending = s.pending
  pairs : t.sph = s.sph

/-- Nothing but one channel's context, that channel's queued entry and the reports differs. -/
structure State.OnlyChannel (c : ChannelNo) (s t : State) : Prop where
  others : ∀ d, d ≠ c → t.ch d = s.ch d
  isolates : t.oq.isolates.filter (fun d => d != c) = s.oq.isolates.filter fun d => d != c
  writes : t.oq.writes.filter (fun w => !w.isOf c) = s.oq.writes.filter fun w => !w.isOf c
  link : t.clp.rx = s.clp.rx ∧ t.clp.linkErrors = s.clp.linkErrors ∧ t.clp.rate = s.clp.rate
  tables : t.ct = s.ct ∧ t.nt = s.nt
  field : t.fbc = s.fbc ∧ t.psq = s.psq
  units : t.act = s.act ∧ t.pru = s.pru ∧ t.mgx = s.mgx ∧ t.pst = s.pst
  waiting : t.pending = s.pending
  pairs : t.sph = s.sph

/-! ### The records that a WRITE_ENTRY carries, byte by byte (Section 9.7) -/

/-- The byte at an offset, as a number. -/
def byteAt (r : List Byte) (k : Nat) : Nat := (r.getD k 0).toNat

/-- The two bytes at an offset, most significant first, as a number. -/
def wordAt (r : List Byte) (k : Nat) : Nat := byteAt r k * 256 + byteAt r (k + 1)

/-- The value checks of R7 and R169 on the 31 bytes of a channel entry. -/
def channelRecordValid (r : List Byte) : Prop :=
  (1 ≤ byteAt r 0 ∧ byteAt r 0 ≤ 30) ∧ byteAt r 1 ≤ 3 ∧ byteAt r 2 ≤ 3 ∧ 1 ≤ wordAt r 3 ∧
  wordAt r 7 ≤ wordAt r 11 ∧ wordAt r 11 ≤ wordAt r 9 ∧ wordAt r 13 ≤ 4095 ∧
  (1 ≤ byteAt r 15 ∧ byteAt r 15 ≤ 250) ∧ byteAt r 16 ≤ 7 ∧ wordAt r 17 ≤ 4095 ∧ wordAt r 19 ≤ wordAt r 21 ∧
  byteAt r 24 ≤ 7 ∧ byteAt r 25 ≤ 7 ∧ byteAt r 27 ≤ 2 ∧ wordAt r 28 ≤ 4095 ∧ byteAt r 30 ≤ 31

/-- The check of R87 on the two bytes of slot `k`: EMPTY with contents 0, CHANNEL 0 to 23, or ZERO with a node 1 to 30. -/
def slotValid (r : List Byte) (k : Nat) : Prop :=
  (byteAt r (7 + 2 * k) = 0 ∧ byteAt r (8 + 2 * k) = 0) ∨ (byteAt r (7 + 2 * k) = 1 ∧ byteAt r (8 + 2 * k) ≤ 23) ∨
  (byteAt r (7 + 2 * k) = 2 ∧ 1 ≤ byteAt r (8 + 2 * k) ∧ byteAt r (8 + 2 * k) ≤ 30)

/-- The value checks of R87 and R169 on the 39 bytes of a sequence record. -/
def sequenceRecordValid (r : List Byte) : Prop :=
  byteAt r 0 ≤ 15 ∧ byteAt r 1 ≤ 15 ∧ byteAt r 2 ≤ 1 ∧ 1 ≤ byteAt r 3 ∧ wordAt r 4 ≤ 1000 ∧ byteAt r 6 ≤ 1 ∧
  ∀ k, k < 16 → slotValid r k

/-- The value checks of R148 on the four bytes of a preset entry. -/
def presetRecordValid (r : List Byte) : Prop := byteAt r 0 ≤ 1 ∧ byteAt r 1 ≤ 23

/-- The value checks of R170 on the seven bytes of a part config record. -/
def configRecordValid (r : List Byte) : Prop :=
  (4 ≤ byteAt r 1 ∧ byteAt r 1 ≤ 23) ∧ 5 ≤ byteAt r 2 ∧ 1 ≤ byteAt r 3 ∧ 1 ≤ byteAt r 4 ∧ byteAt r 5 ≤ 4

end Sys2Proof.Machine
end

