-- ==== Sys2Proof/Certificates/Slice0/Obligations.lean ====
section
/-! DEFINITION. The statements for the provers.  `TransmitterLaw` (R177) is the premise wherever a statement says where a report
goes; that every step keeps it is a statement of its own. -/

open Sys2Proof Sys2Proof.Machine

/-! ### The machine -/

/-- One step takes the command at the front of the queue and runs it on the rest; on an empty queue the block idles (the model's
choice, notes/assumptions/6.md). -/
def Obligations.StepRunsTheFrontCommand : Prop :=
  (∀ (c : Instr) (rest : List Instr) (s : State), step { s with pending := c :: rest } = exec c { s with pending := rest }) ∧
  ∀ s : State, s.pending = [] → step s = .next s

/-- No command stops the part, and none touches the queue of waiting commands (a command whose event is not due answers a next
state too: the model's choice, notes/assumptions/2.md). -/
def Obligations.EveryCommandAnswersNext : Prop :=
  ∀ (i : Instr) (s : State), ∃ t, exec i s = .next t ∧ t.pending = s.pending

/-- (a) POWER_ON (R183) in every state: every block takes its reset values, the tables are the saved ones if the computed check
matches the saved one and the defaults otherwise, and the rate in use is the loaded one.  The level of FBSY, an input, and the
image, which is nonvolatile, are not touched, and FSTB has given no pulse (notes/assumptions/8.md, 12.md and 17.md, the model's).

(b) A save that ended in success is what the next power-on loads (R179, R180, R183). -/
def Obligations.PowerOnLoadsTheProfile : Prop :=
  (∀ s : State, ∃ t, exec .powerOn s = .next t ∧
     t.tables = (match s.pst.image.contents, s.pst.image.check with
       | some saved, some k => if saved.check = k then saved else .default
       | _, _ => .default) ∧
     (t.pst.state = .valid ↔ ∃ saved k, s.pst.image.contents = some saved ∧ s.pst.image.check = some k ∧ saved.check = k) ∧
     (t.pst.state = .valid ∨ t.pst.state = .empty) ∧ t.pst.image = s.pst.image ∧
     t.clp = ⟨.hunt, 0, t.mgx.config.linkRate, none⟩ ∧
     (∀ c, t.ch c = .reset) ∧ t.oq = ⟨[], []⟩ ∧ t.sph = [] ∧
     t.fbc = ⟨.idle, 0, s.fbc.fbsy, 0, .taking⟩ ∧
     (t.psq.state = .idle ∧ t.psq.currentIndex = 0 ∧ t.psq.slotPoll = .none ∧ t.psq.spacingTimer = .expired ∧
       t.psq.cycleTimer = .stopped ∧ t.psq.periodElapsed = false ∧ t.psq.pollSlot = none) ∧
     (∀ n, (t.node n).answerState = .unknown ∧ (t.node n).nodeFaults = 0 ∧ (t.node n).zeroState = .none ∧ (t.node n).zeroCorr = 0) ∧
     t.act = ⟨.quiet, .stopped⟩ ∧
     (t.pru.state = .idle ∧ t.pru.nextIndex = 0 ∧ t.pru.remaining = 0 ∧ t.pru.spacingTimer = .stopped) ∧
     t.rq = [] ∧
     (t.mgx.queue = [] ∧ t.mgx.restartPending = false ∧ t.mgx.mode = .loading ∧ t.mgx.slewBypass = false ∧
       t.mgx.latches = ⟨false, false, false, false, false, 255⟩)) ∧
  (∀ (copy : Tables) (s : State), s.pst.state = .saving .program copy →
     ∃ t u, exec (.saveProgramEnd true) s = .next t ∧ exec .powerOn t = .next u ∧ u.tables = copy ∧ u.pst.state = .valid ∧
       u.clp.rate = copy.config.linkRate)

/-- State.reset holds every law of the part (the laws are those of the step statements below). -/
def Obligations.ResetHoldsTheLaws : Prop :=
  State.reset.DriveLaw ∧ State.reset.MappingLaw ∧ State.reset.ExpectedLaw ∧ State.reset.SilenceLaw ∧
  State.reset.SequencerLaw ∧ State.reset.ReportQueueLaw ∧ State.reset.ManagementQueueLaw ∧ State.reset.TransmitterLaw

/-! ### Laws that every step keeps -/

/-- R46: the output queue holds at most one entry for a channel. -/
def Obligations.StepKeepsOutputQueueLaw : Prop :=
  ∀ s t : State, s.OutputQueueLaw → step s = .next t → t.OutputQueueLaw

/-- R174: one ALARM entry per channel, one PART entry, at most 23 READBACK and RESPONSE entries, so at most 48 in all. -/
def Obligations.StepKeepsReportQueueLaw : Prop :=
  ∀ s t : State, s.ReportQueueLaw → step s = .next t → t.ReportQueueLaw ∧ t.rq.length ≤ 48

/-- R163 and R177: at most 4 frames wait for MGX, and an idle transmitter leaves no report waiting. -/
def Obligations.StepKeepsLinkLaws : Prop :=
  ∀ s t : State, s.ManagementQueueLaw → s.TransmitterLaw → step s = .next t → t.ManagementQueueLaw ∧ t.TransmitterLaw

/-- R20 and R21, R33, R106, R123, R130: the law of every channel; every code queued, in flight, sent, applied or aimed at lies
between code_min and code_max. -/
def Obligations.StepKeepsDriveLaw : Prop :=
  ∀ s t : State, s.DriveLaw → step s = .next t → t.DriveLaw

/-- R35, R101 and R145, in states that hold the law of every channel. -/
def Obligations.StepKeepsMappingAndSilenceLaws : Prop :=
  ∀ s t : State, s.DriveLaw → s.MappingLaw → s.ExpectedLaw → s.SilenceLaw → step s = .next t →
    t.MappingLaw ∧ t.ExpectedLaw ∧ t.SilenceLaw

/-- R80 and R89: the poll slot, the slot poll, the transaction in flight and the pass-over count agree. -/
def Obligations.StepKeepsSequencerLaw : Prop :=
  ∀ s t : State, s.SequencerLaw → step s = .next t → t.SequencerLaw

/-! ### Encodings -/

/-- Section 9.7 and R165: the payload of every management command reads back as that command. -/
def Obligations.PayloadReadsBack : Prop :=
  ∀ (i : Instr) (p : List Byte), i.wf = true → payloadOf i = some p → commandOf p = i ∧ 2 ≤ p.length ∧ p.length ≤ 60

/-- (a) R159 and R160: a frame with an allowed length and its CHECK is accepted with its payload.

(b) R64 and R65: a READING received whole, without a gap and with its check, is a valid reading of its fields. -/
def Obligations.GoodFramesReadBack : Prop :=
  (∀ (kind : Byte) (payload : List Byte),
     linkLengthAllowed kind payload.length →
     linkVerdict (cleanLinkBytes (linkFrame kind payload)) = .accepted kind payload) ∧
  (∀ r : Reading, readingVerdict (receivedReading r) = .valid r)

/-- Section 9.7: every record that satisfies the value checks reads back from its layout, and its layout has its length. -/
def Obligations.RecordsReadBack : Prop :=
  (∀ e : ChannelEntry, e.bytes.length = 31 ∧ (e.ok = true → channelEntryOf? e.bytes = some e)) ∧
  (∀ r : SequenceRecord, r.bytes.length = 39 ∧ (r.slotSpacing ≠ 0 → sequenceRecordOf? r.bytes = some r)) ∧
  (∀ n : NodeRecord, n.bytes.length = 6 ∧ expectedOf? n.bytes = some n.expected) ∧
  (∀ p : PresetEntry, p.bytes.length = 4 ∧ presetEntryOf? p.bytes = some p) ∧
  (∀ p : PartConfig, p.bytes.length = 7 ∧ (p.ok = true → partConfigOf? p.bytes = some p))

/-- A few frames, payloads and reports written out byte by byte from Sections 4.2 and 9.7, with the three checks (R64, R160, R179) for
"123456789": a MGMT and a SETPOINT frame, the WRITE and the READING of Section 4.8, and a READBACK frame. -/
def Obligations.SomeFramesByteByByte : Prop :=
  crc8 [0x31, 0x32, 0x33, 0x34, 0x35, 0x36, 0x37, 0x38, 0x39] = 0x20 ∧
  crc16 [0x31, 0x32, 0x33, 0x34, 0x35, 0x36, 0x37, 0x38, 0x39] = 0x29B1 ∧
  crc32 [0x31, 0x32, 0x33, 0x34, 0x35, 0x36, 0x37, 0x38, 0x39] = 0x0376E6E7 ∧
  linkFrame 0x5C [0x27, 0x0F, 0x01] = [0x5C, 0x03, 0x27, 0x0F, 0x01, 0x17, 0x80] ∧
  linkFrame 0x51 (setpointPayload [⟨9, 1300, false⟩]) = [0x51, 0x03, 0x09, 0x05, 0x14, 0x06, 0x62] ∧
  Transaction.frame ⟨.write 9 1080 false, 3, some 2, false, 20, 10⟩ = [0x31, 0x04, 0x02, 0x04, 0x38, 0x00, 0x13] ∧
  readingFrame ⟨4, 2, 1079, false, true⟩ = [0x3A, 0x04, 0x02, 0x04, 0x37, 0x00, 0x55] ∧
  (Report.readback 14 30530 false .steady .hold).frame = [0xA1, 0x06, 0x0E, 0x77, 0x42, 0x02, 0x01, 0x00, 0x75, 0x75] ∧
  commandOf [0x27, 0x0F, 0x01] = .slewBypassOn 0x27 ∧
  commandOf [0x10, 0x09, 0x0E, 0x77, 0x1A, 0x03] = .injectReadback 0x10 0x0E 30490 3 ∧
  (Report.readback 14 30530 false .steady .hold).payload = [14, 0x77, 0x42, 2, 1, 0] ∧
  (Report.alarm 17 ⟨true, false, false, false, false⟩ ⟨true, false, false, true, false⟩ .safe 2).payload = [17, 0x01, 0x09, 2, 2] ∧
  (Report.part 0x0002 (nodeBit 3) 0).payload = [0x00, 0x02, 0x00, 0x00, 0x00, 0x10, 0x00, 0x00, 0x00, 0x00]

/-! ### The controller link -/

/-- (a) RECEIVER_READY (R159): HUNT becomes READY and nothing else changes.

(b) BAD_FRAME and LINK_GAP_ERROR (R160, R161): the receiver enters HUNT, the error's member joins the link-error set, and
LINK_ERROR is offered exactly if the set did not hold it; nothing else happens.  A frame comes whole, so both are due in every state
but HUNT (the model's choice, notes/assumptions/9.md).

(c) The check that a frame is charged with (R160): KIND at a first byte that is neither kind, LENGTH at a LEN not allowed for the kind,
CHECK at a CHECK that does not match, BYTE_FRAMING at a byte with a bad stop bit of a frame that is good in every other way. -/
def Obligations.ReceiverHuntsAfterAnError : Prop :=
  (∀ s : State, s.TransmitterLaw → s.clp.rx = .hunt →
     exec .receiverReady s = .next { s with clp := { s.clp with rx := .ready } }) ∧
  (∀ (i : Instr) (e : LinkError) (s : State), s.TransmitterLaw → s.clp.rx ≠ .hunt →
     ((∃ received, i = .badFrame received ∧ linkVerdict received = .failed e) ∨ (i = .linkGapError ∧ e = .gap)) →
     ∃ t, exec i s = .next t ∧ t.clp.rx = .hunt ∧ t.clp.linkErrors = s.clp.linkErrors ||| e.bit ∧
       t.outgoing = s.clp.tx.toList ++ (if s.clp.linkErrors &&& e.bit = 0 then partPlaced s.rq .linkError else s.rq) ∧
       s.OnlyReports { t with clp := { t.clp with rx := s.clp.rx, linkErrors := s.clp.linkErrors } }) ∧
  (∀ (kind : Byte) (rest : List LinkByte), kind ≠ 0x51 → kind ≠ 0x5C → linkVerdict (⟨kind, true⟩ :: rest) = .failed .kind) ∧
  (∀ (kind len : Byte) (rest : List LinkByte), kind = 0x51 ∨ kind = 0x5C → ¬ linkLengthAllowed kind len.toNat →
     linkVerdict (⟨kind, true⟩ :: ⟨len, true⟩ :: rest) = .failed .length) ∧
  (∀ (kind hi lo : Byte) (payload : List Byte) (rest : List LinkByte), linkLengthAllowed kind payload.length →
     [hi, lo] ≠ bytes16 (crc16 (kind :: byteOf payload.length :: payload)) →
     linkVerdict (cleanLinkBytes (kind :: byteOf payload.length :: payload ++ [hi, lo]) ++ rest) = .failed .check) ∧
  (∀ (kind b : Byte) (payload before after : List Byte) (rest : List LinkByte), linkLengthAllowed kind payload.length →
     linkFrame kind payload = before ++ b :: after →
     linkVerdict (cleanLinkBytes before ++ ⟨b, false⟩ :: rest) = .failed .byteFraming)

/-- MGMT_FRAME (R163, R159): the frame joins the tail, or finds 4 frames held: it is discarded, the receiver enters HUNT and
OVERRUN joins the link-error set, with LINK_ERROR offered if it is new there (R161). -/
def Obligations.MgmtFrameQueuesOrOverruns : Prop :=
  ∀ (p : List Byte) (s : State), s.TransmitterLaw → 2 ≤ p.length → p.length ≤ 60 → s.clp.rx ≠ .hunt →
    (s.mgx.queue.length < 4 → exec (.mgmtFrame p) s =
      .next { s with clp := { s.clp with rx := .ready }, mgx := { s.mgx with queue := s.mgx.queue ++ [p] } }) ∧
    (4 ≤ s.mgx.queue.length → ∃ t, exec (.mgmtFrame p) s = .next t ∧ t.mgx = s.mgx ∧ t.clp.rx = .hunt ∧
      t.clp.linkErrors = s.clp.linkErrors ||| 0x20 ∧
      t.outgoing = s.clp.tx.toList ++ (if s.clp.linkErrors &&& 0x20 = 0 then partPlaced s.rq .linkError else s.rq) ∧
      s.OnlyReports { t with clp := { t.clp with rx := s.clp.rx, linkErrors := s.clp.linkErrors } })

/-- (a) SETPOINT_FRAME during LOADING (R12): the frame is discarded whole and latched with channel 255.

(b) SETPOINT_FRAME with one pair in RUN and QUIET (R10, R11, R141): the silence timer is started again, and a pair whose channel is
24 or more, OFF or STOPPING is discarded and latched. -/
def Obligations.DiscardedSetpointsAreLatched : Prop :=
  (∀ (pairs : List SetpointPair) (s : State), s.TransmitterLaw → 1 ≤ pairs.length → pairs.length ≤ 8 → s.clp.rx ≠ .hunt →
     s.mgx.mode = .loading →
     exec (.setpointFrame pairs) s = .next { s with
       clp := { s.clp with rx := .ready }
       mgx := { s.mgx with latches := { s.mgx.latches with setpointDiscard := true, lastDiscarded := 255 } } }) ∧
  (∀ (p : SetpointPair) (s : State), s.TransmitterLaw → s.sph = [] → s.clp.rx ≠ .hunt → s.mgx.mode = .run → s.act.state = .quiet →
     (24 ≤ p.channel.toNat ∨ ∃ c : ChannelNo, p.channel.toNat = c.val ∧ ((s.ch c).drive = .off ∨ (s.ch c).drive = .stopping)) →
     exec (.setpointFrame [p]) s = .next { s with
       clp := { s.clp with rx := .ready }
       act := ⟨.quiet, if s.mgx.config.silenceTimeout = 0 then .stopped else .running (s.mgx.config.silenceTimeout.val * 10000)⟩
       mgx := { s.mgx with latches := { s.mgx.latches with setpointDiscard := true, lastDiscarded := p.channel } } })

/-- SETPOINT_FRAME with one pair for a STEADY channel with action NONE and its step timer not running (R13, R14, R23, R25 to R27):
the target is the calibrated code; a new goal makes the channel MOVING with one WRITE at the tail of the write section, whose code
is the step; an old one changes nothing more. -/
def Obligations.AppliedPairMovesASteadyChannel : Prop :=
  ∀ (p : SetpointPair) (c : ChannelNo) (s : State) (g k : Code), s.TransmitterLaw → s.sph = [] → s.clp.rx ≠ .hunt → s.mgx.mode = .run →
    s.act.state = .quiet → p.channel.toNat = c.val → (s.ch c).drive = .steady → (s.ch c).action = .none →
    (s.ch c).stepTimer.isRunning = false → s.hasWork c = false → (s.ch c).goal = some g → (s.ch c).sent = some k →
    ∃ t, exec (.setpointFrame [p]) s = .next t ∧
      (t.ch c).target = some (calibrate (s.entry c) p.data).1 ∧ (t.ch c).clamped = (calibrate (s.entry c) p.data).2 ∧
      (t.ch c).presetTaken = ((s.ch c).presetTaken || s.pru.state == .applying) ∧
      ((calibrate (s.entry c) p.data).1 = g → (t.ch c).drive = .steady ∧ (t.ch c).goal = some g ∧ t.oq = s.oq) ∧
      ((calibrate (s.entry c) p.data).1 ≠ g → (calibrate (s.entry c) p.data).1 ≠ k →
        (t.ch c).drive = .moving ∧ (t.ch c).goal = some (calibrate (s.entry c) p.data).1 ∧
        (t.ch c).sent = some (stepCode (s.entry c) s.mgx.slewBypass k (calibrate (s.entry c) p.data).1) ∧
        (t.ch c).stepTimer = .running ((s.entry c).slewInterval.val * 1000) ∧
        t.oq = { s.oq with writes := s.oq.writes ++
          [⟨c, stepCode (s.entry c) s.mgx.slewBypass k (calibrate (s.entry c) p.data).1, false⟩] }) ∧
      t.rq = s.rq ∧ t.clp.tx = s.clp.tx ∧ State.OnlyChannel c s { t with clp := { t.clp with rx := s.clp.rx }, act := s.act }

/-- (a) TRANSMIT_END (R177) of a report whose end does nothing more: the next entry begins, or the transmitter becomes idle.

(b) TRANSMIT_END of the RESPONSE to a part config write with a new link_rate (R171): both directions switch, the receiver enters
HUNT, and the next entry begins. -/
def Obligations.TransmitEndBeginsTheNextEntry : Prop :=
  (∀ (r : Report) (s : State), s.clp.tx = some r →
     (∀ tag cmd k data rate, r ≠ .response tag cmd k data (.switchRate rate)) → (∀ tag cmd k data, r ≠ .response tag cmd k data .restart) →
     exec .transmitEnd s = .next { s with clp := { s.clp with tx := s.rq.head? }, rq := s.rq.tail }) ∧
  (∀ (tag cmd : Byte) (k : Completion) (data : List Byte) (rate : LinkRate) (s : State),
     s.clp.tx = some (.response tag cmd k data (.switchRate rate)) →
     exec .transmitEnd s = .next { s with clp := { s.clp with rx := .hunt, rate := rate, tx := s.rq.head? }, rq := s.rq.tail })

/-- R176: an offer of an ALARM rewrites the waiting entry of the channel in its place or adds one at the tail; an offer of a part
event is added to the waiting PART entry or makes one at the tail (while an entry is being transmitted). -/
def Obligations.OffersCoalesceInPlace : Prop :=
  ∀ (s : State) (r : Report), s.clp.tx = some r →
    (∀ (c : ChannelNo) (active latched : ClassSet) (a : Action),
      (s.rq.any (Report.isAlarmOf c) = false →
        (s.offerAlarm c active latched a).rq = s.rq ++ [.alarm c active latched a 1]) ∧
      (∀ before after a0 l0 x0 n, s.rq = before ++ [.alarm c a0 l0 x0 n] ++ after →
        before.any (Report.isAlarmOf c) = false → after.any (Report.isAlarmOf c) = false →
        (s.offerAlarm c active latched a).rq = before ++ [.alarm c active latched a (Nat.min 255 (n + 1))] ++ after)) ∧
    (∀ e : PartEvent,
      (s.rq.any Report.isPart = false → (s.offerPart e).rq = s.rq ++ [.part e.bit e.lost e.back]) ∧
      (∀ before after ev lost back, s.rq = before ++ [.part ev lost back] ++ after →
        before.any Report.isPart = false → after.any Report.isPart = false →
        (s.offerPart e).rq = before ++ [.part (ev ||| e.bit) (lost ||| e.lost) (back ||| e.back)] ++ after))

/-! ### Management commands that read -/

/-- READ_STATUS (R167): the record of Section 9.7 as it stands, then the latches, the last discarded channel and the link-error set
are emptied, and nothing else changes. -/
def Obligations.ReadStatusShowsAndClears : Prop :=
  ∀ (tag : Byte) (rest : List (List Byte)) (s : State), s.TransmitterLaw → s.Takes (.readStatus tag) rest →
    exec (.readStatus tag) s = .next (State.sends
      { s with
        clp := { s.clp with linkErrors := 0 }
        mgx := { s.mgx with queue := rest, latches := ⟨false, false, false, false, false, 255⟩ } }
      (answer tag 0x01 .ok
        [0x53, 0x24, 1, 1, s.psq.state.code, if s.pru.state = .applying then 1 else 0, s.pst.state.code,
         byteOf ((if s.act.state = .silent then 1 else 0) + if s.mgx.slewBypass then 2 else 0),
         byteOf (s.oq.isolates.length + s.oq.writes.length), byteOf s.rq.length, s.mgx.latches.byte,
         s.mgx.latches.lastDiscarded, s.clp.linkErrors]))

/-- (a) READ_CHANNEL (R168): the whole context in the layout of Section 9.7, or BAD_INDEX; nothing else changes.

(b) READ_ENTRY of the five tables (R8, R87, R100, R148, R169): the table code, the index and the record, or BAD_INDEX; nothing else
changes. -/
def Obligations.ReadsShowTheChannelAndTheRecords : Prop :=
  (∀ (tag channel : Byte) (rest : List (List Byte)) (s : State), s.TransmitterLaw → s.Takes (.readChannel tag channel) rest →
     (24 ≤ channel.toNat → exec (.readChannel tag channel) s = .next ((s.withFrames rest).sends (answer tag 0x02 .badIndex []))) ∧
     (∀ c : ChannelNo, channel.toNat = c.val →
       exec (.readChannel tag channel) s = .next ((s.withFrames rest).sends (answer tag 0x02 .ok
         ([channel, (s.ch c).drive.code,
           byteOf ((if (s.ch c).target.isSome then 1 else 0) + (if (s.ch c).goal.isSome then 2 else 0) +
             (if (s.ch c).sent.isSome then 4 else 0) + (if (s.ch c).applied.isSome then 8 else 0) +
             (if (s.ch c).lastReading.isSome then 16 else 0) + (if (s.ch c).lastReported.isSome then 32 else 0) +
             (if (s.ch c).clamped then 64 else 0) + if (s.ch c).presetTaken then 128 else 0)] ++
          bytes16 ((s.ch c).target.getD 0) ++ bytes16 ((s.ch c).goal.getD 0) ++ bytes16 ((s.ch c).sent.getD 0) ++
          bytes16 ((s.ch c).applied.getD 0) ++
          [byteOf ((s.ch c).settleLeft.val + (if (s.ch c).stepTimer.isRunning then 8 else 0) + 16 * (s.ch c).injectLeft.val),
           byteOf (s.ch c).valueFaults, byteOf (s.ch c).norespFaults, (s.ch c).active.byte, (s.ch c).latched.byte,
           byteOf (s.ch c).action.code] ++
          bytes16 (s.ch c).injectValue ++ bytes16 ((s.ch c).lastReading.getD 0) ++ bytes16 ((s.ch c).lastReported.getD 0)))))) ∧
  (∀ (tag index : Byte) (rest : List (List Byte)) (s : State), s.TransmitterLaw →
     (s.Takes (.readEntryChannel tag index) rest →
       (24 ≤ index.toNat → exec (.readEntryChannel tag index) s = .next ((s.withFrames rest).sends (answer tag 0x03 .badIndex []))) ∧
       (∀ c : ChannelNo, index.toNat = c.val → exec (.readEntryChannel tag index) s =
         .next ((s.withFrames rest).sends (answer tag 0x03 .ok ([0, index] ++ (s.entry c).bytes))))) ∧
     (s.Takes (.readEntrySequence tag index) rest →
       (index ≠ 0 → exec (.readEntrySequence tag index) s = .next ((s.withFrames rest).sends (answer tag 0x03 .badIndex []))) ∧
       (index = 0 → exec (.readEntrySequence tag index) s =
         .next ((s.withFrames rest).sends (answer tag 0x03 .ok ([1, 0] ++ s.psq.record.bytes))))) ∧
     (s.Takes (.readEntryNode tag index) rest →
       (index = 0 ∨ 31 ≤ index.toNat →
         exec (.readEntryNode tag index) s = .next ((s.withFrames rest).sends (answer tag 0x03 .badIndex []))) ∧
       (∀ n : Node, index.toNat = n.val + 1 → exec (.readEntryNode tag index) s =
         .next ((s.withFrames rest).sends (answer tag 0x03 .ok ([2, index] ++ (s.node n).bytes))))) ∧
     (s.Takes (.readEntryPreset tag index) rest →
       (64 ≤ index.toNat → exec (.readEntryPreset tag index) s = .next ((s.withFrames rest).sends (answer tag 0x03 .badIndex []))) ∧
       (∀ k : Fin 64, index.toNat = k.val → exec (.readEntryPreset tag index) s =
         .next ((s.withFrames rest).sends (answer tag 0x03 .ok ([3, index] ++ s.pru.list[k.val].bytes))))) ∧
     (s.Takes (.readEntryPart tag index) rest →
       (index ≠ 0 → exec (.readEntryPart tag index) s = .next ((s.withFrames rest).sends (answer tag 0x03 .badIndex []))) ∧
       (index = 0 → exec (.readEntryPart tag index) s =
         .next ((s.withFrames rest).sends (answer tag 0x03 .ok ([4, 0] ++ s.mgx.config.bytes))))))

/-- READ_ALARMS (R125): latched, active and action of one channel or of all 24, then the latched set of each named channel is set
equal to its active set; nothing else changes and no ALARM is offered. -/
def Obligations.ReadAlarmsShowsAndNarrows : Prop :=
  ∀ (tag channel : Byte) (rest : List (List Byte)) (s : State), s.TransmitterLaw → s.Takes (.readAlarms tag channel) rest →
    (24 ≤ channel.toNat → channel ≠ 0xFF →
      exec (.readAlarms tag channel) s = .next ((s.withFrames rest).sends (answer tag 0x08 .badIndex []))) ∧
    (∀ c : ChannelNo, channel.toNat = c.val →
      exec (.readAlarms tag channel) s = .next (((s.withFrames rest).modCh c fun x => { x with latched := x.active }).sends
        (answer tag 0x08 .ok
          [channel, (s.ch c).latched.byte, byteOf ((s.ch c).active.byte.toNat + 32 * (s.ch c).action.code)]))) ∧
    (channel = 0xFF → ∃ t, exec (.readAlarms tag channel) s = .next t ∧
      (∀ c, t.ch c = { s.ch c with latched := (s.ch c).active }) ∧
      t.outgoing = s.outgoing ++ [answer tag 0x08 .ok ((List.finRange 24).flatMap fun c =>
        [(s.ch c).latched.byte, byteOf ((s.ch c).active.byte.toNat + 32 * (s.ch c).action.code)])] ∧
      (s.withFrames rest).OnlyReports { t with ctx := s.ctx })

/-- A frame that is no command (R165, R169, R172): one RESPONSE with its tag and command byte, and nothing else changes.  The
completion is BAD_COMMAND, but BAD_INDEX where a READ_ENTRY or WRITE_ENTRY of at least two argument bytes names a table above 4 and
BAD_VALUE where a SLEW_BYPASS of one argument byte names neither off nor on (how far the length check goes for a table above 4 is the
model's, notes/assumptions/16.md). -/
def Obligations.BadCommandAnswersAndChangesNothing : Prop :=
  ∀ (tag cmd : Byte) (args : List Byte) (rest : List (List Byte)) (s : State), s.TransmitterLaw →
    s.Takes (.badCommand (tag :: cmd :: args)) rest →
    exec (.badCommand (tag :: cmd :: args)) s = .next ((s.withFrames rest).sends (answer tag cmd
      (if cmd = 0x0F ∧ args.length = 1 then .badValue
       else if (cmd = 0x03 ∨ cmd = 0x04) ∧ 2 ≤ args.length ∧ 4 < byteAt args 0 then .badIndex
       else .badCommand) []))

/-! ### Management commands that write tables -/

/-- WRITE_ENTRY of a channel entry (R6, R7): the checks in their order, and with all of them passed the entry whose layout the
record is, at once; nothing else changes. -/
def Obligations.WriteEntryChannelChecksInOrder : Prop :=
  ∀ (tag index : Byte) (record : List Byte) (rest : List (List Byte)) (s : State), s.TransmitterLaw → record.length = 31 →
    s.Takes (.writeEntryChannel tag index record) rest →
    (24 ≤ index.toNat →
      exec (.writeEntryChannel tag index record) s = .next ((s.withFrames rest).sends (answer tag 0x04 .badIndex []))) ∧
    ∀ c : ChannelNo, index.toNat = c.val →
      (s.pst.state.isSaving = true →
        exec (.writeEntryChannel tag index record) s = .next ((s.withFrames rest).sends (answer tag 0x04 .storeBusy []))) ∧
      (s.pst.state.isSaving = false → (s.ch c).drive ≠ .off →
        exec (.writeEntryChannel tag index record) s = .next ((s.withFrames rest).sends (answer tag 0x04 .chActive []))) ∧
      (s.pst.state.isSaving = false → (s.ch c).drive = .off → ¬ channelRecordValid record →
        exec (.writeEntryChannel tag index record) s = .next ((s.withFrames rest).sends (answer tag 0x04 .badValue []))) ∧
      (s.pst.state.isSaving = false → (s.ch c).drive = .off → channelRecordValid record →
        ∃ e : ChannelEntry, e.bytes = record ∧
          exec (.writeEntryChannel tag index record) s =
            .next (State.sends { s.withFrames rest with ct := s.ct.set c.val e } (answer tag 0x04 .ok [])))

/-- (a) WRITE_ENTRY of the sequence record (R87).

(b) WRITE_ENTRY of a node record (R100): only the expected flag is taken.

(c) WRITE_ENTRY of a preset entry (R148). -/
def Obligations.WriteEntryTablesCheckInOrder : Prop :=
  (∀ (tag index : Byte) (record : List Byte) (rest : List (List Byte)) (s : State), s.TransmitterLaw → record.length = 39 →
     s.Takes (.writeEntrySequence tag index record) rest →
     (index ≠ 0 →
       exec (.writeEntrySequence tag index record) s = .next ((s.withFrames rest).sends (answer tag 0x04 .badIndex []))) ∧
     (index = 0 → s.pst.state.isSaving = true →
       exec (.writeEntrySequence tag index record) s = .next ((s.withFrames rest).sends (answer tag 0x04 .storeBusy []))) ∧
     (index = 0 → s.pst.state.isSaving = false → s.psq.state ≠ .idle →
       exec (.writeEntrySequence tag index record) s = .next ((s.withFrames rest).sends (answer tag 0x04 .busy []))) ∧
     (index = 0 → s.pst.state.isSaving = false → s.psq.state = .idle → ¬ sequenceRecordValid record →
       exec (.writeEntrySequence tag index record) s = .next ((s.withFrames rest).sends (answer tag 0x04 .badValue []))) ∧
     (index = 0 → s.pst.state.isSaving = false → s.psq.state = .idle → sequenceRecordValid record →
       ∃ r : SequenceRecord, r.bytes = record ∧
         exec (.writeEntrySequence tag index record) s =
           .next (State.sends { s.withFrames rest with psq := { s.psq with record := r } } (answer tag 0x04 .ok [])))) ∧
  (∀ (tag index : Byte) (record : List Byte) (rest : List (List Byte)) (s : State), s.TransmitterLaw → record.length = 6 →
     s.Takes (.writeEntryNode tag index record) rest →
     (index = 0 ∨ 31 ≤ index.toNat →
       exec (.writeEntryNode tag index record) s = .next ((s.withFrames rest).sends (answer tag 0x04 .badIndex []))) ∧
     ∀ n : Node, index.toNat = n.val + 1 →
       (s.pst.state.isSaving = true →
         exec (.writeEntryNode tag index record) s = .next ((s.withFrames rest).sends (answer tag 0x04 .storeBusy []))) ∧
       (s.pst.state.isSaving = false → 2 ≤ byteAt record 0 →
         exec (.writeEntryNode tag index record) s = .next ((s.withFrames rest).sends (answer tag 0x04 .badValue []))) ∧
       (s.pst.state.isSaving = false → byteAt record 0 = 0 → (∃ c, (s.ch c).drive ≠ .off ∧ (s.entry c).node = n) →
         exec (.writeEntryNode tag index record) s = .next ((s.withFrames rest).sends (answer tag 0x04 .conflict []))) ∧
       (s.pst.state.isSaving = false → byteAt record 0 = 0 → (∀ c, (s.ch c).drive ≠ .off → (s.entry c).node ≠ n) →
         exec (.writeEntryNode tag index record) s = .next (State.sends
           { s.withFrames rest with nt := s.nt.set n.val { s.node n with expected := false } } (answer tag 0x04 .ok []))) ∧
       (s.pst.state.isSaving = false → byteAt record 0 = 1 →
         exec (.writeEntryNode tag index record) s = .next (State.sends
           { s.withFrames rest with nt := s.nt.set n.val { s.node n with expected := true } } (answer tag 0x04 .ok [])))) ∧
  (∀ (tag index : Byte) (record : List Byte) (rest : List (List Byte)) (s : State), s.TransmitterLaw → record.length = 4 →
     s.Takes (.writeEntryPreset tag index record) rest →
     (64 ≤ index.toNat →
       exec (.writeEntryPreset tag index record) s = .next ((s.withFrames rest).sends (answer tag 0x04 .badIndex []))) ∧
     ∀ k : Fin 64, index.toNat = k.val →
       (s.pst.state.isSaving = true →
         exec (.writeEntryPreset tag index record) s = .next ((s.withFrames rest).sends (answer tag 0x04 .storeBusy []))) ∧
       (s.pst.state.isSaving = false → s.pru.state = .applying →
         exec (.writeEntryPreset tag index record) s = .next ((s.withFrames rest).sends (answer tag 0x04 .busy []))) ∧
       (s.pst.state.isSaving = false → s.pru.state = .idle → ¬ presetRecordValid record →
         exec (.writeEntryPreset tag index record) s = .next ((s.withFrames rest).sends (answer tag 0x04 .badValue []))) ∧
       (s.pst.state.isSaving = false → s.pru.state = .idle → presetRecordValid record →
         ∃ p : PresetEntry, p.bytes = record ∧
           exec (.writeEntryPreset tag index record) s = .next (State.sends
             { s.withFrames rest with pru := { s.pru with list := s.pru.list.set k.val p } } (answer tag 0x04 .ok []))))

/-- (a) The refusals of a WRITE_ENTRY of the part config record, in their order (R170); a refused write changes nothing.

(b) An accepted WRITE_ENTRY of the part config record (R170, R171, R144) with no link-rate switch pending: the record is replaced
whole; in QUIET another silence_timeout stops or starts the silence timer; in SILENT a non-zero one leaves the silence record; a
link_rate other than the rate in use waits for the end of this RESPONSE. -/
def Obligations.WriteEntryPartChecksInOrder : Prop :=
  (∀ (tag index : Byte) (record : List Byte) (rest : List (List Byte)) (s : State), s.TransmitterLaw → record.length = 7 →
     s.Takes (.writeEntryPart tag index record) rest →
     (index ≠ 0 →
       exec (.writeEntryPart tag index record) s = .next ((s.withFrames rest).sends (answer tag 0x04 .badIndex []))) ∧
     (index = 0 → s.pst.state.isSaving = true →
       exec (.writeEntryPart tag index record) s = .next ((s.withFrames rest).sends (answer tag 0x04 .storeBusy []))) ∧
     (index = 0 → s.pst.state.isSaving = false → ¬ configRecordValid record →
       exec (.writeEntryPart tag index record) s = .next ((s.withFrames rest).sends (answer tag 0x04 .badValue [])))) ∧
  (∀ (tag : Byte) (record : List Byte) (rest : List (List Byte)) (s : State), s.TransmitterLaw → record.length = 7 →
     s.Takes (.writeEntryPart tag 0 record) rest → s.pst.state.isSaving = false → configRecordValid record →
     s.switchPending = false → s.act.state = .quiet ∨ byteAt record 0 ≠ 0 ∨ s.mgx.config.silenceTimeout = 0 →
     ∃ p : PartConfig, p.bytes = record ∧
       exec (.writeEntryPart tag 0 record) s = .next (State.sends
         { s.withFrames rest with
           mgx := { s.mgx with queue := rest, config := p }
           act := if p.silenceTimeout = s.mgx.config.silenceTimeout ∨ s.act.state = .silent then s.act
             else ⟨.quiet, if p.silenceTimeout = 0 then .stopped else .running (p.silenceTimeout.val * 10000)⟩ }
         (.response tag 0x04 .ok [] (if p.linkRate = s.clp.rate then .nothing else .switchRate p.linkRate))))

/-! ### Enabling, disabling and releasing a channel -/

/-- (a) ENABLE_CHANNEL refused (R35): the four checks in their order; nothing but the RESPONSE changes.

(b) ENABLE_CHANNEL accepted while QUIET (R36, R16): target, goal and sent code at the safe code, applied code absent, MOVING with the
step timer running, and a WRITE of the safe code with the reconnect flag at the tail of the write section; nothing else changes. -/
def Obligations.EnableChannelChecksInOrder : Prop :=
  (∀ (tag channel : Byte) (rest : List (List Byte)) (s : State), s.TransmitterLaw → s.Takes (.enableChannel tag channel) rest →
     (24 ≤ channel.toNat →
       exec (.enableChannel tag channel) s = .next ((s.withFrames rest).sends (answer tag 0x05 .badIndex []))) ∧
     ∀ c : ChannelNo, channel.toNat = c.val →
       ((s.ch c).drive ≠ .off →
         exec (.enableChannel tag channel) s = .next ((s.withFrames rest).sends (answer tag 0x05 .chActive []))) ∧
       ((s.ch c).drive = .off →
         (∃ d, d ≠ c ∧ (s.ch d).drive ≠ .off ∧ (s.entry d).node = (s.entry c).node ∧ (s.entry d).point = (s.entry c).point) →
         exec (.enableChannel tag channel) s = .next ((s.withFrames rest).sends (answer tag 0x05 .conflict []))) ∧
       ((s.ch c).drive = .off →
         (∀ d, d ≠ c → (s.ch d).drive ≠ .off → (s.entry d).node = (s.entry c).node → (s.entry d).point ≠ (s.entry c).point) →
         (s.node (s.entry c).node).expected = false →
         exec (.enableChannel tag channel) s = .next ((s.withFrames rest).sends (answer tag 0x05 .nodeUnknown [])))) ∧
  (∀ (tag channel : Byte) (c : ChannelNo) (rest : List (List Byte)) (s : State), s.TransmitterLaw →
     s.Takes (.enableChannel tag channel) rest → channel.toNat = c.val → s.ch c = .reset → s.oq.hasEntry c = false →
     (∀ d, d ≠ c → (s.ch d).drive ≠ .off → (s.entry d).node = (s.entry c).node → (s.entry d).point ≠ (s.entry c).point) →
     (s.node (s.entry c).node).expected = true → s.act.state = .quiet →
     exec (.enableChannel tag channel) s = .next (State.sends
       { s.withFrames rest with
         ctx := s.ctx.set c.val { ChannelCtx.reset with
           drive := .moving, target := some (s.entry c).safeCode, goal := some (s.entry c).safeCode,
           sent := some (s.entry c).safeCode, stepTimer := .running ((s.entry c).slewInterval.val * 1000) }
         oq := { s.oq with writes := s.oq.writes ++ [⟨c, (s.entry c).safeCode, true⟩] } }
       (answer tag 0x05 .ok [])))

/-- ENABLE_CHANNEL accepted while SILENT (R36 step 4, R130, R33): SILENCE joins both sets and the effective action is act_silence;
with ISOLATE the reconnecting write is displaced by an ISOLATE and the channel is ISOLATING, otherwise it is MOVING with the goal at
the safe code. -/
def Obligations.EnableChannelWhileSilent : Prop :=
  ∀ (tag channel : Byte) (c : ChannelNo) (rest : List (List Byte)) (s : State), s.TransmitterLaw →
    s.Takes (.enableChannel tag channel) rest → channel.toNat = c.val → s.ch c = .reset → s.oq.hasEntry c = false →
    (∀ d, d ≠ c → (s.ch d).drive ≠ .off → (s.entry d).node = (s.entry c).node → (s.entry d).point ≠ (s.entry c).point) →
    (s.node (s.entry c).node).expected = true → s.act.state = .silent →
    ∃ t, exec (.enableChannel tag channel) s = .next t ∧
      (t.ch c).active = ⟨false, false, false, false, true⟩ ∧ (t.ch c).latched = ⟨false, false, false, false, true⟩ ∧
      (t.ch c).action = (s.entry c).actSilence ∧
      (t.ch c).target = some (s.entry c).safeCode ∧ (t.ch c).goal = some (s.entry c).safeCode ∧
      (t.ch c).sent = some (s.entry c).safeCode ∧ (t.ch c).applied = none ∧
      ((s.entry c).actSilence = .isolate → (t.ch c).drive = .isolating ∧
        t.oq = { isolates := s.oq.isolates ++ [c], writes := s.oq.writes }) ∧
      ((s.entry c).actSilence ≠ .isolate → (t.ch c).drive = .moving ∧
        t.oq = { s.oq with writes := s.oq.writes ++ [⟨c, (s.entry c).safeCode, true⟩] }) ∧
      t.outgoing = s.clp.tx.toList ++
        (if (s.entry c).alarmMask.silence
         then alarmPlaced s.rq c ⟨false, false, false, false, true⟩ ⟨false, false, false, false, true⟩ (s.entry c).actSilence
         else s.rq) ++ [answer tag 0x05 .ok []] ∧
      State.OnlyChannel c (s.withFrames rest) t

/-- (a) DISABLE_CHANNEL refused (R37), and the last write of a disable of a driving channel (R39): a queued WRITE takes the safe code in
place and keeps its flag, otherwise the safe code is placed at the tail, with the reconnect flag in RELEASING.

(b) DISABLE_CHANNEL in ISOLATING or ISOLATED (R38, R41, R75): the queued entry is removed, the context takes its reset values, the
channel's transaction in flight and its waiting POLL become stale (R75, R92), and an ALARM report is offered if a masked class was
active. -/
def Obligations.DisableChannelStopsOrReachesOff : Prop :=
  (∀ (tag channel : Byte) (rest : List (List Byte)) (s : State), s.TransmitterLaw → s.Takes (.disableChannel tag channel) rest →
     (24 ≤ channel.toNat →
       exec (.disableChannel tag channel) s = .next ((s.withFrames rest).sends (answer tag 0x06 .badIndex []))) ∧
     ∀ c : ChannelNo, channel.toNat = c.val →
       ((s.ch c).drive = .off ∨ (s.ch c).drive = .stopping →
         exec (.disableChannel tag channel) s = .next ((s.withFrames rest).sends (answer tag 0x06 .chOff []))) ∧
       ((s.ch c).drive = .moving ∨ (s.ch c).drive = .steady ∨ (s.ch c).drive = .releasing → s.oq.hasIsolate c = false →
         exec (.disableChannel tag channel) s = .next (State.sends
           { s.withFrames rest with
             ctx := s.ctx.set c.val { s.ch c with
               drive := .stopping, goal := some (s.entry c).safeCode, sent := some (s.entry c).safeCode }
             oq := { s.oq with writes :=
               if s.oq.hasWrite c then s.oq.writes.map fun w =>
                 if w.channel = c then
                   ⟨c, (s.entry c).safeCode, w.reconnect || decide ((s.ch c).drive = .releasing)⟩ else w
               else s.oq.writes ++ [⟨c, (s.entry c).safeCode, decide ((s.ch c).drive = .releasing)⟩] } }
           (answer tag 0x06 .ok [])))) ∧
  (∀ (tag channel : Byte) (c : ChannelNo) (rest : List (List Byte)) (s : State), s.TransmitterLaw →
     s.Takes (.disableChannel tag channel) rest → channel.toNat = c.val →
     ((s.ch c).drive = .isolating ∨ (s.ch c).drive = .isolated) →
     ∃ t, exec (.disableChannel tag channel) s = .next t ∧ t.ch c = .reset ∧
       t.oq.isolates = s.oq.isolates.filter (fun d => d != c) ∧ t.oq.writes = s.oq.writes.filter (fun w => !w.isOf c) ∧
       (∀ x, s.fbc.state.record? = some x → ∃ y, t.fbc.state.record? = some y ∧ y.job = x.job ∧
         y.stale = (x.stale || decide (x.job.channel? = some c))) ∧
       s.psq.marked c t.psq ∧
       t.outgoing = s.clp.tx.toList ++
         (if ((s.ch c).active.inter (s.entry c).alarmMask).nonempty then alarmPlaced s.rq c .empty .empty .none else s.rq) ++
         [answer tag 0x06 .ok []] ∧
       State.OnlyChannel c (s.withFrames rest) { t with fbc := s.fbc, psq := s.psq })

/-- (a) RELEASE_CHANNEL refused (R42, R136): the four checks in their order; nothing but the RESPONSE changes.

(b) RELEASE_CHANNEL accepted in ISOLATED (R43, R44): TRK, HIGH and LOW leave the active set, value_faults is 0, the effective action is
recomputed, and a reconnecting WRITE of the applied code, or of the safe code, is placed; the goal and the latched set are kept.  An
ALARM report is offered if a masked class left (R137), and the RESPONSE OK comes last.

(c) RELEASE_CHANNEL accepted in ISOLATING with no WRITE of the channel in flight and the step timer running (R43, R56): the queued
ISOLATE is removed, the sent code is rolled back to the applied or the safe code, and the channel is MOVING or STEADY under the
recomputed action; with the ALARM report and the RESPONSE as in (b). -/
def Obligations.ReleaseChannelChecksInOrder : Prop :=
  (∀ (tag channel : Byte) (rest : List (List Byte)) (s : State), s.TransmitterLaw → s.Takes (.releaseChannel tag channel) rest →
     (24 ≤ channel.toNat →
       exec (.releaseChannel tag channel) s = .next ((s.withFrames rest).sends (answer tag 0x07 .badIndex []))) ∧
     ∀ c : ChannelNo, channel.toNat = c.val →
       ((s.ch c).drive ≠ .isolating → (s.ch c).drive ≠ .isolated →
         exec (.releaseChannel tag channel) s = .next ((s.withFrames rest).sends (answer tag 0x07 .notIsolated []))) ∧
       ((s.ch c).drive = .isolating ∨ (s.ch c).drive = .isolated → s.inFlight c (.isolate c) →
         exec (.releaseChannel tag channel) s = .next ((s.withFrames rest).sends (answer tag 0x07 .busy []))) ∧
       ((s.ch c).drive = .isolating ∨ (s.ch c).drive = .isolated → ¬ s.inFlight c (.isolate c) →
         ((s.ch c).active.noresp = true ∧ (s.entry c).actNoresp = .isolate) ∨
           ((s.ch c).active.silence = true ∧ (s.entry c).actSilence = .isolate) →
         exec (.releaseChannel tag channel) s = .next ((s.withFrames rest).sends (answer tag 0x07 .alarmActive [])))) ∧
  (∀ (tag channel : Byte) (c : ChannelNo) (rest : List (List Byte)) (s : State), s.TransmitterLaw →
     s.Takes (.releaseChannel tag channel) rest → channel.toNat = c.val → (s.ch c).drive = .isolated → s.oq.hasEntry c = false →
     ¬ s.inFlight c (.isolate c) → ¬ ((s.ch c).active.noresp = true ∧ (s.entry c).actNoresp = .isolate) →
     ¬ ((s.ch c).active.silence = true ∧ (s.entry c).actSilence = .isolate) →
     (s.ch c).action = effectiveAction (s.entry c) (s.ch c).active →
     ∃ t, exec (.releaseChannel tag channel) s = .next t ∧
       t.ch c = { s.ch c with
         drive := .releasing, sent := some ((s.ch c).applied.getD (s.entry c).safeCode), valueFaults := 0
         stepTimer := .running ((s.entry c).slewInterval.val * 1000)
         active := ⟨false, false, false, (s.ch c).active.noresp, (s.ch c).active.silence⟩
         action := effectiveAction (s.entry c) ⟨false, false, false, (s.ch c).active.noresp, (s.ch c).active.silence⟩ } ∧
       t.oq = { s.oq with writes := s.oq.writes ++ [⟨c, (s.ch c).applied.getD (s.entry c).safeCode, true⟩] } ∧
       t.outgoing = s.clp.tx.toList ++
         (if ((s.ch c).active.inter ((s.entry c).alarmMask.inter .valueClasses)).nonempty
          then alarmPlaced s.rq c (t.ch c).active (t.ch c).latched (t.ch c).action else s.rq) ++ [answer tag 0x07 .ok []] ∧
       State.OnlyChannel c (s.withFrames rest) t) ∧
  (∀ (tag channel : Byte) (c : ChannelNo) (rest : List (List Byte)) (s : State), s.TransmitterLaw →
     s.Takes (.releaseChannel tag channel) rest → channel.toNat = c.val → (s.ch c).drive = .isolating →
     s.fbc.state.record? = none → s.oq.hasWrite c = false → (s.ch c).stepTimer.isRunning = true →
     ¬ ((s.ch c).active.noresp = true ∧ (s.entry c).actNoresp = .isolate) →
     ¬ ((s.ch c).active.silence = true ∧ (s.entry c).actSilence = .isolate) →
     ∃ t, exec (.releaseChannel tag channel) s = .next t ∧
       t.oq = { s.oq with isolates := s.oq.isolates.filter fun d => d != c } ∧
       (t.ch c).active = ⟨false, false, false, (s.ch c).active.noresp, (s.ch c).active.silence⟩ ∧
       (t.ch c).latched = (s.ch c).latched ∧ (t.ch c).valueFaults = 0 ∧ (t.ch c).norespFaults = (s.ch c).norespFaults ∧
       (t.ch c).sent = some ((s.ch c).applied.getD (s.entry c).safeCode) ∧ (t.ch c).applied = (s.ch c).applied ∧
       (t.ch c).goal = (match (t.ch c).action with
         | .none => (s.ch c).target
         | .hold => some ((s.ch c).applied.getD (s.entry c).safeCode)
         | .safe => some (s.entry c).safeCode
         | .isolate => (s.ch c).goal) ∧
       ((t.ch c).drive = .steady ↔ (s.ch c).applied.isSome = true ∧ (t.ch c).goal = (s.ch c).applied) ∧
       ((t.ch c).drive = .steady ∨ (t.ch c).drive = .moving) ∧
       t.outgoing = s.clp.tx.toList ++
         (if ((s.ch c).active.inter ((s.entry c).alarmMask.inter .valueClasses)).nonempty
          then alarmPlaced s.rq c (t.ch c).active (t.ch c).latched (t.ch c).action else s.rq) ++ [answer tag 0x07 .ok []] ∧
       State.OnlyChannel c (s.withFrames rest) t)

/-! ### Injection, FLUSH_OUTPUT and SLEW_BYPASS -/

/-- INJECT_READBACK (R110): the checks in their order, and the substitution that replaces a pending one. -/
def Obligations.InjectReadbackChecksInOrder : Prop :=
  ∀ (tag channel count : Byte) (value : Code) (rest : List (List Byte)) (s : State), s.TransmitterLaw →
    s.Takes (.injectReadback tag channel value count) rest →
    (24 ≤ channel.toNat → exec (.injectReadback tag channel value count) s =
      .next ((s.withFrames rest).sends (answer tag 0x09 .badIndex []))) ∧
    ∀ c : ChannelNo, channel.toNat = c.val →
      ((s.ch c).drive = .off → exec (.injectReadback tag channel value count) s =
        .next ((s.withFrames rest).sends (answer tag 0x09 .chOff []))) ∧
      ((s.ch c).drive ≠ .off → count = 0 ∨ 15 < count.toNat → exec (.injectReadback tag channel value count) s =
        .next ((s.withFrames rest).sends (answer tag 0x09 .badValue []))) ∧
      (∀ n : Fin 16, (s.ch c).drive ≠ .off → n ≠ 0 → count.toNat = n.val → exec (.injectReadback tag channel value count) s =
        .next (((s.withFrames rest).modCh c fun x => { x with injectValue := value, injectLeft := n }).sends
          (answer tag 0x09 .ok [])))

/-- (a) FLUSH_OUTPUT in general (R57, R58): every WRITE is removed and their number answered; the isolate section stays.  A channel
without a removed entry keeps its context.  RELEASING: the sent code is rolled back and the step timer started.  STOPPING: the context is
reset, the channel's transaction in flight and its waiting POLL become stale (R75, R92), and an ALARM report is offered if a masked
class was active.  MOVING: the sent code is rolled back and the step test made, and a WRITE queued afterwards is the step it issues;
such steps stand in ascending channel order.

(b) FLUSH_OUTPUT with the write section empty answers 0 and changes nothing.

(c) FLUSH_OUTPUT where the only WRITE queued is one of a MOVING channel with its step timer running: nothing else of the part differs. -/
def Obligations.FlushOutputRemovesEveryWrite : Prop :=
  (∀ (tag : Byte) (rest : List (List Byte)) (s : State), s.TransmitterLaw → s.Takes (.flushOutput tag) rest →
     ∃ t, exec (.flushOutput tag) s = .next t ∧ t.oq.isolates = s.oq.isolates ∧
       (t.oq.writes.map fun w => w.channel.val).Pairwise (· < ·) ∧
       (∀ c, s.oq.hasWrite c = false ∨ ((s.ch c).drive ≠ .moving ∧ (s.ch c).drive ≠ .releasing ∧ (s.ch c).drive ≠ .stopping) →
         t.ch c = s.ch c ∧ t.oq.hasWrite c = false) ∧
       (∀ c, s.oq.hasWrite c = true → (s.ch c).drive = .releasing → t.oq.hasWrite c = false ∧
         t.ch c = { s.ch c with
           sent := some ((s.ch c).applied.getD (s.entry c).safeCode), stepTimer := .running ((s.entry c).slewInterval.val * 1000) }) ∧
       (∀ c, s.oq.hasWrite c = true → (s.ch c).drive = .stopping → t.oq.hasWrite c = false ∧ t.ch c = .reset) ∧
       (∀ c x, s.oq.hasWrite c = true → (s.ch c).drive = .moving →
         x = { s.ch c with sent := some ((s.ch c).applied.getD (s.entry c).safeCode) } →
         (s.oq.hasIsolate c = true ∨ s.writeInFlight c = true ∨ s.isolateInFlight c = true →
           t.oq.hasWrite c = false ∧ t.ch c = x) ∧
         (s.oq.hasIsolate c = false → s.writeInFlight c = false → s.isolateInFlight c = false →
           ((s.ch c).applied.isSome = true → (s.ch c).goal = (s.ch c).applied →
             t.oq.hasWrite c = false ∧ t.ch c = { x with drive := .steady, settleLeft := (s.entry c).settleCount }) ∧
           (∀ g, (s.ch c).goal = some g → (s.ch c).applied ≠ some g →
             ((s.ch c).stepTimer.isRunning = true → t.oq.hasWrite c = false ∧ t.ch c = x) ∧
             (∀ step, (s.ch c).stepTimer.isRunning = false →
               step = stepCode (s.entry c) s.mgx.slewBypass ((s.ch c).applied.getD (s.entry c).safeCode) g →
               (∀ w, w ∈ t.oq.writes ∧ w.channel = c ↔ w = ⟨c, step, false⟩) ∧
               t.ch c = { x with sent := some step, stepTimer := .running ((s.entry c).slewInterval.val * 1000) })))) ∧
       (∀ x, s.fbc.state.record? = some x → ∃ y, t.fbc.state.record? = some y ∧ y.job = x.job ∧
         (y.stale = true ↔ x.stale = true ∨
           ∃ c, x.job.channel? = some c ∧ s.oq.hasWrite c = true ∧ (s.ch c).drive = .stopping)) ∧
       (∀ c m, s.psq.pollSlot = some (.poll c m) → t.psq =
         { s.psq with pollSlot := some (.poll c (m || (s.oq.hasWrite c && (s.ch c).drive == .stopping))) }) ∧
       ((∀ c m, s.psq.pollSlot ≠ some (.poll c m)) → t.psq = s.psq) ∧
       t.outgoing = s.clp.tx.toList ++
         ((List.finRange 24).filter fun c => s.oq.hasWrite c && (s.ch c).drive == .stopping &&
           ((s.ch c).active.inter (s.entry c).alarmMask).nonempty).foldl (fun q c => alarmPlaced q c .empty .empty .none) s.rq ++
         [answer tag 0x0E .ok [byteOf s.oq.writes.length]] ∧
       t.ct = s.ct ∧ t.nt = s.nt ∧ t.act = s.act ∧ t.pru = s.pru ∧ t.pst = s.pst ∧ t.mgx = (s.withFrames rest).mgx) ∧
  (∀ (tag : Byte) (rest : List (List Byte)) (s : State), s.TransmitterLaw → s.Takes (.flushOutput tag) rest → s.oq.writes = [] →
     exec (.flushOutput tag) s = .next ((s.withFrames rest).sends (answer tag 0x0E .ok [0]))) ∧
  (∀ (tag : Byte) (c : ChannelNo) (w : WriteEntry) (rest : List (List Byte)) (s : State), s.TransmitterLaw →
     s.Takes (.flushOutput tag) rest → s.oq.writes = [w] → w.channel = c → s.oq.hasIsolate c = false →
     (s.ch c).drive = .moving → (s.ch c).stepTimer.isRunning = true → s.fbc.state.record? = none →
     ∃ t, exec (.flushOutput tag) s = .next t ∧ t.oq = { s.oq with writes := [] } ∧
       (t.ch c).sent = some ((s.ch c).applied.getD (s.entry c).safeCode) ∧ (t.ch c).goal = (s.ch c).goal ∧
       (t.ch c).applied = (s.ch c).applied ∧
       ((t.ch c).drive = .steady ↔ (s.ch c).applied.isSome = true ∧ (s.ch c).goal = (s.ch c).applied) ∧
       t.outgoing = s.outgoing ++ [answer tag 0x0E .ok [1]] ∧ State.OnlyChannel c (s.withFrames rest) t)

/-- SLEW_BYPASS on and off (R30, R172): off only clears the setting; on sets it and gives each queued WRITE of a MOVING channel its
goal, in place, with the sent code following; the value already held changes nothing.

A MOVING channel whose WRITE has been granted and not yet strobed has its sent code name the goal (R53, last paragraph); one whose WRITE
has been strobed keeps it.  That bound at the strobe is the model's choice (notes/assumptions/23.md). -/
def Obligations.SlewBypassCoalescesQueuedSteps : Prop :=
  ∀ (tag : Byte) (rest : List (List Byte)) (s : State), s.TransmitterLaw →
    (s.Takes (.slewBypassOff tag) rest → exec (.slewBypassOff tag) s = .next (State.sends
      { s with mgx := { s.mgx with queue := rest, slewBypass := false } } (answer tag 0x0F .ok []))) ∧
    (s.Takes (.slewBypassOn tag) rest → s.mgx.slewBypass = true →
      exec (.slewBypassOn tag) s = .next ((s.withFrames rest).sends (answer tag 0x0F .ok []))) ∧
    (s.Takes (.slewBypassOn tag) rest → s.mgx.slewBypass = false → s.OutputQueueLaw →
      (∀ c, (s.ch c).drive = .moving → (s.ch c).goal.isSome = true) →
      ∃ t, exec (.slewBypassOn tag) s = .next t ∧ t.mgx = { s.mgx with queue := rest, slewBypass := true } ∧
        t.oq.isolates = s.oq.isolates ∧
        t.oq.writes = s.oq.writes.map (fun w =>
          if (s.ch w.channel).drive = .moving then { w with code := (s.ch w.channel).goal.getD 0 } else w) ∧
        (∀ c, t.ch c = if (s.ch c).drive = .moving ∧ (s.oq.hasWrite c = true ∨ s.writeJustGranted c = true)
          then { s.ch c with sent := (s.ch c).goal } else s.ch c) ∧
        t.outgoing = s.outgoing ++ [answer tag 0x0F .ok []] ∧
        (s.withFrames rest).OnlyReports { t with ctx := s.ctx, oq := s.oq, mgx := (s.withFrames rest).mgx })

/-! ### The poll sequencer's commands -/

/-- (a) SEQ_RUN (R90, R91): BUSY outside IDLE; in IDLE the walk starts at start_index, with the poll that the first slot places.

(b) SEQ_STOP (R97, R92, R80): SEQ_STOPPING from RUNNING with a waiting poll withdrawn and the pass-over count 0, IDLE from WAITING,
nothing from SEQ_STOPPING and IDLE. -/
def Obligations.SeqRunAndSeqStopActByState : Prop :=
  (∀ (tag : Byte) (rest : List (List Byte)) (s : State), s.TransmitterLaw → s.Takes (.seqRun tag) rest →
     (s.psq.state ≠ .idle → exec (.seqRun tag) s = .next ((s.withFrames rest).sends (answer tag 0x0A .busy []))) ∧
     (s.psq.state = .idle → ∀ request : Option PollRequest,
       (request = match s.psq.record.slots[s.psq.record.startIndex.val] with
         | .empty => none
         | .channel c => if (s.ch c).drive = .off then none else some (.poll c false)
         | .zero n => if (s.node n).expected then some (.zero n) else none) →
       exec (.seqRun tag) s = .next (State.sends
         { s.withFrames rest with psq := { s.psq with
             state := .running, currentIndex := s.psq.record.startIndex
             slotPoll := if request.isSome then .pending else .none, pollSlot := request
             spacingTimer := .running (s.psq.record.slotSpacing.val * 100), periodElapsed := false
             cycleTimer := if s.psq.record.mode = .cyclic ∧ s.psq.record.cyclePeriod ≠ 0
               then .running (s.psq.record.cyclePeriod.val * 1000) else .stopped } }
         (answer tag 0x0A .ok [])))) ∧
  (∀ (tag : Byte) (rest : List (List Byte)) (s : State), s.TransmitterLaw → s.Takes (.seqStop tag) rest →
     (s.psq.state = .idle ∨ s.psq.state = .seqStopping →
       exec (.seqStop tag) s = .next ((s.withFrames rest).sends (answer tag 0x0B .ok []))) ∧
     (s.psq.state = .waiting → exec (.seqStop tag) s = .next (State.sends
       { s.withFrames rest with psq := { s.psq with state := .idle, cycleTimer := .stopped } } (answer tag 0x0B .ok []))) ∧
     (s.psq.state = .running → s.psq.slotPoll ≠ .pending → exec (.seqStop tag) s = .next (State.sends
       { s.withFrames rest with psq := { s.psq with state := .seqStopping, cycleTimer := .stopped } } (answer tag 0x0B .ok []))) ∧
     (s.psq.state = .running → s.psq.slotPoll = .pending → s.psq.spacingTimer ≠ .expired →
       exec (.seqStop tag) s = .next (State.sends
         { s.withFrames rest with
           psq := { s.psq with state := .seqStopping, cycleTimer := .stopped, pollSlot := none, slotPoll := .none }
           fbc := { s.fbc with passOver := 0 } } (answer tag 0x0B .ok []))))

/-! ### The preset unit's commands -/

/-- (a) APPLY_PRESET refused (R150): the three checks in their order; nothing but the RESPONSE changes.

(b) APPLY_PRESET accepted (R150 to R153): every preset_taken is cleared and the first entry is reached; with a preset_spacing other
than 0 and more entries to come the timer runs, otherwise the whole span is reached in this event and PRESET_DONE is offered before
the RESPONSE.  A reached entry that is valid and whose channel is neither OFF nor STOPPING sets target and clamped to its calibrated
data, the last one for a channel standing; a channel that no such entry names is otherwise untouched.  Where one reached entry names the
channel, its engine acts on the target as on a setpoint pair's (R15, R23, R25): with action NONE the goal follows and the channel steps
or its queued WRITE is replaced, otherwise goal and queue stay.

With no WRITE queued and one granted, the sent code of an unslewed channel names a new goal until the strobe of that WRITE (R53, last
paragraph) and stays after it.  That bound at the strobe is the model's choice (notes/assumptions/23.md). -/
def Obligations.ApplyPresetChecksInOrder : Prop :=
  (∀ (tag start count : Byte) (rest : List (List Byte)) (s : State), s.TransmitterLaw →
     s.Takes (.applyPreset tag start count) rest →
     (s.pru.state = .applying →
       exec (.applyPreset tag start count) s = .next ((s.withFrames rest).sends (answer tag 0x0C .busy []))) ∧
     (s.pru.state = .idle → count = 0 →
       exec (.applyPreset tag start count) s = .next ((s.withFrames rest).sends (answer tag 0x0C .badValue []))) ∧
     (s.pru.state = .idle → count ≠ 0 → 64 < start.toNat + count.toNat →
       exec (.applyPreset tag start count) s = .next ((s.withFrames rest).sends (answer tag 0x0C .badIndex [])))) ∧
  (∀ (tag start count : Byte) (rest : List (List Byte)) (s : State), s.TransmitterLaw →
     s.Takes (.applyPreset tag start count) rest → s.pru.state = .idle → count ≠ 0 → start.toNat + count.toNat ≤ 64 →
     ∃ t, exec (.applyPreset tag start count) s = .next t ∧ t.pru.list = s.pru.list ∧
       (s.mgx.config.presetSpacing ≠ 0 → 2 ≤ count.toNat → t.pru.state = .applying ∧ t.pru.nextIndex.val = start.toNat + 1 ∧
         t.pru.remaining.val = count.toNat - 1 ∧ t.pru.spacingTimer = .running (s.mgx.config.presetSpacing.val * 1000) ∧
         t.outgoing = s.outgoing ++ [answer tag 0x0C .ok []]) ∧
       (s.mgx.config.presetSpacing = 0 ∨ count = 1 → t.pru.state = .idle ∧
         t.pru.nextIndex.val = start.toNat + count.toNat ∧ t.pru.remaining = 0 ∧ t.pru.spacingTimer = .stopped ∧
         t.outgoing = s.clp.tx.toList ++ partPlaced s.rq .presetDone ++ [answer tag 0x0C .ok []]) ∧
       (∀ reached : Nat, reached = (if s.mgx.config.presetSpacing = 0 then count.toNat else 1) →
         (∀ c, (s.ch c).drive.takesSetpoints = false ∨ (∀ k : Fin 64, start.toNat ≤ k.val → k.val < start.toNat + reached →
             s.pru.list[k.val].valid = true → s.pru.list[k.val].channel ≠ c) → t.ch c = { s.ch c with presetTaken := false }) ∧
         (∀ (k : Fin 64) (p : PresetEntry), start.toNat ≤ k.val → k.val < start.toNat + reached → s.pru.list[k.val] = p →
           p.valid = true → (s.ch p.channel).drive.takesSetpoints = true →
           (∀ j : Fin 64, k.val < j.val → j.val < start.toNat + reached → s.pru.list[j.val].valid = true →
             s.pru.list[j.val].channel ≠ p.channel) →
           (t.ch p.channel).target = some (calibrate (s.entry p.channel) p.data).1 ∧
           (t.ch p.channel).clamped = (calibrate (s.entry p.channel) p.data).2 ∧
           ((∀ j : Fin 64, j.val < k.val → start.toNat ≤ j.val → s.pru.list[j.val].valid = true → s.pru.list[j.val].channel ≠ p.channel) →
             State.TargetTaken p.channel (calibrate (s.entry p.channel) p.data).1 s t))) ∧
       (∀ c, (t.ch c).presetTaken = false) ∧
       (s.withFrames rest).OnlyReports { t with ctx := s.ctx, oq := s.oq, pru := s.pru })

/-- (a) PRESET_SPACING_EXPIRY (R151 to R154) with a preset_spacing other than 0: the entry at next_index is applied exactly if it is valid,
its channel is neither OFF nor STOPPING and it is not taken over; then the counters advance, and the apply ends with PRESET_DONE or
the timer is started again.  An applied entry sets target and clamped and leaves preset_taken, and the channel's engine acts on the target
as on a setpoint pair's (R15, R23, R25): with action NONE the goal follows and the channel steps or its queued WRITE is replaced,
otherwise goal and queue stay.

(b) PRESET_SPACING_EXPIRY after a preset_spacing of 0 has been written (R153): every remaining entry is reached in the one event, and
the apply ends there with PRESET_DONE.  The last remaining entry for a channel that is valid, with the channel neither OFF nor STOPPING
nor taken over, sets target and clamped, and where no other one names the channel its engine acts as in (a); a channel that no such entry
names keeps its context.

In (a) and (b), with no WRITE queued and one granted, the sent code of an unslewed channel names a new goal until the strobe of that WRITE
(R53, last paragraph) and stays after it.  That bound at the strobe is the model's choice (notes/assumptions/23.md). -/
def Obligations.PresetSpacingExpiryReachesEntries : Prop :=
  (∀ (k : Fin 64) (p : PresetEntry) (s : State), s.TransmitterLaw → s.pru.state = .applying →
     s.pru.spacingTimer.isRunning = true → s.pru.nextIndex.val = k.val → s.pru.list[k.val] = p → 1 ≤ s.pru.remaining.val →
     s.mgx.config.presetSpacing ≠ 0 →
     ∃ t, exec .presetSpacingExpiry s = .next t ∧
       t.pru.list = s.pru.list ∧ t.pru.nextIndex.val = k.val + 1 ∧ t.pru.remaining.val = s.pru.remaining.val - 1 ∧
       (s.pru.remaining.val = 1 → t.pru.state = .idle ∧ t.pru.spacingTimer = .stopped ∧
         t.outgoing = s.clp.tx.toList ++ partPlaced s.rq .presetDone) ∧
       (s.pru.remaining.val ≠ 1 → t.pru.state = .applying ∧
         t.pru.spacingTimer = .running (s.mgx.config.presetSpacing.val * 1000) ∧ t.outgoing = s.outgoing) ∧
       ((p.valid = true ∧ (s.ch p.channel).drive.takesSetpoints = true ∧ (s.ch p.channel).presetTaken = false) →
         (t.ch p.channel).target = some (calibrate (s.entry p.channel) p.data).1 ∧
         (t.ch p.channel).clamped = (calibrate (s.entry p.channel) p.data).2 ∧ (t.ch p.channel).presetTaken = false ∧
         State.TargetTaken p.channel (calibrate (s.entry p.channel) p.data).1 s t) ∧
       (¬ (p.valid = true ∧ (s.ch p.channel).drive.takesSetpoints = true ∧ (s.ch p.channel).presetTaken = false) →
         t.ctx = s.ctx ∧ t.oq = s.oq) ∧
       State.OnlyChannel p.channel s { t with pru := s.pru }) ∧
  (∀ s : State, s.TransmitterLaw → s.pru.state = .applying → s.pru.spacingTimer.isRunning = true →
     1 ≤ s.pru.remaining.val → s.pru.nextIndex.val + s.pru.remaining.val ≤ 64 → s.mgx.config.presetSpacing = 0 →
     ∃ t, exec .presetSpacingExpiry s = .next t ∧ t.pru.list = s.pru.list ∧ t.pru.state = .idle ∧
       t.pru.nextIndex.val = s.pru.nextIndex.val + s.pru.remaining.val ∧ t.pru.remaining = 0 ∧ t.pru.spacingTimer = .stopped ∧
       t.outgoing = s.clp.tx.toList ++ partPlaced s.rq .presetDone ∧
       (∀ c, (s.ch c).drive.takesSetpoints = false ∨ (s.ch c).presetTaken = true ∨
           (∀ k : Fin 64, s.pru.nextIndex.val ≤ k.val → k.val < s.pru.nextIndex.val + s.pru.remaining.val →
             s.pru.list[k.val].valid = true → s.pru.list[k.val].channel ≠ c) → t.ch c = s.ch c) ∧
       (∀ (k : Fin 64) (p : PresetEntry), s.pru.nextIndex.val ≤ k.val → k.val < s.pru.nextIndex.val + s.pru.remaining.val →
         s.pru.list[k.val] = p → p.valid = true → (s.ch p.channel).drive.takesSetpoints = true →
         (s.ch p.channel).presetTaken = false →
         (∀ j : Fin 64, k.val < j.val → j.val < s.pru.nextIndex.val + s.pru.remaining.val → s.pru.list[j.val].valid = true →
           s.pru.list[j.val].channel ≠ p.channel) →
         (t.ch p.channel).target = some (calibrate (s.entry p.channel) p.data).1 ∧
         (t.ch p.channel).clamped = (calibrate (s.entry p.channel) p.data).2 ∧ (t.ch p.channel).presetTaken = false ∧
         ((∀ j : Fin 64, j.val < k.val → s.pru.nextIndex.val ≤ j.val → s.pru.list[j.val].valid = true →
             s.pru.list[j.val].channel ≠ p.channel) →
           State.TargetTaken p.channel (calibrate (s.entry p.channel) p.data).1 s t)) ∧
       s.OnlyReports { t with ctx := s.ctx, oq := s.oq, pru := s.pru })

/-- ABORT_PRESET (R155): in APPLYING the remaining count is answered and PRESET_ABORTED offered; in IDLE 0 is answered and nothing
changes. -/
def Obligations.AbortPresetAnswersTheRemaining : Prop :=
  ∀ (tag : Byte) (rest : List (List Byte)) (s : State), s.TransmitterLaw → s.Takes (.abortPreset tag) rest →
    (s.pru.state = .idle → exec (.abortPreset tag) s = .next ((s.withFrames rest).sends (answer tag 0x0D .ok [0]))) ∧
    (s.pru.state = .applying → ∃ t, exec (.abortPreset tag) s = .next t ∧
      t.pru = { s.pru with state := .idle, spacingTimer := .stopped } ∧
      t.outgoing = s.clp.tx.toList ++ partPlaced s.rq .presetAborted ++ [answer tag 0x0D .ok [byteOf s.pru.remaining.val]] ∧
      (s.withFrames rest).OnlyReports { t with pru := s.pru })

/-! ### The profile store and RESTART -/

/-- (a) STORE_SAVE and STORE_CLEAR (R180, R181): STORE_BUSY in SAVING or CLEARING; in EMPTY or VALID the check value is erased at once, and
a save takes its copy of the five tables.

(b) The ends of a save's phases and of a clear (R180, R181): the program phase ends VALID with the copy and its check value and
STORE_DONE, or EMPTY without a check value and STORE_FAILED; a clear ends EMPTY with STORE_DONE.  The image as a value is the model's
form (notes/assumptions/17.md). -/
def Obligations.StoreOperationsRunTheirPhases : Prop :=
  (∀ (tag : Byte) (rest : List (List Byte)) (s : State), s.TransmitterLaw →
     (s.Takes (.storeSave tag) rest →
       ((s.pst.state = .clearing ∨ ∃ p copy, s.pst.state = .saving p copy) →
         exec (.storeSave tag) s = .next ((s.withFrames rest).sends (answer tag 0x10 .storeBusy []))) ∧
       (s.pst.state = .empty ∨ s.pst.state = .valid →
         exec (.storeSave tag) s = .next (State.sends
           { s.withFrames rest with pst :=
             { state := .saving .erase
                 ⟨s.ct, s.psq.record, s.nt.map (·.expected), s.pru.list, s.mgx.config⟩
               image := { s.pst.image with check := none } } } (answer tag 0x10 .started [])))) ∧
     (s.Takes (.storeClear tag) rest →
       ((s.pst.state = .clearing ∨ ∃ p copy, s.pst.state = .saving p copy) →
         exec (.storeClear tag) s = .next ((s.withFrames rest).sends (answer tag 0x11 .storeBusy []))) ∧
       (s.pst.state = .empty ∨ s.pst.state = .valid →
         exec (.storeClear tag) s = .next (State.sends
           { s.withFrames rest with pst := { state := .clearing, image := { s.pst.image with check := none } } }
           (answer tag 0x11 .started []))))) ∧
  (∀ (copy : Tables) (s : State), s.TransmitterLaw →
     (s.pst.state = .saving .erase copy → ∃ t, exec .saveEraseEnd s = .next t ∧ t.pst.state = .saving .program copy ∧
       t.pst.image.check = none ∧ t.outgoing = s.outgoing ∧ s.OnlyReports { t with pst := s.pst }) ∧
     (s.pst.state = .saving .program copy → ∃ t, exec (.saveProgramEnd true) s = .next t ∧ t.pst.state = .valid ∧
       t.pst.image = ⟨some copy, some copy.check⟩ ∧ t.outgoing = s.clp.tx.toList ++ partPlaced s.rq .storeDone ∧
       s.OnlyReports { t with pst := s.pst }) ∧
     (s.pst.state = .saving .program copy → ∃ t, exec (.saveProgramEnd false) s = .next t ∧ t.pst.state = .empty ∧
       t.pst.image.check = none ∧ t.outgoing = s.clp.tx.toList ++ partPlaced s.rq .storeFailed ∧
       s.OnlyReports { t with pst := s.pst }) ∧
     (s.pst.state = .clearing → ∃ t, exec .clearEnd s = .next t ∧ t.pst.state = .empty ∧ t.pst.image.check = none ∧
       t.outgoing = s.clp.tx.toList ++ partPlaced s.rq .storeDone ∧ s.OnlyReports { t with pst := s.pst }))

/-- (a) RESTART (R173): answered OK, and from then on a restart is pending and MGX takes no command: an event of MGX taking one is not
due and changes nothing (the model's choice, notes/assumptions/2.md).

(b) TRANSMIT_END of the RESTART response (R173, R84, R157, R183): the reset values of power-on, but the rate in use and link_rate are
kept and FBC enters GAP with the field_gap in force before (notes/assumptions/20.md). -/
def Obligations.RestartIsPendingUntilItsResponseEnds : Prop :=
  (∀ (tag : Byte) (rest : List (List Byte)) (s : State), s.TransmitterLaw → s.Takes (.restart tag) rest →
     exec (.restart tag) s = .next (State.sends
       { s with mgx := { s.mgx with queue := rest, restartPending := true } } (.response tag 0x12 .ok [] .restart)) ∧
     ∀ (u : State) (i : Instr) (p : List Byte), u.mgx.restartPending = true → payloadOf i = some p → exec i u = .next u) ∧
  (∀ (tag cmd : Byte) (k : Completion) (data : List Byte) (s : State), s.clp.tx = some (.response tag cmd k data .restart) →
     ∃ t u, exec .transmitEnd s = .next t ∧ exec .powerOn s = .next u ∧
       t.clp = ⟨.hunt, 0, s.clp.rate, none⟩ ∧ t.ct = u.ct ∧ t.ctx = u.ctx ∧ t.oq = ⟨[], []⟩ ∧ t.sph = [] ∧
       t.fbc = { s.fbc with state := .gap s.mgx.config.fieldGap.val, passOver := 0, frx := .taking } ∧
       t.psq = u.psq ∧ t.nt = u.nt ∧ t.act = ⟨.quiet, .stopped⟩ ∧ t.pru = u.pru ∧ t.rq = [] ∧
       t.mgx = { u.mgx with config := { u.mgx.config with linkRate := s.mgx.config.linkRate } } ∧ t.pst = u.pst)

/-! ### Start-up -/

/-- (a) ENTER_RUN, one step of the start-up sequence (R184; the step count is the model's operand, notes/assumptions/5.md): channel `c` is
considered; it is enabled at its safe code if its entry has
start_enabled yes and the checks of R35 pass, and stays as it is otherwise; no RESPONSE is produced.

(b) ENTER_RUN from a fresh load in which no channel is start_enabled (R184, R98, R140): the part enters RUN, the silence timer is
started if silence_timeout is not 0, and the walk is started exactly if autostart is yes.  ENTER_RUN 26 is the whole sequence. -/
def Obligations.EnterRunRunsTheStartUp : Prop :=
  (∀ (c : ChannelNo) (s : State), s.TransmitterLaw → s.mgx.mode = .loading → s.mgx.startUpStep.val = c.val → s.act.state = .quiet →
     s.ch c = .reset → s.oq.hasEntry c = false →
     ((s.entry c).startEnabled = true ∧
         (∀ d, d ≠ c → (s.ch d).drive ≠ .off → (s.entry d).node = (s.entry c).node → (s.entry d).point ≠ (s.entry c).point) ∧
         (s.node (s.entry c).node).expected = true →
       exec (.enterRun 1) s = .next { s with
         mgx := { s.mgx with startUpStep := s.mgx.startUpStep + 1 }
         ctx := s.ctx.set c.val { ChannelCtx.reset with
           drive := .moving, target := some (s.entry c).safeCode, goal := some (s.entry c).safeCode,
           sent := some (s.entry c).safeCode, stepTimer := .running ((s.entry c).slewInterval.val * 1000) }
         oq := { s.oq with writes := s.oq.writes ++ [⟨c, (s.entry c).safeCode, true⟩] } }) ∧
     ((s.entry c).startEnabled = false ∨
         (∃ d, d ≠ c ∧ (s.ch d).drive ≠ .off ∧ (s.entry d).node = (s.entry c).node ∧ (s.entry d).point = (s.entry c).point) ∨
         (s.node (s.entry c).node).expected = false →
       exec (.enterRun 1) s = .next { s with mgx := { s.mgx with startUpStep := s.mgx.startUpStep + 1 } })) ∧
  (∀ s : State, s.TransmitterLaw → s.mgx.mode = .loading → s.mgx.startUpStep = 0 → (∀ c, (s.entry c).startEnabled = false) →
     s.psq.state = .idle →
     ∃ t, exec (.enterRun 26) s = .next t ∧ t.mgx.mode = .run ∧ t.mgx.config = s.mgx.config ∧ t.mgx.queue = s.mgx.queue ∧
       t.act = ⟨s.act.state, if s.mgx.config.silenceTimeout = 0 then .stopped else .running (s.mgx.config.silenceTimeout.val * 10000)⟩ ∧
       (s.psq.record.autostart = false → t.psq = s.psq) ∧
       (s.psq.record.autostart = true → t.psq.state = .running ∧ t.psq.currentIndex = s.psq.record.startIndex ∧
         t.psq.record = s.psq.record) ∧
       s.OnlyReports { t with psq := s.psq, act := s.act, mgx := s.mgx })

/-! ### The field bus -/

/-- The arbiter's table (R80) with GRANT in IDLE and FIELD_GAP_EXPIRY in GAP: which request is granted and the pass-over count after;
with none pending FIELD_GAP_EXPIRY leaves the bus IDLE.  The granted transaction is sent or held (R69). -/
def Obligations.ArbiterGrantsByTheTable : Prop :=
  ∀ (i : Instr) (s : State), s.TransmitterLaw →
    (i = .grant ∧ s.fbc.state = .idle) ∨ (i = .fieldGapExpiry ∧ ∃ us, s.fbc.state = .gap us) →
    (s.oq.isolates = [] → s.oq.writes = [] → s.psq.pollSlot = none → i = .fieldGapExpiry →
      exec i s = .next { s with fbc := { s.fbc with state := .idle } }) ∧
    (s.oq.isolates ≠ [] ∨ s.oq.writes ≠ [] → s.psq.pollSlot = none ∨ s.fbc.passOver ≠ 4 →
      ∃ t x, exec i s = .next t ∧ t.psq = s.psq ∧
        t.fbc = { s.fbc with
          state := if s.fbc.fbsy then .held x else .sending x
          passOver := if s.psq.pollSlot = none then s.fbc.passOver else s.fbc.passOver + 1 } ∧
        x.busyTimeout = s.mgx.config.busyTimeout ∧ x.responseTimeout = s.mgx.config.responseTimeout ∧
        (∀ c rest, s.oq.isolates = c :: rest → x.job = .isolate c ∧ x.node = (s.entry c).node ∧ x.point = some (s.entry c).point ∧
          x.stale = decide ((s.ch c).drive = .off) ∧ t.oq = { s.oq with isolates := rest }) ∧
        (∀ w rest, s.oq.isolates = [] → s.oq.writes = w :: rest → x.job = .write w.channel w.code w.reconnect ∧
          x.node = (s.entry w.channel).node ∧ x.point = some (s.entry w.channel).point ∧
          x.stale = decide ((s.ch w.channel).drive = .off) ∧ t.oq = { s.oq with writes := rest }) ∧
        s.OnlyReports { t with oq := s.oq, fbc := s.fbc } ∧ t.outgoing = s.outgoing) ∧
    (∀ request, s.psq.pollSlot = some request → (s.oq.isolates = [] ∧ s.oq.writes = []) ∨ s.fbc.passOver = 4 →
      ∃ t x, exec i s = .next t ∧ t.psq = { s.psq with pollSlot := none, slotPoll := .inFlight } ∧ t.oq = s.oq ∧
        t.fbc = { s.fbc with state := if s.fbc.fbsy then .held x else .sending x, passOver := 0 } ∧
        x.busyTimeout = s.mgx.config.busyTimeout ∧ x.responseTimeout = s.mgx.config.responseTimeout ∧
        (∀ c marked, request = .poll c marked → x.job = .poll c ∧ x.node = (s.entry c).node ∧ x.point = some (s.entry c).point ∧
          x.stale = (marked || decide ((s.ch c).drive = .off))) ∧
        (∀ n, request = .zero n → x.job = .zero ∧ x.node = n ∧ x.point = none ∧ x.stale = false) ∧
        s.OnlyReports { t with psq := s.psq, fbc := s.fbc } ∧ t.outgoing = s.outgoing)

/-- The frames on FTX (Section 4.2, R63, R64): byte by byte, with the CRC-8 over the bytes before it. -/
def Obligations.FieldFramesHaveTheirBytes : Prop :=
  ∀ (x : Transaction) (c : ChannelNo) (p : Point) (code : Code) (r : Bool), x.point = some p ∨ x.job = .zero →
    (x.job = .write c code r → x.frame =
      (let body := [0x31, byteOf (x.node.val + 1), byteOf p.val, BitVec.ofNat 8 (code.toNat / 256), BitVec.ofNat 8 code.toNat,
        if r then 1 else 0]
       body ++ [crc8 body])) ∧
    (x.job = .isolate c → x.frame =
      (let body := [0x32, byteOf (x.node.val + 1), byteOf p.val]; body ++ [crc8 body])) ∧
    (x.job = .poll c → x.frame =
      (let body := [0x33, byteOf (x.node.val + 1), byteOf p.val]; body ++ [crc8 body])) ∧
    (x.job = .zero → x.frame = (let body := [0x34, byteOf (x.node.val + 1)]; body ++ [crc8 body]))

/-- The handshake up to its end (R70, R71, R72): the release of FBSY in HELD begins the frame; the strobe leads to AWAIT_BUSY,
AWAIT_RELEASE or AWAIT_REPLY; the assertion of FBSY in AWAIT_BUSY leads to AWAIT_RELEASE.  Nothing else changes.  The count of strobes is the model's field
(notes/assumptions/12.md). -/
def Obligations.HandshakeAdvances : Prop :=
  ∀ (x : Transaction) (s : State), s.TransmitterLaw →
    (s.fbc.state = .held x →
      exec .fbsyReleased s = .next { s with fbc := { s.fbc with fbsy := false, state := .sending x } }) ∧
    (s.fbc.state = .sending x → (x.job = .zero ∨ ∃ c, x.job = .poll c) →
      exec .strobe s = .next { s with fbc := { s.fbc with state := .awaitReply x, fstbPulses := s.fbc.fstbPulses + 1 } }) ∧
    (s.fbc.state = .sending x → ((∃ c code r, x.job = .write c code r) ∨ ∃ c, x.job = .isolate c) →
      exec .strobe s = .next { s with fbc := { s.fbc with
        state := if s.fbc.fbsy then .awaitRelease x else .awaitBusy x, fstbPulses := s.fbc.fstbPulses + 1 } }) ∧
    (s.fbc.state = .awaitBusy x →
      exec .fbsyAsserted s = .next { s with fbc := { s.fbc with fbsy := true, state := .awaitRelease x } })

/-- Every end of a transaction (R68, R70, R72, R73, R76, R102 to R104): FBC enters GAP with the field_gap in force, and the node of
the record takes a success or a failure, its zero fields following an OK ZERO; no other node record changes. -/
def Obligations.EveryCompletionIsCreditedToItsNode : Prop :=
  ∀ (i : Instr) (x : Transaction) (success : Bool) (s : State),
    ((i = .fbsyReleased ∧ s.fbc.state = .awaitRelease x ∧ success = true) ∨
     (i = .busyTimeoutExpiry ∧ (s.fbc.state = .awaitBusy x ∨ s.fbc.state = .awaitRelease x) ∧ success = false) ∨
     (i = .heldTimeout ∧ s.fbc.state = .held x ∧ success = false) ∨
     (i = .responseTimeoutExpiry ∧ s.fbc.state = .awaitReply x ∧ success = false) ∨
     (∃ r, i = .readingReceived r ∧ s.fbc.state = .awaitReply x ∧ (s.fbc.frx = .taking ∨ r.idleBefore = true) ∧
       x.matchesReading r = true ∧ success = !r.measureFail)) →
    ∃ t, exec i s = .next t ∧ t.fbc.state = .gap s.mgx.config.fieldGap.val ∧
      (i = .heldTimeout → t.mgx.latches.busHeld = true) ∧
      (success = true → (t.node x.node).nodeFaults = 0 ∧ (t.node x.node).answerState = .answering) ∧
      (success = false →
        (t.node x.node).nodeFaults.val = Nat.min 3 ((s.node x.node).nodeFaults.val + 1) ∧
        (t.node x.node).answerState =
          (if 2 ≤ (s.node x.node).nodeFaults.val then .silent else (s.node x.node).answerState) ∧
        (t.node x.node).zeroState = (s.node x.node).zeroState ∧ (t.node x.node).zeroCorr = (s.node x.node).zeroCorr) ∧
      (t.node x.node).expected = (s.node x.node).expected ∧
      (∀ r, i = .readingReceived r → success = true → x.job = .zero → x.stale = false →
        (if -2048 ≤ (r.value.toNat : Int) - 32768 ∧ (r.value.toNat : Int) - 32768 ≤ 2047
         then (t.node x.node).zeroState = .valid ∧ (t.node x.node).zeroCorr = (r.value.toNat : Int) - 32768
         else (t.node x.node).zeroState = .rejected ∧ (t.node x.node).zeroCorr = (s.node x.node).zeroCorr)) ∧
      (∀ n, n ≠ x.node → t.node n = s.node n)

/-- (a) A stale WRITE or ISOLATE ends without touching any channel (R22, R77): its node is credited, and NODE_LOST or NODE_BACK is
offered as R103 says.

(b) No end of a stale transaction, a POLL's and one by HELD_TIMEOUT among them, touches a channel context, the output queue, the zero
fields of its node or another node (R22, R77, R92). -/
def Obligations.StaleResultReachesTheNodeTableOnly : Prop :=
  (∀ (i : Instr) (x : Transaction) (success : Bool) (s : State), s.TransmitterLaw → x.stale = true →
    ((∃ c code r, x.job = .write c code r) ∨ ∃ c, x.job = .isolate c) →
    ((i = .fbsyReleased ∧ s.fbc.state = .awaitRelease x ∧ success = true) ∨
     (i = .busyTimeoutExpiry ∧ (s.fbc.state = .awaitBusy x ∨ s.fbc.state = .awaitRelease x) ∧ success = false)) →
    ∃ t, exec i s = .next t ∧ t.fbc.state = .gap s.mgx.config.fieldGap.val ∧ t.fbc.passOver = s.fbc.passOver ∧
      t.outgoing = s.clp.tx.toList ++
        (if success = true ∧ (s.node x.node).answerState = .silent then partPlaced s.rq (.nodeBack x.node)
         else if success = false ∧ (s.node x.node).answerState = .answering ∧ 2 ≤ (s.node x.node).nodeFaults.val
           then partPlaced s.rq (.nodeLost x.node)
         else s.rq) ∧
      s.OnlyReports { t with nt := s.nt, fbc := s.fbc }) ∧
  (∀ (i : Instr) (x : Transaction) (s : State), x.stale = true →
    ((i = .fbsyReleased ∧ s.fbc.state = .awaitRelease x) ∨
     (i = .busyTimeoutExpiry ∧ (s.fbc.state = .awaitBusy x ∨ s.fbc.state = .awaitRelease x)) ∨
     (i = .heldTimeout ∧ s.fbc.state = .held x) ∨ (i = .responseTimeoutExpiry ∧ s.fbc.state = .awaitReply x) ∨
     (∃ r, i = .readingReceived r ∧ s.fbc.state = .awaitReply x ∧ (s.fbc.frx = .taking ∨ r.idleBefore = true) ∧
       x.matchesReading r = true)) →
    ∃ t, exec i s = .next t ∧ t.ctx = s.ctx ∧ t.oq = s.oq ∧ t.ct = s.ct ∧ t.act = s.act ∧ t.pru = s.pru ∧ t.pst = s.pst ∧
      t.fbc.state = .gap s.mgx.config.fieldGap.val ∧ (t.node x.node).zeroState = (s.node x.node).zeroState ∧
      (t.node x.node).zeroCorr = (s.node x.node).zeroCorr ∧ ∀ n, n ≠ x.node → t.node n = s.node n)

/-- Results of a channel's WRITE that is not stale: OK by FBSY_RELEASED in AWAIT_RELEASE, a failure by BUSY_TIMEOUT_EXPIRY (NO_NODE in
AWAIT_BUSY, STUCK in AWAIT_RELEASE) or by HELD_TIMEOUT (BUS_HELD).

(a) OK of a MOVING channel whose output is then at goal (R31, R26, R28, R121): the applied code is the frame's code, the channel is
STEADY with settle_left set, and noresp_faults is 0.

(b) OK of a MOVING channel that is not at goal then (R31, R26, R27): with the step timer running it waits, otherwise the next step is
issued.

(c) A failure of a MOVING channel with its step timer running (R32, R120): the sent code is rolled back to the applied or the safe code,
the applied code stays, noresp_faults is increased up to noresp_limit+1, and NORESP joins when it stands there; here act_noresp is NONE.

(d) OK of the reconnecting write in RELEASING with the step timer running (R31, R44): the applied code is its code, the goal is set from
the effective action, and the channel is STEADY if the goal is that code and MOVING otherwise.

(e) A failure of the reconnecting write (R32, R44): the sent code is rolled back, the step timer is started and the channel stays
RELEASING; here act_noresp is NONE.

(f) A WRITE result in ISOLATING (R31, R32, R33), and one in STOPPING that is not the last write's since the queue still holds that one
(R40; notes/assumptions/18.md): the applied code is set, or the sent code rolled back; the drive state, the goal and the queue stay. -/
def Obligations.WriteResultsMoveTheCodes : Prop :=
  (∀ (x : Transaction) (c : ChannelNo) (code : Code) (r : Bool) (s : State), s.TransmitterLaw →
     s.fbc.state = .awaitRelease x → x.job = .write c code r → x.stale = false → (s.ch c).drive = .moving →
     s.oq.hasEntry c = false → (s.ch c).sent = some code → (s.ch c).goal = some code → (s.ch c).active.noresp = false →
     (s.node x.node).answerState ≠ .silent →
     exec .fbsyReleased s = .next { s with
       fbc := { s.fbc with fbsy := false, state := .gap s.mgx.config.fieldGap.val }
       ctx := s.ctx.set c.val { s.ch c with
         applied := some code, drive := .steady, settleLeft := (s.entry c).settleCount, norespFaults := 0 }
       nt := s.nt.set x.node.val { s.node x.node with nodeFaults := 0, answerState := .answering } }) ∧
  (∀ (x : Transaction) (c : ChannelNo) (code k g step : Code) (r : Bool) (s : State),
     s.fbc.state = .awaitRelease x → x.job = .write c code r → x.stale = false → (s.ch c).drive = .moving →
     s.oq.hasEntry c = false → (s.ch c).sent = some k → (s.ch c).goal = some g → ¬ (k = code ∧ g = code) →
     (s.ch c).active.noresp = false → step = stepCode (s.entry c) s.mgx.slewBypass k g →
     ∃ t, exec .fbsyReleased s = .next t ∧
       ((s.ch c).stepTimer.isRunning = true →
         t.ch c = { s.ch c with applied := some code, norespFaults := 0 } ∧ t.oq = s.oq) ∧
       ((s.ch c).stepTimer.isRunning = false →
         t.ch c = { s.ch c with applied := some code, norespFaults := 0, sent := some step
                                stepTimer := .running ((s.entry c).slewInterval.val * 1000) } ∧
         t.oq = { s.oq with writes := s.oq.writes ++ [⟨c, step, false⟩] }) ∧ ∀ d, d ≠ c → t.ch d = s.ch d) ∧
  (∀ (i : Instr) (x : Transaction) (c : ChannelNo) (code : Code) (r : Bool) (s : State),
     s.handshakeFails i x → x.job = .write c code r → x.stale = false → (s.ch c).drive = .moving →
     s.oq.hasEntry c = false → (s.ch c).stepTimer.isRunning = true → (s.entry c).actNoresp = .none →
     (s.ch c).action = effectiveAction (s.entry c) (s.ch c).active →
     ∃ t, exec i s = .next t ∧
       (t.ch c).sent = some ((s.ch c).applied.getD (s.entry c).safeCode) ∧ (t.ch c).applied = (s.ch c).applied ∧
       (t.ch c).goal = (s.ch c).goal ∧
       ((t.ch c).drive = .steady ↔ (s.ch c).applied.isSome = true ∧ (s.ch c).goal = (s.ch c).applied) ∧
       (t.ch c).norespFaults = Nat.min ((s.ch c).norespFaults + 1) ((s.entry c).norespLimit.val + 1) ∧
       ((t.ch c).active.noresp = true ↔
         (s.ch c).active.noresp = true ∨ (s.entry c).norespLimit.val + 1 ≤ (s.ch c).norespFaults + 1) ∧
       t.oq = s.oq ∧ ∀ d, d ≠ c → t.ch d = s.ch d) ∧
  (∀ (x : Transaction) (c : ChannelNo) (code : Code) (goal : Option Code) (s : State),
     s.fbc.state = .awaitRelease x → x.job = .write c code true → x.stale = false → (s.ch c).drive = .releasing →
     s.oq.hasEntry c = false → (s.ch c).sent = some code → (s.ch c).stepTimer.isRunning = true → (s.ch c).active.noresp = false →
     goal = (match (s.ch c).action with
       | .none => (s.ch c).target
       | .hold => some code
       | .safe => some (s.entry c).safeCode
       | .isolate => (s.ch c).goal) →
     ∃ t, exec .fbsyReleased s = .next t ∧
       (goal = some code → t.ch c = { s.ch c with
         applied := some code, goal := goal, drive := .steady, settleLeft := (s.entry c).settleCount, norespFaults := 0 }) ∧
       (goal ≠ some code → t.ch c = { s.ch c with applied := some code, goal := goal, drive := .moving, norespFaults := 0 }) ∧
       t.oq = s.oq ∧ ∀ d, d ≠ c → t.ch d = s.ch d) ∧
  (∀ (i : Instr) (x : Transaction) (c : ChannelNo) (code : Code) (s : State),
     s.handshakeFails i x → x.job = .write c code true → x.stale = false →
     (s.ch c).drive = .releasing → (s.entry c).actNoresp = .none →
     (s.ch c).action = effectiveAction (s.entry c) (s.ch c).active →
     ∃ t, exec i s = .next t ∧ (t.ch c).drive = .releasing ∧ (t.ch c).goal = (s.ch c).goal ∧
       (t.ch c).sent = some ((s.ch c).applied.getD (s.entry c).safeCode) ∧ (t.ch c).applied = (s.ch c).applied ∧
       (t.ch c).stepTimer = .running ((s.entry c).slewInterval.val * 1000) ∧
       (t.ch c).norespFaults = Nat.min ((s.ch c).norespFaults + 1) ((s.entry c).norespLimit.val + 1) ∧
       t.oq = s.oq ∧ ∀ d, d ≠ c → t.ch d = s.ch d) ∧
  (∀ (i : Instr) (x : Transaction) (c : ChannelNo) (code : Code) (r success : Bool) (s : State),
     x.job = .write c code r → x.stale = false →
     (s.ch c).drive = .isolating ∨ ((s.ch c).drive = .stopping ∧ s.oq.hasEntry c = true) →
     (i = .fbsyReleased ∧ s.fbc.state = .awaitRelease x ∧ success = true) ∨ (s.handshakeFails i x ∧ success = false) →
     ∃ t, exec i s = .next t ∧ (t.ch c).drive = (s.ch c).drive ∧ (t.ch c).goal = (s.ch c).goal ∧
       (t.ch c).applied = (if success then some code else (s.ch c).applied) ∧
       (t.ch c).sent = (if success then (s.ch c).sent else some ((s.ch c).applied.getD (s.entry c).safeCode)) ∧
       (t.ch c).norespFaults =
         (if success then 0 else Nat.min ((s.ch c).norespFaults + 1) ((s.entry c).norespLimit.val + 1)) ∧
       t.oq = s.oq ∧ ∀ d, d ≠ c → t.ch d = s.ch d)

/-- (a) The last write of a STOPPING channel (R40, R41; which write that is: notes/assumptions/18.md): whatever its result, OK, NO_NODE,
STUCK or BUS_HELD, the channel reaches OFF with its reset context, its waiting POLL becomes stale (R92), and an ALARM report is offered
if a masked class was active, then NODE_LOST or NODE_BACK as R103 says.

(b) The result of an ISOLATE of an ISOLATING channel (R33, R50): OK makes it ISOLATED; a failure, NO_NODE, STUCK or BUS_HELD, places a
new ISOLATE at the tail of the isolate section and the channel stays ISOLATING. -/
def Obligations.LastWriteAndIsolateResults : Prop :=
  (∀ (i : Instr) (x : Transaction) (c : ChannelNo) (code : Code) (r success : Bool) (rq : List Report) (s : State), s.TransmitterLaw →
     x.job = .write c code r → x.stale = false → (s.ch c).drive = .stopping → s.oq.hasEntry c = false →
     (i = .fbsyReleased ∧ s.fbc.state = .awaitRelease x ∧ success = true) ∨ (s.handshakeFails i x ∧ success = false) →
     rq = (if ((s.ch c).active.inter (s.entry c).alarmMask).nonempty then alarmPlaced s.rq c .empty .empty .none else s.rq) →
     ∃ t, exec i s = .next t ∧ t.ch c = .reset ∧ t.oq = s.oq ∧ (∀ d, d ≠ c → t.ch d = s.ch d) ∧ s.psq.marked c t.psq ∧
       t.outgoing = s.clp.tx.toList ++
         (if success = true ∧ (s.node x.node).answerState = .silent then partPlaced rq (.nodeBack x.node)
          else if success = false ∧ (s.node x.node).answerState = .answering ∧ 2 ≤ (s.node x.node).nodeFaults.val
            then partPlaced rq (.nodeLost x.node)
          else rq)) ∧
  (∀ (x : Transaction) (c : ChannelNo) (s : State), x.job = .isolate c → x.stale = false → (s.ch c).drive = .isolating →
     s.oq.hasEntry c = false →
     (s.fbc.state = .awaitRelease x →
       ∃ t, exec .fbsyReleased s = .next t ∧ (t.ch c).drive = .isolated ∧ t.oq = s.oq ∧ (t.ch c).norespFaults = 0 ∧
         (t.ch c).active.noresp = false ∧ (t.ch c).goal = (s.ch c).goal ∧ (t.ch c).sent = (s.ch c).sent ∧
         (t.ch c).applied = (s.ch c).applied ∧ ∀ d, d ≠ c → t.ch d = s.ch d) ∧
     (∀ i, s.handshakeFails i x →
       ∃ t, exec i s = .next t ∧ (t.ch c).drive = .isolating ∧
         t.oq = { s.oq with isolates := s.oq.isolates ++ [c] } ∧
         (t.ch c).norespFaults = Nat.min ((s.ch c).norespFaults + 1) ((s.entry c).norespLimit.val + 1) ∧
         (t.ch c).goal = (s.ch c).goal ∧ (t.ch c).sent = (s.ch c).sent ∧ (t.ch c).applied = (s.ch c).applied ∧
         ∀ d, d ≠ c → t.ch d = s.ch d))

/-- (a) A valid reading that no transaction awaits or matches, a malformed one and one with a bad check latch STRAY_READING (R64, R65,
R74); after it the receiver waits for idle.  After a frame that an idle interval broke off the idle has been seen, and the next byte
begins a frame (notes/assumptions/10.md, an inference of the model).  Nothing else changes.

(b) Bytes that begin no frame are discarded; FRX_IDLE makes the next byte the first of a frame (R65).

(c) What the characters of a frame come to (R64, R65): malformed at a type byte other than 0x3A, at a bad stop bit, at a flags byte that
is neither 0 nor 1; broken by idle before a later byte; and a bad check. -/
def Obligations.StrayReadingsAreLatched : Prop :=
  (∀ s : State, s.TransmitterLaw →
    (∀ r : Reading, s.fbc.frx = .taking ∨ r.idleBefore = true → (∀ x, s.fbc.state = .awaitReply x → x.matchesReading r = false) →
      exec (.readingReceived r) s = .next { s with
        mgx := { s.mgx with latches := { s.mgx.latches with strayReading := true } }, fbc := { s.fbc with frx := .discarding } }) ∧
    (∀ received, s.fbc.frx = .taking ∨ idleFirst received = true →
      (readingVerdict received = .malformed ∨ readingVerdict received = .badCheck →
        exec (.malformedReading received) s = .next { s with
          mgx := { s.mgx with latches := { s.mgx.latches with strayReading := true } }, fbc := { s.fbc with frx := .discarding } }) ∧
      (readingVerdict received = .broken →
        exec (.malformedReading received) s = .next { s with
          mgx := { s.mgx with latches := { s.mgx.latches with strayReading := true } }, fbc := { s.fbc with frx := .taking } }))) ∧
  (∀ s : State, s.TransmitterLaw →
    (∀ r : Reading, s.fbc.frx = .discarding → r.idleBefore = false → exec (.readingReceived r) s = .next s) ∧
    (∀ received, s.fbc.frx = .discarding → idleFirst received = false → exec (.malformedReading received) s = .next s) ∧
    exec .frxIdle s = .next { s with fbc := { s.fbc with frx := .taking } }) ∧
  ((∀ (type : Byte) (idle : Bool) (rest : List FieldByte), type ≠ 0x3A → readingVerdict (⟨type, true, idle⟩ :: rest) = .malformed) ∧
   (∀ (r : Reading) (before after : List FieldByte) (b : FieldByte) (stopOk idle : Bool) (rest : List FieldByte),
     receivedReading r = before ++ b :: after →
     (stopOk = false → before = [] ∨ idle = false → readingVerdict (before ++ ⟨b.value, stopOk, idle⟩ :: rest) = .malformed) ∧
     (before ≠ [] → idle = true → readingVerdict (before ++ ⟨b.value, stopOk, idle⟩ :: rest) = .broken)) ∧
   (∀ (r : Reading) (flags : Byte) (rest : List FieldByte), flags ≠ 0 → flags ≠ 1 →
     readingVerdict ((receivedReading r).take 5 ++ ⟨flags, true, false⟩ :: rest) = .malformed) ∧
   (∀ (r : Reading) (check : Byte) (rest : List FieldByte), check ≠ crc8 ((readingFrame r).take 6) →
     readingVerdict ((receivedReading r).take 6 ++ ⟨check, true, false⟩ :: rest) = .badCheck))

/-! ### Readbacks -/

/-- READING_RECEIVED for a POLL of a STEADY channel (R107 to R117, R121, R123, R126, R127, R130): the value is the injected one while inject_left
stands above 0 and the corrected reading otherwise; it is stored; value_faults and the value classes follow it; NORESP is cleared;
joining classes are latched; the effective action follows the active set.

settle_left is decreased by one, unless the channel came to STEADY anew (R114, R28).  An action that stays tells the engine nothing; a
changed one sets the goal, or begins isolation under ISOLATE (R24, R33, R131).  A READBACK is offered by report_mode, deadband and
high_water, with the drive state and the action that the reading has led to (R126, R127). -/
def Obligations.ReadingOfASteadyChannelIsEvaluated : Prop :=
  ∀ (x : Transaction) (c : ChannelNo) (r : Reading) (value : Code) (low high trk : Bool) (s : State),
    s.TransmitterLaw → s.fbc.state = .awaitReply x → s.fbc.frx = .taking ∨ r.idleBefore = true → x.job = .poll c → x.stale = false →
    x.matchesReading r = true → r.measureFail = false → (s.ch c).drive = .steady →
    value = (if (s.ch c).injectLeft = 0 then correctedReading (s.node x.node) r.value else (s.ch c).injectValue) →
    low = decide (value.toNat < (s.entry c).limitLo.toNat) → high = decide ((s.entry c).limitHi.toNat < value.toNat) →
    (trk = true ↔ (s.ch c).settleLeft = 0 ∧ ∃ a, (s.ch c).applied = some a ∧ (s.entry c).window.val < codesApart value a) →
    (s.ch c).action = effectiveAction (s.entry c) (s.ch c).active →
    ∃ t, exec (.readingReceived r) s = .next t ∧
      (t.ch c).lastReading = some value ∧ (t.ch c).injectLeft.val = (s.ch c).injectLeft.val - 1 ∧
      (t.ch c).norespFaults = 0 ∧ (t.ch c).active.noresp = false ∧ (t.ch c).active.silence = (s.ch c).active.silence ∧
      (t.ch c).valueFaults =
        (if low || high || trk then Nat.min ((s.ch c).valueFaults + 1) ((s.entry c).faultLimit.val + 1) else 0) ∧
      (t.ch c).active.high = (if high then decide ((s.entry c).faultLimit.val ≤ (s.ch c).valueFaults) || (s.ch c).active.high
        else (s.ch c).active.high && decide ((s.entry c).limitHi.toNat - (s.entry c).hysteresis.val < value.toNat)) ∧
      (t.ch c).active.low = (if low then decide ((s.entry c).faultLimit.val ≤ (s.ch c).valueFaults) || (s.ch c).active.low
        else (s.ch c).active.low && decide (value.toNat < Nat.min 65535 ((s.entry c).limitLo.toNat + (s.entry c).hysteresis.val))) ∧
      ((s.ch c).settleLeft ≠ 0 → (t.ch c).active.trk = (s.ch c).active.trk) ∧
      (∀ a, (s.ch c).settleLeft = 0 → (s.ch c).applied = some a → (t.ch c).active.trk =
        (if trk then decide ((s.entry c).faultLimit.val ≤ (s.ch c).valueFaults) || (s.ch c).active.trk
         else (s.ch c).active.trk && decide ((s.entry c).window.val - (s.entry c).hysteresis.val < codesApart value a))) ∧
      (t.ch c).latched = (s.ch c).latched.union ((t.ch c).active.minus (s.ch c).active) ∧
      (t.ch c).action = effectiveAction (s.entry c) (t.ch c).active ∧
      ((t.ch c).drive ≠ .steady ∨ (t.ch c).goal = (s.ch c).goal → (t.ch c).settleLeft.val = (s.ch c).settleLeft.val - 1) ∧
      ((t.ch c).action = (s.ch c).action →
        (t.ch c).drive = .steady ∧ (t.ch c).goal = (s.ch c).goal ∧ (t.ch c).sent = (s.ch c).sent ∧ t.oq = s.oq) ∧
      ((t.ch c).action ≠ (s.ch c).action → (t.ch c).action = .isolate →
        (t.ch c).drive = .isolating ∧ (t.ch c).goal = (s.ch c).goal ∧ t.oq.hasIsolate c = true ∧ t.oq.hasWrite c = false) ∧
      ((t.ch c).action ≠ (s.ch c).action → (t.ch c).action ≠ .isolate →
        (t.ch c).goal = (match (t.ch c).action with
          | .none => (s.ch c).target
          | .hold => (s.ch c).sent
          | .safe => some (s.entry c).safeCode
          | .isolate => (s.ch c).goal)) ∧
      State.OffersReadback c value (t.ch c).drive s t ∧ ∀ d, d ≠ c → t.ch d = s.ch d

/-- (a) READING_RECEIVED for a POLL of a channel in an isolation state (R111, R119, R126, R127) with no NORESP active: the value classes
and value_faults are frozen.  A READBACK is offered with report_mode EVERY, and with DELTA if last_reported is absent or at least
deadband away: admitted below high_water with last_reported set, refused at it with REPORTS_SUPPRESSED latched.  Otherwise none is.

(b) A failed POLL (R107, R109, R120), by RESPONSE_TIMEOUT_EXPIRY, by a reading with MEASURE_FAIL or by HELD_TIMEOUT: no reading is taken
and no substitution spent; noresp_faults is increased, and the value fields and classes stay.

(c) READING_RECEIVED for a POLL of a MOVING channel (R111 to R117, R121, R123, R126, R127): HIGH and LOW are tested, TRK stays as it is,
and settle_left stays unless the channel comes to STEADY.  A READBACK is offered as in (a), with the drive state at the offer: the one
the channel is left with, or MOVING where the completion's step test then finds it at goal (notes/assumptions/13.md).

(d) READING_RECEIVED for a POLL of a STOPPING channel with no NORESP active (R111): the reading is taken, nothing is evaluated or
reported. -/
def Obligations.PollResultsOutsideSteady : Prop :=
  (∀ (x : Transaction) (c : ChannelNo) (r : Reading) (value : Code) (due : Prop) (s : State), s.TransmitterLaw →
     s.fbc.state = .awaitReply x → s.fbc.frx = .taking ∨ r.idleBefore = true → x.job = .poll c → x.stale = false →
     x.matchesReading r = true → r.measureFail = false →
     ((s.ch c).drive = .isolating ∨ (s.ch c).drive = .isolated ∨ (s.ch c).drive = .releasing) →
     (s.ch c).injectLeft = 0 → (s.ch c).active.noresp = false → value = correctedReading (s.node x.node) r.value →
     (due ↔ readbackOffered (s.entry c) (s.ch c) value) →
     ∃ t, exec (.readingReceived r) s = .next t ∧
       (due → s.rq.length < s.mgx.config.highWater.val →
         t.ch c = { s.ch c with lastReading := some value, norespFaults := 0, lastReported := some value } ∧
         Report.readback c value (s.ch c).clamped (s.ch c).drive (s.ch c).action ∈ t.outgoing ∧
         t.mgx.latches.reportsSuppressed = s.mgx.latches.reportsSuppressed) ∧
       (due → s.mgx.config.highWater.val ≤ s.rq.length →
         t.ch c = { s.ch c with lastReading := some value, norespFaults := 0 } ∧ t.mgx.latches.reportsSuppressed = true) ∧
       (¬ due → t.ch c = { s.ch c with lastReading := some value, norespFaults := 0 } ∧
         (∀ v k d a, Report.readback c v k d a ∈ t.outgoing → Report.readback c v k d a ∈ s.outgoing) ∧
         t.mgx.latches.reportsSuppressed = s.mgx.latches.reportsSuppressed) ∧
       ∀ d, d ≠ c → t.ch d = s.ch d) ∧
  (∀ (i : Instr) (x : Transaction) (c : ChannelNo) (s : State), s.pollFails i x → x.job = .poll c → x.stale = false →
     (s.ch c).drive ≠ .off →
     ∃ t, exec i s = .next t ∧
       (t.ch c).norespFaults = Nat.min ((s.ch c).norespFaults + 1) ((s.entry c).norespLimit.val + 1) ∧
       (t.ch c).lastReading = (s.ch c).lastReading ∧ (t.ch c).injectLeft = (s.ch c).injectLeft ∧
       (t.ch c).valueFaults = (s.ch c).valueFaults ∧ (t.ch c).active.trk = (s.ch c).active.trk ∧
       (t.ch c).active.high = (s.ch c).active.high ∧ (t.ch c).active.low = (s.ch c).active.low ∧
       (t.ch c).active.noresp =
         ((s.ch c).active.noresp || decide ((s.entry c).norespLimit.val + 1 ≤ (s.ch c).norespFaults + 1)) ∧
       ∀ d, d ≠ c → t.ch d = s.ch d) ∧
  (∀ (x : Transaction) (c : ChannelNo) (r : Reading) (value : Code) (low high : Bool) (s : State), s.TransmitterLaw →
     s.fbc.state = .awaitReply x → s.fbc.frx = .taking ∨ r.idleBefore = true → x.job = .poll c → x.stale = false →
     x.matchesReading r = true → r.measureFail = false → (s.ch c).drive = .moving → (s.ch c).injectLeft = 0 →
     value = correctedReading (s.node x.node) r.value →
     low = decide (value.toNat < (s.entry c).limitLo.toNat) → high = decide ((s.entry c).limitHi.toNat < value.toNat) →
     ∃ t, exec (.readingReceived r) s = .next t ∧
       (t.ch c).lastReading = some value ∧ (t.ch c).norespFaults = 0 ∧ (t.ch c).active.noresp = false ∧
       (t.ch c).valueFaults =
         (if low || high then Nat.min ((s.ch c).valueFaults + 1) ((s.entry c).faultLimit.val + 1) else 0) ∧
       (t.ch c).active.high = (if high then decide ((s.entry c).faultLimit.val ≤ (s.ch c).valueFaults) || (s.ch c).active.high
         else (s.ch c).active.high && decide ((s.entry c).limitHi.toNat - (s.entry c).hysteresis.val < value.toNat)) ∧
       (t.ch c).active.low = (if low then decide ((s.entry c).faultLimit.val ≤ (s.ch c).valueFaults) || (s.ch c).active.low
         else (s.ch c).active.low && decide (value.toNat < Nat.min 65535 ((s.entry c).limitLo.toNat + (s.entry c).hysteresis.val))) ∧
       (t.ch c).active.trk = (s.ch c).active.trk ∧ (t.ch c).active.silence = (s.ch c).active.silence ∧
       (t.ch c).latched = (s.ch c).latched.union ((t.ch c).active.minus (s.ch c).active) ∧
       ((t.ch c).drive ≠ .steady → (t.ch c).settleLeft = (s.ch c).settleLeft) ∧
       (State.OffersReadback c value (t.ch c).drive s t ∨ ((t.ch c).drive = .steady ∧ State.OffersReadback c value .moving s t)) ∧
       ∀ d, d ≠ c → t.ch d = s.ch d) ∧
  (∀ (x : Transaction) (c : ChannelNo) (r : Reading) (s : State), s.TransmitterLaw →
     s.fbc.state = .awaitReply x → s.fbc.frx = .taking ∨ r.idleBefore = true → x.job = .poll c → x.stale = false →
     x.matchesReading r = true → r.measureFail = false → (s.ch c).drive = .stopping → (s.ch c).injectLeft = 0 →
     (s.ch c).active.noresp = false →
     ∃ t, exec (.readingReceived r) s = .next t ∧
       t.ch c = { s.ch c with lastReading := some (correctedReading (s.node x.node) r.value), norespFaults := 0 } ∧
       (∀ v k d a, Report.readback c v k d a ∈ t.outgoing → Report.readback c v k d a ∈ s.outgoing) ∧
       ∀ d, d ≠ c → t.ch d = s.ch d)

/-! ### Arithmetic -/

/-- Calibration (R13): the product with gain_n, divided by 32768 with the fraction dropped, plus the offset, limited to code_min and
code_max; clamped exactly when it was limited. -/
def Obligations.CalibrationFollowsTheEntry : Prop :=
  ∀ (e : ChannelEntry) (data : Code), e.codeMin.toNat ≤ e.codeMax.toNat →
    ((((data.toNat * e.gainN.toNat / 32768 : Nat) : Int) + e.offset.toInt < e.codeMin.toNat → calibrate e data = (e.codeMin, true)) ∧
     ((e.codeMax.toNat : Int) < ((data.toNat * e.gainN.toNat / 32768 : Nat) : Int) + e.offset.toInt →
       calibrate e data = (e.codeMax, true)) ∧
     ((e.codeMin.toNat : Int) ≤ ((data.toNat * e.gainN.toNat / 32768 : Nat) : Int) + e.offset.toInt →
       ((data.toNat * e.gainN.toNat / 32768 : Nat) : Int) + e.offset.toInt ≤ e.codeMax.toNat →
       ((calibrate e data).1.toNat : Int) = ((data.toNat * e.gainN.toNat / 32768 : Nat) : Int) + e.offset.toInt ∧
       (calibrate e data).2 = false)) ∧
    e.inRange (calibrate e data).1

/-- The step code (R27): its distance to the goal is what R27's table leaves, on the same side, and a step never passes the goal. -/
def Obligations.StepCodeFollowsTheTable : Prop :=
  ∀ (e : ChannelEntry) (bypass : Bool) (current goal : Code),
    (current = goal → stepCode e bypass current goal = goal) ∧
    (e.slewStep = 0 ∨ bypass = true → stepCode e bypass current goal = goal) ∧
    (∀ d : Nat, current.toNat + d = goal.toNat ∨ goal.toNat + d = current.toNat → e.slewStep ≠ 0 → bypass = false →
      ∀ size : Nat, size = Nat.min e.slewStep.val (if e.slewShape = .linear then d else (d + 1) / 2) →
        size ≤ d ∧ (current.toNat + d = goal.toNat → (stepCode e bypass current goal).toNat = current.toNat + size) ∧
        (goal.toNat + d = current.toNat → (stepCode e bypass current goal).toNat = current.toNat - size))

/-- The corrected reading (R108): raw − zero_corr limited to 0 to 65535 while the zero is VALID, raw otherwise. -/
def Obligations.CorrectedReadingIsLimited : Prop :=
  ∀ (n : NodeRecord) (raw : Code),
    (n.zeroState ≠ .valid → correctedReading n raw = raw) ∧
    (n.zeroState = .valid →
      ((correctedReading n raw).toNat : Int) = max 0 (min 65535 ((raw.toNat : Int) - n.zeroCorr)))

/-! ### Timers -/

/-- STEP_TIMER_EXPIRY (R29): in MOVING with nothing of the channel queued or in flight and not at goal a step is issued; in RELEASING
with nothing queued or in flight the reconnecting write is placed again (R44); in the other states the timer only expires. -/
def Obligations.StepTimerExpiryActsByState : Prop :=
  ∀ (c : ChannelNo) (s : State), s.TransmitterLaw → (s.ch c).stepTimer.isRunning = true →
    (∀ k g, (s.ch c).drive = .moving → s.hasWork c = false → (s.ch c).sent = some k → (s.ch c).goal = some g →
      ¬ ((s.ch c).applied = some k ∧ k = g) →
      exec (.stepTimerExpiry c) s = .next { s with
        ctx := s.ctx.set c.val { s.ch c with
          sent := some (stepCode (s.entry c) s.mgx.slewBypass k g), stepTimer := .running ((s.entry c).slewInterval.val * 1000) }
        oq := { s.oq with writes := s.oq.writes ++ [⟨c, stepCode (s.entry c) s.mgx.slewBypass k g, false⟩] } }) ∧
    ((s.ch c).drive = .releasing → s.hasWork c = false →
      exec (.stepTimerExpiry c) s = .next { s with
        ctx := s.ctx.set c.val { s.ch c with
          sent := some ((s.ch c).applied.getD (s.entry c).safeCode), stepTimer := .running ((s.entry c).slewInterval.val * 1000) }
        oq := { s.oq with writes := s.oq.writes ++ [⟨c, (s.ch c).applied.getD (s.entry c).safeCode, true⟩] } }) ∧
    ((s.ch c).drive = .steady ∨ (s.ch c).drive = .stopping ∨ (s.ch c).drive = .isolating ∨ (s.ch c).drive = .isolated ∨
        s.hasWork c = true →
      exec (.stepTimerExpiry c) s = .next { s with ctx := s.ctx.set c.val { s.ch c with stepTimer := .expired } })

/-- (a) SPACING_TIMER_EXPIRY (R93, R94, R96): with the poll still waiting or in flight the slot goes on; otherwise it ends: the next slot
starts, or at the last slot the walk ends by its mode.  A slot that starts places its poll (R91).

(b) CYCLE_TIMER_EXPIRY (R95): in RUNNING the period has elapsed and the walk goes on; in WAITING the next cycle starts; in
SEQ_STOPPING nothing but the timer.

(c) The range of a walk (R88): its last slot is stop_index when start_index is not above it, and start_index otherwise.

(d) The completion of the slot's poll (R92, R93), by an answer or by NO_REPLY: with the spacing timer running the slot goes on with its
poll done; with the timer expired the slot ends there as in (a). -/
def Obligations.SlotsAndCyclesEnd : Prop :=
  (∀ (us : Nat) (s : State), s.TransmitterLaw → s.psq.spacingTimer = .running us →
     (s.psq.slotPoll = .pending ∨ s.psq.slotPoll = .inFlight →
       exec .spacingTimerExpiry s = .next { s with psq := { s.psq with spacingTimer := .expired } }) ∧
     (s.psq.slotPoll = .none ∨ s.psq.slotPoll = .done →
       (s.psq.state = .seqStopping → exec .spacingTimerExpiry s =
         .next { s with psq := { s.psq with spacingTimer := .expired, slotPoll := .none, state := .idle } }) ∧
       (s.psq.state = .running → s.psq.currentIndex ≠ s.psq.record.lastSlot →
         ∃ t, exec .spacingTimerExpiry s = .next t ∧ t.psq.currentIndex = s.psq.currentIndex + 1 ∧ t.psq.state = .running ∧
           t.psq.spacingTimer = .running (s.psq.record.slotSpacing.val * 100) ∧
           s.places s.psq.record.slots[(s.psq.currentIndex + 1).val] t.psq.pollSlot ∧
           t.psq.slotPoll = (if t.psq.pollSlot.isSome then .pending else .none) ∧ t.outgoing = s.outgoing ∧
           s.OnlyReports { t with psq := s.psq }) ∧
       (s.psq.state = .running → s.psq.currentIndex = s.psq.record.lastSlot →
         ∃ t, exec .spacingTimerExpiry s = .next t ∧
           (s.psq.record.mode = .once → t.psq.state = .idle ∧ t.psq.cycleTimer = .stopped ∧
             t.outgoing = s.clp.tx.toList ++ partPlaced s.rq .seqDone) ∧
           (s.psq.record.mode = .cyclic → s.psq.record.cyclePeriod ≠ 0 → s.psq.periodElapsed = false →
             t.psq.state = .waiting ∧ t.outgoing = s.outgoing) ∧
           (s.psq.record.mode = .cyclic → s.psq.record.cyclePeriod = 0 ∨ s.psq.periodElapsed = true →
             t.psq.state = .running ∧ t.psq.currentIndex = s.psq.record.startIndex ∧ t.psq.periodElapsed = false ∧
             s.places s.psq.record.slots[s.psq.record.startIndex.val] t.psq.pollSlot ∧
             t.psq.slotPoll = (if t.psq.pollSlot.isSome then .pending else .none)) ∧
           (s.psq.record.mode = .cyclic → s.psq.record.cyclePeriod ≠ 0 → s.psq.periodElapsed = true →
             t.mgx.latches.seqOverrun = true ∧ t.outgoing = s.clp.tx.toList ++ partPlaced s.rq .seqOverrun)))) ∧
  (∀ s : State, s.TransmitterLaw → s.psq.cycleTimer.isRunning = true →
     (s.psq.state = .running → exec .cycleTimerExpiry s =
       .next { s with psq := { s.psq with cycleTimer := .expired, periodElapsed := true } }) ∧
     (s.psq.state = .seqStopping → exec .cycleTimerExpiry s = .next { s with psq := { s.psq with cycleTimer := .expired } }) ∧
     (s.psq.state = .waiting → ∃ t, exec .cycleTimerExpiry s = .next t ∧ t.psq.state = .running ∧ t.psq.periodElapsed = false ∧
       t.psq.currentIndex = s.psq.record.startIndex ∧ t.psq.spacingTimer = .running (s.psq.record.slotSpacing.val * 100) ∧
       s.places s.psq.record.slots[s.psq.record.startIndex.val] t.psq.pollSlot ∧
       t.psq.slotPoll = (if t.psq.pollSlot.isSome then .pending else .none) ∧
       t.outgoing = s.outgoing ∧ s.OnlyReports { t with psq := s.psq })) ∧
  (∀ r : SequenceRecord,
     (r.startIndex.val ≤ r.stopIndex.val → r.lastSlot = r.stopIndex) ∧ (r.stopIndex.val < r.startIndex.val → r.lastSlot = r.startIndex)) ∧
  (∀ (i : Instr) (x : Transaction) (s : State), (x.job = .zero ∨ ∃ c, x.job = .poll c) → s.fbc.state = .awaitReply x →
     s.psq.slotPoll = .inFlight →
     (i = .responseTimeoutExpiry ∨ ∃ r, i = .readingReceived r ∧ (s.fbc.frx = .taking ∨ r.idleBefore = true) ∧
       x.matchesReading r = true) →
     ∃ t, exec i s = .next t ∧
       (s.psq.spacingTimer.isRunning = true → t.psq = { s.psq with slotPoll := .done }) ∧
       (s.psq.spacingTimer = .expired → s.psq.state = .seqStopping → t.psq = { s.psq with slotPoll := .none, state := .idle }) ∧
       (s.psq.spacingTimer = .expired → s.psq.state = .running → s.psq.currentIndex ≠ s.psq.record.lastSlot →
         t.psq.currentIndex = s.psq.currentIndex + 1 ∧ t.psq.state = .running ∧
         t.psq.spacingTimer = .running (s.psq.record.slotSpacing.val * 100) ∧
         t.places s.psq.record.slots[(s.psq.currentIndex + 1).val] t.psq.pollSlot ∧
         t.psq.slotPoll = (if t.psq.pollSlot.isSome then .pending else .none)) ∧
       (s.psq.spacingTimer = .expired → s.psq.state = .running → s.psq.currentIndex = s.psq.record.lastSlot →
         (s.psq.record.mode = .once →
           t.psq = { s.psq with slotPoll := .none, state := .idle, cycleTimer := .stopped }) ∧
         (s.psq.record.mode = .cyclic → s.psq.record.cyclePeriod ≠ 0 → s.psq.periodElapsed = false →
           t.psq = { s.psq with slotPoll := .none, state := .waiting }) ∧
         (s.psq.record.mode = .cyclic → s.psq.record.cyclePeriod = 0 ∨ s.psq.periodElapsed = true →
           t.psq.state = .running ∧ t.psq.currentIndex = s.psq.record.startIndex ∧ t.psq.periodElapsed = false ∧
           t.places s.psq.record.slots[s.psq.record.startIndex.val] t.psq.pollSlot ∧
           t.psq.slotPoll = (if t.psq.pollSlot.isSome then .pending else .none))))

/-- SILENCE_TIMER_EXPIRY in QUIET (R142): the part is SILENT with its timer expired, SILENCE joins both sets of every channel that is
not OFF and of no other, every effective action follows and a changed one reaches the drive (R131, R24, R33), and SILENCE_ON is offered
last; here with no class masked. -/
def Obligations.SilenceTimerExpirySilencesThePart : Prop :=
  ∀ s : State, s.TransmitterLaw → s.act.state = .quiet → s.act.timer.isRunning = true →
    (∀ c, (s.ch c).action = effectiveAction (s.entry c) (s.ch c).active) → (∀ c, (s.entry c).alarmMask.silence = false) →
    ∃ t, exec .silenceTimerExpiry s = .next t ∧ t.act = ⟨.silent, .expired⟩ ∧
      (∀ c, (s.ch c).drive = .off → t.ch c = s.ch c) ∧
      (∀ c, (s.ch c).drive ≠ .off →
        (t.ch c).active = { (s.ch c).active with silence := true } ∧
        (t.ch c).latched.silence = ((s.ch c).latched.silence || !(s.ch c).active.silence) ∧
        (t.ch c).action = effectiveAction (s.entry c) (t.ch c).active ∧
        ((t.ch c).action = (s.ch c).action →
          (t.ch c).drive = (s.ch c).drive ∧ (t.ch c).goal = (s.ch c).goal ∧ (t.ch c).sent = (s.ch c).sent) ∧
        ((t.ch c).action ≠ (s.ch c).action → (s.ch c).drive = .moving ∨ (s.ch c).drive = .steady →
          ((t.ch c).drive = .isolating ↔ (t.ch c).action = .isolate) ∧
          (t.ch c).goal = (match (t.ch c).action with
            | .none => (s.ch c).target
            | .hold => (s.ch c).sent
            | .safe => some (s.entry c).safeCode
            | .isolate => (s.ch c).goal))) ∧
      t.outgoing = s.clp.tx.toList ++ partPlaced s.rq .silenceOn ∧
      s.OnlyReports { t with ctx := s.ctx, oq := s.oq, act := s.act }

/-- (a) A SETPOINT frame taken while SILENT (R143, R10): the part is QUIET with the timer started again, SILENCE leaves every active set and
stays latched, and SILENCE_OFF is offered; here all pairs are discarded and no class is masked.

(b) A silence_timeout of 0 written while SILENT ends the silence (R144, R143): QUIET with the timer stopped, SILENCE out of every
active set and SILENCE_OFF offered last before the RESPONSE, here with no class masked. -/
def Obligations.SilenceEndsOnEveryChannel : Prop :=
  (∀ (p : SetpointPair) (s : State), s.TransmitterLaw → s.sph = [] → s.clp.rx ≠ .hunt → s.mgx.mode = .run → s.act.state = .silent →
     24 ≤ p.channel.toNat → (∀ c, (s.entry c).alarmMask.silence = false) →
     (∀ c, (s.ch c).action = effectiveAction (s.entry c) (s.ch c).active) →
     ∃ t, exec (.setpointFrame [p]) s = .next t ∧
       t.act = ⟨.quiet, if s.mgx.config.silenceTimeout = 0 then .stopped else .running (s.mgx.config.silenceTimeout.val * 10000)⟩ ∧
       (∀ c, (t.ch c).active = { (s.ch c).active with silence := false } ∧ (t.ch c).latched = (s.ch c).latched ∧
         (t.ch c).action = effectiveAction (s.entry c) (t.ch c).active) ∧
       t.mgx.latches.lastDiscarded = p.channel ∧ t.outgoing = s.clp.tx.toList ++ partPlaced s.rq .silenceOff) ∧
  (∀ (tag : Byte) (record : List Byte) (rest : List (List Byte)) (s : State), s.TransmitterLaw → record.length = 7 →
     s.Takes (.writeEntryPart tag 0 record) rest → s.pst.state.isSaving = false → configRecordValid record →
     byteAt record 0 = 0 → s.mgx.config.silenceTimeout ≠ 0 → s.act.state = .silent → s.switchPending = false →
     (∀ c, (s.entry c).alarmMask.silence = false) →
     ∃ (p : PartConfig) (t : State), p.bytes = record ∧ exec (.writeEntryPart tag 0 record) s = .next t ∧
       t.act = ⟨.quiet, .stopped⟩ ∧ t.mgx = { s.mgx with queue := rest, config := p } ∧
       (∀ c, (t.ch c).active = { (s.ch c).active with silence := false } ∧ (t.ch c).latched = (s.ch c).latched) ∧
       t.outgoing = s.clp.tx.toList ++ partPlaced s.rq .silenceOff ++
         [.response tag 0x04 .ok [] (if p.linkRate = s.clp.rate then .nothing else .switchRate p.linkRate)])

/-- (a) A change of the effective action reaches the drive (R24, R33): by the new action, in MOVING and STEADY, RELEASING, and the states
that take no notice.

(b) The effective action is the highest, in the order NONE, HOLD, SAFE, ISOLATE, of the actions mapped from the active classes, and NONE
when there is none (R129, R130).  The recomputation (R131): an effective action equal to the one held tells the engine nothing; another
one takes the place of the one held and is told.

(c) A change of the active set (R123, R131, R137): the set is stored, the joining classes are latched, the action is recomputed, and an
ALARM is offered exactly if a masked class joins or leaves; a set that stays changes nothing. -/
def Obligations.ActionChangeReachesTheDrive : Prop :=
  (∀ (c : ChannelNo) (a : Action) (s : State),
    ((s.ch c).drive = .stopping ∨ (s.ch c).drive = .isolating ∨ (s.ch c).drive = .isolated ∨ (s.ch c).drive = .off →
      s.actionChanged c a = s) ∧
    (a = .isolate → (s.ch c).drive = .moving ∨ (s.ch c).drive = .steady ∨ (s.ch c).drive = .releasing → s.oq.hasIsolate c = false →
      s.actionChanged c a = { s with
        ctx := s.ctx.set c.val { s.ch c with drive := .isolating }
        oq := { isolates := s.oq.isolates ++ [c], writes := s.oq.writes.filter fun w => !w.isOf c } }) ∧
    (a ≠ .isolate → (s.ch c).drive = .releasing → s.actionChanged c a = s) ∧
    (a ≠ .isolate → (s.ch c).drive = .moving ∨ (s.ch c).drive = .steady →
      ((s.actionChanged c a).ch c).goal = (match a with
        | .none => (s.ch c).target
        | .hold => (s.ch c).sent
        | .safe => some (s.entry c).safeCode
        | .isolate => (s.ch c).goal))) ∧
  (∀ (e : ChannelEntry) (active : ClassSet),
    (effectiveAction e active = .isolate ↔ e.mapsTo active .isolate) ∧
    (effectiveAction e active = .safe ↔ e.mapsTo active .safe ∧ ¬ e.mapsTo active .isolate) ∧
    (effectiveAction e active = .hold ↔ e.mapsTo active .hold ∧ ¬ e.mapsTo active .safe ∧ ¬ e.mapsTo active .isolate) ∧
    (effectiveAction e active = .none ↔ ¬ e.mapsTo active .hold ∧ ¬ e.mapsTo active .safe ∧ ¬ e.mapsTo active .isolate)) ∧
  (∀ (c : ChannelNo) (s : State),
    (effectiveAction (s.entry c) (s.ch c).active = (s.ch c).action → s.recompute c = s) ∧
    (∀ a, effectiveAction (s.entry c) (s.ch c).active = a → a ≠ (s.ch c).action →
      s.recompute c = State.actionChanged { s with ctx := s.ctx.set c.val { s.ch c with action := a } } c a)) ∧
  (∀ (c : ChannelNo) (new : ClassSet) (x : ChannelCtx) (s u : State), s.TransmitterLaw →
    x = { s.ch c with active := new, latched := (s.ch c).latched.union (new.minus (s.ch c).active) } →
    u = State.recompute { s with ctx := s.ctx.set c.val x } c →
    (new = (s.ch c).active → s.setActive c new = s) ∧
    (new ≠ (s.ch c).active → (s.ch c).active.touches new (s.entry c).alarmMask = false → s.setActive c new = u) ∧
    (new ≠ (s.ch c).active → (s.ch c).active.touches new (s.entry c).alarmMask = true →
      s.setActive c new = { u with rq := alarmPlaced s.rq c (u.ch c).active (u.ch c).latched (u.ch c).action }))

/-! ### The pairs of a SETPOINT frame -/

/-- A SETPOINT frame applies its pairs one by one in payload order (R10, R14, R18).

(a) A frame does what its first pair does in a frame of its own and then what the rest does in another, when no other event is taken
between them.

(b) Where another event is taken before the second pair (R18; the cut is the model's operand, notes/assumptions/1.md), that pair and
the rest wait, and SETPOINT_FRAME without pairs goes on with them: the pairs do what they do in a frame, but no notice reaches ACT and
the receiver stays.  What waits of an earlier frame comes before a new frame.

(c) A pair for a MOVING channel with a WRITE queued and action NONE (R25, R48): with slew_step 0 or slew bypass on a new goal replaces the
queued code in place and the sent code, otherwise the queued step stays.

(d) A pair under HOLD, SAFE or ISOLATE, or for a channel in an isolation state (R11, R23): target and clamped only.

(e) A pair for a MOVING channel with a WRITE in flight, none queued and action NONE (R25, R48, R53): the goal follows and the WRITE is not
touched.  The sent code stays, but names a new goal while the WRITE's frame has not gone out and its channel is unslewed (R53, last
paragraph; that bound at the strobe is the model's choice, notes/assumptions/23.md). -/
def Obligations.SetpointFrameAppliesItsPairsInOrder : Prop :=
  (∀ (p q : SetpointPair) (rest : List SetpointPair) (s : State), s.clp.rx ≠ .hunt → rest.length ≤ 6 → q.waits = false →
     ∃ t, exec (.setpointFrame [p]) s = .next t ∧ exec (.setpointFrame (p :: q :: rest)) s = exec (.setpointFrame (q :: rest)) t) ∧
  ((∀ (p q : SetpointPair) (rest : List SetpointPair) (s : State), s.clp.rx ≠ .hunt → s.mgx.mode = .run → rest.length ≤ 6 →
      q.waits = true →
      ∃ t, exec (.setpointFrame [p]) s = .next t ∧ exec (.setpointFrame (p :: q :: rest)) s = .next { t with sph := q :: rest }) ∧
   (∀ (p : SetpointPair) (s : State), s.mgx.mode = .run → s.act.state = .quiet → s.sph = [p] →
      ∃ t, exec (.setpointFrame [p]) { s with sph := [], clp := { s.clp with rx := .ready } } = .next t ∧
        exec (.setpointFrame []) s = .next { t with act := s.act, clp := { t.clp with rx := s.clp.rx } }) ∧
   (∀ (p q : SetpointPair) (rest : List SetpointPair) (s : State),
      ∃ t, exec (.setpointFrame []) { s with sph := [p] } = .next t ∧
        exec (.setpointFrame []) { s with sph := p :: q :: rest } =
          if q.waits then .next { t with sph := q :: rest } else exec (.setpointFrame []) { t with sph := q :: rest }) ∧
   (∀ (pairs : List SetpointPair) (s : State), s.TransmitterLaw → s.clp.rx ≠ .hunt → s.mgx.mode = .run → 1 ≤ pairs.length →
      pairs.length ≤ 8 →
      ∃ t, exec (.setpointFrame []) { s with sph := s.sph.map fun q => { q with waits := false } } = .next t ∧
        exec (.setpointFrame pairs) s = exec (.setpointFrame pairs) t)) ∧
  (∀ (p : SetpointPair) (c : ChannelNo) (s : State) (g code : Code) (x : ChannelCtx), s.TransmitterLaw → s.sph = [] →
     s.clp.rx ≠ .hunt → s.mgx.mode = .run → s.act.state = .quiet → p.channel.toNat = c.val → (s.ch c).drive = .moving →
     (s.ch c).action = .none → s.oq.hasWrite c = true → s.oq.hasIsolate c = false → (s.ch c).goal = some g →
     code = (calibrate (s.entry c) p.data).1 →
     x = { s.ch c with target := some code, clamped := (calibrate (s.entry c) p.data).2,
                       presetTaken := (s.ch c).presetTaken || s.pru.state == .applying } →
     ∃ t, exec (.setpointFrame [p]) s = .next t ∧
       (code = g → t.ch c = x ∧ t.oq = s.oq) ∧
       (code ≠ g → (s.entry c).slewStep ≠ 0 → s.mgx.slewBypass = false → t.ch c = { x with goal := some code } ∧ t.oq = s.oq) ∧
       (code ≠ g → (s.entry c).slewStep = 0 ∨ s.mgx.slewBypass = true →
         t.ch c = { x with goal := some code, sent := some code } ∧
         t.oq = { s.oq with writes := s.oq.writes.map fun w => if w.channel = c then { w with code := code } else w }) ∧
       t.outgoing = s.outgoing ∧ State.OnlyChannel c s { t with clp := { t.clp with rx := s.clp.rx }, act := s.act }) ∧
  (∀ (p : SetpointPair) (c : ChannelNo) (s : State), s.TransmitterLaw → s.sph = [] → s.clp.rx ≠ .hunt → s.mgx.mode = .run →
     s.act.state = .quiet → p.channel.toNat = c.val →
     (((s.ch c).drive = .moving ∨ (s.ch c).drive = .steady) ∧ (s.ch c).action ≠ .none) ∨
       (s.ch c).drive = .isolating ∨ (s.ch c).drive = .isolated ∨ (s.ch c).drive = .releasing →
     ∃ t, exec (.setpointFrame [p]) s = .next t ∧
       t.ch c = { s.ch c with
         target := some (calibrate (s.entry c) p.data).1, clamped := (calibrate (s.entry c) p.data).2
         presetTaken := (s.ch c).presetTaken || s.pru.state == .applying } ∧
       t.oq = s.oq ∧ t.outgoing = s.outgoing ∧ State.OnlyChannel c s { t with clp := { t.clp with rx := s.clp.rx }, act := s.act }) ∧
  (∀ (p : SetpointPair) (c : ChannelNo) (s : State) (code : Code) (x : ChannelCtx), s.TransmitterLaw → s.sph = [] →
     s.clp.rx ≠ .hunt → s.mgx.mode = .run → s.act.state = .quiet → p.channel.toNat = c.val → (s.ch c).drive = .moving →
     (s.ch c).action = .none → s.oq.hasEntry c = false → s.writeInFlight c = true → code = (calibrate (s.entry c) p.data).1 →
     x = { s.ch c with target := some code, clamped := (calibrate (s.entry c) p.data).2, goal := some code,
                       presetTaken := (s.ch c).presetTaken || s.pru.state == .applying } →
     ∃ t, exec (.setpointFrame [p]) s = .next t ∧ t.oq = s.oq ∧ t.fbc = s.fbc ∧
       t.ch c = (if (s.ch c).goal ≠ some code ∧ ((s.entry c).slewStep = 0 ∨ s.mgx.slewBypass = true) ∧ s.writeJustGranted c = true
         then { x with sent := some code } else x) ∧
       t.outgoing = s.outgoing ∧ State.OnlyChannel c s { t with clp := { t.clp with rx := s.clp.rx }, act := s.act })
end

