-- ==== Sys2Proof/Laws/State.lean ====
section
/-! SUPPORT. One lemma per field of State per update of Machine/Ops.lean, true by rfl, so that no proof unfolds a record update;
and what each update leaves of the channel contexts, the channel entries and the node records. -/

namespace Sys2Proof.Machine

/-! ### setPending -/

@[simp] theorem State.pending_setPending (s : State) (x : List Instr) : (s.setPending x).pending = x := rfl
@[simp] theorem State.clp_setPending (s : State) (x : List Instr) : (s.setPending x).clp = s.clp := rfl
@[simp] theorem State.ct_setPending (s : State) (x : List Instr) : (s.setPending x).ct = s.ct := rfl
@[simp] theorem State.ctx_setPending (s : State) (x : List Instr) : (s.setPending x).ctx = s.ctx := rfl
@[simp] theorem State.oq_setPending (s : State) (x : List Instr) : (s.setPending x).oq = s.oq := rfl
@[simp] theorem State.fbc_setPending (s : State) (x : List Instr) : (s.setPending x).fbc = s.fbc := rfl
@[simp] theorem State.psq_setPending (s : State) (x : List Instr) : (s.setPending x).psq = s.psq := rfl
@[simp] theorem State.nt_setPending (s : State) (x : List Instr) : (s.setPending x).nt = s.nt := rfl
@[simp] theorem State.act_setPending (s : State) (x : List Instr) : (s.setPending x).act = s.act := rfl
@[simp] theorem State.pru_setPending (s : State) (x : List Instr) : (s.setPending x).pru = s.pru := rfl
@[simp] theorem State.rq_setPending (s : State) (x : List Instr) : (s.setPending x).rq = s.rq := rfl
@[simp] theorem State.mgx_setPending (s : State) (x : List Instr) : (s.setPending x).mgx = s.mgx := rfl
@[simp] theorem State.pst_setPending (s : State) (x : List Instr) : (s.setPending x).pst = s.pst := rfl
@[simp] theorem State.freeCount_setPending (s : State) (x : List Instr) : (s.setPending x).freeCount = s.freeCount := rfl
@[simp] theorem State.sph_setPending (s : State) (x : List Instr) : (s.setPending x).sph = s.sph := rfl
@[simp] theorem State.ch_setPending (s : State) (x : List Instr) (c : ChannelNo) : (s.setPending x).ch c = s.ch c := rfl
@[simp] theorem State.entry_setPending (s : State) (x : List Instr) (c : ChannelNo) : (s.setPending x).entry c = s.entry c := rfl
@[simp] theorem State.node_setPending (s : State) (x : List Instr) (n : Node) : (s.setPending x).node n = s.node n := rfl
@[simp] theorem State.setPending_self (s : State) : s.setPending s.pending = s := rfl
@[simp] theorem State.setPending_setPending (s : State) (x y : List Instr) : (s.setPending x).setPending y = s.setPending y := rfl

/-! ### setClp -/

@[simp] theorem State.pending_setClp (s : State) (x : LinkPort) : (s.setClp x).pending = s.pending := rfl
@[simp] theorem State.clp_setClp (s : State) (x : LinkPort) : (s.setClp x).clp = x := rfl
@[simp] theorem State.ct_setClp (s : State) (x : LinkPort) : (s.setClp x).ct = s.ct := rfl
@[simp] theorem State.ctx_setClp (s : State) (x : LinkPort) : (s.setClp x).ctx = s.ctx := rfl
@[simp] theorem State.oq_setClp (s : State) (x : LinkPort) : (s.setClp x).oq = s.oq := rfl
@[simp] theorem State.fbc_setClp (s : State) (x : LinkPort) : (s.setClp x).fbc = s.fbc := rfl
@[simp] theorem State.psq_setClp (s : State) (x : LinkPort) : (s.setClp x).psq = s.psq := rfl
@[simp] theorem State.nt_setClp (s : State) (x : LinkPort) : (s.setClp x).nt = s.nt := rfl
@[simp] theorem State.act_setClp (s : State) (x : LinkPort) : (s.setClp x).act = s.act := rfl
@[simp] theorem State.pru_setClp (s : State) (x : LinkPort) : (s.setClp x).pru = s.pru := rfl
@[simp] theorem State.rq_setClp (s : State) (x : LinkPort) : (s.setClp x).rq = s.rq := rfl
@[simp] theorem State.mgx_setClp (s : State) (x : LinkPort) : (s.setClp x).mgx = s.mgx := rfl
@[simp] theorem State.pst_setClp (s : State) (x : LinkPort) : (s.setClp x).pst = s.pst := rfl
@[simp] theorem State.freeCount_setClp (s : State) (x : LinkPort) : (s.setClp x).freeCount = s.freeCount := rfl
@[simp] theorem State.sph_setClp (s : State) (x : LinkPort) : (s.setClp x).sph = s.sph := rfl
@[simp] theorem State.ch_setClp (s : State) (x : LinkPort) (c : ChannelNo) : (s.setClp x).ch c = s.ch c := rfl
@[simp] theorem State.entry_setClp (s : State) (x : LinkPort) (c : ChannelNo) : (s.setClp x).entry c = s.entry c := rfl
@[simp] theorem State.node_setClp (s : State) (x : LinkPort) (n : Node) : (s.setClp x).node n = s.node n := rfl
@[simp] theorem State.setClp_self (s : State) : s.setClp s.clp = s := rfl
@[simp] theorem State.setClp_setClp (s : State) (x y : LinkPort) : (s.setClp x).setClp y = s.setClp y := rfl

/-! ### setOq -/

@[simp] theorem State.pending_setOq (s : State) (x : OutputQueue) : (s.setOq x).pending = s.pending := rfl
@[simp] theorem State.clp_setOq (s : State) (x : OutputQueue) : (s.setOq x).clp = s.clp := rfl
@[simp] theorem State.ct_setOq (s : State) (x : OutputQueue) : (s.setOq x).ct = s.ct := rfl
@[simp] theorem State.ctx_setOq (s : State) (x : OutputQueue) : (s.setOq x).ctx = s.ctx := rfl
@[simp] theorem State.oq_setOq (s : State) (x : OutputQueue) : (s.setOq x).oq = x := rfl
@[simp] theorem State.fbc_setOq (s : State) (x : OutputQueue) : (s.setOq x).fbc = s.fbc := rfl
@[simp] theorem State.psq_setOq (s : State) (x : OutputQueue) : (s.setOq x).psq = s.psq := rfl
@[simp] theorem State.nt_setOq (s : State) (x : OutputQueue) : (s.setOq x).nt = s.nt := rfl
@[simp] theorem State.act_setOq (s : State) (x : OutputQueue) : (s.setOq x).act = s.act := rfl
@[simp] theorem State.pru_setOq (s : State) (x : OutputQueue) : (s.setOq x).pru = s.pru := rfl
@[simp] theorem State.rq_setOq (s : State) (x : OutputQueue) : (s.setOq x).rq = s.rq := rfl
@[simp] theorem State.mgx_setOq (s : State) (x : OutputQueue) : (s.setOq x).mgx = s.mgx := rfl
@[simp] theorem State.pst_setOq (s : State) (x : OutputQueue) : (s.setOq x).pst = s.pst := rfl
@[simp] theorem State.freeCount_setOq (s : State) (x : OutputQueue) : (s.setOq x).freeCount = s.freeCount := rfl
@[simp] theorem State.sph_setOq (s : State) (x : OutputQueue) : (s.setOq x).sph = s.sph := rfl
@[simp] theorem State.ch_setOq (s : State) (x : OutputQueue) (c : ChannelNo) : (s.setOq x).ch c = s.ch c := rfl
@[simp] theorem State.entry_setOq (s : State) (x : OutputQueue) (c : ChannelNo) : (s.setOq x).entry c = s.entry c := rfl
@[simp] theorem State.node_setOq (s : State) (x : OutputQueue) (n : Node) : (s.setOq x).node n = s.node n := rfl
@[simp] theorem State.setOq_self (s : State) : s.setOq s.oq = s := rfl
@[simp] theorem State.setOq_setOq (s : State) (x y : OutputQueue) : (s.setOq x).setOq y = s.setOq y := rfl

/-! ### setFbc -/

@[simp] theorem State.pending_setFbc (s : State) (x : FieldBus) : (s.setFbc x).pending = s.pending := rfl
@[simp] theorem State.clp_setFbc (s : State) (x : FieldBus) : (s.setFbc x).clp = s.clp := rfl
@[simp] theorem State.ct_setFbc (s : State) (x : FieldBus) : (s.setFbc x).ct = s.ct := rfl
@[simp] theorem State.ctx_setFbc (s : State) (x : FieldBus) : (s.setFbc x).ctx = s.ctx := rfl
@[simp] theorem State.oq_setFbc (s : State) (x : FieldBus) : (s.setFbc x).oq = s.oq := rfl
@[simp] theorem State.fbc_setFbc (s : State) (x : FieldBus) : (s.setFbc x).fbc = x := rfl
@[simp] theorem State.psq_setFbc (s : State) (x : FieldBus) : (s.setFbc x).psq = s.psq := rfl
@[simp] theorem State.nt_setFbc (s : State) (x : FieldBus) : (s.setFbc x).nt = s.nt := rfl
@[simp] theorem State.act_setFbc (s : State) (x : FieldBus) : (s.setFbc x).act = s.act := rfl
@[simp] theorem State.pru_setFbc (s : State) (x : FieldBus) : (s.setFbc x).pru = s.pru := rfl
@[simp] theorem State.rq_setFbc (s : State) (x : FieldBus) : (s.setFbc x).rq = s.rq := rfl
@[simp] theorem State.mgx_setFbc (s : State) (x : FieldBus) : (s.setFbc x).mgx = s.mgx := rfl
@[simp] theorem State.pst_setFbc (s : State) (x : FieldBus) : (s.setFbc x).pst = s.pst := rfl
@[simp] theorem State.freeCount_setFbc (s : State) (x : FieldBus) : (s.setFbc x).freeCount = s.freeCount := rfl
@[simp] theorem State.sph_setFbc (s : State) (x : FieldBus) : (s.setFbc x).sph = s.sph := rfl
@[simp] theorem State.ch_setFbc (s : State) (x : FieldBus) (c : ChannelNo) : (s.setFbc x).ch c = s.ch c := rfl
@[simp] theorem State.entry_setFbc (s : State) (x : FieldBus) (c : ChannelNo) : (s.setFbc x).entry c = s.entry c := rfl
@[simp] theorem State.node_setFbc (s : State) (x : FieldBus) (n : Node) : (s.setFbc x).node n = s.node n := rfl
@[simp] theorem State.setFbc_self (s : State) : s.setFbc s.fbc = s := rfl
@[simp] theorem State.setFbc_setFbc (s : State) (x y : FieldBus) : (s.setFbc x).setFbc y = s.setFbc y := rfl

/-! ### setPsq -/

@[simp] theorem State.pending_setPsq (s : State) (x : Sequencer) : (s.setPsq x).pending = s.pending := rfl
@[simp] theorem State.clp_setPsq (s : State) (x : Sequencer) : (s.setPsq x).clp = s.clp := rfl
@[simp] theorem State.ct_setPsq (s : State) (x : Sequencer) : (s.setPsq x).ct = s.ct := rfl
@[simp] theorem State.ctx_setPsq (s : State) (x : Sequencer) : (s.setPsq x).ctx = s.ctx := rfl
@[simp] theorem State.oq_setPsq (s : State) (x : Sequencer) : (s.setPsq x).oq = s.oq := rfl
@[simp] theorem State.fbc_setPsq (s : State) (x : Sequencer) : (s.setPsq x).fbc = s.fbc := rfl
@[simp] theorem State.psq_setPsq (s : State) (x : Sequencer) : (s.setPsq x).psq = x := rfl
@[simp] theorem State.nt_setPsq (s : State) (x : Sequencer) : (s.setPsq x).nt = s.nt := rfl
@[simp] theorem State.act_setPsq (s : State) (x : Sequencer) : (s.setPsq x).act = s.act := rfl
@[simp] theorem State.pru_setPsq (s : State) (x : Sequencer) : (s.setPsq x).pru = s.pru := rfl
@[simp] theorem State.rq_setPsq (s : State) (x : Sequencer) : (s.setPsq x).rq = s.rq := rfl
@[simp] theorem State.mgx_setPsq (s : State) (x : Sequencer) : (s.setPsq x).mgx = s.mgx := rfl
@[simp] theorem State.pst_setPsq (s : State) (x : Sequencer) : (s.setPsq x).pst = s.pst := rfl
@[simp] theorem State.freeCount_setPsq (s : State) (x : Sequencer) : (s.setPsq x).freeCount = s.freeCount := rfl
@[simp] theorem State.sph_setPsq (s : State) (x : Sequencer) : (s.setPsq x).sph = s.sph := rfl
@[simp] theorem State.ch_setPsq (s : State) (x : Sequencer) (c : ChannelNo) : (s.setPsq x).ch c = s.ch c := rfl
@[simp] theorem State.entry_setPsq (s : State) (x : Sequencer) (c : ChannelNo) : (s.setPsq x).entry c = s.entry c := rfl
@[simp] theorem State.node_setPsq (s : State) (x : Sequencer) (n : Node) : (s.setPsq x).node n = s.node n := rfl
@[simp] theorem State.setPsq_self (s : State) : s.setPsq s.psq = s := rfl
@[simp] theorem State.setPsq_setPsq (s : State) (x y : Sequencer) : (s.setPsq x).setPsq y = s.setPsq y := rfl

/-! ### setAct -/

@[simp] theorem State.pending_setAct (s : State) (x : SilenceRecord) : (s.setAct x).pending = s.pending := rfl
@[simp] theorem State.clp_setAct (s : State) (x : SilenceRecord) : (s.setAct x).clp = s.clp := rfl
@[simp] theorem State.ct_setAct (s : State) (x : SilenceRecord) : (s.setAct x).ct = s.ct := rfl
@[simp] theorem State.ctx_setAct (s : State) (x : SilenceRecord) : (s.setAct x).ctx = s.ctx := rfl
@[simp] theorem State.oq_setAct (s : State) (x : SilenceRecord) : (s.setAct x).oq = s.oq := rfl
@[simp] theorem State.fbc_setAct (s : State) (x : SilenceRecord) : (s.setAct x).fbc = s.fbc := rfl
@[simp] theorem State.psq_setAct (s : State) (x : SilenceRecord) : (s.setAct x).psq = s.psq := rfl
@[simp] theorem State.nt_setAct (s : State) (x : SilenceRecord) : (s.setAct x).nt = s.nt := rfl
@[simp] theorem State.act_setAct (s : State) (x : SilenceRecord) : (s.setAct x).act = x := rfl
@[simp] theorem State.pru_setAct (s : State) (x : SilenceRecord) : (s.setAct x).pru = s.pru := rfl
@[simp] theorem State.rq_setAct (s : State) (x : SilenceRecord) : (s.setAct x).rq = s.rq := rfl
@[simp] theorem State.mgx_setAct (s : State) (x : SilenceRecord) : (s.setAct x).mgx = s.mgx := rfl
@[simp] theorem State.pst_setAct (s : State) (x : SilenceRecord) : (s.setAct x).pst = s.pst := rfl
@[simp] theorem State.freeCount_setAct (s : State) (x : SilenceRecord) : (s.setAct x).freeCount = s.freeCount := rfl
@[simp] theorem State.sph_setAct (s : State) (x : SilenceRecord) : (s.setAct x).sph = s.sph := rfl
@[simp] theorem State.ch_setAct (s : State) (x : SilenceRecord) (c : ChannelNo) : (s.setAct x).ch c = s.ch c := rfl
@[simp] theorem State.entry_setAct (s : State) (x : SilenceRecord) (c : ChannelNo) : (s.setAct x).entry c = s.entry c := rfl
@[simp] theorem State.node_setAct (s : State) (x : SilenceRecord) (n : Node) : (s.setAct x).node n = s.node n := rfl
@[simp] theorem State.setAct_self (s : State) : s.setAct s.act = s := rfl
@[simp] theorem State.setAct_setAct (s : State) (x y : SilenceRecord) : (s.setAct x).setAct y = s.setAct y := rfl

/-! ### setPru -/

@[simp] theorem State.pending_setPru (s : State) (x : PresetUnit) : (s.setPru x).pending = s.pending := rfl
@[simp] theorem State.clp_setPru (s : State) (x : PresetUnit) : (s.setPru x).clp = s.clp := rfl
@[simp] theorem State.ct_setPru (s : State) (x : PresetUnit) : (s.setPru x).ct = s.ct := rfl
@[simp] theorem State.ctx_setPru (s : State) (x : PresetUnit) : (s.setPru x).ctx = s.ctx := rfl
@[simp] theorem State.oq_setPru (s : State) (x : PresetUnit) : (s.setPru x).oq = s.oq := rfl
@[simp] theorem State.fbc_setPru (s : State) (x : PresetUnit) : (s.setPru x).fbc = s.fbc := rfl
@[simp] theorem State.psq_setPru (s : State) (x : PresetUnit) : (s.setPru x).psq = s.psq := rfl
@[simp] theorem State.nt_setPru (s : State) (x : PresetUnit) : (s.setPru x).nt = s.nt := rfl
@[simp] theorem State.act_setPru (s : State) (x : PresetUnit) : (s.setPru x).act = s.act := rfl
@[simp] theorem State.pru_setPru (s : State) (x : PresetUnit) : (s.setPru x).pru = x := rfl
@[simp] theorem State.rq_setPru (s : State) (x : PresetUnit) : (s.setPru x).rq = s.rq := rfl
@[simp] theorem State.mgx_setPru (s : State) (x : PresetUnit) : (s.setPru x).mgx = s.mgx := rfl
@[simp] theorem State.pst_setPru (s : State) (x : PresetUnit) : (s.setPru x).pst = s.pst := rfl
@[simp] theorem State.freeCount_setPru (s : State) (x : PresetUnit) : (s.setPru x).freeCount = s.freeCount := rfl
@[simp] theorem State.sph_setPru (s : State) (x : PresetUnit) : (s.setPru x).sph = s.sph := rfl
@[simp] theorem State.ch_setPru (s : State) (x : PresetUnit) (c : ChannelNo) : (s.setPru x).ch c = s.ch c := rfl
@[simp] theorem State.entry_setPru (s : State) (x : PresetUnit) (c : ChannelNo) : (s.setPru x).entry c = s.entry c := rfl
@[simp] theorem State.node_setPru (s : State) (x : PresetUnit) (n : Node) : (s.setPru x).node n = s.node n := rfl
@[simp] theorem State.setPru_self (s : State) : s.setPru s.pru = s := rfl
@[simp] theorem State.setPru_setPru (s : State) (x y : PresetUnit) : (s.setPru x).setPru y = s.setPru y := rfl

/-! ### setRq -/

@[simp] theorem State.pending_setRq (s : State) (x : List Report) : (s.setRq x).pending = s.pending := rfl
@[simp] theorem State.clp_setRq (s : State) (x : List Report) : (s.setRq x).clp = s.clp := rfl
@[simp] theorem State.ct_setRq (s : State) (x : List Report) : (s.setRq x).ct = s.ct := rfl
@[simp] theorem State.ctx_setRq (s : State) (x : List Report) : (s.setRq x).ctx = s.ctx := rfl
@[simp] theorem State.oq_setRq (s : State) (x : List Report) : (s.setRq x).oq = s.oq := rfl
@[simp] theorem State.fbc_setRq (s : State) (x : List Report) : (s.setRq x).fbc = s.fbc := rfl
@[simp] theorem State.psq_setRq (s : State) (x : List Report) : (s.setRq x).psq = s.psq := rfl
@[simp] theorem State.nt_setRq (s : State) (x : List Report) : (s.setRq x).nt = s.nt := rfl
@[simp] theorem State.act_setRq (s : State) (x : List Report) : (s.setRq x).act = s.act := rfl
@[simp] theorem State.pru_setRq (s : State) (x : List Report) : (s.setRq x).pru = s.pru := rfl
@[simp] theorem State.rq_setRq (s : State) (x : List Report) : (s.setRq x).rq = x := rfl
@[simp] theorem State.mgx_setRq (s : State) (x : List Report) : (s.setRq x).mgx = s.mgx := rfl
@[simp] theorem State.pst_setRq (s : State) (x : List Report) : (s.setRq x).pst = s.pst := rfl
@[simp] theorem State.freeCount_setRq (s : State) (x : List Report) : (s.setRq x).freeCount = s.freeCount := rfl
@[simp] theorem State.sph_setRq (s : State) (x : List Report) : (s.setRq x).sph = s.sph := rfl
@[simp] theorem State.ch_setRq (s : State) (x : List Report) (c : ChannelNo) : (s.setRq x).ch c = s.ch c := rfl
@[simp] theorem State.entry_setRq (s : State) (x : List Report) (c : ChannelNo) : (s.setRq x).entry c = s.entry c := rfl
@[simp] theorem State.node_setRq (s : State) (x : List Report) (n : Node) : (s.setRq x).node n = s.node n := rfl
@[simp] theorem State.setRq_self (s : State) : s.setRq s.rq = s := rfl
@[simp] theorem State.setRq_setRq (s : State) (x y : List Report) : (s.setRq x).setRq y = s.setRq y := rfl

/-! ### setMgx -/

@[simp] theorem State.pending_setMgx (s : State) (x : Executor) : (s.setMgx x).pending = s.pending := rfl
@[simp] theorem State.clp_setMgx (s : State) (x : Executor) : (s.setMgx x).clp = s.clp := rfl
@[simp] theorem State.ct_setMgx (s : State) (x : Executor) : (s.setMgx x).ct = s.ct := rfl
@[simp] theorem State.ctx_setMgx (s : State) (x : Executor) : (s.setMgx x).ctx = s.ctx := rfl
@[simp] theorem State.oq_setMgx (s : State) (x : Executor) : (s.setMgx x).oq = s.oq := rfl
@[simp] theorem State.fbc_setMgx (s : State) (x : Executor) : (s.setMgx x).fbc = s.fbc := rfl
@[simp] theorem State.psq_setMgx (s : State) (x : Executor) : (s.setMgx x).psq = s.psq := rfl
@[simp] theorem State.nt_setMgx (s : State) (x : Executor) : (s.setMgx x).nt = s.nt := rfl
@[simp] theorem State.act_setMgx (s : State) (x : Executor) : (s.setMgx x).act = s.act := rfl
@[simp] theorem State.pru_setMgx (s : State) (x : Executor) : (s.setMgx x).pru = s.pru := rfl
@[simp] theorem State.rq_setMgx (s : State) (x : Executor) : (s.setMgx x).rq = s.rq := rfl
@[simp] theorem State.mgx_setMgx (s : State) (x : Executor) : (s.setMgx x).mgx = x := rfl
@[simp] theorem State.pst_setMgx (s : State) (x : Executor) : (s.setMgx x).pst = s.pst := rfl
@[simp] theorem State.freeCount_setMgx (s : State) (x : Executor) : (s.setMgx x).freeCount = s.freeCount := rfl
@[simp] theorem State.sph_setMgx (s : State) (x : Executor) : (s.setMgx x).sph = s.sph := rfl
@[simp] theorem State.ch_setMgx (s : State) (x : Executor) (c : ChannelNo) : (s.setMgx x).ch c = s.ch c := rfl
@[simp] theorem State.entry_setMgx (s : State) (x : Executor) (c : ChannelNo) : (s.setMgx x).entry c = s.entry c := rfl
@[simp] theorem State.node_setMgx (s : State) (x : Executor) (n : Node) : (s.setMgx x).node n = s.node n := rfl
@[simp] theorem State.setMgx_self (s : State) : s.setMgx s.mgx = s := rfl
@[simp] theorem State.setMgx_setMgx (s : State) (x y : Executor) : (s.setMgx x).setMgx y = s.setMgx y := rfl

/-! ### setPst -/

@[simp] theorem State.pending_setPst (s : State) (x : Store) : (s.setPst x).pending = s.pending := rfl
@[simp] theorem State.clp_setPst (s : State) (x : Store) : (s.setPst x).clp = s.clp := rfl
@[simp] theorem State.ct_setPst (s : State) (x : Store) : (s.setPst x).ct = s.ct := rfl
@[simp] theorem State.ctx_setPst (s : State) (x : Store) : (s.setPst x).ctx = s.ctx := rfl
@[simp] theorem State.oq_setPst (s : State) (x : Store) : (s.setPst x).oq = s.oq := rfl
@[simp] theorem State.fbc_setPst (s : State) (x : Store) : (s.setPst x).fbc = s.fbc := rfl
@[simp] theorem State.psq_setPst (s : State) (x : Store) : (s.setPst x).psq = s.psq := rfl
@[simp] theorem State.nt_setPst (s : State) (x : Store) : (s.setPst x).nt = s.nt := rfl
@[simp] theorem State.act_setPst (s : State) (x : Store) : (s.setPst x).act = s.act := rfl
@[simp] theorem State.pru_setPst (s : State) (x : Store) : (s.setPst x).pru = s.pru := rfl
@[simp] theorem State.rq_setPst (s : State) (x : Store) : (s.setPst x).rq = s.rq := rfl
@[simp] theorem State.mgx_setPst (s : State) (x : Store) : (s.setPst x).mgx = s.mgx := rfl
@[simp] theorem State.pst_setPst (s : State) (x : Store) : (s.setPst x).pst = x := rfl
@[simp] theorem State.freeCount_setPst (s : State) (x : Store) : (s.setPst x).freeCount = s.freeCount := rfl
@[simp] theorem State.sph_setPst (s : State) (x : Store) : (s.setPst x).sph = s.sph := rfl
@[simp] theorem State.ch_setPst (s : State) (x : Store) (c : ChannelNo) : (s.setPst x).ch c = s.ch c := rfl
@[simp] theorem State.entry_setPst (s : State) (x : Store) (c : ChannelNo) : (s.setPst x).entry c = s.entry c := rfl
@[simp] theorem State.node_setPst (s : State) (x : Store) (n : Node) : (s.setPst x).node n = s.node n := rfl
@[simp] theorem State.setPst_self (s : State) : s.setPst s.pst = s := rfl
@[simp] theorem State.setPst_setPst (s : State) (x y : Store) : (s.setPst x).setPst y = s.setPst y := rfl

/-! ### setFreeCount -/

@[simp] theorem State.pending_setFreeCount (s : State) (x : Nat) : (s.setFreeCount x).pending = s.pending := rfl
@[simp] theorem State.clp_setFreeCount (s : State) (x : Nat) : (s.setFreeCount x).clp = s.clp := rfl
@[simp] theorem State.ct_setFreeCount (s : State) (x : Nat) : (s.setFreeCount x).ct = s.ct := rfl
@[simp] theorem State.ctx_setFreeCount (s : State) (x : Nat) : (s.setFreeCount x).ctx = s.ctx := rfl
@[simp] theorem State.oq_setFreeCount (s : State) (x : Nat) : (s.setFreeCount x).oq = s.oq := rfl
@[simp] theorem State.fbc_setFreeCount (s : State) (x : Nat) : (s.setFreeCount x).fbc = s.fbc := rfl
@[simp] theorem State.psq_setFreeCount (s : State) (x : Nat) : (s.setFreeCount x).psq = s.psq := rfl
@[simp] theorem State.nt_setFreeCount (s : State) (x : Nat) : (s.setFreeCount x).nt = s.nt := rfl
@[simp] theorem State.act_setFreeCount (s : State) (x : Nat) : (s.setFreeCount x).act = s.act := rfl
@[simp] theorem State.pru_setFreeCount (s : State) (x : Nat) : (s.setFreeCount x).pru = s.pru := rfl
@[simp] theorem State.rq_setFreeCount (s : State) (x : Nat) : (s.setFreeCount x).rq = s.rq := rfl
@[simp] theorem State.mgx_setFreeCount (s : State) (x : Nat) : (s.setFreeCount x).mgx = s.mgx := rfl
@[simp] theorem State.pst_setFreeCount (s : State) (x : Nat) : (s.setFreeCount x).pst = s.pst := rfl
@[simp] theorem State.freeCount_setFreeCount (s : State) (x : Nat) : (s.setFreeCount x).freeCount = x := rfl
@[simp] theorem State.sph_setFreeCount (s : State) (x : Nat) : (s.setFreeCount x).sph = s.sph := rfl
@[simp] theorem State.ch_setFreeCount (s : State) (x : Nat) (c : ChannelNo) : (s.setFreeCount x).ch c = s.ch c := rfl
@[simp] theorem State.entry_setFreeCount (s : State) (x : Nat) (c : ChannelNo) : (s.setFreeCount x).entry c = s.entry c := rfl
@[simp] theorem State.node_setFreeCount (s : State) (x : Nat) (n : Node) : (s.setFreeCount x).node n = s.node n := rfl
@[simp] theorem State.setFreeCount_self (s : State) : s.setFreeCount s.freeCount = s := rfl
@[simp] theorem State.setFreeCount_setFreeCount (s : State) (x y : Nat) : (s.setFreeCount x).setFreeCount y = s.setFreeCount y := rfl

/-! ### setSph -/

@[simp] theorem State.pending_setSph (s : State) (x : List SetpointPair) : (s.setSph x).pending = s.pending := rfl
@[simp] theorem State.clp_setSph (s : State) (x : List SetpointPair) : (s.setSph x).clp = s.clp := rfl
@[simp] theorem State.ct_setSph (s : State) (x : List SetpointPair) : (s.setSph x).ct = s.ct := rfl
@[simp] theorem State.ctx_setSph (s : State) (x : List SetpointPair) : (s.setSph x).ctx = s.ctx := rfl
@[simp] theorem State.oq_setSph (s : State) (x : List SetpointPair) : (s.setSph x).oq = s.oq := rfl
@[simp] theorem State.fbc_setSph (s : State) (x : List SetpointPair) : (s.setSph x).fbc = s.fbc := rfl
@[simp] theorem State.psq_setSph (s : State) (x : List SetpointPair) : (s.setSph x).psq = s.psq := rfl
@[simp] theorem State.nt_setSph (s : State) (x : List SetpointPair) : (s.setSph x).nt = s.nt := rfl
@[simp] theorem State.act_setSph (s : State) (x : List SetpointPair) : (s.setSph x).act = s.act := rfl
@[simp] theorem State.pru_setSph (s : State) (x : List SetpointPair) : (s.setSph x).pru = s.pru := rfl
@[simp] theorem State.rq_setSph (s : State) (x : List SetpointPair) : (s.setSph x).rq = s.rq := rfl
@[simp] theorem State.mgx_setSph (s : State) (x : List SetpointPair) : (s.setSph x).mgx = s.mgx := rfl
@[simp] theorem State.pst_setSph (s : State) (x : List SetpointPair) : (s.setSph x).pst = s.pst := rfl
@[simp] theorem State.freeCount_setSph (s : State) (x : List SetpointPair) : (s.setSph x).freeCount = s.freeCount := rfl
@[simp] theorem State.sph_setSph (s : State) (x : List SetpointPair) : (s.setSph x).sph = x := rfl
@[simp] theorem State.ch_setSph (s : State) (x : List SetpointPair) (c : ChannelNo) : (s.setSph x).ch c = s.ch c := rfl
@[simp] theorem State.entry_setSph (s : State) (x : List SetpointPair) (c : ChannelNo) : (s.setSph x).entry c = s.entry c := rfl
@[simp] theorem State.node_setSph (s : State) (x : List SetpointPair) (n : Node) : (s.setSph x).node n = s.node n := rfl
@[simp] theorem State.setSph_self (s : State) : s.setSph s.sph = s := rfl
@[simp] theorem State.setSph_setSph (s : State) (x y : List SetpointPair) : (s.setSph x).setSph y = s.setSph y := rfl

/-! ### modCh -/

@[simp] theorem State.pending_modCh (s : State) (c : ChannelNo) (f : ChannelCtx → ChannelCtx) : (s.modCh c f).pending = s.pending := by unfold State.modCh; rfl
@[simp] theorem State.clp_modCh (s : State) (c : ChannelNo) (f : ChannelCtx → ChannelCtx) : (s.modCh c f).clp = s.clp := by unfold State.modCh; rfl
@[simp] theorem State.ct_modCh (s : State) (c : ChannelNo) (f : ChannelCtx → ChannelCtx) : (s.modCh c f).ct = s.ct := by unfold State.modCh; rfl
@[simp] theorem State.oq_modCh (s : State) (c : ChannelNo) (f : ChannelCtx → ChannelCtx) : (s.modCh c f).oq = s.oq := by unfold State.modCh; rfl
@[simp] theorem State.fbc_modCh (s : State) (c : ChannelNo) (f : ChannelCtx → ChannelCtx) : (s.modCh c f).fbc = s.fbc := by unfold State.modCh; rfl
@[simp] theorem State.psq_modCh (s : State) (c : ChannelNo) (f : ChannelCtx → ChannelCtx) : (s.modCh c f).psq = s.psq := by unfold State.modCh; rfl
@[simp] theorem State.nt_modCh (s : State) (c : ChannelNo) (f : ChannelCtx → ChannelCtx) : (s.modCh c f).nt = s.nt := by unfold State.modCh; rfl
@[simp] theorem State.act_modCh (s : State) (c : ChannelNo) (f : ChannelCtx → ChannelCtx) : (s.modCh c f).act = s.act := by unfold State.modCh; rfl
@[simp] theorem State.pru_modCh (s : State) (c : ChannelNo) (f : ChannelCtx → ChannelCtx) : (s.modCh c f).pru = s.pru := by unfold State.modCh; rfl
@[simp] theorem State.rq_modCh (s : State) (c : ChannelNo) (f : ChannelCtx → ChannelCtx) : (s.modCh c f).rq = s.rq := by unfold State.modCh; rfl
@[simp] theorem State.mgx_modCh (s : State) (c : ChannelNo) (f : ChannelCtx → ChannelCtx) : (s.modCh c f).mgx = s.mgx := by unfold State.modCh; rfl
@[simp] theorem State.pst_modCh (s : State) (c : ChannelNo) (f : ChannelCtx → ChannelCtx) : (s.modCh c f).pst = s.pst := by unfold State.modCh; rfl
@[simp] theorem State.freeCount_modCh (s : State) (c : ChannelNo) (f : ChannelCtx → ChannelCtx) : (s.modCh c f).freeCount = s.freeCount := by unfold State.modCh; rfl
@[simp] theorem State.sph_modCh (s : State) (c : ChannelNo) (f : ChannelCtx → ChannelCtx) : (s.modCh c f).sph = s.sph := by unfold State.modCh; rfl
@[simp] theorem State.entry_modCh (s : State) (c : ChannelNo) (f : ChannelCtx → ChannelCtx) (d : ChannelNo) : (s.modCh c f).entry d = s.entry d := by simp only [State.entry, State.ct_modCh]
@[simp] theorem State.node_modCh (s : State) (c : ChannelNo) (f : ChannelCtx → ChannelCtx) (m : Node) : (s.modCh c f).node m = s.node m := by simp only [State.node, State.nt_modCh]

/-! ### modAll -/

@[simp] theorem State.pending_modAll (s : State) (f : ChannelCtx → ChannelCtx) : (s.modAll f).pending = s.pending := by unfold State.modAll; rfl
@[simp] theorem State.clp_modAll (s : State) (f : ChannelCtx → ChannelCtx) : (s.modAll f).clp = s.clp := by unfold State.modAll; rfl
@[simp] theorem State.ct_modAll (s : State) (f : ChannelCtx → ChannelCtx) : (s.modAll f).ct = s.ct := by unfold State.modAll; rfl
@[simp] theorem State.oq_modAll (s : State) (f : ChannelCtx → ChannelCtx) : (s.modAll f).oq = s.oq := by unfold State.modAll; rfl
@[simp] theorem State.fbc_modAll (s : State) (f : ChannelCtx → ChannelCtx) : (s.modAll f).fbc = s.fbc := by unfold State.modAll; rfl
@[simp] theorem State.psq_modAll (s : State) (f : ChannelCtx → ChannelCtx) : (s.modAll f).psq = s.psq := by unfold State.modAll; rfl
@[simp] theorem State.nt_modAll (s : State) (f : ChannelCtx → ChannelCtx) : (s.modAll f).nt = s.nt := by unfold State.modAll; rfl
@[simp] theorem State.act_modAll (s : State) (f : ChannelCtx → ChannelCtx) : (s.modAll f).act = s.act := by unfold State.modAll; rfl
@[simp] theorem State.pru_modAll (s : State) (f : ChannelCtx → ChannelCtx) : (s.modAll f).pru = s.pru := by unfold State.modAll; rfl
@[simp] theorem State.rq_modAll (s : State) (f : ChannelCtx → ChannelCtx) : (s.modAll f).rq = s.rq := by unfold State.modAll; rfl
@[simp] theorem State.mgx_modAll (s : State) (f : ChannelCtx → ChannelCtx) : (s.modAll f).mgx = s.mgx := by unfold State.modAll; rfl
@[simp] theorem State.pst_modAll (s : State) (f : ChannelCtx → ChannelCtx) : (s.modAll f).pst = s.pst := by unfold State.modAll; rfl
@[simp] theorem State.freeCount_modAll (s : State) (f : ChannelCtx → ChannelCtx) : (s.modAll f).freeCount = s.freeCount := by unfold State.modAll; rfl
@[simp] theorem State.sph_modAll (s : State) (f : ChannelCtx → ChannelCtx) : (s.modAll f).sph = s.sph := by unfold State.modAll; rfl
@[simp] theorem State.entry_modAll (s : State) (f : ChannelCtx → ChannelCtx) (d : ChannelNo) : (s.modAll f).entry d = s.entry d := by simp only [State.entry, State.ct_modAll]
@[simp] theorem State.node_modAll (s : State) (f : ChannelCtx → ChannelCtx) (m : Node) : (s.modAll f).node m = s.node m := by simp only [State.node, State.nt_modAll]

/-! ### setEntry -/

@[simp] theorem State.pending_setEntry (s : State) (c : ChannelNo) (e : ChannelEntry) : (s.setEntry c e).pending = s.pending := by unfold State.setEntry; rfl
@[simp] theorem State.clp_setEntry (s : State) (c : ChannelNo) (e : ChannelEntry) : (s.setEntry c e).clp = s.clp := by unfold State.setEntry; rfl
@[simp] theorem State.ctx_setEntry (s : State) (c : ChannelNo) (e : ChannelEntry) : (s.setEntry c e).ctx = s.ctx := by unfold State.setEntry; rfl
@[simp] theorem State.oq_setEntry (s : State) (c : ChannelNo) (e : ChannelEntry) : (s.setEntry c e).oq = s.oq := by unfold State.setEntry; rfl
@[simp] theorem State.fbc_setEntry (s : State) (c : ChannelNo) (e : ChannelEntry) : (s.setEntry c e).fbc = s.fbc := by unfold State.setEntry; rfl
@[simp] theorem State.psq_setEntry (s : State) (c : ChannelNo) (e : ChannelEntry) : (s.setEntry c e).psq = s.psq := by unfold State.setEntry; rfl
@[simp] theorem State.nt_setEntry (s : State) (c : ChannelNo) (e : ChannelEntry) : (s.setEntry c e).nt = s.nt := by unfold State.setEntry; rfl
@[simp] theorem State.act_setEntry (s : State) (c : ChannelNo) (e : ChannelEntry) : (s.setEntry c e).act = s.act := by unfold State.setEntry; rfl
@[simp] theorem State.pru_setEntry (s : State) (c : ChannelNo) (e : ChannelEntry) : (s.setEntry c e).pru = s.pru := by unfold State.setEntry; rfl
@[simp] theorem State.rq_setEntry (s : State) (c : ChannelNo) (e : ChannelEntry) : (s.setEntry c e).rq = s.rq := by unfold State.setEntry; rfl
@[simp] theorem State.mgx_setEntry (s : State) (c : ChannelNo) (e : ChannelEntry) : (s.setEntry c e).mgx = s.mgx := by unfold State.setEntry; rfl
@[simp] theorem State.pst_setEntry (s : State) (c : ChannelNo) (e : ChannelEntry) : (s.setEntry c e).pst = s.pst := by unfold State.setEntry; rfl
@[simp] theorem State.freeCount_setEntry (s : State) (c : ChannelNo) (e : ChannelEntry) : (s.setEntry c e).freeCount = s.freeCount := by unfold State.setEntry; rfl
@[simp] theorem State.sph_setEntry (s : State) (c : ChannelNo) (e : ChannelEntry) : (s.setEntry c e).sph = s.sph := by unfold State.setEntry; rfl
@[simp] theorem State.ch_setEntry (s : State) (c : ChannelNo) (e : ChannelEntry) (d : ChannelNo) : (s.setEntry c e).ch d = s.ch d := by simp only [State.ch, State.ctx_setEntry]
@[simp] theorem State.node_setEntry (s : State) (c : ChannelNo) (e : ChannelEntry) (m : Node) : (s.setEntry c e).node m = s.node m := by simp only [State.node, State.nt_setEntry]

/-! ### modNode -/

@[simp] theorem State.pending_modNode (s : State) (n : Node) (f : NodeRecord → NodeRecord) : (s.modNode n f).pending = s.pending := by unfold State.modNode; rfl
@[simp] theorem State.clp_modNode (s : State) (n : Node) (f : NodeRecord → NodeRecord) : (s.modNode n f).clp = s.clp := by unfold State.modNode; rfl
@[simp] theorem State.ct_modNode (s : State) (n : Node) (f : NodeRecord → NodeRecord) : (s.modNode n f).ct = s.ct := by unfold State.modNode; rfl
@[simp] theorem State.ctx_modNode (s : State) (n : Node) (f : NodeRecord → NodeRecord) : (s.modNode n f).ctx = s.ctx := by unfold State.modNode; rfl
@[simp] theorem State.oq_modNode (s : State) (n : Node) (f : NodeRecord → NodeRecord) : (s.modNode n f).oq = s.oq := by unfold State.modNode; rfl
@[simp] theorem State.fbc_modNode (s : State) (n : Node) (f : NodeRecord → NodeRecord) : (s.modNode n f).fbc = s.fbc := by unfold State.modNode; rfl
@[simp] theorem State.psq_modNode (s : State) (n : Node) (f : NodeRecord → NodeRecord) : (s.modNode n f).psq = s.psq := by unfold State.modNode; rfl
@[simp] theorem State.act_modNode (s : State) (n : Node) (f : NodeRecord → NodeRecord) : (s.modNode n f).act = s.act := by unfold State.modNode; rfl
@[simp] theorem State.pru_modNode (s : State) (n : Node) (f : NodeRecord → NodeRecord) : (s.modNode n f).pru = s.pru := by unfold State.modNode; rfl
@[simp] theorem State.rq_modNode (s : State) (n : Node) (f : NodeRecord → NodeRecord) : (s.modNode n f).rq = s.rq := by unfold State.modNode; rfl
@[simp] theorem State.mgx_modNode (s : State) (n : Node) (f : NodeRecord → NodeRecord) : (s.modNode n f).mgx = s.mgx := by unfold State.modNode; rfl
@[simp] theorem State.pst_modNode (s : State) (n : Node) (f : NodeRecord → NodeRecord) : (s.modNode n f).pst = s.pst := by unfold State.modNode; rfl
@[simp] theorem State.freeCount_modNode (s : State) (n : Node) (f : NodeRecord → NodeRecord) : (s.modNode n f).freeCount = s.freeCount := by unfold State.modNode; rfl
@[simp] theorem State.sph_modNode (s : State) (n : Node) (f : NodeRecord → NodeRecord) : (s.modNode n f).sph = s.sph := by unfold State.modNode; rfl
@[simp] theorem State.ch_modNode (s : State) (n : Node) (f : NodeRecord → NodeRecord) (d : ChannelNo) : (s.modNode n f).ch d = s.ch d := by simp only [State.ch, State.ctx_modNode]
@[simp] theorem State.entry_modNode (s : State) (n : Node) (f : NodeRecord → NodeRecord) (d : ChannelNo) : (s.modNode n f).entry d = s.entry d := by simp only [State.entry, State.ct_modNode]

/-! ### Reading back what an update wrote -/

@[simp] theorem State.ch_modCh_self (s : State) (c : ChannelNo) (f : ChannelCtx → ChannelCtx) :
    (s.modCh c f).ch c = f (s.ch c) := by simp [State.ch, State.modCh]

theorem State.ch_modCh_of_ne (s : State) {c d : ChannelNo} (h : d ≠ c) (f : ChannelCtx → ChannelCtx) :
    (s.modCh c f).ch d = s.ch d := by
  have : c.val ≠ d.val := fun e => h (Fin.ext e.symm)
  simp [State.ch, State.modCh, Vector.getElem_set_ne, this]

theorem State.ch_modCh (s : State) (c d : ChannelNo) (f : ChannelCtx → ChannelCtx) :
    (s.modCh c f).ch d = if d = c then f (s.ch c) else s.ch d := by
  split
  · next h => subst h; exact s.ch_modCh_self _ f
  · next h => exact s.ch_modCh_of_ne h f

@[simp] theorem State.ch_modAll (s : State) (f : ChannelCtx → ChannelCtx) (c : ChannelNo) :
    (s.modAll f).ch c = f (s.ch c) := by simp [State.ch, State.modAll]

@[simp] theorem State.entry_setEntry_self (s : State) (c : ChannelNo) (e : ChannelEntry) :
    (s.setEntry c e).entry c = e := by simp [State.entry, State.setEntry]

theorem State.entry_setEntry (s : State) (c d : ChannelNo) (e : ChannelEntry) :
    (s.setEntry c e).entry d = if d = c then e else s.entry d := by
  split
  · next h => subst h; exact s.entry_setEntry_self _ e
  · next h =>
    have : c.val ≠ d.val := fun q => h (Fin.ext q.symm)
    simp [State.entry, State.setEntry, Vector.getElem_set_ne, this]

@[simp] theorem State.node_modNode_self (s : State) (n : Node) (f : NodeRecord → NodeRecord) :
    (s.modNode n f).node n = f (s.node n) := by simp [State.node, State.modNode]

theorem State.node_modNode (s : State) (n m : Node) (f : NodeRecord → NodeRecord) :
    (s.modNode n f).node m = if m = n then f (s.node n) else s.node m := by
  split
  · next h => subst h; exact s.node_modNode_self _ f
  · next h =>
    have : n.val ≠ m.val := fun q => h (Fin.ext q.symm)
    simp [State.node, State.modNode, Vector.getElem_set_ne, this]

/-! ### Equality of states, field by field -/

theorem State.ext_ctx {s : State} {v w : Vector ChannelCtx 24} (h : ∀ c : ChannelNo, v[c.val] = w[c.val]) :
    ({ s with ctx := v } : State) = { s with ctx := w } := by
  have : v = w := Vector.ext fun i hi => h ⟨i, hi⟩
  rw [this]

end Sys2Proof.Machine
end

