-- ==== Sys2Proof/Laws/Reports.lean ====
section
/-! SUPPORT. What the operations on the report queue and the transmitter do (R174 to R177), and the shapes of an event: the lemmas to
cite instead of unfolding `beginTransmission`, `offerAlarm`, `offerPart`, `respond`, `event` and `takeCommand`. -/

namespace Sys2Proof.Machine

/-! ### The start of a transmission -/

/-- Everything that the start of a transmission can do: nothing, or move the head of the queue to the idle transmitter. -/
theorem State.beginTransmission_cases (s : State) :
    s.beginTransmission = s ∨
      ∃ r rest, s.clp.tx = none ∧ s.rq = r :: rest ∧
        s.beginTransmission = { s with clp := { s.clp with tx := some r }, rq := rest } := by
  unfold State.beginTransmission
  split
  · next r rest h1 h2 => exact Or.inr ⟨r, rest, h1, h2, rfl⟩
  · exact Or.inl rfl

/-- The start of a transmission touches nothing but the reports. -/
theorem State.beginTransmission_onlyReports (s : State) : s.OnlyReports s.beginTransmission := by
  rcases s.beginTransmission_cases with h | ⟨r, rest, -, -, h⟩ <;> rw [h] <;> constructor <;> simp

/-- The start of a transmission loses no report and changes no order. -/
theorem State.beginTransmission_outgoing (s : State) : s.beginTransmission.outgoing = s.outgoing := by
  rcases s.beginTransmission_cases with h | ⟨r, rest, h1, h2, h⟩
  · rw [h]
  · rw [h]; simp [State.outgoing, h1, h2]

/-- After it an idle transmitter leaves no entry waiting. -/
theorem State.beginTransmission_law (s : State) : s.beginTransmission.TransmitterLaw := by
  intro h
  rcases s.beginTransmission_cases with e | ⟨r, rest, h1, h2, e⟩
  · rw [e] at h ⊢
    unfold State.beginTransmission at e
    split at e
    · next r rest h1 h2 =>
      have := congrArg (fun t => t.clp.tx) e
      simp [h1] at this
    · next hn => exact match hq : s.rq with
        | [] => rfl
        | r :: rest => absurd hq (by intro hq; exact hn r rest h hq)
  · rw [e] at h; simp at h

/-- A transmitter that leaves no entry waiting has nothing to begin. -/
theorem State.beginTransmission_of_law {s : State} (h : s.TransmitterLaw) : s.beginTransmission = s := by
  rcases s.beginTransmission_cases with e | ⟨r, rest, h1, h2, -⟩
  · exact e
  · rw [h h1] at h2; cases h2

/-- A report placed at the end of an event is the report sent. -/
theorem State.beginTransmission_placeReport {s : State} (h : s.TransmitterLaw) (r : Report) :
    (s.placeReport r).beginTransmission = s.sends r := by
  unfold State.placeReport State.sends State.beginTransmission
  cases hx : s.clp.tx with
  | none => simp [hx, h hx, State.setRq]
  | some x => simp [hx, State.setRq]

/-! ### Offers -/

/-- An offer meets no transmission while one is going on, or while nothing waits. -/
theorem State.meetTransmission_of_law {s : State} (h : s.TransmitterLaw) (f : Report → Bool) : s.meetTransmission f = s := by
  unfold State.meetTransmission
  split
  · next hc => rw [h hc.1] at hc; simp at hc
  · rfl

/-- Everything that meeting the transmission can do. -/
theorem State.meetTransmission_cases (s : State) (f : Report → Bool) :
    s.meetTransmission f = s ∨ s.meetTransmission f = s.beginTransmission.setFreeCount (s.freeCount + 1) ∨
      s.meetTransmission f = s.setFreeCount (s.freeCount + 1) := by
  unfold State.meetTransmission
  split
  · split
    · exact Or.inr (Or.inl rfl)
    · exact Or.inr (Or.inr rfl)
  · exact Or.inl rfl

theorem State.OnlyReports.refl (s : State) : s.OnlyReports s := by constructor <;> simp

theorem State.OnlyReports.trans {s t u : State} (h : s.OnlyReports t) (k : t.OnlyReports u) : s.OnlyReports u where
  link := ⟨k.link.1.trans h.link.1, k.link.2.1.trans h.link.2.1, k.link.2.2.trans h.link.2.2⟩
  tables := ⟨k.tables.1.trans h.tables.1, k.tables.2.trans h.tables.2⟩
  channels := ⟨k.channels.1.trans h.channels.1, k.channels.2.trans h.channels.2⟩
  field := ⟨k.field.1.trans h.field.1, k.field.2.trans h.field.2⟩
  units := ⟨k.units.1.trans h.units.1, k.units.2.1.trans h.units.2.1, k.units.2.2.1.trans h.units.2.2.1,
    k.units.2.2.2.trans h.units.2.2.2⟩
  waiting := k.waiting.trans h.waiting
  pairs := k.pairs.trans h.pairs

theorem State.onlyReports_setRq (s : State) (q : List Report) : s.OnlyReports (s.setRq q) := by constructor <;> simp

theorem State.onlyReports_setFreeCount (s : State) (n : Nat) : s.OnlyReports (s.setFreeCount n) := by constructor <;> simp

theorem State.meetTransmission_onlyReports (s : State) (f : Report → Bool) : s.OnlyReports (s.meetTransmission f) := by
  rcases s.meetTransmission_cases f with h | h | h <;> rw [h]
  · exact .refl s
  · exact s.beginTransmission_onlyReports.trans (State.onlyReports_setFreeCount _ _)
  · exact s.onlyReports_setFreeCount _

/-- An offer touches nothing but the reports. -/
theorem State.offerAlarm_onlyReports (s : State) (c : ChannelNo) (active latched : ClassSet) (a : Action) :
    s.OnlyReports (s.offerAlarm c active latched a) :=
  (s.meetTransmission_onlyReports _).trans (State.onlyReports_setRq _ _)

/-- An offer touches nothing but the reports. -/
theorem State.offerPart_onlyReports (s : State) (e : PartEvent) : s.OnlyReports (s.offerPart e) :=
  (s.meetTransmission_onlyReports _).trans (State.onlyReports_setRq _ _)

/-- The first offer of an event lands in the queue as it stands. -/
theorem State.offerAlarm_of_law {s : State} (h : s.TransmitterLaw) (c : ChannelNo) (active latched : ClassSet) (a : Action) :
    s.offerAlarm c active latched a = s.setRq (alarmPlaced s.rq c active latched a) := by
  unfold State.offerAlarm
  rw [State.meetTransmission_of_law h]

/-- The first offer of an event lands in the queue as it stands. -/
theorem State.offerPart_of_law {s : State} (h : s.TransmitterLaw) (e : PartEvent) :
    s.offerPart e = s.setRq (partPlaced s.rq e) := by
  unfold State.offerPart
  rw [State.meetTransmission_of_law h]

/-- A change that leaves the transmitter and the queue keeps the transmitter's law. -/
theorem State.TransmitterLaw.congr {s t : State} (h : s.TransmitterLaw) (htx : t.clp.tx = s.clp.tx) (hrq : t.rq = s.rq) :
    t.TransmitterLaw := by
  intro e; rw [hrq]; exact h (htx ▸ e)

/-! ### The shapes of an event -/

theorem State.event_due (s : State) (f : State → State) : s.event true f = .next (f s).beginTransmission := rfl

theorem State.event_not_due (s : State) (f : State → State) : s.event false f = .next s := rfl

/-- Everything an event can answer. -/
theorem State.event_cases {s t : State} {due : Bool} {f : State → State} (h : s.event due f = .next t) :
    (due = true ∧ t = (f s).beginTransmission) ∨ (due = false ∧ t = s) := by
  cases due
  · exact Or.inr ⟨rfl, (Host.Outcome.next.inj h).symm⟩
  · exact Or.inl ⟨rfl, (Host.Outcome.next.inj h).symm⟩

/-- The state with the frame at the head gone. -/
theorem State.dropFrame_eq {s : State} {p : List Byte} {rest : List (List Byte)} (h : s.mgx.queue = p :: rest) :
    s.dropFrame = s.withFrames rest := by
  unfold State.dropFrame State.withFrames State.setMgx; rw [h]; rfl

/-- What a management command answers when MGX takes it. -/
theorem State.takeCommand_of_takes {s : State} {i : Instr} {rest : List (List Byte)} (h : s.Takes i rest) (f : State → State) :
    s.takeCommand i f = .next (f (s.withFrames rest)).beginTransmission := by
  obtain ⟨h1, h2, h3, p, h4, h5⟩ := h
  have hd : s.mgxTakes i = true := by
    simp [State.mgxTakes, State.mgxMayTake, h1, h2, h3, h4, h5]
  unfold State.takeCommand
  rw [hd, State.event_due, State.dropFrame_eq h4]

/-- A management command that MGX does not take changes nothing. -/
theorem State.takeCommand_of_not {s : State} {i : Instr} (h : s.mgxTakes i = false) (f : State → State) :
    s.takeCommand i f = .next s := by
  unfold State.takeCommand; rw [h, State.event_not_due]

/-- Everything a management command can answer. -/
theorem State.takeCommand_cases {s t : State} {i : Instr} {f : State → State} (h : s.takeCommand i f = .next t) :
    (s.mgxTakes i = true ∧ t = (f s.dropFrame).beginTransmission) ∨ t = s := by
  rcases State.event_cases h with ⟨a, b⟩ | ⟨-, b⟩
  · exact Or.inl ⟨a, b⟩
  · exact Or.inr b

@[simp] theorem State.withFrames_clp (s : State) (q : List (List Byte)) : (s.withFrames q).clp = s.clp := rfl
@[simp] theorem State.withFrames_rq (s : State) (q : List (List Byte)) : (s.withFrames q).rq = s.rq := rfl

/-- A command that only answers. -/
theorem State.takeCommand_respond {s : State} {i : Instr} {rest : List (List Byte)} (h : s.Takes i rest) (hl : s.TransmitterLaw)
    {f : State → State} {tag cmd : Byte} {k : Completion} {data : List Byte}
    (hf : f (s.withFrames rest) = (s.withFrames rest).respond tag cmd k data) :
    s.takeCommand i f = .next ((s.withFrames rest).sends (answer tag cmd k data)) := by
  rw [State.takeCommand_of_takes h, hf]
  exact congrArg _ (State.beginTransmission_placeReport (s := s.withFrames rest) (hl.congr rfl rfl) _)

/-- A command that changes the state by `u`, which leaves the reports, and then answers. -/
theorem State.takeCommand_respond_of {s u : State} {i : Instr} {rest : List (List Byte)} (h : s.Takes i rest) (hl : s.TransmitterLaw)
    {f : State → State} {tag cmd : Byte} {k : Completion} {data : List Byte} {e : AtEnd}
    (hf : f (s.withFrames rest) = u.respondThen tag cmd k data e) (htx : u.clp.tx = s.clp.tx) (hrq : u.rq = s.rq) :
    s.takeCommand i f = .next (u.sends (.response tag cmd k data e)) := by
  rw [State.takeCommand_of_takes h, hf]
  exact congrArg _ (State.beginTransmission_placeReport (hl.congr htx hrq) _)

end Sys2Proof.Machine
end

