-- ==== Sys2Proof/Laws/Operands.lean ====
section
/-! SUPPORT. Numbers carried in bytes and the searches over the channels: the lemmas to cite instead of unfolding `channelOf?`,
`nodeOf?`, `presetOf?`, `mappingConflict` and `nodeInUse`. -/

namespace Sys2Proof.Machine

theorem finOf?_eq_some {n x : Nat} {i : Fin n} (h : x = i.val) : finOf? n x = some i := by
  subst h; simp [finOf?, i.isLt]

theorem finOf?_eq_none {n x : Nat} (h : n ≤ x) : finOf? n x = none := by
  unfold finOf?; rw [dif_neg (by omega)]

theorem finOf?_some_iff {n x : Nat} {i : Fin n} : finOf? n x = some i ↔ x = i.val := by
  constructor
  · intro h; unfold finOf? at h; split at h
    · cases h; rfl
    · cases h
  · exact finOf?_eq_some

theorem finOf?_none_iff {n x : Nat} : finOf? n x = none ↔ n ≤ x := by
  constructor
  · intro h; by_contra hc; unfold finOf? at h; rw [dif_pos (by omega)] at h; cases h
  · exact finOf?_eq_none

theorem channelOf?_eq_some {b : Byte} {c : ChannelNo} (h : b.toNat = c.val) : channelOf? b = some c := finOf?_eq_some h

theorem channelOf?_eq_none {b : Byte} (h : 24 ≤ b.toNat) : channelOf? b = none := finOf?_eq_none h

theorem presetOf?_eq_some {b : Byte} {k : Fin 64} (h : b.toNat = k.val) : presetOf? b = some k := finOf?_eq_some h

theorem presetOf?_eq_none {b : Byte} (h : 64 ≤ b.toNat) : presetOf? b = none := finOf?_eq_none h

theorem nodeOf?_eq_some {b : Byte} {n : Node} (h : b.toNat = n.val + 1) : nodeOf? b = some n := by
  unfold nodeOf?
  rw [if_neg (by intro e; subst e; simp at h)]
  exact finOf?_eq_some (by omega)

theorem nodeOf?_eq_none {b : Byte} (h : b = 0 ∨ 31 ≤ b.toNat) : nodeOf? b = none := by
  unfold nodeOf?
  rcases h with h | h
  · rw [if_pos h]
  · rw [if_neg (by intro e; subst e; simp at h)]; exact finOf?_eq_none (by omega)

theorem mem_channelsAscending (c : ChannelNo) : c ∈ channelsAscending := by simp [channelsAscending]

/-- The CONFLICT check of R35 in words. -/
theorem State.mappingConflict_iff (s : State) (c : ChannelNo) : s.mappingConflict c = true ↔
    ∃ d, d ≠ c ∧ (s.ch d).drive ≠ .off ∧ (s.entry d).node = (s.entry c).node ∧ (s.entry d).point = (s.entry c).point := by
  simp [State.mappingConflict, mem_channelsAscending, and_assoc]

/-- The CONFLICT check of R100 in words. -/
theorem State.nodeInUse_iff (s : State) (n : Node) : s.nodeInUse n = true ↔
    ∃ c, (s.ch c).drive ≠ .off ∧ (s.entry c).node = n := by
  simp [State.nodeInUse, mem_channelsAscending]

/-- An ISOLATE in flight that is not stale, in words (R22, R42). -/
theorem State.isolateInFlight_iff (s : State) (c : ChannelNo) : s.isolateInFlight c = true ↔ s.inFlight c (.isolate c) := by
  unfold State.isolateInFlight State.inFlight
  cases h : s.fbc.state.record? with
  | none => simp [flying]
  | some t =>
    cases hj : t.job <;> simp [FieldJob.isIsolateOf, FieldJob.channel?, flying, hj, and_comm]

/-- A WRITE in flight that is not stale, in words (R22, R56). -/
theorem State.writeInFlight_iff (s : State) (c : ChannelNo) :
    s.writeInFlight c = true ↔ ∃ code r, s.inFlight c (.write c code r) := by
  unfold State.writeInFlight State.inFlight
  cases h : s.fbc.state.record? with
  | none => simp [flying]
  | some t =>
    cases hj : t.job <;> simp [FieldJob.isWriteOf, FieldJob.channel?, flying, hj, and_comm]

@[simp] theorem byteOf_toNat (b : Byte) : byteOf b.toNat = b := by simp [byteOf]

end Sys2Proof.Machine
end

