-- ==== Sys2Proof/Laws/Queue.lean ====
section
/-! SUPPORT. What the placements and removals of the output queue do (R46, R47, R49, R55): the lemmas to cite instead of unfolding
`placeWrite`, `placeIsolate` and `remove`. -/

namespace Sys2Proof.Machine

/-- The channels of the queued entries, isolate section first. -/
def OutputQueue.keys (q : OutputQueue) : List ChannelNo := q.isolates ++ q.writes.map (·.channel)

theorem OutputQueue.hasIsolate_iff (q : OutputQueue) (c : ChannelNo) : q.hasIsolate c = true ↔ c ∈ q.isolates := by
  simp [OutputQueue.hasIsolate]

theorem OutputQueue.hasWrite_iff (q : OutputQueue) (c : ChannelNo) : q.hasWrite c = true ↔ ∃ w ∈ q.writes, w.channel = c := by
  simp [OutputQueue.hasWrite, WriteEntry.isOf]

theorem OutputQueue.hasEntry_iff (q : OutputQueue) (c : ChannelNo) : q.hasEntry c = true ↔ c ∈ q.keys := by
  simp only [OutputQueue.hasEntry, Bool.or_eq_true, hasIsolate_iff, hasWrite_iff, OutputQueue.keys, List.mem_append, List.mem_map]

theorem OutputQueue.hasEntry_eq_false (q : OutputQueue) (c : ChannelNo) :
    q.hasEntry c = false ↔ q.hasIsolate c = false ∧ q.hasWrite c = false := by
  simp [OutputQueue.hasEntry]

@[simp] theorem WriteEntry.coalesce_channel (c : ChannelNo) (k : Code) (r : Bool) (w : WriteEntry) :
    (w.coalesce c k r).channel = w.channel := by
  unfold WriteEntry.coalesce; split <;> rfl

/-! ### A WRITE placement -/

@[simp] theorem OutputQueue.placeWrite_isolates (q : OutputQueue) (c : ChannelNo) (k : Code) (r : Bool) :
    (q.placeWrite c k r).isolates = q.isolates := by
  unfold OutputQueue.placeWrite; split
  · rfl
  · split <;> rfl

@[simp] theorem OutputQueue.placeWrite_hasIsolate (q : OutputQueue) (c d : ChannelNo) (k : Code) (r : Bool) :
    (q.placeWrite c k r).hasIsolate d = q.hasIsolate d := by
  unfold OutputQueue.hasIsolate; rw [placeWrite_isolates]

/-- Where the writes of a placement come from. -/
theorem OutputQueue.mem_placeWrite {q : OutputQueue} {c : ChannelNo} {k : Code} {r : Bool} {w : WriteEntry}
    (h : w ∈ (q.placeWrite c k r).writes) : (w.channel = c ∧ w.code = k) ∨ (w ∈ q.writes ∧ (w.channel = c → q.hasIsolate c = true)) := by
  unfold OutputQueue.placeWrite at h
  split at h
  · next hi => exact Or.inr ⟨h, fun _ => hi⟩
  · split at h
    · simp only [List.mem_map] at h
      obtain ⟨v, hv, rfl⟩ := h
      by_cases hc : v.channel = c
      · left; simp [WriteEntry.coalesce, hc]
      · right; simp [WriteEntry.coalesce, hc, hv]
    · next hn =>
      simp only [List.mem_append, List.mem_singleton] at h
      rcases h with h | h
      · right
        refine ⟨h, fun hc => absurd ?_ hn⟩
        exact (OutputQueue.hasWrite_iff q c).mpr ⟨w, h, hc⟩
      · left; subst h; exact ⟨rfl, rfl⟩

/-- The placement adds no other channel's WRITE and takes none away. -/
theorem OutputQueue.placeWrite_hasWrite_of_ne {q : OutputQueue} {c d : ChannelNo} (hd : d ≠ c) (k : Code) (r : Bool) :
    (q.placeWrite c k r).hasWrite d = q.hasWrite d := by
  unfold OutputQueue.placeWrite
  split
  · rfl
  · split
    · simp only [OutputQueue.hasWrite, List.any_map]
      congr 1; funext w; simp [WriteEntry.isOf]
    · simp [OutputQueue.hasWrite, WriteEntry.isOf, Ne.symm hd]

/-- The placement leaves the other channels' entries as they are. -/
theorem OutputQueue.placeWrite_others (q : OutputQueue) (c : ChannelNo) (k : Code) (r : Bool) :
    (q.placeWrite c k r).writes.filter (fun w => !w.isOf c) = q.writes.filter fun w => !w.isOf c := by
  unfold OutputQueue.placeWrite
  split
  · rfl
  · split
    · dsimp only
      induction q.writes with
      | nil => rfl
      | cons w ws ih =>
        by_cases hc : w.channel = c
        · simpa [WriteEntry.isOf, WriteEntry.coalesce, hc] using ih
        · simpa [WriteEntry.isOf, WriteEntry.coalesce, hc] using ih
    · simp [WriteEntry.isOf]

/-- The placement keeps the queue's law (R46). -/
theorem OutputQueue.placeWrite_keys {q : OutputQueue} (h : q.keys.Nodup) (c : ChannelNo) (k : Code) (r : Bool) :
    (q.placeWrite c k r).keys.Nodup := by
  unfold OutputQueue.placeWrite
  split
  · exact h
  · next hi =>
    split
    · have : (q.writes.map (WriteEntry.coalesce c k r)).map (·.channel) = q.writes.map (·.channel) := by
        simp [List.map_map, Function.comp_def]
      simpa [OutputQueue.keys, this] using h
    · next hw =>
      have hn : c ∉ q.keys := by
        intro hm
        have := (q.hasEntry_iff c).mpr hm
        simp [OutputQueue.hasEntry, hi, hw] at this
      have : ({ q with writes := q.writes ++ [⟨c, k, r⟩] } : OutputQueue).keys = q.keys ++ [c] := by
        simp [OutputQueue.keys]
      rw [this]
      simp [List.nodup_append, h]
      exact fun a ha hac => hn (hac ▸ ha)

/-! ### An ISOLATE placement -/

/-- The ISOLATE placement in words. -/
theorem OutputQueue.placeIsolate_hasIsolate (q : OutputQueue) (c d : ChannelNo) :
    (q.placeIsolate c).hasIsolate d = (q.hasIsolate d || d == c) := by
  by_cases hc : q.hasIsolate c = true
  · have e : (q.placeIsolate c).isolates = q.isolates := by simp [OutputQueue.placeIsolate, hc]
    have : (q.placeIsolate c).hasIsolate d = q.hasIsolate d := by unfold OutputQueue.hasIsolate; rw [e]
    rw [this]
    by_cases hd : d = c
    · subst hd; simp [hc]
    · simp [hd]
  · have e : (q.placeIsolate c).isolates = q.isolates ++ [c] := by simp [OutputQueue.placeIsolate, hc]
    unfold OutputQueue.hasIsolate; rw [e, Bool.eq_iff_iff]
    simp

theorem OutputQueue.mem_placeIsolate {q : OutputQueue} {c : ChannelNo} {w : WriteEntry} :
    w ∈ (q.placeIsolate c).writes ↔ w ∈ q.writes ∧ w.channel ≠ c := by
  simp [OutputQueue.placeIsolate, WriteEntry.isOf]

theorem OutputQueue.placeIsolate_keys {q : OutputQueue} (h : q.keys.Nodup) (c : ChannelNo) : (q.placeIsolate c).keys.Nodup := by
  have hs : ((q.writes.filter fun w => !w.isOf c).map (·.channel)).Sublist (q.writes.map (·.channel)) :=
    List.Sublist.map _ List.filter_sublist
  by_cases hc : q.hasIsolate c = true
  · have e : (q.placeIsolate c).keys = q.isolates ++ (q.writes.filter fun w => !w.isOf c).map (·.channel) := by
      simp [OutputQueue.placeIsolate, OutputQueue.keys, hc]
    rw [e]
    exact h.sublist (List.Sublist.append_left hs _)
  · have e : (q.placeIsolate c).keys = q.isolates ++ ([c] ++ (q.writes.filter fun w => !w.isOf c).map (·.channel)) := by
      simp [OutputQueue.placeIsolate, OutputQueue.keys, hc]
    rw [e]
    have h' := h.sublist (List.Sublist.append_left hs q.isolates)
    have hni : c ∉ q.isolates := fun hm => hc ((q.hasIsolate_iff c).mpr hm)
    rw [List.nodup_append] at h' ⊢
    refine ⟨h'.1, ?_, ?_⟩
    · rw [List.nodup_append]
      refine ⟨List.nodup_singleton c, h'.2.1, ?_⟩
      intro a ha b hb
      simp only [List.mem_singleton] at ha
      simp only [List.mem_map, List.mem_filter, WriteEntry.isOf] at hb
      obtain ⟨w, ⟨-, hw⟩, rfl⟩ := hb
      subst ha
      intro he; simp [he] at hw
    · intro a ha b hb
      simp only [List.mem_append, List.mem_singleton] at hb
      rcases hb with rfl | hb
      · exact fun he => hni (he ▸ ha)
      · exact h'.2.2 a ha b hb

/-! ### Removal -/

theorem OutputQueue.remove_hasIsolate (q : OutputQueue) (c d : ChannelNo) :
    (q.remove c).hasIsolate d = (q.hasIsolate d && d != c) := by
  rw [Bool.eq_iff_iff]
  simp [OutputQueue.hasIsolate, OutputQueue.remove]

theorem OutputQueue.mem_remove {q : OutputQueue} {c : ChannelNo} {w : WriteEntry} :
    w ∈ (q.remove c).writes ↔ w ∈ q.writes ∧ w.channel ≠ c := by
  simp [OutputQueue.remove, WriteEntry.isOf]

theorem OutputQueue.remove_keys {q : OutputQueue} (h : q.keys.Nodup) (c : ChannelNo) : (q.remove c).keys.Nodup :=
  h.sublist (List.Sublist.append List.filter_sublist (List.Sublist.map _ List.filter_sublist))

end Sys2Proof.Machine
end

