-- ==== Sys2Proof/Laws/Drive.lean ====
section
/-! SUPPORT. What the operations of the drive engines do: each touches nothing but its channel (`OnlyChannel`) and keeps the law of
every channel (`DriveLaw`); the lemmas to cite instead of unfolding the operations of Machine/Drive.lean and Machine/Actions.lean. -/

namespace Sys2Proof.Machine

/-! ### The frame of one channel -/

theorem State.OnlyChannel.refl (c : ChannelNo) (s : State) : s.OnlyChannel c s := by constructor <;> simp

theorem State.OnlyChannel.trans {c : ChannelNo} {s t u : State} (h : State.OnlyChannel c s t) (k : State.OnlyChannel c t u) :
    State.OnlyChannel c s u where
  others d hd := (k.others d hd).trans (h.others d hd)
  isolates := k.isolates.trans h.isolates
  writes := k.writes.trans h.writes
  link := ⟨k.link.1.trans h.link.1, k.link.2.1.trans h.link.2.1, k.link.2.2.trans h.link.2.2⟩
  tables := ⟨k.tables.1.trans h.tables.1, k.tables.2.trans h.tables.2⟩
  field := ⟨k.field.1.trans h.field.1, k.field.2.trans h.field.2⟩
  units := ⟨k.units.1.trans h.units.1, k.units.2.1.trans h.units.2.1, k.units.2.2.1.trans h.units.2.2.1,
    k.units.2.2.2.trans h.units.2.2.2⟩
  waiting := k.waiting.trans h.waiting
  pairs := k.pairs.trans h.pairs

theorem State.OnlyReports.onlyChannel {s t : State} (h : s.OnlyReports t) (c : ChannelNo) : State.OnlyChannel c s t where
  others d _ := by simp [State.ch, h.channels.1]
  isolates := by rw [h.channels.2]
  writes := by rw [h.channels.2]
  link := h.link
  tables := h.tables
  field := h.field
  units := h.units
  waiting := h.waiting
  pairs := h.pairs

theorem State.OnlyChannel.entry {c : ChannelNo} {s t : State} (h : State.OnlyChannel c s t) (d : ChannelNo) :
    t.entry d = s.entry d := by simp [State.entry, h.tables.1]

theorem State.onlyChannel_modCh (s : State) (c : ChannelNo) (f : ChannelCtx → ChannelCtx) :
    State.OnlyChannel c s (s.modCh c f) := by
  constructor <;> simp
  exact fun d hd => s.ch_modCh_of_ne hd f

theorem State.onlyChannel_placeWrite (s : State) (c : ChannelNo) (k : Code) (r : Bool) :
    State.OnlyChannel c s (s.placeWrite c k r) := by
  constructor <;> simp [State.placeWrite, OutputQueue.placeWrite_others]

theorem State.onlyChannel_placeIsolate (s : State) (c : ChannelNo) : State.OnlyChannel c s (s.placeIsolate c) := by
  constructor <;> simp [State.placeIsolate, OutputQueue.placeIsolate]
  split <;> simp

theorem State.onlyChannel_removeEntry (s : State) (c : ChannelNo) : State.OnlyChannel c s (s.removeEntry c) := by
  constructor <;> simp [State.removeEntry, OutputQueue.remove]

/-! ### The law of one channel -/

/-- The law of a channel carries over to a queue that holds no more of the channel and to a record that flies no more of it. -/
theorem ContextLaw.mono {e : ChannelEntry} {x : ChannelCtx} {q q' : OutputQueue} {r r' : Option Transaction} {c : ChannelNo}
    (h : ContextLaw e x q r c) (hi : q'.hasIsolate c = true → q.hasIsolate c = true)
    (hw : ∀ w ∈ q'.writes, w.channel = c → w ∈ q.writes) (hf : ∀ job, flying r' c job → flying r c job) :
    ContextLaw e x q' r' c := { h with
  isolateQueued := fun k => h.isolateQueued (hi k)
  writeQueued := fun k => by
    obtain ⟨w, h1, h2⟩ := (q'.hasWrite_iff c).mp k
    exact h.writeQueued ((q.hasWrite_iff c).mpr ⟨w, hw w h1 h2, h2⟩)
  writeCode := fun w h1 h2 => h.writeCode w (hw w h1 h2) h2
  flight := fun job k => h.flight job (hf job k)
  writeFlight := fun code b k => h.writeFlight code b (hf _ k)
  isolateFlight := fun k => by
    refine ⟨(h.isolateFlight (hf _ k)).1, ?_⟩
    cases hq : q'.hasIsolate c with
    | false => rfl
    | true => rw [← (h.isolateFlight (hf _ k)).2]; exact (hi hq).symm }

/-- A filter that leaves other channels' writes keeps their membership. -/
theorem mem_writes_of_others {q q' : OutputQueue} {c : ChannelNo}
    (h : q'.writes.filter (fun w => !w.isOf c) = q.writes.filter fun w => !w.isOf c) {w : WriteEntry} (hw : w ∈ q'.writes)
    (hc : w.channel ≠ c) : w ∈ q.writes := by
  have : w ∈ q'.writes.filter (fun w => !w.isOf c) := by simp [hw, WriteEntry.isOf, hc]
  rw [h] at this
  exact (List.mem_filter.mp this).1

/-- What changes one channel only keeps the law of all, once the law of that channel and of the queue hold. -/
theorem State.DriveLaw.of_onlyChannel {c : ChannelNo} {s t : State} (h : s.DriveLaw) (k : State.OnlyChannel c s t)
    (hc : t.ChannelLaw c) (hq : t.OutputQueueLaw) : t.DriveLaw where
  channel d := by
    by_cases hd : d = c
    · subst hd; exact hc
    · have := h.channel d
      unfold State.ChannelLaw at this ⊢
      rw [k.entry, k.others d hd, k.field.1]
      refine this.mono (fun hi => ?_) (fun w hw he => mem_writes_of_others k.writes hw (he ▸ hd)) (fun _ x => x)
      have hm : d ∈ t.oq.isolates.filter (fun d => d != c) := by
        simp [(t.oq.hasIsolate_iff d).mp hi, hd]
      rw [k.isolates] at hm
      exact (s.oq.hasIsolate_iff d).mpr (List.mem_filter.mp hm).1
  store := by have := h.store; unfold State.StoreLaw at this ⊢; rw [k.units.2.2.2]; exact this
  queue := hq

/-- The laws rest on these components alone. -/
theorem State.DriveLaw.congr {s t : State} (h : s.DriveLaw) (hct : t.ct = s.ct) (hctx : t.ctx = s.ctx) (hoq : t.oq = s.oq)
    (hfbc : t.fbc.state.record? = s.fbc.state.record?) (hpst : t.pst = s.pst) : t.DriveLaw where
  channel d := by
    have := h.channel d
    unfold State.ChannelLaw State.entry State.ch at this ⊢
    rw [hct, hctx, hoq, hfbc]; exact this
  store := by have := h.store; unfold State.StoreLaw at this ⊢; rw [hpst]; exact this
  queue := by have := h.queue; unfold State.OutputQueueLaw at this ⊢; rw [hoq]; exact this

theorem State.DriveLaw.onlyReports {s t : State} (h : s.DriveLaw) (k : s.OnlyReports t) : t.DriveLaw :=
  h.congr k.tables.1 k.channels.1 k.channels.2 (by rw [k.field.1]) k.units.2.2.2

/-- A change of one context keeps the laws when the law of that channel holds of the new context. -/
theorem State.DriveLaw.modCh {s : State} (h : s.DriveLaw) {c : ChannelNo} {f : ChannelCtx → ChannelCtx}
    (hx : ContextLaw (s.entry c) (f (s.ch c)) s.oq s.fbc.state.record? c) : (s.modCh c f).DriveLaw := by
  refine h.of_onlyChannel (s.onlyChannel_modCh c f) ?_ ?_
  · unfold State.ChannelLaw
    simpa using hx
  · have := h.queue
    unfold State.OutputQueueLaw at this ⊢
    simpa using this

/-! ### Codes in range -/

theorem ChannelEntry.inRange_safe {e : ChannelEntry} (h : e.ok = true) : e.inRange e.safeCode := by
  simp [ChannelEntry.ok] at h
  exact ⟨by omega, by omega⟩

/-- Calibration gives a code of the code range (R13, R20). -/
theorem inRange_calibrate {e : ChannelEntry} (h : e.ok = true) (data : Code) : e.inRange (calibrate e data).1 := by
  simp [ChannelEntry.ok] at h
  have h1 := e.codeMax.isLt
  have h2 := e.codeMin.isLt
  unfold calibrate ChannelEntry.inRange
  dsimp only
  split
  · exact ⟨le_refl _, by show e.codeMin.toNat ≤ _; omega⟩
  · split
    · exact ⟨by show _ ≤ e.codeMax.toNat; omega, le_refl _⟩
    · simp only [BitVec.toNat_ofInt]
      omega

/-- A step goes from a code of the code range to another (R20, R27). -/
theorem inRange_stepCode {e : ChannelEntry} {bypass : Bool} {k g : Code} (hk : e.inRange k) (hg : e.inRange g) :
    e.inRange (stepCode e bypass k g) := by
  have hs : stepSize e bypass (distance k g) ≤ distance k g := by
    unfold stepSize
    split
    · exact le_refl _
    · split
      · exact Nat.min_le_right _ _
      · refine (Nat.min_le_right _ _).trans ?_
        omega
  have h1 := k.isLt
  have h2 := g.isLt
  unfold ChannelEntry.inRange at hk hg ⊢
  unfold stepCode
  unfold distance at hs ⊢
  dsimp only
  split
  · next hle =>
    simp only [if_pos hle] at hs ⊢
    simp only [BitVec.toNat_ofNat]
    rw [Nat.mod_eq_of_lt (by omega)]; omega
  · next hle =>
    simp only [if_neg hle] at hs ⊢
    simp only [BitVec.toNat_ofNat]
    rw [Nat.mod_eq_of_lt (by omega)]; omega

theorem inRange?_some {e : ChannelEntry} {k : Code} (h : e.inRange k) : e.inRange? (some k) := by
  intro k' h'; cases h'; exact h

theorem inRange?_none (e : ChannelEntry) : e.inRange? none := by intro k h; cases h

end Sys2Proof.Machine
end

