-- ==== Sys2Proof/Laws/Engine.lean ====
section
/-! SUPPORT. What the operations of Machine/Drive.lean do: they move one channel's drive record and queued entry and nothing else
(`Drives`), and they keep the law of every channel (`DriveLaw`). -/

namespace Sys2Proof.Machine

/-! ### Moves of the drive record -/

/-- `y` differs from `x` in the drive state (not in whether it is OFF), the goal, the sent code, the step timer and settle_left only. -/
def ChannelCtx.Moves (x y : ChannelCtx) : Prop :=
  y = { x with drive := y.drive, goal := y.goal, sent := y.sent, stepTimer := y.stepTimer, settleLeft := y.settleLeft } ∧
    (y.drive = .off ↔ x.drive = .off)

theorem ChannelCtx.Moves.refl (x : ChannelCtx) : x.Moves x := ⟨rfl, Iff.rfl⟩

theorem ChannelCtx.Moves.trans {x y z : ChannelCtx} (h : x.Moves y) (k : y.Moves z) : x.Moves z := by
  refine ⟨?_, k.2.trans h.2⟩
  obtain ⟨h, -⟩ := h
  obtain ⟨k, -⟩ := k
  rw [k, h]

/-- An engine operation: it moves the drive record of one channel and its queued entry, and leaves the reports. -/
structure State.Drives (c : ChannelNo) (s t : State) : Prop where
  frame : State.OnlyChannel c s t
  moves : (s.ch c).Moves (t.ch c)
  reports : t.clp = s.clp ∧ t.rq = s.rq

theorem State.Drives.refl (c : ChannelNo) (s : State) : State.Drives c s s := ⟨.refl c s, .refl _, rfl, rfl⟩

theorem State.Drives.trans {c : ChannelNo} {s t u : State} (h : State.Drives c s t) (k : State.Drives c t u) :
    State.Drives c s u :=
  ⟨h.frame.trans k.frame, h.moves.trans k.moves, k.reports.1.trans h.reports.1, k.reports.2.trans h.reports.2⟩

theorem State.Drives.modCh (s : State) (c : ChannelNo) (f : ChannelCtx → ChannelCtx) (h : (s.ch c).Moves (f (s.ch c))) :
    State.Drives c s (s.modCh c f) := ⟨s.onlyChannel_modCh c f, by simpa using h, by simp⟩

theorem State.Drives.placeWrite (s : State) (c : ChannelNo) (k : Code) (r : Bool) : State.Drives c s (s.placeWrite c k r) :=
  ⟨s.onlyChannel_placeWrite c k r, .refl _, by simp [State.placeWrite]⟩

theorem State.Drives.placeIsolate (s : State) (c : ChannelNo) : State.Drives c s (s.placeIsolate c) :=
  ⟨s.onlyChannel_placeIsolate c, .refl _, by simp [State.placeIsolate]⟩

theorem State.Drives.removeEntry (s : State) (c : ChannelNo) : State.Drives c s (s.removeEntry c) :=
  ⟨s.onlyChannel_removeEntry c, .refl _, by simp [State.removeEntry]⟩

theorem State.Drives.issueWrite (s : State) (c : ChannelNo) (k : Code) (r : Bool) : State.Drives c s (s.issueWrite c k r) :=
  (State.Drives.placeWrite s c k r).trans (.modCh _ c _ ⟨rfl, Iff.rfl⟩)

theorem State.Drives.coalesce (s : State) (c : ChannelNo) (k : Code) : State.Drives c s (s.coalesce c k) :=
  (State.Drives.placeWrite s c k false).trans (.modCh _ c _ ⟨rfl, Iff.rfl⟩)

theorem State.Drives.issueStep (s : State) (c : ChannelNo) : State.Drives c s (s.issueStep c) := by
  unfold State.issueStep
  split
  · exact .issueWrite _ _ _ _
  · exact .refl c s

theorem State.Drives.stepTest (s : State) (c : ChannelNo) : State.Drives c s (s.stepTest c) := by
  unfold State.stepTest
  split
  · exact .refl c s
  · next hd =>
    split
    · exact .refl c s
    · split
      · refine .modCh _ _ _ ⟨rfl, ?_⟩
        simp only [ne_eq, not_not] at hd
        simp [hd]
      · split
        · exact .refl c s
        · exact .issueStep s c

theorem State.Drives.meetGrant (s : State) (c : ChannelNo) (k : Code) : State.Drives c s (s.meetGrant c k) := by
  unfold State.meetGrant
  split
  · exact .modCh s c _ ⟨rfl, Iff.rfl⟩
  · exact .refl c s

theorem State.Drives.requestCode (s : State) (c : ChannelNo) (k : Code) : State.Drives c s (s.requestCode c k) := by
  unfold State.requestCode
  split
  · exact .coalesce s c k
  · exact .meetGrant s c k

theorem State.Drives.coalesceToGoal (s : State) (c : ChannelNo) : State.Drives c s (s.coalesceToGoal c) := by
  unfold State.coalesceToGoal
  split
  · split
    · exact .requestCode _ _ _
    · exact .refl c s
  · exact .refl c s

theorem State.Drives.setGoal (s : State) (c : ChannelNo) (goal : Option Code) : State.Drives c s (s.setGoal c goal) := by
  unfold State.setGoal
  split
  · exact .refl c s
  · refine .trans (.trans (.modCh s c _ ⟨rfl, ?_⟩) (.coalesceToGoal _ c)) (.stepTest _ c)
    dsimp only
    split <;> simp [*]

theorem State.Drives.beginIsolation (s : State) (c : ChannelNo) (h : (s.ch c).drive ≠ .off) :
    State.Drives c s (s.beginIsolation c) :=
  (State.Drives.placeIsolate s c).trans (.modCh _ c _ ⟨rfl, by
    show DriveState.isolating = .off ↔ (s.ch c).drive = .off
    simp [h]⟩)

theorem State.Drives.actionChanged (s : State) (c : ChannelNo) (a : Action) : State.Drives c s (s.actionChanged c a) := by
  unfold State.actionChanged
  split
  · next h =>
    split
    · exact .beginIsolation s c (by simp [h])
    · exact .setGoal s c _
  · next h =>
    split
    · exact .beginIsolation s c (by simp [h])
    · exact .setGoal s c _
  · next h =>
    split
    · exact .beginIsolation s c (by simp [h])
    · exact .refl c s
  all_goals exact .refl c s

theorem State.Drives.targetNotice (s : State) (c : ChannelNo) : State.Drives c s (s.targetNotice c) := by
  unfold State.targetNotice
  split
  · split
    · exact .setGoal s c _
    · exact .refl c s
  · split
    · exact .setGoal s c _
    · exact .refl c s
  all_goals exact .refl c s

theorem State.Drives.enterMoving (s : State) (c : ChannelNo) (h : (s.ch c).drive ≠ .off) : State.Drives c s (s.enterMoving c) :=
  (State.Drives.modCh s c _ ⟨rfl, by show DriveState.moving = .off ↔ _; simp [h]⟩).trans (.stepTest _ c)

theorem State.Drives.rollBack (s : State) (c : ChannelNo) : State.Drives c s (s.rollBack c) := .modCh s c _ ⟨rfl, Iff.rfl⟩

theorem State.Drives.startStepTimer (s : State) (c : ChannelNo) : State.Drives c s (s.startStepTimer c) :=
  .modCh s c _ ⟨rfl, Iff.rfl⟩

theorem State.Drives.writeFailed (s : State) (c : ChannelNo) (r : Bool) : State.Drives c s (s.writeFailed c r) := by
  unfold State.writeFailed
  refine (State.Drives.rollBack s c).trans ?_
  dsimp only
  split
  · exact .stepTest _ c
  · split
    · exact .startStepTimer _ c
    · exact .refl c _
  all_goals exact .refl c _

theorem State.Drives.isolateResult (s : State) (c : ChannelNo) (success : Bool) : State.Drives c s (s.isolateResult c success) := by
  unfold State.isolateResult
  split
  · next h =>
    split
    · exact .modCh s c _ ⟨rfl, by show DriveState.isolated = .off ↔ _; simp [h]⟩
    · exact .placeIsolate s c
  · exact .refl c s

theorem State.Drives.issueReconnect (s : State) (c : ChannelNo) : State.Drives c s (s.issueReconnect c) := .issueWrite _ _ _ _

theorem State.Drives.stepTimerExpired (s : State) (c : ChannelNo) : State.Drives c s (s.stepTimerExpired c) := by
  unfold State.stepTimerExpired
  refine .trans (.modCh s c (fun x => { x with stepTimer := .expired }) ⟨rfl, Iff.rfl⟩) ?_
  dsimp only
  split
  · exact .stepTest _ c
  · split
    · exact .refl c _
    · exact .issueReconnect _ c
  all_goals exact .refl c _

theorem State.Drives.beginStopping (s : State) (c : ChannelNo) (h : (s.ch c).drive ≠ .off) :
    State.Drives c s (s.beginStopping c) :=
  (State.Drives.placeWrite s c _ _).trans (.modCh _ c _ ⟨rfl, by
    show DriveState.stopping = .off ↔ (s.ch c).drive = .off
    simp [h]⟩)

theorem State.Drives.resumeDrive (s : State) (c : ChannelNo) : State.Drives c s (s.resumeDrive c) := by
  unfold State.resumeDrive
  split
  · next h =>
    refine .trans (.removeEntry s c) ?_
    dsimp only
    split
    · exact .enterMoving _ c (by simp [State.removeEntry, h])
    · exact .trans (.rollBack _ c) (.enterMoving _ c (by simp [State.rollBack, State.removeEntry, h]))
  · next h =>
    refine .trans (.issueReconnect s c) (.modCh _ c _ ⟨rfl, ?_⟩)
    show DriveState.releasing = .off ↔ _
    rw [(State.Drives.issueReconnect s c).moves.2]
    simp [h]
  all_goals exact .refl c s

end Sys2Proof.Machine
end

