-- ==== Sys2Proof/Laws/Kept.lean ====
section
/-! SUPPORT. The operations of the drive engines keep the law of every channel (`DriveLaw`). -/

namespace Sys2Proof.Machine

variable {s : State} {c : ChannelNo}

/-! ### What the law says of one channel -/

theorem State.DriveLaw.noIsolate (h : s.DriveLaw) (hd : (s.ch c).drive ≠ .isolating) : s.oq.hasIsolate c = false := by
  cases hq : s.oq.hasIsolate c with
  | false => rfl
  | true => exact absurd ((h.channel c).isolateQueued hq) hd

theorem State.DriveLaw.noWrite (h : s.DriveLaw)
    (hd : ¬ ((s.ch c).drive = .moving ∨ (s.ch c).drive = .stopping ∨ (s.ch c).drive = .releasing)) : s.oq.hasWrite c = false := by
  cases hq : s.oq.hasWrite c with
  | false => rfl
  | true => exact absurd ((h.channel c).writeQueued hq) hd

theorem ContextLaw.removed {e : ChannelEntry} {x : ChannelCtx} {q : OutputQueue} {r : Option Transaction}
    (h : ContextLaw e x q r c) : ContextLaw e x (q.remove c) r c :=
  h.mono (fun k => by rw [q.remove_hasIsolate] at k; simp at k) (fun w hw _ => (OutputQueue.mem_remove.mp hw).1) fun _ k => k

theorem remove_hasIsolate_self (q : OutputQueue) (c : ChannelNo) : (q.remove c).hasIsolate c = false := by
  rw [q.remove_hasIsolate]; simp

theorem remove_hasWrite_self (q : OutputQueue) (c : ChannelNo) : (q.remove c).hasWrite c = false := by
  cases h : (q.remove c).hasWrite c with
  | false => rfl
  | true =>
    obtain ⟨w, h1, h2⟩ := ((q.remove c).hasWrite_iff c).mp h
    exact absurd h2 (OutputQueue.mem_remove.mp h1).2

theorem State.outputQueueLaw_iff (s : State) : s.OutputQueueLaw ↔ s.oq.keys.Nodup := Iff.rfl

/-- A WRITE placed for a channel whose law holds beside an empty place in the queue. -/
theorem State.DriveLaw.placed (h : s.DriveLaw) {f : ChannelCtx → ChannelCtx} {k : Code} {r : Bool}
    (hi : s.oq.hasIsolate c = false) (hk : (s.entry c).inRange k)
    (hd : (f (s.ch c)).drive = .moving ∨ (f (s.ch c)).drive = .stopping ∨ (f (s.ch c)).drive = .releasing)
    (hx : ContextLaw (s.entry c) (f (s.ch c)) (s.oq.remove c) s.fbc.state.record? c) :
    ((s.placeWrite c k r).modCh c f).DriveLaw := by
  refine h.of_onlyChannel ((s.onlyChannel_placeWrite c k r).trans (State.onlyChannel_modCh _ c f)) ?_ ?_
  · unfold State.ChannelLaw
    have e1 : ((s.placeWrite c k r).modCh c f).ch c = f (s.ch c) := by simp [State.placeWrite]
    have e2 : ((s.placeWrite c k r).modCh c f).entry c = s.entry c := by simp [State.placeWrite]
    have e3 : ((s.placeWrite c k r).modCh c f).oq = s.oq.placeWrite c k r := by simp [State.placeWrite]
    have e4 : ((s.placeWrite c k r).modCh c f).fbc = s.fbc := by simp [State.placeWrite]
    rw [e1, e2, e3, e4]
    exact { hx with
      isolateQueued := fun q => by rw [OutputQueue.placeWrite_hasIsolate, hi] at q; cases q
      writeQueued := fun _ => hd
      writeCode := fun w hw hc => by
        rcases OutputQueue.mem_placeWrite hw with ⟨-, rfl⟩ | ⟨-, q⟩
        · exact hk
        · rw [hi] at q; exact absurd (q hc) (by simp)
      isolateFlight := fun q => ⟨(hx.isolateFlight q).1, by rw [OutputQueue.placeWrite_hasIsolate, hi]⟩ }
  · have := OutputQueue.placeWrite_keys (q := s.oq) h.queue c k r
    rw [State.outputQueueLaw_iff]
    simpa [State.placeWrite] using this

/-- A WRITE issued by the engine keeps the laws (R20, R27). -/
theorem State.DriveLaw.issueWrite (h : s.DriveLaw) {k : Code} {r : Bool} (hk : (s.entry c).inRange k)
    (hd : (s.ch c).drive = .moving ∨ (s.ch c).drive = .stopping ∨ (s.ch c).drive = .releasing) : (s.issueWrite c k r).DriveLaw := by
  have L := h.channel c
  have hi : s.oq.hasIsolate c = false := h.noIsolate (by rcases hd with e | e | e <;> simp [e])
  refine h.placed hi hk hd { L.removed with
    off := fun e => by dsimp only at e; rcases hd with q | q | q <;> rw [q] at e <;> cases e
    present := fun e => ⟨(L.present e).1, (L.present e).2.1, rfl⟩
    sent := inRange?_some hk }

/-- Coalescing a queued WRITE keeps the laws (R25, R48). -/
theorem State.DriveLaw.coalesce (h : s.DriveLaw) {k : Code} (hk : (s.entry c).inRange k)
    (hd : (s.ch c).drive = .moving ∨ (s.ch c).drive = .stopping ∨ (s.ch c).drive = .releasing) : (s.coalesce c k).DriveLaw := by
  have L := h.channel c
  have hi : s.oq.hasIsolate c = false := h.noIsolate (by rcases hd with e | e | e <;> simp [e])
  refine h.placed hi hk hd { L.removed with
    off := fun e => by dsimp only at e; rcases hd with q | q | q <;> rw [q] at e <;> cases e
    present := fun e => ⟨(L.present e).1, (L.present e).2.1, rfl⟩
    sent := inRange?_some hk }

theorem State.DriveLaw.issueStep (h : s.DriveLaw) (hd : (s.ch c).drive = .moving) : (s.issueStep c).DriveLaw := by
  have L := h.channel c
  unfold State.issueStep
  split
  · next k g hk hg => exact h.issueWrite (inRange_stepCode (L.sent k hk) (L.goal g hg)) (Or.inl hd)
  · exact h

/-- The step test keeps the laws (R26 to R28). -/
theorem State.DriveLaw.stepTest (h : s.DriveLaw) : (s.stepTest c).DriveLaw := by
  have L := h.channel c
  unfold State.stepTest
  split
  · exact h
  · next hd =>
    simp only [ne_eq, not_not] at hd
    split
    · exact h
    · next hw =>
      simp only [State.hasWork, Bool.or_eq_true, not_or, Bool.not_eq_true] at hw
      obtain ⟨⟨h1, h2⟩, h3⟩ := hw
      rw [OutputQueue.hasEntry_eq_false] at h1
      split
      · refine h.modCh { L with
          off := fun e => by cases e
          present := fun _ => L.present (by simp [hd])
          isolateQueued := fun e => by rw [h1.1] at e; cases e
          writeQueued := fun e => by rw [h1.2] at e; cases e
          flight := fun _ _ e => by cases e
          writeFlight := fun code r q => absurd ((s.writeInFlight_iff c).mpr ⟨code, r, q⟩) (by simp [h2])
          isolateFlight := fun q => absurd ((s.isolateInFlight_iff c).mpr q) (by simp [h3]) }
      · split
        · exact h
        · exact h.issueStep hd

/-- A request after the grant keeps the laws (R53). -/
theorem State.DriveLaw.meetGrant (h : s.DriveLaw) {k : Code} (hk : (s.entry c).inRange k) (hd : (s.ch c).drive ≠ .off) :
    (s.meetGrant c k).DriveLaw := by
  have L := h.channel c
  unfold State.meetGrant
  split
  · exact h.modCh { L with
      off := fun e => absurd e hd
      present := fun e => ⟨(L.present e).1, (L.present e).2.1, rfl⟩
      sent := inRange?_some hk }
  · exact h

/-- A request for the channel's WRITE keeps the laws (R25, R30, R53). -/
theorem State.DriveLaw.requestCode (h : s.DriveLaw) {k : Code} (hk : (s.entry c).inRange k) (hd : (s.ch c).drive ≠ .off) :
    (s.requestCode c k).DriveLaw := by
  unfold State.requestCode
  split
  · next hw => exact h.coalesce hk ((h.channel c).writeQueued hw)
  · exact h.meetGrant hk hd

theorem State.DriveLaw.coalesceToGoal (h : s.DriveLaw) (hd : (s.ch c).drive ≠ .off) : (s.coalesceToGoal c).DriveLaw := by
  unfold State.coalesceToGoal
  split
  · next k hk =>
    split
    · exact h.requestCode ((h.channel c).goal k hk) hd
    · exact h
  · exact h

/-- A goal change keeps the laws (R25). -/
theorem State.DriveLaw.setGoal (h : s.DriveLaw) {goal : Option Code} (hd : (s.ch c).drive = .moving ∨ (s.ch c).drive = .steady)
    (hg : goal.isSome = true) (hr : (s.entry c).inRange? goal) : (s.setGoal c goal).DriveLaw := by
  have L := h.channel c
  unfold State.setGoal
  split
  · exact h
  · have hm : (if (s.ch c).drive = .steady then DriveState.moving else (s.ch c).drive) = .moving := by
      rcases hd with e | e <;> simp [e]
    refine (State.DriveLaw.coalesceToGoal ?_ (by simp [hm])).stepTest
    have hoff : (s.ch c).drive ≠ .off := by rcases hd with e | e <;> simp [e]
    refine h.modCh { L with
      off := fun e => by dsimp only at e; rw [hm] at e; cases e
      present := fun _ => ⟨(L.present hoff).1, hg, (L.present hoff).2.2⟩
      goal := hr
      isolateQueued := fun e => by
        have := L.isolateQueued e
        rcases hd with q | q <;> rw [q] at this <;> cases this
      writeQueued := fun _ => Or.inl hm
      flight := fun _ _ e => by dsimp only at e; rw [hm] at e; cases e
      writeFlight := fun code r q => ⟨(L.writeFlight code r q).1, by dsimp only; rw [hm]; simp⟩
      isolateFlight := fun q => by
        have := (L.isolateFlight q).1
        rcases hd with q | q <;> rw [q] at this <;> cases this }

/-- The goal under an action is present and in range outside OFF (R24). -/
theorem State.DriveLaw.goalUnder (h : s.DriveLaw) (hd : (s.ch c).drive ≠ .off) (a : Action) :
    (s.goalUnder c a).isSome = true ∧ (s.entry c).inRange? (s.goalUnder c a) := by
  have L := h.channel c
  have P := L.present hd
  cases a
  · exact ⟨P.1, L.target⟩
  · exact ⟨P.2.2, L.sent⟩
  · exact ⟨rfl, inRange?_some (ChannelEntry.inRange_safe L.entryOk)⟩
  · exact ⟨P.2.1, L.goal⟩

/-- The beginning of an isolation keeps the laws (R33, R49). -/
theorem State.DriveLaw.beginIsolation (h : s.DriveLaw)
    (hd : (s.ch c).drive = .moving ∨ (s.ch c).drive = .steady ∨ (s.ch c).drive = .releasing) : (s.beginIsolation c).DriveLaw := by
  have L := h.channel c
  have hoff : (s.ch c).drive ≠ .off := by rcases hd with e | e | e <;> simp [e]
  refine h.of_onlyChannel (State.Drives.beginIsolation s c hoff).frame ?_ ?_
  · unfold State.ChannelLaw State.beginIsolation
    have e1 : ((s.placeIsolate c).modCh c fun x => { x with drive := .isolating }).ch c = { s.ch c with drive := .isolating } := by
      simp [State.placeIsolate]
    rw [e1]
    simp only [State.placeIsolate, State.entry_modCh, State.entry_setOq, State.oq_modCh, State.oq_setOq, State.fbc_modCh,
      State.fbc_setOq]
    have hne : ∀ {w : WriteEntry}, w ∈ (s.oq.placeIsolate c).writes → w.channel ≠ c := fun hw => (OutputQueue.mem_placeIsolate.mp hw).2
    exact { L with
      off := fun e => by cases e
      present := fun _ => L.present hoff
      isolateQueued := fun _ => rfl
      writeQueued := fun e => by
        obtain ⟨w, h1, h2⟩ := (OutputQueue.hasWrite_iff _ c).mp e
        exact absurd h2 (hne h1)
      writeCode := fun w h1 h2 => absurd h2 (hne h1)
      flight := fun _ _ e => by cases e
      writeFlight := fun code r q => ⟨(L.writeFlight code r q).1, by simp⟩
      isolateFlight := fun q => by
        have := (L.isolateFlight q).1
        rcases hd with q | q | q <;> rw [q] at this <;> cases this }
  · have := OutputQueue.placeIsolate_keys (q := s.oq) h.queue c
    rw [State.outputQueueLaw_iff]
    simpa [State.beginIsolation, State.placeIsolate] using this

/-- The drive's answer to a change of the effective action keeps the laws (R24, R33). -/
theorem State.DriveLaw.actionChanged (h : s.DriveLaw) (a : Action) : (s.actionChanged c a).DriveLaw := by
  unfold State.actionChanged
  split
  · next hd =>
    have g := h.goalUnder (c := c) (by simp [hd]) a
    split
    · exact h.beginIsolation (Or.inl hd)
    · exact h.setGoal (Or.inl hd) g.1 g.2
  · next hd =>
    have g := h.goalUnder (c := c) (by simp [hd]) a
    split
    · exact h.beginIsolation (Or.inr (Or.inl hd))
    · exact h.setGoal (Or.inr hd) g.1 g.2
  · next hd =>
    split
    · exact h.beginIsolation (Or.inr (Or.inr hd))
    · exact h
  all_goals exact h

theorem State.DriveLaw.targetNotice (h : s.DriveLaw) : (s.targetNotice c).DriveLaw := by
  have L := h.channel c
  unfold State.targetNotice
  split
  · next hd =>
    split
    · exact h.setGoal (Or.inl hd) (L.present (by simp [hd])).1 L.target
    · exact h
  · next hd =>
    split
    · exact h.setGoal (Or.inr hd) (L.present (by simp [hd])).1 L.target
    · exact h
  all_goals exact h

/-- The entry to MOVING keeps the laws where nothing of an isolation remains (R25, R43, R44). -/
theorem State.DriveLaw.enterMoving (h : s.DriveLaw) (hd : (s.ch c).drive ≠ .off) (hi : s.oq.hasIsolate c = false)
    (hf : ¬ s.inFlight c (.isolate c)) : (s.enterMoving c).DriveLaw := by
  have L := h.channel c
  have g := h.goalUnder hd (s.ch c).action
  refine State.DriveLaw.stepTest (h.modCh { L with
    off := fun e => by cases e
    present := fun _ => ⟨(L.present hd).1, g.1, (L.present hd).2.2⟩
    goal := g.2
    isolateQueued := fun e => by rw [hi] at e; cases e
    writeQueued := fun _ => Or.inl rfl
    flight := fun _ _ e => by cases e
    writeFlight := fun code r q => ⟨(L.writeFlight code r q).1, by simp⟩
    isolateFlight := fun q => absurd q hf })

/-! ### Field results -/

theorem State.DriveLaw.rollbackCode (h : s.DriveLaw) : (s.entry c).inRange (s.rollbackCode c) := by
  have L := h.channel c
  unfold State.rollbackCode
  cases ha : (s.ch c).applied with
  | none => exact ChannelEntry.inRange_safe L.entryOk
  | some k => exact L.applied k ha

/-- A change of codes, timers and counters alone. -/
theorem State.DriveLaw.rollBack (h : s.DriveLaw) (hd : (s.ch c).drive ≠ .off) : (s.rollBack c).DriveLaw := by
  have L := h.channel c
  exact h.modCh { L with
    off := fun e => absurd e hd
    present := fun e => ⟨(L.present e).1, (L.present e).2.1, rfl⟩
    sent := inRange?_some h.rollbackCode }

theorem State.DriveLaw.setApplied (h : s.DriveLaw) (hd : (s.ch c).drive ≠ .off) {k : Code} (hk : (s.entry c).inRange k) :
    (s.setApplied c k).DriveLaw := by
  have L := h.channel c
  exact h.modCh { L with off := fun e => absurd e hd, applied := inRange?_some hk }

theorem State.DriveLaw.startStepTimer (h : s.DriveLaw) (hd : (s.ch c).drive ≠ .off) : (s.startStepTimer c).DriveLaw := by
  have L := h.channel c
  exact h.modCh { L with off := fun e => absurd e hd }

/-- A WRITE result with OK keeps the laws (R31). -/
theorem State.DriveLaw.writeOk (h : s.DriveLaw) (hd : (s.ch c).drive ≠ .off) (hr : s.fbc.state.record? = none) {k : Code}
    (hk : (s.entry c).inRange k) (r : Bool) : (s.writeOk c k r).DriveLaw := by
  have h' := h.setApplied hd hk
  have ed : ((s.setApplied c k).ch c).drive = (s.ch c).drive := by simp [State.setApplied]
  unfold State.writeOk
  dsimp only
  split
  · exact h'.stepTest
  · next hm =>
    split
    · refine h'.enterMoving (by rw [hm]; simp) (h'.noIsolate (by rw [hm]; simp)) ?_
      intro q
      simp [State.inFlight, flying, State.setApplied, hr] at q
    · exact h'
  all_goals exact h'

/-- A WRITE result with a failure keeps the laws (R32). -/
theorem State.DriveLaw.writeFailed (h : s.DriveLaw) (hd : (s.ch c).drive ≠ .off) (r : Bool) : (s.writeFailed c r).DriveLaw := by
  have h' := h.rollBack hd
  unfold State.writeFailed
  dsimp only
  split
  · exact h'.stepTest
  · next hm =>
    split
    · exact h'.startStepTimer (by rw [hm]; simp)
    · exact h'
  all_goals exact h'

/-- An ISOLATE result keeps the laws (R33, R50). -/
theorem State.DriveLaw.isolateResult (h : s.DriveLaw) (hr : s.fbc.state.record? = none) (hi : s.oq.hasIsolate c = false)
    (success : Bool) : (s.isolateResult c success).DriveLaw := by
  have L := h.channel c
  have nofly : ∀ job, ¬ flying s.fbc.state.record? c job := by simp [flying, hr]
  unfold State.isolateResult
  split
  · next hd =>
    have hw := h.noWrite (c := c) (by simp [hd])
    split
    · exact h.modCh { L with
        off := fun e => by cases e
        present := fun _ => L.present (by simp [hd])
        isolateQueued := fun e => by rw [hi] at e; cases e
        writeQueued := fun e => by rw [hw] at e; cases e
        flight := fun job q => absurd q (nofly job)
        writeFlight := fun code r q => absurd q (nofly _)
        isolateFlight := fun q => absurd q (nofly _) }
    · refine h.of_onlyChannel (s.onlyChannel_placeIsolate c) ?_ ?_
      · unfold State.ChannelLaw
        simp only [State.placeIsolate, State.entry_setOq, State.ch_setOq, State.oq_setOq, State.fbc_setOq]
        have hne : ∀ {w : WriteEntry}, w ∈ (s.oq.placeIsolate c).writes → w.channel ≠ c :=
          fun hw => (OutputQueue.mem_placeIsolate.mp hw).2
        exact { L with
          isolateQueued := fun _ => hd
          writeQueued := fun e => by
            obtain ⟨w, h1, h2⟩ := (OutputQueue.hasWrite_iff _ c).mp e
            exact absurd h2 (hne h1)
          writeCode := fun w h1 h2 => absurd h2 (hne h1)
          isolateFlight := fun q => absurd q (nofly _) }
      · have := OutputQueue.placeIsolate_keys (q := s.oq) h.queue c
        rw [State.outputQueueLaw_iff]
        simpa [State.placeIsolate] using this
  · exact h

theorem State.DriveLaw.issueReconnect (h : s.DriveLaw) (hd : (s.ch c).drive = .releasing) : (s.issueReconnect c).DriveLaw :=
  h.issueWrite h.rollbackCode (Or.inr (Or.inr hd))

/-- The expiry of a running step timer keeps the laws (R29). -/
theorem State.DriveLaw.stepTimerExpired (h : s.DriveLaw) (ht : (s.ch c).stepTimer.isRunning = true) :
    (s.stepTimerExpired c).DriveLaw := by
  have L := h.channel c
  have hd : (s.ch c).drive ≠ .off := fun e => by rw [L.off e] at ht; cases ht
  have h' : (s.modCh c fun x => { x with stepTimer := .expired }).DriveLaw := h.modCh { L with off := fun e => absurd e hd }
  unfold State.stepTimerExpired
  dsimp only
  split
  · exact h'.stepTest
  · next hm =>
    split
    · exact h'
    · exact h'.issueReconnect hm
  all_goals exact h'

/-! ### Enabling, disabling, releasing, arrival at OFF -/

theorem flying_markStale {r : Option Transaction} {c d : ChannelNo} {job : FieldJob}
    (h : flying (r.map (Transaction.markStale c)) d job) : d ≠ c ∧ flying r d job := by
  obtain ⟨t, h1, h2, h3, h4⟩ := h
  cases r with
  | none => cases h1
  | some t0 =>
    simp only [Option.map_some, Option.some.injEq] at h1
    unfold Transaction.markStale at h1
    split at h1
    · subst h1; cases h2
    · next hn =>
      subst h1
      refine ⟨fun e => hn ?_, t0, rfl, h2, h3, h4⟩
      rw [h3, h4, e]

theorem FbcState.record?_mapRecord (f : Transaction → Transaction) (x : FbcState) :
    (x.mapRecord f).record? = x.record?.map f := by cases x <;> rfl

/-- Arrival at OFF keeps the laws once the queue holds nothing of the channel (R41, R75). -/
theorem State.DriveLaw.reachOff (h : s.DriveLaw) (hq : s.oq.hasEntry c = false) : (s.reachOff c).DriveLaw := by
  have L := h.channel c
  rw [OutputQueue.hasEntry_eq_false] at hq
  have key : ((s.modCh c fun _ => .reset).markStale c).DriveLaw := by
    refine ⟨fun d => ?_, ?_, ?_⟩
    · unfold State.ChannelLaw State.markStale
      simp only [State.entry_setPsq, State.entry_setFbc, State.entry_modCh, State.ch_setPsq, State.ch_setFbc, State.oq_setPsq,
        State.oq_setFbc, State.oq_modCh, State.fbc_setPsq, State.fbc_setFbc, State.fbc_modCh, FbcState.record?_mapRecord]
      by_cases hd : d = c
      · subst hd
        rw [State.ch_modCh_self]
        have nofly : ∀ job, ¬ flying (s.fbc.state.record?.map (Transaction.markStale d)) d job :=
          fun job k => (flying_markStale k).1 rfl
        exact {
          entryOk := L.entryOk
          off := fun _ => rfl
          latched := rfl
          action := by simp [ChannelCtx.reset, effectiveAction, ClassSet.empty, Action.when, Action.max, Action.rank]
          valueFaults := Nat.zero_le _
          norespFaults := Nat.zero_le _
          present := fun e => absurd rfl e
          target := inRange?_none _
          goal := inRange?_none _
          sent := inRange?_none _
          applied := inRange?_none _
          isolateQueued := fun e => by rw [hq.1] at e; cases e
          writeQueued := fun e => by rw [hq.2] at e; cases e
          writeCode := L.writeCode
          flight := fun job k => absurd k (nofly job)
          writeFlight := fun code r k => absurd k (nofly _)
          isolateFlight := fun k => absurd k (nofly _) }
      · rw [State.ch_modCh_of_ne _ hd]
        exact (h.channel d).mono (fun k => k) (fun w hw _ => hw) fun job k => (flying_markStale k).2
    · have := h.store
      unfold State.StoreLaw State.markStale at *
      simpa using this
    · have := h.queue
      unfold State.OutputQueueLaw State.markStale at *
      simpa using this
  unfold State.reachOff
  dsimp only
  split
  · exact key.onlyReports (State.offerAlarm_onlyReports _ _ _ _ _)
  · exact key

theorem State.DriveLaw.removeEntry (h : s.DriveLaw) : (s.removeEntry c).DriveLaw := by
  refine h.of_onlyChannel (s.onlyChannel_removeEntry c) ?_ ?_
  · have := (h.channel c).removed
    unfold State.ChannelLaw
    simpa [State.removeEntry] using this
  · have := OutputQueue.remove_keys (q := s.oq) h.queue c
    rw [State.outputQueueLaw_iff]
    simpa [State.removeEntry] using this

/-- Steps 1 to 3 of an enable keep the laws (R36). -/
theorem State.DriveLaw.startDriving (h : s.DriveLaw) (hd : (s.ch c).drive = .off) : (s.startDriving c).DriveLaw := by
  have L := h.channel c
  have hs := ChannelEntry.inRange_safe L.entryOk
  have hx := L.off hd
  have key : s.startDriving c = (s.placeWrite c (s.safeCode c) true).modCh c fun x =>
      { x with target := some (s.safeCode c), goal := some (s.safeCode c), clamped := false, drive := .moving,
               sent := some (s.safeCode c), stepTimer := .running (s.entry c).stepLength } := by
    unfold State.startDriving State.issueWrite State.placeWrite State.modCh State.setOq
    simp [State.ch, State.entry]
  rw [key]
  refine h.placed (h.noIsolate (by simp [hd])) hs (Or.inl rfl) { L.removed with
    off := fun e => by cases e
    present := fun _ => ⟨rfl, rfl, rfl⟩
    target := inRange?_some hs
    goal := inRange?_some hs
    sent := inRange?_some hs
    isolateQueued := fun e => by rw [remove_hasIsolate_self] at e; cases e
    writeQueued := fun _ => Or.inl rfl
    flight := fun _ _ e => by cases e
    writeFlight := fun code r q => ⟨(L.writeFlight code r q).1, by simp⟩
    isolateFlight := fun q => absurd hd (L.flight _ q) }

/-- A disable of a driving channel keeps the laws (R39). -/
theorem State.DriveLaw.beginStopping (h : s.DriveLaw)
    (hd : (s.ch c).drive = .moving ∨ (s.ch c).drive = .steady ∨ (s.ch c).drive = .releasing) : (s.beginStopping c).DriveLaw := by
  have L := h.channel c
  have hs := ChannelEntry.inRange_safe L.entryOk
  have hoff : (s.ch c).drive ≠ .off := by rcases hd with e | e | e <;> simp [e]
  have hiso : (s.ch c).drive ≠ .isolating := by rcases hd with e | e | e <;> simp [e]
  refine h.placed (h.noIsolate hiso) hs (Or.inr (Or.inl rfl)) { L.removed with
    off := fun e => by cases e
    present := fun _ => ⟨(L.present hoff).1, rfl, rfl⟩
    goal := inRange?_some hs
    sent := inRange?_some hs
    isolateQueued := fun e => by rw [remove_hasIsolate_self] at e; cases e
    writeQueued := fun _ => Or.inr (Or.inl rfl)
    flight := fun _ _ e => by cases e
    writeFlight := fun code r q => ⟨(L.writeFlight code r q).1, by simp⟩
    isolateFlight := fun q => absurd (L.isolateFlight q).1 hiso }

theorem State.removeEntry_hasEntry (s : State) (c : ChannelNo) : (s.removeEntry c).oq.hasEntry c = false := by
  rw [OutputQueue.hasEntry_eq_false]
  exact ⟨remove_hasIsolate_self _ _, remove_hasWrite_self _ _⟩

theorem State.DriveLaw.disable (h : s.DriveLaw) : (s.disable c).DriveLaw := by
  unfold State.disable
  split
  · exact (h.removeEntry).reachOff (s.removeEntry_hasEntry c)
  · exact (h.removeEntry).reachOff (s.removeEntry_hasEntry c)
  · next hd => exact h.beginStopping (Or.inl hd)
  · next hd => exact h.beginStopping (Or.inr (Or.inl hd))
  · next hd => exact h.beginStopping (Or.inr (Or.inr hd))
  all_goals exact h

/-- The drive's part of a release keeps the laws (R43, R44). -/
theorem State.DriveLaw.resumeDrive (h : s.DriveLaw) (hf : ¬ s.inFlight c (.isolate c)) : (s.resumeDrive c).DriveLaw := by
  unfold State.resumeDrive
  split
  · next hd =>
    have h' : (s.removeEntry c).DriveLaw := h.removeEntry
    have hoff : ((s.removeEntry c).ch c).drive ≠ .off := by simp [State.removeEntry, hd]
    have hi : (s.removeEntry c).oq.hasIsolate c = false := remove_hasIsolate_self _ _
    dsimp only
    split
    · exact h'.enterMoving hoff hi hf
    · refine (h'.rollBack hoff).enterMoving ?_ ?_ ?_
      · simpa [State.rollBack] using hoff
      · simpa [State.rollBack] using hi
      · simpa [State.rollBack, State.removeEntry, State.inFlight] using hf
  · next hd =>
    have L := h.channel c
    unfold State.issueReconnect State.issueWrite
    have hk := h.rollbackCode (c := c)
    have key : ((s.placeWrite c (s.rollbackCode c) true).modCh c fun x =>
        { x with sent := some (s.rollbackCode c), stepTimer := .running (s.entry c).stepLength }).modCh c
          (fun x => { x with drive := .releasing }) =
        (s.placeWrite c (s.rollbackCode c) true).modCh c fun x =>
        { x with sent := some (s.rollbackCode c), stepTimer := .running (s.entry c).stepLength, drive := .releasing } := by
      unfold State.modCh State.placeWrite State.setOq
      simp [State.ch]
    rw [key]
    refine h.placed (h.noIsolate (by simp [hd])) hk (Or.inr (Or.inr rfl)) { L.removed with
      off := fun e => by cases e
      present := fun _ => ⟨(L.present (by simp [hd])).1, (L.present (by simp [hd])).2.1, rfl⟩
      sent := inRange?_some hk
      isolateQueued := fun e => by rw [remove_hasIsolate_self] at e; cases e
      writeQueued := fun _ => Or.inr (Or.inr rfl)
      flight := fun _ _ e => by cases e
      writeFlight := fun code r q => ⟨(L.writeFlight code r q).1, by simp⟩
      isolateFlight := fun q => absurd q hf }
  all_goals exact h

/-! ### FLUSH_OUTPUT and SLEW_BYPASS -/

theorem State.DriveLaw.flushedChannel (h : s.DriveLaw) (hq : s.oq.hasEntry c = false) : (s.flushedChannel c).DriveLaw := by
  unfold State.flushedChannel
  split
  · next hd => exact (h.rollBack (by simp [hd])).stepTest
  · next hd => exact (h.rollBack (by simp [hd])).startStepTimer (by simp [State.rollBack, hd])
  · exact h.reachOff hq
  all_goals exact h

theorem State.DriveLaw.bypassChannel (h : s.DriveLaw) : (s.bypassChannel c).DriveLaw := by
  unfold State.bypassChannel
  split
  · next k hk =>
    split
    · next hm => exact h.requestCode ((h.channel c).goal k hk) (by simp [hm])
    · exact h
  · exact h

end Sys2Proof.Machine
end

