-- ==== Sys2Proof/Laws/Alarms.lean ====
section
/-! SUPPORT. What the operations of ACT and RBM do (Machine/Actions.lean, Machine/Monitor.lean): a change of the active set with its
latches, its effective action and its drive (`setActive`), and that they keep the law of every channel. -/

namespace Sys2Proof.Machine

variable {s : State} {c : ChannelNo}

/-! ### Class sets -/

/-- The latched set after a change of the active set still contains the active set (R123). -/
theorem ClassSet.subset_latched {before after latched : ClassSet} (h : before.subset latched = true) :
    after.subset (latched.union (after.minus before)) = true := by
  rcases before with ⟨a1, a2, a3, a4, a5⟩
  rcases after with ⟨b1, b2, b3, b4, b5⟩
  rcases latched with ⟨c1, c2, c3, c4, c5⟩
  simp only [ClassSet.subset, ClassSet.minus, ClassSet.union, ClassSet.nonempty, Bool.not_eq_true', Bool.or_eq_false_iff] at h ⊢
  obtain ⟨⟨⟨⟨h1, h2⟩, h3⟩, h4⟩, h5⟩ := h
  refine ⟨⟨⟨⟨?_, ?_⟩, ?_⟩, ?_⟩, ?_⟩
  · revert h1; cases a1 <;> cases b1 <;> cases c1 <;> simp
  · revert h2; cases a2 <;> cases b2 <;> cases c2 <;> simp
  · revert h3; cases a3 <;> cases b3 <;> cases c3 <;> simp
  · revert h4; cases a4 <;> cases b4 <;> cases c4 <;> simp
  · revert h5; cases a5 <;> cases b5 <;> cases c5 <;> simp

theorem ClassSet.union_minus_self (a b : ClassSet) : a.union (b.minus b) = a := by
  rcases a with ⟨a1, a2, a3, a4, a5⟩
  rcases b with ⟨b1, b2, b3, b4, b5⟩
  simp [ClassSet.union, ClassSet.minus]

theorem ClassSet.subset_self (a : ClassSet) : a.subset a = true := by
  simp [ClassSet.subset, ClassSet.minus, ClassSet.nonempty]

/-! ### A change of the active set -/

/-- The context with the active set, the latches and the effective action of the change (R123, R130). -/
def ChannelCtx.activeSet (e : ChannelEntry) (active : ClassSet) (x : ChannelCtx) : ChannelCtx :=
  { x.withActive active with action := effectiveAction e active }

/-- The state at the moment the drive is told of a change of the action. -/
theorem State.setActive_eq (s : State) (c : ChannelNo) (active : ClassSet) : s.setActive c active =
    if active = (s.ch c).active then s
    else
      let a := effectiveAction (s.entry c) active
      let t := s.modCh c (ChannelCtx.activeSet (s.entry c) active)
      let u := if a = (s.ch c).action then t else t.actionChanged c a
      if (s.ch c).active.touches active (s.entry c).alarmMask then
        u.offerAlarm c (u.ch c).active (u.ch c).latched (u.ch c).action
      else u := by
  unfold State.setActive
  dsimp only
  split
  · rfl
  · have he : ((s.modCh c (ChannelCtx.withActive active)).recompute c) =
        if effectiveAction (s.entry c) active = (s.ch c).action then s.modCh c (ChannelCtx.activeSet (s.entry c) active)
        else (s.modCh c (ChannelCtx.activeSet (s.entry c) active)).actionChanged c (effectiveAction (s.entry c) active) := by
      unfold State.recompute
      have e1 : ((s.modCh c (ChannelCtx.withActive active)).ch c).active = active := by simp [ChannelCtx.withActive]
      have e2 : ((s.modCh c (ChannelCtx.withActive active)).ch c).action = (s.ch c).action := by simp [ChannelCtx.withActive]
      simp only [State.entry_modCh, e1, e2]
      split
      · next h =>
        unfold State.modCh ChannelCtx.activeSet
        congr 2
        rw [h]; rfl
      · congr 1
        unfold State.modCh ChannelCtx.activeSet
        simp [State.ch]
    rw [he]
    have hen : ∀ d, (if effectiveAction (s.entry c) active = (s.ch c).action then
          s.modCh c (ChannelCtx.activeSet (s.entry c) active)
        else (s.modCh c (ChannelCtx.activeSet (s.entry c) active)).actionChanged c (effectiveAction (s.entry c) active)).entry d =
          s.entry d := by
      intro d
      split
      · simp
      · rw [(State.Drives.actionChanged _ c _).frame.entry]; simp
    rw [hen]

/-- A change of the active set touches nothing but its channel and the reports. -/
theorem State.setActive_onlyChannel (s : State) (c : ChannelNo) (active : ClassSet) :
    State.OnlyChannel c s (s.setActive c active) := by
  rw [State.setActive_eq]
  split
  · exact .refl c s
  · have h1 := s.onlyChannel_modCh c (ChannelCtx.activeSet (s.entry c) active)
    dsimp only
    have h2 : State.OnlyChannel c s (if effectiveAction (s.entry c) active = (s.ch c).action then
        s.modCh c (ChannelCtx.activeSet (s.entry c) active)
      else (s.modCh c (ChannelCtx.activeSet (s.entry c) active)).actionChanged c (effectiveAction (s.entry c) active)) := by
      split
      · exact h1
      · exact h1.trans (State.Drives.actionChanged _ c _).frame
    split
    · exact h2.trans ((State.offerAlarm_onlyReports _ _ _ _ _).onlyChannel c)
    · exact h2

theorem State.OnlyReports.ch {s t : State} (h : s.OnlyReports t) (d : ChannelNo) : t.ch d = s.ch d := by
  simp [State.ch, h.channels.1]

/-- The context after a change of the active set: the new set, its latches and its action, then what the drive does about it. -/
theorem State.setActive_moves (ha : (s.ch c).action = effectiveAction (s.entry c) (s.ch c).active) (active : ClassSet) :
    ((s.ch c).activeSet (s.entry c) active).Moves ((s.setActive c active).ch c) := by
  rw [State.setActive_eq]
  split
  · next h =>
    have : (s.ch c).activeSet (s.entry c) active = s.ch c := by
      unfold ChannelCtx.activeSet ChannelCtx.withActive
      rw [h, ClassSet.union_minus_self, ← ha]
    rw [this]; exact .refl _
  · have h1 : (s.modCh c (ChannelCtx.activeSet (s.entry c) active)).ch c = (s.ch c).activeSet (s.entry c) active :=
      s.ch_modCh_self c _
    dsimp only
    have h2 : ((s.ch c).activeSet (s.entry c) active).Moves ((if effectiveAction (s.entry c) active = (s.ch c).action then
        s.modCh c (ChannelCtx.activeSet (s.entry c) active)
      else (s.modCh c (ChannelCtx.activeSet (s.entry c) active)).actionChanged c (effectiveAction (s.entry c) active)).ch c) := by
      split
      · rw [h1]; exact .refl _
      · have := (State.Drives.actionChanged (s.modCh c (ChannelCtx.activeSet (s.entry c) active)) c
          (effectiveAction (s.entry c) active)).moves
        rwa [h1] at this
    split
    · rw [(State.offerAlarm_onlyReports _ _ _ _ _).ch]; exact h2
    · exact h2

/-- The law of the channel holds of the context with the new active set. -/
theorem ContextLaw.activeSet {e : ChannelEntry} {x : ChannelCtx} {q : OutputQueue} {r : Option Transaction}
    (h : ContextLaw e x q r c) (hd : x.drive ≠ .off) (active : ClassSet) : ContextLaw e (x.activeSet e active) q r c :=
  { h with
    off := fun k => absurd k hd
    latched := ClassSet.subset_latched h.latched
    action := rfl }

/-- A change of the active set of a channel that is not OFF keeps the laws (R123, R130, R131). -/
theorem State.DriveLaw.setActive (h : s.DriveLaw) {active : ClassSet}
    (hd : active ≠ (s.ch c).active → (s.ch c).drive ≠ .off) : (s.setActive c active).DriveLaw := by
  rw [State.setActive_eq]
  split
  · exact h
  · next hn =>
    have h1 : (s.modCh c (ChannelCtx.activeSet (s.entry c) active)).DriveLaw :=
      h.modCh ((h.channel c).activeSet (hd hn) active)
    dsimp only
    have h2 : (if effectiveAction (s.entry c) active = (s.ch c).action then
        s.modCh c (ChannelCtx.activeSet (s.entry c) active)
      else (s.modCh c (ChannelCtx.activeSet (s.entry c) active)).actionChanged c (effectiveAction (s.entry c) active)).DriveLaw := by
      split
      · exact h1
      · exact h1.actionChanged _
    split
    · exact h2.onlyReports (State.offerAlarm_onlyReports _ _ _ _ _)
    · exact h2

/-! ### Enable and release -/

/-- An enable keeps the laws (R36). -/
theorem State.DriveLaw.enable (h : s.DriveLaw) (hd : (s.ch c).drive = .off) : (s.enable c).DriveLaw := by
  have h' := h.startDriving hd
  unfold State.enable
  dsimp only
  split
  · refine h'.setActive fun _ => ?_
    simp [State.startDriving, State.issueWrite, State.placeWrite]
  · exact h'

/-- A release keeps the laws (R43, R44). -/
theorem State.DriveLaw.release (h : s.DriveLaw) (hd : (s.ch c).drive ≠ .off) (hf : ¬ s.inFlight c (.isolate c)) :
    (s.release c).DriveLaw := by
  have L := h.channel c
  have h1 : (s.modCh c fun x => { x with valueFaults := 0 }).DriveLaw :=
    h.modCh { L with off := fun e => absurd e hd, valueFaults := Nat.zero_le _ }
  unfold State.release
  refine State.DriveLaw.resumeDrive (h1.setActive fun _ => by simpa using hd) ?_
  have := (State.setActive_onlyChannel (s.modCh c fun x => { x with valueFaults := 0 }) c ((s.ch c).active.minus .valueClasses)).field.1
  unfold State.inFlight at hf ⊢
  rw [this]
  simpa using hf

/-! ### Silence and setpoints -/

theorem State.DriveLaw.silenceJoins (h : s.DriveLaw) : (s.silenceJoins c).DriveLaw := by
  unfold State.silenceJoins
  split
  · exact h
  · next hd => exact h.setActive fun _ => hd

theorem State.DriveLaw.silenceLeaves (h : s.DriveLaw) : (s.silenceLeaves c).DriveLaw := by
  refine h.setActive fun hn hd => hn ?_
  rw [(h.channel c).off hd]; rfl

/-- A law that every call for a channel keeps is kept by all of them in turn. -/
theorem foldl_kept {α β : Type} {P : α → Prop} {f : α → β → α} (hf : ∀ a b, P a → P (f a b)) (l : List β) {a : α} (h : P a) :
    P (l.foldl f a) := by
  induction l generalizing a with
  | nil => exact h
  | cons b l ih => exact ih (hf a b h)

theorem State.DriveLaw.silenceBegins (h : s.DriveLaw) : s.silenceBegins.DriveLaw := by
  unfold State.silenceBegins
  refine State.DriveLaw.onlyReports ?_ (State.offerPart_onlyReports _ _)
  exact foldl_kept (P := State.DriveLaw) (fun _ _ h => h.silenceJoins) _ (h.congr rfl rfl rfl rfl rfl)

theorem State.DriveLaw.silenceEnds (h : s.DriveLaw) : s.silenceEnds.DriveLaw := by
  unfold State.silenceEnds
  refine State.DriveLaw.onlyReports ?_ (State.offerPart_onlyReports _ _)
  exact foldl_kept (P := State.DriveLaw) (fun _ _ h => h.silenceLeaves) _ (h.congr rfl rfl rfl rfl rfl)

theorem State.DriveLaw.setpointNotice (h : s.DriveLaw) : s.setpointNotice.DriveLaw := by
  unfold State.setpointNotice
  split
  · exact h.congr rfl rfl rfl rfl rfl
  · exact h.silenceEnds

theorem State.DriveLaw.silenceTimeoutWritten (h : s.DriveLaw) : s.silenceTimeoutWritten.DriveLaw := by
  unfold State.silenceTimeoutWritten
  split
  · exact h.congr rfl rfl rfl rfl rfl
  · split
    · exact h.silenceEnds
    · exact h

theorem State.DriveLaw.applySetpoint (h : s.DriveLaw) (hd : (s.ch c).drive ≠ .off) (data : Code) (takes : Bool) :
    (s.applySetpoint c data takes).DriveLaw := by
  have L := h.channel c
  refine State.DriveLaw.targetNotice (h.modCh { L with
    off := fun e => absurd e hd
    present := fun e => ⟨rfl, (L.present e).2⟩
    target := inRange?_some (inRange_calibrate L.entryOk data) })

theorem DriveState.takesSetpoints_ne_off {d : DriveState} (h : d.takesSetpoints = true) : d ≠ .off := by
  cases d <;> simp [DriveState.takesSetpoints] at h ⊢

theorem State.DriveLaw.takePair (h : s.DriveLaw) (p : SetpointPair) : (s.takePair p).DriveLaw := by
  unfold State.takePair
  split
  · exact h.congr rfl rfl rfl rfl rfl
  · split
    · next ht => exact h.applySetpoint (DriveState.takesSetpoints_ne_off ht) _ _
    · exact h.congr rfl rfl rfl rfl rfl

theorem State.DriveLaw.takePairs (h : s.DriveLaw) (pairs : List SetpointPair) : (pairs.foldl State.takePair s).DriveLaw :=
  foldl_kept (P := State.DriveLaw) (fun _ p h => h.takePair p) _ h

/-- A frame none of whose pairs waits is applied whole (R10). -/
theorem State.applyPairs_whole (s : State) {p : SetpointPair} {rest : List SetpointPair} (h : ∀ q ∈ rest, q.waits = false) :
    s.applyPairs (p :: rest) = ((p :: rest).foldl State.takePair s).setSph [] := by
  have e : rest.takeWhile (fun q => !q.waits) = rest ∧ rest.dropWhile (fun q => !q.waits) = [] := by
    constructor
    · exact List.takeWhile_eq_self_iff.mpr fun q hq => by simp [h q hq]
    · exact List.dropWhile_eq_nil_iff.mpr fun q hq => by simp [h q hq]
  simp [State.applyPairs, e.1, e.2]

/-- The pairs of a frame one by one: the next one that does not wait is applied in the same event (R14). -/
theorem State.applyPairs_goes_on (s : State) (p : SetpointPair) {q : SetpointPair} (rest : List SetpointPair) (h : q.waits = false) :
    s.applyPairs (p :: q :: rest) = (s.takePair p).applyPairs (q :: rest) := by simp [State.applyPairs, h]

/-- The next pair waits, and with it those after it (R18). -/
theorem State.applyPairs_waits (s : State) (p : SetpointPair) {q : SetpointPair} (rest : List SetpointPair) (h : q.waits = true) :
    s.applyPairs (p :: q :: rest) = (s.takePair p).setSph (q :: rest) := by simp [State.applyPairs, h]

theorem State.DriveLaw.applyPairs (h : s.DriveLaw) (pairs : List SetpointPair) : (s.applyPairs pairs).DriveLaw := by
  unfold State.applyPairs
  split
  · exact h
  · exact (h.takePairs _).congr rfl rfl rfl rfl rfl

theorem State.DriveLaw.takeSetpoints (h : s.DriveLaw) (pairs : List SetpointPair) : (s.takeSetpoints pairs).DriveLaw := by
  unfold State.takeSetpoints
  split
  · exact h.congr rfl rfl rfl rfl rfl
  · exact ((h.takePairs _).setpointNotice).applyPairs _

/-! ### RBM -/

theorem State.DriveLaw.norespResult (h : s.DriveLaw) (hd : (s.ch c).drive ≠ .off) (success : Bool) :
    (s.norespResult c success).DriveLaw := by
  have L := h.channel c
  have h1 : (s.modCh c fun x => { x with norespFaults := 0 }).DriveLaw :=
    h.modCh { L with off := fun e => absurd e hd, norespFaults := Nat.zero_le _ }
  have h2 : (s.modCh c fun x => { x with norespFaults := nextNorespFaults (s.entry c) x.norespFaults }).DriveLaw :=
    h.modCh { L with off := fun e => absurd e hd, norespFaults := Nat.min_le_right _ _ }
  unfold State.norespResult
  split
  · exact h1.setActive fun _ => by simpa using hd
  · exact h2.setActive fun _ => by simpa using hd

theorem nextValueFaults_le (e : ChannelEntry) (n : Nat) (k : ClassSet) : nextValueFaults e n k ≤ e.faultLimit.val + 1 := by
  unfold nextValueFaults
  split
  · exact Nat.min_le_right _ _
  · exact Nat.zero_le _

/-- The drive record and the alarm sets are those of before the reading. -/
theorem ChannelCtx.afterReading_drive (e : ChannelEntry) (value : Code) (x : ChannelCtx) :
    (x.afterReading e value).drive = x.drive := by
  unfold ChannelCtx.afterReading
  dsimp only
  split <;> rfl

theorem ContextLaw.afterReading {e : ChannelEntry} {x : ChannelCtx} {q : OutputQueue} {r : Option Transaction}
    (h : ContextLaw e x q r c) (hd : x.drive ≠ .off) (value : Code) : ContextLaw e (x.afterReading e value) q r c := by
  unfold ChannelCtx.afterReading
  dsimp only
  split
  · exact { h with off := fun k => absurd k hd, norespFaults := Nat.zero_le _, valueFaults := nextValueFaults_le _ _ _ }
  · exact { h with off := fun k => absurd k hd, norespFaults := Nat.zero_le _ }

theorem State.DriveLaw.offerReadback (h : s.DriveLaw) (hd : (s.ch c).drive ≠ .off) (value : Code) :
    (s.offerReadback c value).DriveLaw := by
  unfold State.offerReadback
  split
  · have h1 : (s.placeReport (.readback c value (s.ch c).clamped (s.ch c).drive (s.ch c).action)).DriveLaw :=
      h.onlyReports (State.onlyReports_setRq _ _)
    refine h1.modCh { h1.channel c with off := fun e => absurd e ?_ }
    simpa [State.placeReport] using hd
  · exact h.congr rfl rfl rfl rfl rfl

/-- A reading taken by RBM keeps the laws (R107, R111, R116, R117). -/
theorem State.DriveLaw.pollReading (h : s.DriveLaw) (hd : (s.ch c).drive ≠ .off) (node : Node) (raw : Code) :
    (s.pollReading c node raw).DriveLaw := by
  have L := h.channel c
  have h1 : (s.modCh c (ChannelCtx.afterReading (s.entry c) (readingValue (s.ch c) (s.node node) raw))).DriveLaw :=
    h.modCh (L.afterReading hd _)
  have hd1 : ((s.modCh c (ChannelCtx.afterReading (s.entry c) (readingValue (s.ch c) (s.node node) raw))).ch c).drive ≠ .off := by
    simpa [ChannelCtx.afterReading_drive] using hd
  unfold State.pollReading
  dsimp only
  have h2 : ((s.modCh c (ChannelCtx.afterReading (s.entry c) (readingValue (s.ch c) (s.node node) raw))).setActive c
      (activeAfterReading (s.entry c) (s.ch c) (readingValue (s.ch c) (s.node node) raw))).DriveLaw := h1.setActive fun _ => hd1
  split
  · refine h2.offerReadback ?_ _
    have := (State.setActive_moves (h1.channel c).action
      (activeAfterReading (s.entry c) (s.ch c) (readingValue (s.ch c) (s.node node) raw))).2
    intro e
    exact hd1 (this.mp e)
  · exact h2

end Sys2Proof.Machine
end

