-- ==== Sys2Proof/Laws/Polling.lean ====
section
/-! SUPPORT. What the operations of the poll sequencer and of the node table do (Machine/Polling.lean): the sequencer touches itself,
the pass-over count, one latch and the reports (`OnlySequencer`); a credit touches one node record and the reports. -/

namespace Sys2Proof.Machine

/-- Nothing but the sequencer, the pass-over count, the latched flags and the reports differs. -/
structure State.OnlySequencer (s t : State) : Prop where
  link : t.clp.rx = s.clp.rx ∧ t.clp.linkErrors = s.clp.linkErrors ∧ t.clp.rate = s.clp.rate
  tables : t.ct = s.ct ∧ t.nt = s.nt
  channels : t.ctx = s.ctx ∧ t.oq = s.oq
  field : t.fbc.state = s.fbc.state ∧ t.fbc.fbsy = s.fbc.fbsy ∧ t.fbc.fstbPulses = s.fbc.fstbPulses ∧ t.fbc.frx = s.fbc.frx
  record : t.psq.record = s.psq.record
  units : t.act = s.act ∧ t.pru = s.pru ∧ t.pst = s.pst ∧ t.pending = s.pending
  pairs : t.sph = s.sph
  executor : t.mgx.queue = s.mgx.queue ∧ t.mgx.restartPending = s.mgx.restartPending ∧ t.mgx.mode = s.mgx.mode ∧
    t.mgx.slewBypass = s.mgx.slewBypass ∧ t.mgx.config = s.mgx.config

theorem State.OnlySequencer.refl (s : State) : s.OnlySequencer s := by constructor <;> simp

theorem State.OnlySequencer.trans {s t u : State} (h : s.OnlySequencer t) (k : t.OnlySequencer u) : s.OnlySequencer u where
  link := ⟨k.link.1.trans h.link.1, k.link.2.1.trans h.link.2.1, k.link.2.2.trans h.link.2.2⟩
  tables := ⟨k.tables.1.trans h.tables.1, k.tables.2.trans h.tables.2⟩
  channels := ⟨k.channels.1.trans h.channels.1, k.channels.2.trans h.channels.2⟩
  field := ⟨k.field.1.trans h.field.1, k.field.2.1.trans h.field.2.1, k.field.2.2.1.trans h.field.2.2.1,
    k.field.2.2.2.trans h.field.2.2.2⟩
  record := k.record.trans h.record
  units := ⟨k.units.1.trans h.units.1, k.units.2.1.trans h.units.2.1, k.units.2.2.1.trans h.units.2.2.1,
    k.units.2.2.2.trans h.units.2.2.2⟩
  pairs := k.pairs.trans h.pairs
  executor := ⟨k.executor.1.trans h.executor.1, k.executor.2.1.trans h.executor.2.1, k.executor.2.2.1.trans h.executor.2.2.1,
    k.executor.2.2.2.1.trans h.executor.2.2.2.1, k.executor.2.2.2.2.trans h.executor.2.2.2.2⟩

theorem State.OnlyReports.onlySequencer {s t : State} (h : s.OnlyReports t) : s.OnlySequencer t where
  link := h.link
  tables := h.tables
  channels := h.channels
  field := by rw [h.field.1]; exact ⟨rfl, rfl, rfl, rfl⟩
  record := by rw [h.field.2]
  units := ⟨h.units.1, h.units.2.1, h.units.2.2.2, h.waiting⟩
  pairs := h.pairs
  executor := by rw [h.units.2.2.1]; exact ⟨rfl, rfl, rfl, rfl, rfl⟩

theorem State.onlySequencer_modPsq (s : State) (f : Sequencer → Sequencer) (h : (f s.psq).record = s.psq.record) :
    s.OnlySequencer (s.modPsq f) := by constructor <;> simp [State.modPsq, h]

theorem State.onlySequencer_latch (s : State) (f : Latches → Latches) : s.OnlySequencer (s.latch f) := by
  constructor <;> simp [State.latch]

theorem State.startSlot_only (s : State) (i : Fin 16) : s.OnlySequencer (s.startSlot i) := by
  unfold State.startSlot
  exact s.onlySequencer_modPsq _ rfl

theorem State.startCycle_only (s : State) : s.OnlySequencer s.startCycle :=
  (s.onlySequencer_modPsq _ rfl).trans (State.startSlot_only _ _)

theorem State.endWalk_only (s : State) : s.OnlySequencer s.endWalk := by
  unfold State.endWalk
  split
  · exact .trans (s.onlySequencer_modPsq _ rfl) (State.offerPart_onlyReports _ _).onlySequencer
  · split
    · exact s.startCycle_only
    · split
      · exact .trans (.trans (s.onlySequencer_latch _) (State.offerPart_onlyReports _ _).onlySequencer) (State.startCycle_only _)
      · exact s.onlySequencer_modPsq _ rfl

theorem State.endSlot_only (s : State) : s.OnlySequencer s.endSlot := by
  unfold State.endSlot
  refine .trans (s.onlySequencer_modPsq (fun q => { q with slotPoll := .none }) rfl) ?_
  dsimp only
  split
  · split
    · exact State.endWalk_only _
    · exact State.startSlot_only _ _
  · exact State.onlySequencer_modPsq _ _ rfl
  all_goals exact .refl _

theorem State.endSlotIfDue_only (s : State) : s.OnlySequencer s.endSlotIfDue := by
  unfold State.endSlotIfDue
  split
  · exact s.endSlot_only
  · exact .refl s

theorem State.pollEnded_only (s : State) : s.OnlySequencer s.pollEnded :=
  (s.onlySequencer_modPsq _ rfl).trans (State.endSlotIfDue_only _)

theorem State.spacingExpired_only (s : State) : s.OnlySequencer s.spacingExpired :=
  (s.onlySequencer_modPsq _ rfl).trans (State.endSlotIfDue_only _)

theorem State.cycleExpired_only (s : State) : s.OnlySequencer s.cycleExpired := by
  unfold State.cycleExpired
  refine .trans (s.onlySequencer_modPsq (fun q => { q with cycleTimer := .expired }) rfl) ?_
  dsimp only
  split
  · exact State.onlySequencer_modPsq _ _ rfl
  · exact State.startCycle_only _
  all_goals exact .refl _

theorem State.withdrawPoll_only (s : State) : s.OnlySequencer s.withdrawPoll := by
  constructor <;> simp [State.withdrawPoll, State.modPsq]

theorem State.stopSequence_only (s : State) : s.OnlySequencer s.stopSequence := by
  unfold State.stopSequence
  split
  · refine .trans (s.onlySequencer_modPsq (fun q => { q with state := .seqStopping, cycleTimer := .stopped }) rfl) ?_
    dsimp only
    split
    · exact .trans (State.withdrawPoll_only _) (State.endSlotIfDue_only _)
    · exact .refl _
  · exact s.onlySequencer_modPsq _ rfl
  all_goals exact .refl _

theorem State.OnlySequencer.driveLaw {s t : State} (k : s.OnlySequencer t) (h : s.DriveLaw) : t.DriveLaw :=
  h.congr k.tables.1 k.channels.1 k.channels.2 (by rw [k.field.1]) k.units.2.2.1

/-! ### The node table -/

/-- A credit touches one node record and the reports; it leaves the expected flag and the zero fields (R102, R103). -/
theorem State.creditNode_only (s : State) (n : Node) (success : Bool) :
    (s.modNode n (if success then NodeRecord.success else NodeRecord.failure)).OnlyReports (s.creditNode n success) := by
  have key : ∀ (u : State) (o : Option PartEvent), u.OnlyReports (match o with
      | some e => u.offerPart e
      | none => u) := by
    intro u o
    cases o
    · exact .refl u
    · exact u.offerPart_onlyReports _
  exact key _ _

/-- The record after a credit. -/
theorem State.creditNode_node (s : State) (n m : Node) (success : Bool) :
    (s.creditNode n success).node m =
      if m = n then (if success then (s.node n).success else (s.node n).failure) else s.node m := by
  have h := (s.creditNode_only n success).tables.2
  have : (s.creditNode n success).node m = (s.modNode n (if success then NodeRecord.success else NodeRecord.failure)).node m := by
    simp [State.node, h]
  rw [this, State.node_modNode]
  cases success <;> rfl

theorem State.DriveLaw.modNode {s : State} (h : s.DriveLaw) (n : Node) (f : NodeRecord → NodeRecord) : (s.modNode n f).DriveLaw := by
  refine h.congr ?_ ?_ ?_ ?_ ?_ <;> simp

theorem State.DriveLaw.creditNode {s : State} (h : s.DriveLaw) (n : Node) (success : Bool) : (s.creditNode n success).DriveLaw :=
  (h.modNode n _).onlyReports (s.creditNode_only n success)

end Sys2Proof.Machine
end

