-- ==== Sys2Proof/Laws/Bus.lean ====
section
/-! SUPPORT. What the operations of the field bus controller do to the law of every channel (Machine/FieldBus.lean): grants, results and
completions. -/

namespace Sys2Proof.Machine

variable {s : State} {c : ChannelNo}

/-- The laws where the record flies no more than before. -/
theorem State.DriveLaw.fewerFlights {t : State} (h : s.DriveLaw) (hct : t.ct = s.ct) (hctx : t.ctx = s.ctx) (hoq : t.oq = s.oq)
    (hpst : t.pst = s.pst) (hf : ∀ d job, t.inFlight d job → s.inFlight d job) : t.DriveLaw where
  channel d := by
    have := h.channel d
    unfold State.ChannelLaw State.entry State.ch at this ⊢
    rw [hct, hctx, hoq]
    exact this.mono (fun k => k) (fun w k _ => k) (hf d)
  store := by have := h.store; unfold State.StoreLaw at this ⊢; rw [hpst]; exact this
  queue := by have := h.queue; unfold State.OutputQueueLaw at this ⊢; rw [hoq]; exact this

theorem State.DriveLaw.enterGap (h : s.DriveLaw) : s.enterGap.DriveLaw := by
  refine h.fewerFlights rfl rfl rfl rfl ?_
  rintro d job ⟨t, ht, -⟩
  cases ht

/-! ### Results -/

/-- The context after a WRITE with OK: the applied code, then what the drive does. -/
theorem State.writeOk_moves (hd : (s.ch c).drive ≠ .off) (k : Code) (r : Bool) :
    ({ s.ch c with applied := some k } : ChannelCtx).Moves ((s.writeOk c k r).ch c) := by
  have e : (s.setApplied c k).ch c = { s.ch c with applied := some k } := s.ch_modCh_self c _
  rw [← e]
  unfold State.writeOk
  dsimp only
  split
  · exact (State.Drives.stepTest _ c).moves
  · split
    · refine (State.Drives.enterMoving _ c ?_).moves
      rw [e]; exact hd
    · exact .refl _
  all_goals exact .refl _

theorem State.writeOk_onlyChannel (hd : (s.ch c).drive ≠ .off) (k : Code) (r : Bool) :
    State.OnlyChannel c s (s.writeOk c k r) := by
  have e : (s.setApplied c k).ch c = { s.ch c with applied := some k } := s.ch_modCh_self c _
  refine .trans (s.onlyChannel_modCh c fun x => { x with applied := some k }) ?_
  show State.OnlyChannel c (s.setApplied c k) _
  unfold State.writeOk
  dsimp only
  split
  · exact (State.Drives.stepTest _ c).frame
  · split
    · refine (State.Drives.enterMoving _ c ?_).frame
      rw [e]; exact hd
    · exact .refl c _
  all_goals exact .refl c _

theorem State.DriveLaw.takeWrite (h : s.DriveLaw) (hr : s.fbc.state.record? = none) {k : Code} (hk : (s.entry c).inRange k)
    (r success : Bool) : (s.takeWrite c k r success).DriveLaw := by
  unfold State.takeWrite
  split
  · exact h
  · next hd =>
    split
    · next hl =>
      simp only [State.isLastWrite, Bool.and_eq_true, Bool.not_eq_true'] at hl
      split
      · exact (h.setApplied hd hk).reachOff (by simpa [State.setApplied] using hl.2)
      · exact (h.rollBack hd).reachOff (by simpa [State.rollBack] using hl.2)
    · split
      · refine (h.writeOk hd hr hk r).norespResult ?_ _
        have := (State.writeOk_moves (s := s) (c := c) hd k r).2
        exact fun e => hd (this.mp e)
      · refine (h.writeFailed hd r).norespResult ?_ _
        have := (State.Drives.writeFailed s c r).moves.2
        exact fun e => hd (this.mp e)

theorem State.DriveLaw.takeIsolate (h : s.DriveLaw) (hr : s.fbc.state.record? = none) (hi : s.oq.hasIsolate c = false)
    (success : Bool) : (s.takeIsolate c success).DriveLaw := by
  unfold State.takeIsolate
  split
  · exact h
  · next hd =>
    refine (h.isolateResult hr hi success).norespResult ?_ _
    have := (State.Drives.isolateResult s c success).moves.2
    exact fun e => hd (this.mp e)

theorem State.DriveLaw.takePoll (h : s.DriveLaw) (node : Node) (r : FieldResult) : (s.takePoll c node r).DriveLaw := by
  unfold State.takePoll
  split
  · exact h
  · next hd =>
    refine State.DriveLaw.stepTest ?_
    unfold State.monitorPoll
    split
    · exact h.pollReading hd _ _
    · exact h.norespResult hd true
    all_goals exact h.norespResult hd false

/-- A completion keeps the laws (R76, R77). -/
theorem State.DriveLaw.complete (h : s.DriveLaw) {x : Transaction} (hx : s.fbc.state.record? = some x) (r : FieldResult) :
    (s.complete x r).DriveLaw := by
  have hg : s.enterGap.DriveLaw := h.enterGap
  have hn : s.enterGap.fbc.state.record? = none := rfl
  have key : (if x.stale then s.enterGap else s.enterGap.tellOwners x r).DriveLaw := by
    split
    · exact hg
    · next hs =>
      simp only [Bool.not_eq_true] at hs
      unfold State.tellOwners
      split
      · next c k rc hj =>
        have L := h.channel c
        have fl : s.inFlight c (.write c k rc) := ⟨x, hx, hs, hj, rfl⟩
        exact hg.takeWrite hn (L.writeFlight k rc fl).1 rc _
      · next c hj =>
        have L := h.channel c
        have fl : s.inFlight c (.isolate c) := ⟨x, hx, hs, hj, rfl⟩
        exact hg.takeIsolate hn (L.isolateFlight fl).2 _
      · exact hg.takePoll _ _
      · split
        · exact hg.modNode _ _
        all_goals exact hg
  unfold State.complete
  dsimp only
  have h2 := key.creditNode x.node r.success
  unfold State.tellSequencer
  split
  · exact (State.pollEnded_only _).driveLaw h2
  · exact (State.pollEnded_only _).driveLaw h2
  all_goals exact h2

/-! ### Grants -/

theorem State.DriveLaw.setFbcState (h : s.DriveLaw) {x : FieldBus} (hf : ∀ d job, flying x.state.record? d job → s.inFlight d job) :
    (s.setFbc x).DriveLaw := h.fewerFlights rfl rfl rfl rfl hf

theorem State.startTransaction_record (s : State) (x : Transaction) : (s.startTransaction x).fbc.state.record? = some x := by
  unfold State.startTransaction
  simp only [State.fbc_setFbc]
  split <;> rfl

/-- The start of a poll keeps the laws. -/
theorem State.DriveLaw.startPoll (h : s.DriveLaw) {x : Transaction}
    (hx : (∃ c, x.job = .poll c ∧ (x.stale = false → (s.ch c).drive ≠ .off)) ∨ x.job = .zero) : (s.startTransaction x).DriveLaw where
  channel d := by
    have L := h.channel d
    unfold State.ChannelLaw at L ⊢
    rw [State.startTransaction_record]
    have hfl : ∀ job, flying (some x) d job → (∃ e, job = .poll e) ∧ (s.ch d).drive ≠ .off := by
      rintro job ⟨t, h1, h2, h3, h4⟩
      cases h1
      rcases hx with ⟨e, he, hd⟩ | he
      · rw [he] at h3; subst h3
        cases h4
        exact ⟨⟨_, rfl⟩, hd h2⟩
      · rw [he] at h3; subst h3; cases h4
    exact { L with
      flight := fun job k => (hfl job k).2
      writeFlight := fun code r k => by obtain ⟨⟨e, he⟩, -⟩ := hfl _ k; cases he
      isolateFlight := fun k => by obtain ⟨⟨e, he⟩, -⟩ := hfl _ k; cases he }
  store := h.store
  queue := h.queue

theorem State.DriveLaw.grantPoll (h : s.DriveLaw) : s.grantPoll.DriveLaw := by
  have hg : (s.modPsq fun q => { q with pollSlot := none, slotPoll := .inFlight }).DriveLaw := h.congr rfl rfl rfl rfl rfl
  unfold State.grantPoll
  dsimp only
  split
  · next d stale _ =>
    refine hg.startPoll (Or.inl ⟨d, rfl, fun e => ?_⟩)
    simp only [State.channelTransaction, Bool.or_eq_false_iff, beq_eq_false_iff_ne] at e
    exact e.2
  · exact hg.startPoll (Or.inr rfl)
  · exact h

theorem State.DriveLaw.grantQueue (h : s.DriveLaw) : s.grantQueue.DriveLaw := by
  unfold State.grantQueue
  split
  · next d rest hq =>
    have hk : (s.oq.isolates ++ s.oq.writes.map (·.channel)).Nodup := h.queue
    rw [hq] at hk
    have hd : (s.ch d).drive = .isolating := (h.channel d).isolateQueued (by simp [OutputQueue.hasIsolate, hq])
    have hnot : d ∉ rest := by
      simp only [List.cons_append, List.nodup_cons, List.mem_append, not_or] at hk
      exact hk.1.1
    refine ⟨fun e => ?_, h.store, ?_⟩
    · have L := h.channel e
      unfold State.ChannelLaw at L ⊢
      rw [State.startTransaction_record]
      have hsub : OutputQueue.hasIsolate { s.oq with isolates := rest } e = true → s.oq.hasIsolate e = true := by
        simp only [OutputQueue.hasIsolate, hq, List.contains_cons, Bool.or_eq_true]
        exact Or.inr
      have hfl : ∀ job, flying (some (s.channelTransaction (.isolate d) d false)) e job → job = .isolate d ∧ e = d := by
        rintro job ⟨t, h1, h2, h3, h4⟩
        cases h1
        subst h3
        cases h4
        exact ⟨rfl, rfl⟩
      exact { L with
        isolateQueued := fun k => L.isolateQueued (hsub k)
        flight := fun job k => by obtain ⟨-, rfl⟩ := hfl job k; exact fun q => by rw [show (s.ch e).drive = .off from q] at hd; cases hd
        writeFlight := fun code r k => by obtain ⟨q, -⟩ := hfl _ k; cases q
        isolateFlight := fun k => by
          obtain ⟨-, rfl⟩ := hfl _ k
          refine ⟨hd, ?_⟩
          show OutputQueue.hasIsolate { s.oq with isolates := rest } e = false
          simpa [OutputQueue.hasIsolate] using hnot }
    · have : (rest ++ s.oq.writes.map (·.channel)).Nodup := (List.nodup_cons.mp hk).2
      exact this
  · next w rest hq hw =>
    have hk : (s.oq.isolates ++ s.oq.writes.map (·.channel)).Nodup := h.queue
    have Lw := h.channel w.channel
    have hd := Lw.writeQueued ((s.oq.hasWrite_iff _).mpr ⟨w, by rw [hw]; exact List.mem_cons_self, rfl⟩)
    have hr := Lw.writeCode w (by rw [hw]; exact List.mem_cons_self) rfl
    refine ⟨fun e => ?_, h.store, ?_⟩
    · have L := (h.channel e).mono (q' := { s.oq with writes := rest }) (r' := s.fbc.state.record?) (fun k => k)
        (fun v hv _ => by rw [hw]; exact List.mem_cons_of_mem _ hv) (fun _ k => k)
      unfold State.ChannelLaw
      rw [State.startTransaction_record]
      have hfl : ∀ job, flying (some (s.channelTransaction (.write w.channel w.code w.reconnect) w.channel false)) e job →
          job = .write w.channel w.code w.reconnect ∧ e = w.channel := by
        rintro job ⟨t, h1, h2, h3, h4⟩
        cases h1
        subst h3
        cases h4
        exact ⟨rfl, rfl⟩
      exact { L with
        flight := fun job k => by
          obtain ⟨-, rfl⟩ := hfl job k
          intro q
          rcases hd with z | z | z <;> rw [show (s.ch w.channel).drive = .off from q] at z <;> cases z
        writeFlight := fun code r k => by
          obtain ⟨q, rfl⟩ := hfl _ k
          cases q
          refine ⟨hr, ?_⟩
          intro q
          rcases hd with z | z | z <;> rw [show (s.ch w.channel).drive = .steady from q] at z <;> cases z
        isolateFlight := fun k => by obtain ⟨q, -⟩ := hfl _ k; cases q }
    · rw [hw] at hk
      have : (s.oq.isolates ++ rest.map (·.channel)).Nodup :=
        hk.sublist (List.Sublist.append_left (List.sublist_cons_self _ _) _)
      exact this
  · exact h

/-- A grant keeps the laws (R51, R69, R80). -/
theorem State.DriveLaw.arbitrate (h : s.DriveLaw) : s.arbitrate.DriveLaw := by
  have hp : ∀ n, (s.setPassOver n).DriveLaw := fun n => h.congr rfl rfl rfl rfl rfl
  unfold State.arbitrate
  split
  · exact h
  · exact h.grantQueue
  · exact (hp 0).grantPoll
  · split
    · exact (hp 0).grantPoll
    · exact (hp _).grantQueue

/-! ### Readings -/

theorem State.DriveLaw.setFrx (h : s.DriveLaw) (x : FrxState) : (s.setFrx x).DriveLaw := h.congr rfl rfl rfl rfl rfl

/-- A valid reading keeps the laws, whether it answers or is stray (R73, R74). -/
theorem State.DriveLaw.takeReading (h : s.DriveLaw) (r : Reading) : (s.takeReading r).DriveLaw := by
  unfold State.takeReading
  split
  · next t hc =>
    split
    · exact h.complete (by rw [hc]; rfl) _
    · exact h.congr rfl rfl rfl rfl rfl
  all_goals exact h.congr rfl rfl rfl rfl rfl

end Sys2Proof.Machine
end

