-- ==== Sys2Proof/Laws/Whole.lean ====
section
/-! SUPPORT. What the operations over several channels and over the tables do to the law of every channel: flush, slew bypass, presets,
start-up, the resets of a power-on and of a restart. -/

namespace Sys2Proof.Machine

variable {s : State} {c : ChannelNo}

/-! ### FLUSH_OUTPUT and SLEW_BYPASS -/

/-- A channel acted on by a flush: its context, its queued entry, its transactions and the reports are all that differ. -/
theorem State.flushedChannel_others (s : State) (c d : ChannelNo) (hd : d ≠ c) :
    (s.flushedChannel c).ch d = s.ch d ∧ (s.flushedChannel c).oq.hasEntry d = s.oq.hasEntry d := by
  have key : ∀ t : State, State.OnlyChannel c s t → t.ch d = s.ch d ∧ t.oq.hasEntry d = s.oq.hasEntry d := by
    intro t k
    refine ⟨k.others d hd, ?_⟩
    rw [Bool.eq_iff_iff, OutputQueue.hasEntry, OutputQueue.hasEntry]
    have h1 : t.oq.hasIsolate d = true ↔ s.oq.hasIsolate d = true := by
      rw [OutputQueue.hasIsolate_iff, OutputQueue.hasIsolate_iff]
      have e1 : d ∈ t.oq.isolates ↔ d ∈ t.oq.isolates.filter fun x => x != c := by simp [hd]
      have e2 : d ∈ s.oq.isolates ↔ d ∈ s.oq.isolates.filter fun x => x != c := by simp [hd]
      rw [e1, e2, k.isolates]
    have h2 : t.oq.hasWrite d = true ↔ s.oq.hasWrite d = true := by
      rw [OutputQueue.hasWrite_iff, OutputQueue.hasWrite_iff]
      constructor
      · rintro ⟨w, hw, he⟩; exact ⟨w, mem_writes_of_others k.writes hw (he ▸ hd), he⟩
      · rintro ⟨w, hw, he⟩; exact ⟨w, mem_writes_of_others k.writes.symm hw (he ▸ hd), he⟩
    simp only [Bool.or_eq_true, h1, h2]
  unfold State.flushedChannel
  split
  · exact key _ ((State.Drives.rollBack s c).trans (.stepTest _ c)).frame
  · exact key _ ((State.Drives.rollBack s c).trans (.startStepTimer _ c)).frame
  · have e : State.OnlyReports ((s.modCh c fun _ => .reset).markStale c) (s.reachOff c) := by
      unfold State.reachOff
      dsimp only
      split
      · exact State.offerAlarm_onlyReports _ _ _ _ _
      · exact .refl _
    constructor
    · rw [e.ch]
      show (s.modCh c fun _ => .reset).ch d = _
      exact s.ch_modCh_of_ne hd _
    · rw [e.channels.2]
      simp [State.markStale]
  all_goals exact ⟨rfl, rfl⟩

theorem State.DriveLaw.foldl_flushed {l : List ChannelNo} (hl : l.Nodup) :
    ∀ {s : State}, s.DriveLaw → (∀ c ∈ l, s.oq.hasEntry c = false) → (l.foldl State.flushedChannel s).DriveLaw := by
  induction l with
  | nil => exact fun h _ => h
  | cons c l ih =>
    intro s h hq
    simp only [List.nodup_cons] at hl
    refine ih hl.2 (h.flushedChannel (hq c List.mem_cons_self)) fun d hd => ?_
    rw [(s.flushedChannel_others c d (fun e => hl.1 (e ▸ hd))).2]
    exact hq d (List.mem_cons_of_mem _ hd)

/-- A flush keeps the laws (R57, R58). -/
theorem State.DriveLaw.flush (h : s.DriveLaw) : s.flush.DriveLaw := by
  have h1 : (s.setOq { s.oq with writes := [] }).DriveLaw := by
    refine ⟨fun d => ?_, h.store, ?_⟩
    · exact (h.channel d).mono (fun k => k) (fun w hw _ => by cases hw) fun _ k => k
    · have : (s.oq.isolates ++ s.oq.writes.map (·.channel)).Nodup := h.queue
      show (s.oq.isolates ++ []).Nodup
      rw [List.append_nil]
      exact this.sublist (List.sublist_append_left _ _)
  unfold State.flush State.channelsWithWrite
  refine State.DriveLaw.foldl_flushed ((List.nodup_finRange 24).filter _) h1 fun c hc => ?_
  rw [OutputQueue.hasEntry_eq_false]
  refine ⟨?_, rfl⟩
  have hw : s.oq.hasWrite c = true := by simpa using (List.mem_filter.mp hc).2
  have hd := (h.channel c).writeQueued hw
  exact h.noIsolate (by rcases hd with e | e | e <;> rw [e] <;> simp)

theorem State.DriveLaw.setBypass (h : s.DriveLaw) (on : Bool) : (s.setBypass on).DriveLaw := by
  unfold State.setBypass
  split
  · exact h
  · dsimp only
    split
    · exact foldl_kept (P := State.DriveLaw) (fun _ _ h => h.bypassChannel) _ (h.congr rfl rfl rfl rfl rfl)
    · exact h.congr rfl rfl rfl rfl rfl

/-! ### Presets -/

theorem State.DriveLaw.modAll (h : s.DriveLaw) {f : ChannelCtx → ChannelCtx}
    (hf : ∀ c, ContextLaw (s.entry c) (f (s.ch c)) s.oq s.fbc.state.record? c) : (s.modAll f).DriveLaw where
  channel d := by unfold State.ChannelLaw; simpa using hf d
  store := by have := h.store; unfold State.StoreLaw at this ⊢; simpa using this
  queue := by have := h.queue; unfold State.OutputQueueLaw at this ⊢; simpa using this

theorem State.DriveLaw.applyOrSkip (h : s.DriveLaw) : s.applyOrSkip.DriveLaw := by
  unfold State.applyOrSkip
  split
  · exact h
  · dsimp only
    split
    · next hc =>
      simp only [Bool.and_eq_true] at hc
      exact h.applySetpoint (DriveState.takesSetpoints_ne_off hc.1.2) _ _
    · exact h

theorem State.DriveLaw.reachEntries (fuel : Nat) : ∀ {s : State}, s.DriveLaw → (State.reachEntries fuel s).DriveLaw := by
  induction fuel with
  | zero => exact fun h => h
  | succ n ih =>
    intro s h
    have h1 : (s.applyOrSkip.setPru s.applyOrSkip.pru.advance).DriveLaw := h.applyOrSkip.congr rfl rfl rfl rfl rfl
    unfold State.reachEntries
    dsimp only
    split
    · refine State.DriveLaw.onlyReports ?_ (State.offerPart_onlyReports _ _)
      exact h1.congr rfl rfl rfl rfl rfl
    · split
      · exact ih h1
      · exact h1.congr rfl rfl rfl rfl rfl

theorem State.DriveLaw.setPru (h : s.DriveLaw) (x : PresetUnit) : (s.setPru x).DriveLaw := h.congr rfl rfl rfl rfl rfl

theorem State.DriveLaw.setMgx (h : s.DriveLaw) (x : Executor) : (s.setMgx x).DriveLaw := h.congr rfl rfl rfl rfl rfl

theorem State.DriveLaw.startApply (h : s.DriveLaw) (start count : Byte) : (s.startApply start count).DriveLaw := by
  unfold State.startApply
  split
  · refine State.DriveLaw.reachEntries 64 ?_
    have h1 : (s.modAll fun x => { x with presetTaken := false }).DriveLaw := h.modAll fun c => by
      have L := h.channel c
      exact { L with off := fun e => by rw [L.off e]; rfl }
    exact h1.setPru _
  · exact h

/-! ### A written channel entry -/

/-- A record that reads as a channel entry satisfies its value checks (R7). -/
theorem channelEntryOf?_ok {r : List Byte} {e : ChannelEntry} (h : channelEntryOf? r = some e) : e.ok = true := by
  unfold channelEntryOf? at h
  split at h
  · iterate 12 obtain ⟨_, -, h⟩ := Option.bind_eq_some_iff.mp h
    have key : ∀ x : ChannelEntry, (if x.ok then some x else none) = some e → e.ok = true := by
      intro x hx
      split at hx
      · next hok => cases hx; exact hok
      · cases hx
    exact key _ h
  · cases h

/-- A channel in OFF takes a new entry that satisfies its value checks (R6). -/
theorem State.DriveLaw.setEntry (h : s.DriveLaw) (hd : (s.ch c).drive = .off) {e : ChannelEntry} (he : e.ok = true) :
    (s.setEntry c e).DriveLaw where
  channel d := by
    unfold State.ChannelLaw
    rw [State.entry_setEntry]
    simp only [State.ch_setEntry, State.oq_setEntry, State.fbc_setEntry]
    split
    · next hdc =>
      subst hdc
      have L := h.channel d
      have hw := h.noWrite (c := d) (by rw [hd]; simp)
      have hx := L.off hd
      unfold State.ChannelLaw at L
      rw [hx] at L ⊢
      exact { L with
        entryOk := he
        action := by simp [ChannelCtx.reset, effectiveAction, ClassSet.empty, Action.when, Action.max, Action.rank]
        valueFaults := Nat.zero_le _
        norespFaults := Nat.zero_le _
        target := inRange?_none _
        goal := inRange?_none _
        sent := inRange?_none _
        applied := inRange?_none _
        writeCode := fun w h1 h2 => by
          have := (s.oq.hasWrite_iff d).mpr ⟨w, h1, h2⟩
          rw [hw] at this; cases this
        writeFlight := fun code r k => absurd rfl (L.flight _ k) }
    · exact h.channel d
  store := by have := h.store; unfold State.StoreLaw at this ⊢; simpa using this
  queue := by have := h.queue; unfold State.OutputQueueLaw at this ⊢; simpa using this

/-! ### Start-up and resets -/

theorem State.enableRefusal_none {s : State} {c : ChannelNo} (h : s.enableRefusal c = none) :
    (s.ch c).drive = .off ∧ s.mappingConflict c = false ∧ (s.node (s.entry c).node).expected = true := by
  unfold State.enableRefusal at h
  split at h
  · cases h
  · next h1 =>
    split at h
    · cases h
    · next h2 =>
      split at h
      · cases h
      · next h3 => exact ⟨by simpa using h1, by simpa using h2, by simpa using h3⟩

theorem State.DriveLaw.startUpEnable (h : s.DriveLaw) : (s.startUpEnable c).DriveLaw := by
  unfold State.startUpEnable
  split
  · next hc =>
    simp only [Bool.and_eq_true, Option.isNone_iff_eq_none] at hc
    exact h.enable (State.enableRefusal_none hc.2).1
  · exact h

theorem State.DriveLaw.autostart (h : s.DriveLaw) : s.autostart.DriveLaw := by
  unfold State.autostart
  split
  · exact s.startCycle_only.driveLaw h
  · exact h

theorem State.DriveLaw.startUpStep (h : s.DriveLaw) : s.startUpStep.DriveLaw := by
  unfold State.startUpStep
  split
  · exact h
  · have h1 := h.setMgx { s.mgx with startUpStep := if s.mgx.startUpStep = 25 then 25 else s.mgx.startUpStep + 1 }
    dsimp only
    generalize s.setMgx { s.mgx with startUpStep := if s.mgx.startUpStep = 25 then 25 else s.mgx.startUpStep + 1 } = u at h1
    split
    · exact h1.startUpEnable
    · by_cases hk : s.mgx.startUpStep = 24
      · rw [if_pos hk]; exact h1.autostart
      · rw [if_neg hk]; exact h1.congr rfl rfl rfl rfl rfl

theorem State.DriveLaw.startUpRun (n : Nat) : ∀ {s : State}, s.DriveLaw → (State.startUpRun n s).DriveLaw := by
  induction n with
  | zero => exact fun h => h
  | succ n ih => exact fun h => ih h.startUpStep

/-- The law of a channel whose context is the reset context. -/
theorem ContextLaw.reset {e : ChannelEntry} (h : e.ok = true) (c : ChannelNo) : ContextLaw e .reset ⟨[], []⟩ none c where
  entryOk := h
  off _ := rfl
  latched := rfl
  action := by simp [ChannelCtx.reset, effectiveAction, ClassSet.empty, Action.when, Action.max, Action.rank]
  valueFaults := Nat.zero_le _
  norespFaults := Nat.zero_le _
  present e := absurd rfl e
  target := inRange?_none _
  goal := inRange?_none _
  sent := inRange?_none _
  applied := inRange?_none _
  isolateQueued e := by cases e
  writeQueued e := by cases e
  writeCode w hw := by cases hw
  flight job k := by obtain ⟨t, q, -⟩ := k; cases q
  writeFlight code r k := by obtain ⟨t, q, -⟩ := k; cases q
  isolateFlight k := by obtain ⟨t, q, -⟩ := k; cases q

theorem Tables.entriesOk_default : Tables.default.entriesOk := by
  intro c
  have : Tables.default.channels[c.val] = .default := by simp [Tables.default]
  rw [this]; decide

theorem Image.load?_contents {i : Image} {t : Tables} (h : i.load? = some t) : i.contents = some t := by
  unfold Image.load? at h
  split at h
  · next u k h1 h2 =>
    split at h
    · cases h; exact h1
    · cases h
  · cases h

/-- The load gives entries that satisfy their value checks, in reset contexts (R183). -/
theorem State.DriveLaw.resetAndLoad (h : s.StoreLaw) : s.resetAndLoad.DriveLaw := by
  have key : ∀ (t : Tables) (v : Bool), t.entriesOk → (s.resetAround t v).DriveLaw := by
    intro t v ht
    refine ⟨fun c => ?_, ⟨h.1, ?_⟩, List.nodup_nil⟩
    · have e1 : (s.resetAround t v).ch c = .reset := by simp [State.ch, State.resetAround]
      have e2 : (s.resetAround t v).entry c = t.channels[c.val] := rfl
      unfold State.ChannelLaw
      rw [e1, e2]
      exact ContextLaw.reset (ht c) c
    · intro p u hu
      cases v <;> cases hu
  unfold State.resetAndLoad
  split
  · next t ht => exact key t true (h.1 t (Image.load?_contents ht))
  · exact key _ false Tables.entriesOk_default

theorem State.DriveLaw.powerOn (h : s.StoreLaw) : s.powerOn.DriveLaw :=
  (State.DriveLaw.resetAndLoad h).congr rfl rfl rfl rfl rfl

theorem State.resetAndLoad_record (s : State) : s.resetAndLoad.fbc.state = .idle := by
  unfold State.resetAndLoad; split <;> rfl

theorem State.DriveLaw.performRestart (h : s.StoreLaw) : s.performRestart.DriveLaw := by
  refine (State.DriveLaw.resetAndLoad h).congr rfl rfl rfl ?_ rfl
  rw [s.resetAndLoad_record]; rfl

/-! ### Events -/

theorem State.DriveLaw.beginTransmission (h : s.DriveLaw) : s.beginTransmission.DriveLaw :=
  h.onlyReports s.beginTransmission_onlyReports

theorem State.DriveLaw.respondThen (h : s.DriveLaw) (tag cmd : Byte) (k : Completion) (data : List Byte) (e : AtEnd) :
    (s.respondThen tag cmd k data e).DriveLaw := h.onlyReports (State.onlyReports_setRq _ _)

theorem State.DriveLaw.respond (h : s.DriveLaw) (tag cmd : Byte) (k : Completion) (data : List Byte) :
    (s.respond tag cmd k data).DriveLaw := h.respondThen tag cmd k data _

theorem State.DriveLaw.done {t : State} (e : s.done = .next t) (h : s.DriveLaw) : t.DriveLaw := by
  cases e; exact h.beginTransmission

/-- An event whose effect keeps the laws keeps them. -/
theorem State.DriveLaw.event {t : State} (h : s.DriveLaw) {due : Bool} {f : State → State} (hf : due = true → (f s).DriveLaw)
    (e : s.event due f = .next t) : t.DriveLaw := by
  rcases State.event_cases e with ⟨hd, rfl⟩ | ⟨-, rfl⟩
  · exact (hf hd).beginTransmission
  · exact h

/-- A management command whose effect keeps the laws keeps them. -/
theorem State.DriveLaw.takeCommand {t : State} (h : s.DriveLaw) {i : Instr} {f : State → State}
    (hf : ∀ u : State, u.DriveLaw → (f u).DriveLaw) (e : s.takeCommand i f = .next t) : t.DriveLaw := by
  rcases State.takeCommand_cases e with ⟨-, rfl⟩ | rfl
  · exact (hf _ (h.setMgx _)).beginTransmission
  · exact h

end Sys2Proof.Machine
end

