-- ==== Sys2Proof/Laws/Results.lean ====
section
/-! SUPPORT. What a completion does beside the laws (Machine/FieldBus.lean): how far the result of a transaction reaches
(`OnlyResult`), the record of its node, and the progress of the poll sequencer. -/

namespace Sys2Proof.Machine

variable {s : State} {c : ChannelNo}

/-! ### How far an arrival at OFF and a result reach -/

/-- Nothing but the channel's context, its queued entry, the stale mark of a waiting poll, the latched flags and the reports
differs. -/
structure State.OnlyResult (c : ChannelNo) (s t : State) : Prop where
  others : ∀ d, d ≠ c → t.ch d = s.ch d
  isolates : t.oq.isolates.filter (fun d => d != c) = s.oq.isolates.filter fun d => d != c
  writes : t.oq.writes.filter (fun w => !w.isOf c) = s.oq.writes.filter fun w => !w.isOf c
  link : t.clp.rx = s.clp.rx ∧ t.clp.linkErrors = s.clp.linkErrors ∧ t.clp.rate = s.clp.rate
  tables : t.ct = s.ct ∧ t.nt = s.nt
  field : t.fbc = s.fbc
  sequencer : t.psq = { s.psq with pollSlot := t.psq.pollSlot } ∧ t.psq.pollSlot.isSome = s.psq.pollSlot.isSome
  units : t.act = s.act ∧ t.pru = s.pru ∧ t.pst = s.pst ∧ t.pending = s.pending
  pairs : t.sph = s.sph
  executor : t.mgx = { s.mgx with latches := t.mgx.latches }

theorem State.OnlyResult.refl (c : ChannelNo) (s : State) : State.OnlyResult c s s := by constructor <;> simp

theorem State.OnlyResult.trans {s t u : State} (h : State.OnlyResult c s t) (k : State.OnlyResult c t u) :
    State.OnlyResult c s u where
  others d hd := (k.others d hd).trans (h.others d hd)
  isolates := k.isolates.trans h.isolates
  writes := k.writes.trans h.writes
  link := ⟨k.link.1.trans h.link.1, k.link.2.1.trans h.link.2.1, k.link.2.2.trans h.link.2.2⟩
  tables := ⟨k.tables.1.trans h.tables.1, k.tables.2.trans h.tables.2⟩
  field := k.field.trans h.field
  sequencer := ⟨by rw [k.sequencer.1, h.sequencer.1], k.sequencer.2.trans h.sequencer.2⟩
  units := ⟨k.units.1.trans h.units.1, k.units.2.1.trans h.units.2.1, k.units.2.2.1.trans h.units.2.2.1,
    k.units.2.2.2.trans h.units.2.2.2⟩
  pairs := k.pairs.trans h.pairs
  executor := by rw [k.executor, h.executor]

theorem State.OnlyChannel.onlyResult {s t : State} (h : State.OnlyChannel c s t) : State.OnlyResult c s t where
  others := h.others
  isolates := h.isolates
  writes := h.writes
  link := h.link
  tables := h.tables
  field := h.field.1
  sequencer := by rw [h.field.2]; exact ⟨rfl, rfl⟩
  units := ⟨h.units.1, h.units.2.1, h.units.2.2.2, h.waiting⟩
  pairs := h.pairs
  executor := by rw [h.units.2.2.1]

theorem State.OnlyReports.onlyResult {s t : State} (h : s.OnlyReports t) (c : ChannelNo) : State.OnlyResult c s t :=
  (h.onlyChannel c).onlyResult

theorem State.onlyResult_latch (c : ChannelNo) (s : State) (f : Latches → Latches) : State.OnlyResult c s (s.latch f) := by
  constructor <;> simp [State.latch]

theorem FbcState.mapRecord_of_none {x : FbcState} (h : x.record? = none) (f : Transaction → Transaction) : x.mapRecord f = x := by
  cases x <;> first | rfl | cases h

/-- Arrival at OFF with no transaction in flight (R41, R92). -/
theorem State.reachOff_onlyResult (hr : s.fbc.state.record? = none) (c : ChannelNo) : State.OnlyResult c s (s.reachOff c) := by
  have key : State.OnlyResult c s ((s.modCh c fun _ => .reset).markStale c) := by
    refine (s.onlyChannel_modCh c fun _ => .reset).onlyResult.trans ?_
    constructor <;> simp [State.markStale]
    rw [FbcState.mapRecord_of_none hr]
  unfold State.reachOff
  dsimp only
  split
  · exact key.trans ((State.offerAlarm_onlyReports _ _ _ _ _).onlyResult c)
  · exact key

theorem State.norespResult_onlyChannel (s : State) (c : ChannelNo) (success : Bool) :
    State.OnlyChannel c s (s.norespResult c success) := by
  unfold State.norespResult
  split
  · exact (s.onlyChannel_modCh c _).trans (State.setActive_onlyChannel _ _ _)
  · exact (s.onlyChannel_modCh c _).trans (State.setActive_onlyChannel _ _ _)

theorem State.offerReadback_onlyResult (s : State) (c : ChannelNo) (value : Code) :
    State.OnlyResult c s (s.offerReadback c value) := by
  unfold State.offerReadback
  split
  · exact .trans ((s.onlyReports_setRq _).onlyResult c) (State.onlyChannel_modCh _ c _).onlyResult
  · exact s.onlyResult_latch c _

theorem State.pollReading_onlyResult (s : State) (c : ChannelNo) (node : Node) (raw : Code) :
    State.OnlyResult c s (s.pollReading c node raw) := by
  unfold State.pollReading
  dsimp only
  have h2 := (s.onlyChannel_modCh c (ChannelCtx.afterReading (s.entry c) (readingValue (s.ch c) (s.node node) raw))).trans
    (State.setActive_onlyChannel _ c (activeAfterReading (s.entry c) (s.ch c) (readingValue (s.ch c) (s.node node) raw)))
  split
  · exact h2.onlyResult.trans (State.offerReadback_onlyResult _ _ _)
  · exact h2.onlyResult

theorem State.setApplied_onlyChannel (s : State) (c : ChannelNo) (k : Code) : State.OnlyChannel c s (s.setApplied c k) :=
  s.onlyChannel_modCh c _

/-- The result of a WRITE reaches its channel only (R31, R32, R40). -/
theorem State.takeWrite_onlyResult (hr : s.fbc.state.record? = none) (c : ChannelNo) (k : Code) (r success : Bool) :
    State.OnlyResult c s (s.takeWrite c k r success) := by
  unfold State.takeWrite
  split
  · exact .refl c s
  · next hd =>
    split
    · split
      · refine .trans (s.setApplied_onlyChannel c k).onlyResult (State.reachOff_onlyResult ?_ c)
        simpa [State.setApplied] using hr
      · refine .trans (State.Drives.rollBack s c).frame.onlyResult (State.reachOff_onlyResult ?_ c)
        simpa [State.rollBack] using hr
    · split
      · exact ((State.writeOk_onlyChannel hd k r).trans (State.norespResult_onlyChannel _ c _)).onlyResult
      · exact ((State.Drives.writeFailed s c r).frame.trans (State.norespResult_onlyChannel _ c _)).onlyResult

/-- The result of an ISOLATE reaches its channel only (R33). -/
theorem State.takeIsolate_onlyResult (s : State) (c : ChannelNo) (success : Bool) :
    State.OnlyResult c s (s.takeIsolate c success) := by
  unfold State.takeIsolate
  split
  · exact .refl c s
  · exact ((State.Drives.isolateResult s c success).frame.trans (State.norespResult_onlyChannel _ c _)).onlyResult

/-- The result of a POLL reaches its channel only (R107). -/
theorem State.takePoll_onlyResult (s : State) (c : ChannelNo) (node : Node) (r : FieldResult) :
    State.OnlyResult c s (s.takePoll c node r) := by
  unfold State.takePoll
  split
  · exact .refl c s
  · refine .trans ?_ (State.Drives.stepTest _ c).frame.onlyResult
    unfold State.monitorPoll
    split
    · exact s.pollReading_onlyResult c node _
    · exact (s.norespResult_onlyChannel c true).onlyResult
    all_goals exact (s.norespResult_onlyChannel c false).onlyResult

/-- The result of a transaction of a channel reaches that channel only; the result of a ZERO changes its node's record only. -/
theorem State.tellOwners_only (hr : s.fbc.state.record? = none) (x : Transaction) (r : FieldResult) :
    (∃ c, x.job.channel? = some c ∧ State.OnlyResult c s (s.tellOwners x r)) ∨
      (x.job = .zero ∧ s.tellOwners x r = match r with
        | .value raw => s.modNode x.node fun n => n.zeroed raw
        | .ok | .noNode | .stuck | .busHeld | .noReply => s) := by
  unfold State.tellOwners
  cases hj : x.job with
  | write c k rc => exact Or.inl ⟨c, rfl, State.takeWrite_onlyResult hr c k rc _⟩
  | isolate c => exact Or.inl ⟨c, rfl, s.takeIsolate_onlyResult c _⟩
  | poll c => exact Or.inl ⟨c, rfl, s.takePoll_onlyResult c _ _⟩
  | zero => exact Or.inr ⟨rfl, by cases r <;> rfl⟩

/-! ### The end of a transaction -/

/-- The state when the node table takes the result. -/
def State.told (s : State) (x : Transaction) (r : FieldResult) : State :=
  if x.stale then s.enterGap else s.enterGap.tellOwners x r

theorem State.complete_eq (s : State) (x : Transaction) (r : FieldResult) :
    s.complete x r = ((s.told x r).creditNode x.node r.success).tellSequencer x.job := rfl

theorem State.tellSequencer_only (s : State) (job : FieldJob) : s.OnlySequencer (s.tellSequencer job) := by
  unfold State.tellSequencer
  split
  · exact s.pollEnded_only
  · exact s.pollEnded_only
  all_goals exact .refl s

/-- The owners' share of a result leaves the field bus in GAP and the executor but for its latches. -/
theorem State.told_fbc (s : State) (x : Transaction) (r : FieldResult) :
    (s.told x r).fbc = { s.fbc with state := .gap s.mgx.config.fieldGap.val } ∧
      (s.told x r).mgx = { s.mgx with latches := (s.told x r).mgx.latches } := by
  unfold State.told
  split
  · exact ⟨rfl, rfl⟩
  · rcases State.tellOwners_only (s := s.enterGap) rfl x r with ⟨c, -, h⟩ | ⟨-, h⟩
    · exact ⟨h.field, h.executor⟩
    · rw [h]
      cases r <;> simp [State.enterGap]

/-- A transaction that is no ZERO leaves the node table to the credit. -/
theorem State.told_nt (s : State) {x : Transaction} (hj : x.job ≠ .zero ∨ x.stale = true) (r : FieldResult) :
    (s.told x r).nt = s.nt := by
  unfold State.told
  split
  · rfl
  · next hs =>
    rcases State.tellOwners_only (s := s.enterGap) rfl x r with ⟨c, -, h⟩ | ⟨h, -⟩
    · exact h.tables.2
    · rcases hj with q | q
      · exact absurd h q
      · exact absurd q hs

/-- A ZERO that is not stale sets the zero fields of its node when its result carries a value (R104). -/
theorem State.told_zero (s : State) {x : Transaction} (hj : x.job = .zero) (hs : x.stale = false) (r : FieldResult) :
    s.told x r = match r with
      | .value raw => s.enterGap.modNode x.node fun n => n.zeroed raw
      | .ok | .noNode | .stuck | .busHeld | .noReply => s.enterGap := by
  unfold State.told
  rw [if_neg (by simp [hs])]
  rcases State.tellOwners_only (s := s.enterGap) rfl x r with ⟨c, h, -⟩ | ⟨-, h⟩
  · rw [hj] at h; cases h
  · exact h

/-- FBC is in GAP after a completion (R68). -/
theorem State.complete_fbc (s : State) (x : Transaction) (r : FieldResult) :
    (s.complete x r).fbc.state = .gap s.mgx.config.fieldGap.val := by
  rw [State.complete_eq, (State.tellSequencer_only _ _).field.1, (State.creditNode_only _ _ _).field.1]
  simp [(s.told_fbc x r).1]

/-- The node records after a completion (R102 to R104): the credit, over the zero fields that an OK ZERO sets. -/
theorem State.complete_node (s : State) (x : Transaction) (r : FieldResult) (m : Node) :
    (s.complete x r).node m =
      if m = x.node then (if r.success then ((s.told x r).node m).success else ((s.told x r).node m).failure)
      else (s.told x r).node m := by
  have h : (s.complete x r).node m = ((s.told x r).creditNode x.node r.success).node m := by
    rw [State.complete_eq]
    simp [State.node, (State.tellSequencer_only ((s.told x r).creditNode x.node r.success) x.job).tables.2]
  rw [h, State.creditNode_node]
  split
  · next he => rw [he]
  · rfl

/-- The context of a channel after a completion is the one its owners left. -/
theorem State.complete_ch (s : State) (x : Transaction) (r : FieldResult) (d : ChannelNo) :
    (s.complete x r).ch d = (s.told x r).ch d := by
  rw [State.complete_eq]
  simp [State.ch, (State.tellSequencer_only ((s.told x r).creditNode x.node r.success) x.job).channels.1,
    (State.creditNode_only (s.told x r) x.node r.success).channels.1]

/-- The output queue after a completion is the one its owners left. -/
theorem State.complete_oq (s : State) (x : Transaction) (r : FieldResult) : (s.complete x r).oq = (s.told x r).oq := by
  rw [State.complete_eq, (State.tellSequencer_only _ _).channels.2, (State.creditNode_only _ _ _).channels.2]
  simp

end Sys2Proof.Machine
end

