-- ==== Sys2Proof/Tests/Slice0.lean ====
section
/-! SUPPORT. Tests: ill-formed commands that the well-formedness refuses, a small test or two for each command, and for every
statement with hypotheses a witness that meets them. -/

namespace Sys2Proof.Machine.Tests

/-! ### Small states -/

/-- RUN, the receiver READY, everything else as reset leaves it. -/
def on : State := { State.reset with
  clp := { State.reset.clp with rx := .ready }, mgx := { State.reset.mgx with mode := .run } }

/-- A report for an occupied transmitter. -/
def aReport : Report := .part 0 0 0

/-- The transmitter is busy. -/
def sending (s : State) : State := { s with clp := { s.clp with tx := some aReport } }

/-- The command's frame waits for MGX. -/
def asked (i : Instr) (s : State) : State := { s with mgx := { s.mgx with queue := [(payloadOf i).getD []] } }

/-- A channel with this context. -/
def chan (c : ChannelNo) (x : ChannelCtx) (s : State) : State := { s with ctx := s.ctx.set c.val x }

/-- A channel with this entry. -/
def entryIs (c : ChannelNo) (e : ChannelEntry) (s : State) : State := { s with ct := s.ct.set c.val e }

/-- FBC in this state. -/
def bus (f : FbcState) (s : State) : State := { s with fbc := { s.fbc with state := f } }

/-- The output queue with these entries. -/
def queued (isolates : List ChannelNo) (writes : List WriteEntry) (s : State) : State := { s with oq := ⟨isolates, writes⟩ }

/-- The node 1 is expected. -/
def expects (s : State) : State := { s with nt := s.nt.set 0 (.reset true) }

/-- A context in a drive state, at a code. -/
def driven (d : DriveState) (k : Code) : ChannelCtx := { ChannelCtx.reset with
  drive := d, target := some k, goal := some k, sent := some k, applied := some k }

/-- A transaction to node 1, point 0. -/
def trans (job : FieldJob) : Transaction := ⟨job, 0, some 0, false, 20, 10⟩

/-- The state after a command. -/
def after (i : Instr) (s : State) : State :=
  match exec i s with
  | .next t => t
  | .fault _ | .refused _ => s

/-- What a witness of `Takes` needs, as a Bool. -/
def ready (i : Instr) (s : State) : Bool := s.mgxTakes i && s.mgx.queue.tail.isEmpty && (s.clp.tx.isSome || s.rq.isEmpty)

theorem ready_takes {i : Instr} {s : State} (h : ready i s = true) : s.TransmitterLaw ∧ s.Takes i [] := by
  simp only [ready, Bool.and_eq_true, State.mgxTakes, State.mgxMayTake, decide_eq_true_eq, Bool.not_eq_true'] at h
  obtain ⟨⟨⟨⟨⟨h1, h2⟩, h3⟩, h4⟩, h5⟩, h6⟩ := h
  refine ⟨fun e => by simpa [e] using h6, h1, h2, h3, ?_⟩
  cases hq : s.mgx.queue with
  | nil => rw [hq] at h4; cases h4
  | cons p rest =>
    rw [hq] at h4 h5
    exact ⟨p, by simpa using h5, by simpa using h4⟩

/-! ### Well-formedness: an ill-formed term for each check -/

theorem test_wf_enterRun : (Instr.enterRun 0).wf = false ∧ (Instr.enterRun 27).wf = false := by decide
theorem test_wf_setpointFrame : (Instr.setpointFrame (List.replicate 9 ⟨0, 0, false⟩)).wf = false := by decide
theorem test_wf_mgmtFrame : (Instr.mgmtFrame [1]).wf = false ∧ (Instr.mgmtFrame (List.replicate 61 0)).wf = false := by decide
theorem test_wf_badFrame : (Instr.badFrame (cleanLinkBytes [0x5C, 2])).wf = false := by decide
theorem test_wf_malformedReading : (Instr.malformedReading [⟨0x3A, true, false⟩]).wf = false := by decide
theorem test_wf_writeEntry : (Instr.writeEntryChannel 0 0 [1]).wf = false ∧ (Instr.writeEntrySequence 0 0 [1]).wf = false ∧
    (Instr.writeEntryNode 0 0 [1]).wf = false ∧ (Instr.writeEntryPreset 0 0 [1]).wf = false ∧
    (Instr.writeEntryPart 0 0 [1]).wf = false := by decide
theorem test_wf_badCommand : (Instr.badCommand [1]).wf = false ∧ (Instr.badCommand [1, 1]).wf = false ∧
    (Instr.badCommand (List.replicate 61 0x77)).wf = false ∧ (Instr.badCommand [1, 0x77]).wf = true := by decide

theorem test_decodeTableWord : decodeTableWord 8 1 = none ∧ State.reset.withFetchWord 8 1 = State.reset := ⟨rfl, rfl⟩

theorem test_readStatus : (after (.readStatus 7) (asked (.readStatus 7) on)).clp.tx =
    some (.response 7 1 .ok [0x53, 0x24, 1, 1, 0, 0, 0, 0, 0, 0, 0, 255, 0] .nothing) := by decide

theorem test_enableChannel :
    (after (.enableChannel 7 3) (asked (.enableChannel 7 3) (expects on))).oq = ⟨[], [⟨3, 0, true⟩]⟩ ∧
    (after (.enableChannel 7 3) (asked (.enableChannel 7 3) (expects on))).ch 3 =
      { driven .moving 0 with applied := none, stepTimer := .running 10000 } := by decide

/-! ### The commands, one small state each -/

theorem test_powerOn : after .powerOn { on with rq := [aReport] } = State.reset := by decide
theorem test_powerOn_loads (t : Tables) (s : State) (h : s.pst.image = ⟨some t, some t.check⟩) :
    s.powerOn.clp.rate = t.config.linkRate := by
  have e : s.pst.image.load? = some t := by simp [Image.load?, h]
  unfold State.powerOn State.resetAndLoad
  rw [e]
  rfl
theorem test_enterRun : (after (.enterRun 26) State.reset).mgx.mode = .run := by decide
theorem test_enterRun_enables :
    (after (.enterRun 1) (expects (entryIs 0 { ChannelEntry.default with startEnabled := true } State.reset))).oq.writes =
      [⟨0, 0, true⟩] := by decide
theorem test_receiverReady : (after .receiverReady State.reset).clp.rx = .ready := by decide
theorem test_setpointFrame :
    (after (.setpointFrame [⟨3, 0x1000, false⟩, ⟨24, 0, false⟩]) (chan 3 (driven .steady 0) on)).oq.writes = [⟨3, 0x1000, false⟩] ∧
    (after (.setpointFrame [⟨3, 0x1000, false⟩, ⟨24, 0, false⟩]) (chan 3 (driven .steady 0) on)).mgx.latches.lastDiscarded = 24 := by
  decide
theorem test_setpointFrame_cut :
    let s := after (.setpointFrame [⟨24, 0, false⟩, ⟨3, 0x1000, true⟩]) (chan 3 (driven .steady 0) on)
    s.sph = [⟨3, 0x1000, true⟩] ∧ s.oq.writes = [] ∧ (after (.setpointFrame []) s).sph = [] ∧
    (after (.setpointFrame []) s).oq.writes = [⟨3, 0x1000, false⟩] := by decide
theorem test_mgmtFrame : (after (.mgmtFrame [1, 1]) on).mgx.queue = [[1, 1]] := by decide
theorem test_badFrame : (after (.badFrame [⟨0x77, true⟩]) on).clp.linkErrors = 8 ∧
    (after (.badFrame [⟨0x77, true⟩]) on).clp.tx = some (.part 1 0 0) := by decide
theorem test_linkGapError : (after .linkGapError on).clp.linkErrors = 16 := by decide
theorem test_readChannel : (after (.readChannel 1 3) (asked (.readChannel 1 3) (chan 3 (driven .steady 0x1234) on))).clp.tx =
    some (.response 1 2 .ok [3, 2, 0x0F, 0x12, 0x34, 0x12, 0x34, 0x12, 0x34, 0x12, 0x34, 0, 0, 0, 0, 0, 0, 0, 0, 0, 0, 0, 0]
      .nothing) := by decide
theorem test_readEntryChannel : (after (.readEntryChannel 1 3) (asked (.readEntryChannel 1 3) on)).clp.tx =
    some (.response 1 3 .ok [0, 3, 1, 0, 0, 0x80, 0, 0, 0, 0, 0, 0xFF, 0xFF, 0, 0, 0, 0, 10, 0, 0x0F, 0xFF, 0, 0, 0xFF, 0xFF, 0,
      2, 2, 0, 0, 0, 0, 0] .nothing) := by decide
theorem test_readEntrySequence : (after (.readEntrySequence 1 0) (asked (.readEntrySequence 1 0) on)).clp.tx =
    some (.response 1 3 .ok ([1, 0, 0, 0, 0, 10, 0, 0, 0] ++ List.replicate 32 0) .nothing) := by decide
theorem test_readEntryNode : (after (.readEntryNode 1 1) (asked (.readEntryNode 1 1) (expects on))).clp.tx =
    some (.response 1 3 .ok [2, 1, 1, 0, 0, 0, 0, 0] .nothing) := by decide
theorem test_readEntryPreset : (after (.readEntryPreset 1 63) (asked (.readEntryPreset 1 63) on)).clp.tx =
    some (.response 1 3 .ok [3, 63, 0, 0, 0, 0] .nothing) := by decide
theorem test_readEntryPart : (after (.readEntryPart 1 0) (asked (.readEntryPart 1 0) on)).clp.tx =
    some (.response 1 3 .ok [4, 0, 0, 16, 20, 20, 10, 0, 0] .nothing) := by decide

/-- The 31 bytes of an entry that is not the default: node 30, point 3, slew bits 3, every byte range at or near its end. -/
def fullEntry : List Byte :=
  [30, 3, 3, 0xFF, 0xFF, 0xFF, 0xFE, 0, 1, 0xFF, 0xFE, 0, 1, 0x0F, 0xFF, 250, 7, 0x0F, 0xFF, 0, 2, 0xFF, 0xFD, 255, 7, 7, 0xE4,
   2, 0x0F, 0xFF, 31]

theorem test_writeEntryChannel :
    let i := Instr.writeEntryChannel 1 23 fullEntry
    ((after i (asked i on)).entry 23).bytes = fullEntry ∧ ((after i (asked i on)).entry 23).actSilence = .isolate := by decide
theorem test_writeEntrySequence :
    let i := Instr.writeEntrySequence 1 0 ([3, 15, 1, 1, 3, 0xE8, 1, 2, 30, 1, 23] ++ List.replicate 28 0)
    (after i (asked i on)).psq.record.slots[0] = .zero 29 ∧ (after i (asked i on)).psq.record.slots[1] = .channel 23 ∧
    (after i (asked i on)).psq.record.cyclePeriod = 1000 := by decide
theorem test_writeEntryNode :
    let i := Instr.writeEntryNode 1 30 [1, 9, 9, 9, 9, 9]
    (after i (asked i on)).node 29 = ⟨true, .unknown, 0, .none, 0⟩ := by decide
theorem test_writeEntryPreset :
    let i := Instr.writeEntryPreset 1 63 [1, 23, 0xAB, 0xCD]
    (after i (asked i on)).pru.list[63] = ⟨true, 23, 0xABCD⟩ := by decide
theorem test_writeEntryPart :
    let i := Instr.writeEntryPart 1 0 [5, 23, 5, 1, 1, 4, 255]
    (after i (asked i on)).clp.tx = some (.response 1 4 .ok [] (.switchRate .r4000000)) ∧
    (after i (asked i on)).act.timer = .running 50000 := by decide
theorem test_badCommand : (after (.badCommand [9, 0x77]) (asked (.badCommand [9, 0x77]) on)).clp.tx =
    some (.response 9 0x77 .badCommand [] .nothing) := by decide
theorem test_disableChannel :
    let i := Instr.disableChannel 1 3
    (after i (asked i (chan 3 (driven .isolated 9) on))).ch 3 = .reset ∧
    (after i (asked i (chan 3 (driven .steady 9) on))).oq.writes = [⟨3, 0, false⟩] := by decide
theorem test_releaseChannel :
    let i := Instr.releaseChannel 1 3
    (after i (asked i (chan 3 (driven .isolated 9) on))).oq.writes = [⟨3, 9, true⟩] ∧
    ((after i (asked i (queued [3] [] (chan 3 (driven .isolating 9) on)))).ch 3).drive = .steady := by decide
theorem test_readAlarms :
    let i := Instr.readAlarms 1 3
    let x := { driven .steady 9 with latched := ⟨true, true, false, false, false⟩, active := ⟨true, false, false, false, false⟩, action := .hold }
    (after i (asked i (chan 3 x on))).clp.tx = some (.response 1 8 .ok [3, 3, 0x21] .nothing) ∧
    (after i (asked i (chan 3 x on))).ch 3 = { x with latched := x.active } := by decide
theorem test_injectReadback :
    let i := Instr.injectReadback 1 3 0x2222 15
    (after i (asked i (chan 3 (driven .steady 9) on))).ch 3 = { driven .steady 9 with injectValue := 0x2222, injectLeft := 15 } := by
  decide

/-- Slot 0 polls channel 3. -/
def polling (s : State) : State := { s with psq := { s.psq with record := { s.psq.record with
  slots := s.psq.record.slots.set 0 (.channel 3) } } }

theorem test_seqRun : (after (.seqRun 1) (asked (.seqRun 1) (polling (chan 3 (driven .steady 9) on)))).psq.pollSlot =
    some (.poll 3 false) := by decide
theorem test_seqStop :
    let s := after (.seqRun 1) (asked (.seqRun 1) (polling (chan 3 (driven .steady 9) on)))
    (after (.seqStop 1) (asked (.seqStop 1) s)).psq.pollSlot = none ∧
    (after (.seqStop 1) (asked (.seqStop 1) s)).psq.state = .seqStopping := by decide

/-- Preset 63 gives channel 3 the setpoint 0x0100. -/
def presets (s : State) : State := { s with pru := { s.pru with list := s.pru.list.set 63 ⟨true, 3, 0x0100⟩ } }

theorem test_applyPreset :
    let i := Instr.applyPreset 1 63 1
    (after i (asked i (presets (chan 3 (driven .steady 9) on)))).oq.writes = [⟨3, 0x0100, false⟩] ∧
    (after i (asked i (presets (chan 3 (driven .steady 9) on)))).clp.tx = some (.part 0x80 0 0) := by decide

/-- An apply with two entries to go, its timer running. -/
def applying (s : State) : State := { s with pru := { s.pru with
  state := .applying, nextIndex := 62, remaining := 2, spacingTimer := .running 5000 } }

theorem test_abortPreset : (after (.abortPreset 1) (asked (.abortPreset 1) (applying on))).pru.state = .idle ∧
    (after (.abortPreset 1) (asked (.abortPreset 1) (applying on))).outgoing =
      [.part 0x100 0 0, .response 1 0x0D .ok [2] .nothing] := by decide
theorem test_flushOutput :
    (after (.flushOutput 1) (asked (.flushOutput 1) (queued [] [⟨3, 5, false⟩] (chan 3 { driven .moving 9 with sent := some 5 } on)))).ch 3
      = { driven .steady 9 with settleLeft := 0 } := by decide
theorem test_slewBypassOn :
    (after (.slewBypassOn 1) (asked (.slewBypassOn 1) (queued [] [⟨3, 5, true⟩] (chan 3 (driven .moving 9) on)))).oq.writes =
      [⟨3, 9, true⟩] := by decide
theorem test_slewBypassOff : (after (.slewBypassOff 1) (asked (.slewBypassOff 1)
    { on with mgx := { on.mgx with slewBypass := true } })).mgx.slewBypass = false := by decide
theorem test_storeSave : (after (.storeSave 1) (asked (.storeSave 1) on)).pst = ⟨.saving .erase on.tables, .erased⟩ := by decide
theorem test_storeClear : (after (.storeClear 1) (asked (.storeClear 1) on)).pst = ⟨.clearing, .erased⟩ := by decide
theorem test_restart : (after (.restart 1) (asked (.restart 1) on)).mgx.restartPending = true ∧
    (after .transmitEnd (after (.restart 1) (asked (.restart 1) on))).mgx.mode = .loading := by decide
theorem test_saveEraseEnd : (after .saveEraseEnd { on with pst := ⟨.saving .erase .default, .erased⟩ }).pst.state =
    .saving .program .default := by decide
theorem test_saveProgramEnd :
    (after (.saveProgramEnd false) { on with pst := ⟨.saving .program .default, .erased⟩ }).pst = ⟨.empty, .erased⟩ ∧
    (after (.saveProgramEnd false) { on with pst := ⟨.saving .program .default, .erased⟩ }).clp.tx = some (.part 0x400 0 0) := by
  decide
theorem test_clearEnd : (after .clearEnd { on with pst := ⟨.clearing, .erased⟩ }).pst.state = .empty := by decide
theorem test_transmitEnd : (after .transmitEnd { sending on with rq := [.part 1 0 0] }).clp.tx = some (.part 1 0 0) := by decide
theorem test_grant : (after .grant (queued [3] [⟨4, 5, false⟩] (chan 3 (driven .isolating 9) on))).fbc.state =
    .sending (trans (.isolate 3)) := by decide
theorem test_fieldGapExpiry : (after .fieldGapExpiry (bus (.gap 20) on)).fbc.state = .idle := by decide
theorem test_strobe : (after .strobe (bus (.sending (trans .zero)) on)).fbc.state = .awaitReply (trans .zero) ∧
    (after .strobe (bus (.sending (trans (.isolate 3))) on)).fbc.state = .awaitBusy (trans (.isolate 3)) := by decide
theorem test_fbsyAsserted : (after .fbsyAsserted (bus (.awaitBusy (trans (.isolate 3))) on)).fbc.state =
    .awaitRelease (trans (.isolate 3)) := by decide
theorem test_fbsyReleased :
    (after .fbsyReleased (bus (.awaitRelease (trans (.isolate 3))) (chan 3 (driven .isolating 9) on))).ch 3 = driven .isolated 9 := by
  decide
theorem test_heldTimeout : (after .heldTimeout (bus (.held (trans .zero)) on)).fbc.state = .gap 20 ∧
    (after .heldTimeout (bus (.held (trans .zero)) on)).mgx.latches.busHeld = true := by decide
theorem test_busyTimeoutExpiry :
    ((after .busyTimeoutExpiry (bus (.awaitBusy (trans (.isolate 3))) (chan 3 (driven .isolating 9) on))).ch 3).norespFaults = 1 ∧
    (after .busyTimeoutExpiry (bus (.awaitBusy (trans (.isolate 3))) (chan 3 (driven .isolating 9) on))).oq.isolates = [3] := by decide
theorem test_responseTimeoutExpiry :
    ((after .responseTimeoutExpiry (bus (.awaitReply (trans (.poll 3))) (chan 3 (driven .steady 9) on))).node 0).nodeFaults = 1 := by
  decide
theorem test_readingReceived :
    ((after (.readingReceived ⟨1, 0, 77, false, true⟩) (bus (.awaitReply (trans (.poll 3))) (chan 3 (driven .steady 9) on))).ch 3).lastReading
      = some 77 ∧
    (after (.readingReceived ⟨1, 7, 32000, false, false⟩) (bus (.awaitReply (trans .zero)) on)).node 0 =
      ⟨false, .answering, 0, .valid, -768⟩ := by decide
theorem test_malformedReading : (after (.malformedReading [⟨0x3B, true, false⟩]) on).fbc.frx = .discarding ∧
    (after (.malformedReading [⟨0x3A, true, false⟩, ⟨1, true, true⟩]) on).fbc.frx = .taking := by decide
theorem test_readingReceived_needs_idle :
    let s := after (.readingReceived ⟨1, 0, 77, false, true⟩) on
    s.mgx.latches.strayReading = true ∧ after (.readingReceived ⟨1, 0, 77, false, false⟩) s = s ∧
    (after .frxIdle s).fbc.frx = .taking := by decide
theorem test_stepTimerExpiry :
    (after (.stepTimerExpiry 3) (chan 3 { driven .moving 9 with sent := some 4, stepTimer := .running 10000 } on)).oq.writes =
      [⟨3, 9, false⟩] := by decide
theorem test_spacingTimerExpiry :
    let s := { on with psq := { on.psq with state := .running, spacingTimer := .running 1000 } }
    (after .spacingTimerExpiry s).psq.state = .idle ∧ (after .spacingTimerExpiry s).clp.tx = some (.part 0x20 0 0) := by decide
theorem test_cycleTimerExpiry :
    (after .cycleTimerExpiry { on with psq := { on.psq with state := .running, cycleTimer := .running 1000 } }).psq.periodElapsed =
      true := by decide
theorem test_silenceTimerExpiry :
    ((after .silenceTimerExpiry { chan 3 (driven .steady 9) on with act := ⟨.quiet, .running 10000⟩ }).ch 3).active.silence = true := by
  decide +kernel
theorem test_presetSpacingExpiry :
    (after .presetSpacingExpiry (applying (presets (chan 3 (driven .steady 9) on)))).oq.writes = [⟨3, 0x0100, false⟩] := by decide
theorem test_frxIdle : (after .frxIdle { on with fbc := { on.fbc with frx := .discarding } }).fbc.frx = .taking := by decide

/-! ### Witnesses: states and operands that meet the hypotheses of the statements, each clause at a boundary value -/

/-- Channel 3 STEADY at code 9 on the expected node 1, everything else at rest. -/
def live : State := { (expects on).modCh 3 (fun _ => driven .steady 9) with pending := [.seqRun 1, .receiverReady] }

theorem live_off (d : ChannelNo) (h : (live.ch d).drive ≠ .off) : d = 3 := by
  by_contra hd
  have : live.ch d = (expects on).ch d := by
    show ((expects on).modCh 3 fun _ => driven .steady 9).ch d = _
    exact State.ch_modCh_of_ne _ hd _
  have e : (expects on).ch d = .reset := by revert d; decide
  rw [this, e] at h
  exact h rfl

theorem live_driveLaw : live.DriveLaw := by
  have h0 : (expects on).DriveLaw := by
    refine ⟨fun c => ?_, ⟨fun t h => (by cases h), fun p t h => (by cases h)⟩, List.nodup_nil⟩
    have e1 : (expects on).ch c = .reset := by revert c; decide
    have e2 : (expects on).entry c = .default := by revert c; decide
    unfold State.ChannelLaw
    rw [e1, e2]
    exact ContextLaw.reset (by decide) c
  have e2 : (expects on).entry 3 = .default := by decide
  have r : ChannelEntry.default.inRange 9 := ⟨by decide, by decide⟩
  have h1 : ((expects on).modCh 3 fun _ => driven .steady 9).DriveLaw := by
    refine h0.modCh ?_
    rw [e2]
    show ContextLaw .default (driven .steady 9) ⟨[], []⟩ none 3
    exact { ContextLaw.reset (e := .default) (by decide) 3 with
      off := fun e => by cases e
      present := fun _ => ⟨rfl, rfl, rfl⟩
      target := inRange?_some r, goal := inRange?_some r, sent := inRange?_some r, applied := inRange?_some r
      isolateQueued := fun e => by cases e
      writeQueued := fun e => by cases e
      flight := fun _ _ e => by cases e
      writeFlight := fun _ _ k => by obtain ⟨t, q, -⟩ := k; cases q
      isolateFlight := fun k => by obtain ⟨t, q, -⟩ := k; cases q }
  exact h1.congr rfl rfl rfl rfl rfl

theorem witness_StepKeepsDriveLaw : live.DriveLaw ∧ ∃ t, step live = .next t := ⟨live_driveLaw, _, rfl⟩

theorem witness_StepKeepsOutputQueueLaw :
    let s := queued [3, 4] [⟨5, 1, false⟩, ⟨23, 2, true⟩] live
    s.OutputQueueLaw ∧ ∃ t, step s = .next t := ⟨by unfold State.OutputQueueLaw; decide, _, rfl⟩

theorem witness_StepKeepsReportQueueLaw :
    let s := { live with rq := [.alarm 3 .empty .empty .none 1, aReport, .readback 3 0 false .steady .none] }
    s.ReportQueueLaw ∧ ∃ t, step s = .next t := ⟨⟨by decide, by decide, by decide⟩, _, rfl⟩

theorem witness_StepKeepsLinkLaws :
    let s := { sending live with rq := [aReport], mgx := { live.mgx with queue := [[1, 1], [1, 1], [1, 1], [1, 1]] } }
    s.ManagementQueueLaw ∧ s.TransmitterLaw ∧ ∃ t, step s = .next t :=
  ⟨by unfold State.ManagementQueueLaw; decide, fun h => (by cases h), _, rfl⟩

theorem witness_StepKeepsMappingAndSilenceLaws :
    live.DriveLaw ∧ live.MappingLaw ∧ live.ExpectedLaw ∧ live.SilenceLaw ∧ ∃ t, step live = .next t := by
  refine ⟨live_driveLaw, fun c d hc hd _ _ => by rw [live_off c hc, live_off d hd], fun c hc => ?_, fun c => ?_, _, rfl⟩
  · rw [live_off c hc]; decide
  · have : ∀ c, (live.ch c).active.silence = false := by decide
    rw [this c]
    simp [live, expects, on, State.reset]

theorem witness_StepKeepsSequencerLaw :
    let s := { bus (.awaitReply (trans (.poll 3))) live with psq := { live.psq with state := .running, slotPoll := .inFlight } }
    s.SequencerLaw ∧ ∃ t, step s = .next t := by
  refine ⟨⟨by decide, ?_, by decide, fun _ => rfl⟩, _, rfl⟩
  exact ⟨fun _ => rfl, fun _ => ⟨trans (.poll 3), rfl, Or.inl ⟨3, rfl⟩⟩⟩

theorem witness_StepRunsTheFrontCommand : State.reset.pending = [] := rfl

theorem witness_PowerOnLoadsTheProfile : { on with pst := ⟨.saving .program .default, .erased⟩ }.pst.state =
    .saving .program .default := rfl

theorem witness_PayloadReadsBack :
    (∃ p, (Instr.readStatus 0).wf = true ∧ payloadOf (.readStatus 0) = some p) ∧
    (∃ p, (Instr.writeEntrySequence 1 0 (List.replicate 39 0)).wf = true ∧
      payloadOf (.writeEntrySequence 1 0 (List.replicate 39 0)) = some p) ∧
    (∃ p, (Instr.badCommand (List.replicate 60 0x77)).wf = true ∧ payloadOf (.badCommand (List.replicate 60 0x77)) = some p) :=
  ⟨⟨_, by decide, rfl⟩, ⟨_, by decide, rfl⟩, _, by decide, rfl⟩

theorem witness_GoodFramesReadBack :
    linkLengthAllowed 0x51 (List.replicate 3 (0 : Byte)).length ∧ linkLengthAllowed 0x51 (List.replicate 24 (0 : Byte)).length ∧
    linkLengthAllowed 0x5C (List.replicate 2 (0 : Byte)).length ∧ linkLengthAllowed 0x5C (List.replicate 60 (0 : Byte)).length := by
  unfold linkLengthAllowed; decide

theorem witness_RecordsReadBack : ChannelEntry.default.ok = true ∧ SequenceRecord.default.slotSpacing ≠ 0 ∧
    PartConfig.default.ok = true ∧ ({ PartConfig.default with highWater := 4, fieldGap := 5, busyTimeout := 1 } : PartConfig).ok = true := by
  decide

theorem witness_ReceiverHuntsAfterAnError :
    State.reset.clp.rx = .hunt ∧ (on.TransmitterLaw ∧ on.clp.rx ≠ .hunt) ∧
    linkVerdict [⟨0x51, true⟩, ⟨3, true⟩, ⟨0, false⟩] = .failed .byteFraming ∧ linkVerdict [⟨0x50, true⟩] = .failed .kind ∧
    linkVerdict [⟨0x51, true⟩, ⟨4, true⟩] = .failed .length ∧
    linkVerdict (cleanLinkBytes [0x5C, 2, 0, 0, 0, 0]) = .failed .check ∧
    (on.clp.linkErrors &&& LinkError.gap.bit = 0) ∧ { on with clp := { on.clp with linkErrors := 63 } }.clp.linkErrors &&& 1 ≠ 0 :=
  ⟨rfl, ⟨fun _ => rfl, by decide⟩, by decide, by decide, by decide, by decide +kernel, by decide, by decide⟩

theorem witness_ReceiverHuntsAfterAnError_checks :
    (0x50 : Byte) ≠ 0x51 ∧ (0x50 : Byte) ≠ 0x5C ∧ ¬ linkLengthAllowed 0x51 (27 : Byte).toNat ∧ ¬ linkLengthAllowed 0x5C (61 : Byte).toNat ∧
    linkLengthAllowed 0x5C [0x27, (0x0F : Byte), 0x01].length ∧
    [0, (0 : Byte)] ≠ bytes16 (crc16 ((0x5C : Byte) :: byteOf [0x27, (0x0F : Byte), 0x01].length :: [0x27, 0x0F, 0x01])) ∧
    linkFrame 0x5C [0x27, 0x0F, 0x01] = [0x5C, 3, 0x27] ++ 0x0F :: [0x01, 0x17, 0x80] := by
  unfold linkLengthAllowed; decide +kernel

/-- The management queue holds this many frames. -/
def frames (n : Nat) (s : State) : State := { s with mgx := { s.mgx with queue := List.replicate n [1, 1] } }

theorem witness_MgmtFrameQueuesOrOverruns :
    (frames 3 on).TransmitterLaw ∧ (frames 3 on).clp.rx ≠ .hunt ∧ (frames 3 on).mgx.queue.length < 4 ∧
    (frames 4 on).TransmitterLaw ∧ 4 ≤ (frames 4 on).mgx.queue.length ∧ (List.replicate 60 (0 : Byte)).length ≤ 60 :=
  ⟨fun _ => rfl, by decide, by decide, fun _ => rfl, by decide, by decide⟩

theorem witness_DiscardedSetpointsAreLatched :
    (let s := { State.reset with clp := { State.reset.clp with rx := .ready } }
     s.TransmitterLaw ∧ s.clp.rx ≠ .hunt ∧ s.mgx.mode = .loading ∧ (List.replicate 8 (⟨0, 0, false⟩ : SetpointPair)).length ≤ 8) ∧
    on.TransmitterLaw ∧ on.clp.rx ≠ .hunt ∧ on.mgx.mode = .run ∧ on.act.state = .quiet ∧ 24 ≤ (24 : Byte).toNat ∧
    ((23 : Byte).toNat = (23 : ChannelNo).val ∧ (on.ch 23).drive = .off) ∧
    ((chan 0 (driven .stopping 9) on).ch 0).drive = .stopping :=
  ⟨⟨fun _ => rfl, by decide, rfl, by decide⟩, fun _ => rfl, by decide, rfl, rfl, by decide, ⟨by decide, by decide⟩, by decide⟩

theorem witness_DiscardedSetpointsAreLatched_waiting : on.sph = [] ∧ live.sph = [] := ⟨rfl, rfl⟩

theorem witness_AppliedPairMovesASteadyChannel :
    live.TransmitterLaw ∧ live.clp.rx ≠ .hunt ∧ live.mgx.mode = .run ∧ live.act.state = .quiet ∧ (live.ch 3).drive = .steady ∧
    (live.ch 3).action = .none ∧ (live.ch 3).stepTimer.isRunning = false ∧ live.hasWork 3 = false ∧ (live.ch 3).goal = some 9 ∧
    (live.ch 3).sent = some 9 ∧ (calibrate (live.entry 3) 9).1 = 9 ∧ (calibrate (live.entry 3) 0xFFFF).1 = 0xFFFF :=
  ⟨fun _ => rfl, by decide, by decide, by decide, by decide, by decide, by decide, by decide, by decide, by decide, by decide, by decide⟩

theorem witness_SetpointFrameAppliesItsPairsInOrder :
    (on.clp.rx ≠ .hunt ∧ on.mgx.mode = .run ∧ on.act.state = .quiet ∧
     (List.replicate 6 (⟨3, 0, false⟩ : SetpointPair)).length ≤ 6 ∧ (⟨3, 0, true⟩ : SetpointPair).waits = true ∧
     { on with sph := [⟨3, 5, true⟩] }.sph = [⟨3, 5, true⟩] ∧ (List.replicate 8 (⟨3, 0, true⟩ : SetpointPair)).length ≤ 8) ∧
    (let s := queued [] [⟨3, 7, true⟩] (chan 3 (driven .moving 9) on)
     s.TransmitterLaw ∧ s.sph = [] ∧ (3 : Byte).toNat = (3 : ChannelNo).val ∧ (s.ch 3).drive = .moving ∧ (s.ch 3).action = .none ∧
     s.oq.hasWrite 3 = true ∧ s.oq.hasIsolate 3 = false ∧ (s.ch 3).goal = some 9 ∧ (calibrate (s.entry 3) 9).1 = 9 ∧
     (calibrate (s.entry 3) 8).1 ≠ 9 ∧ (s.entry 3).slewStep = 0 ∧
     ((entryIs 3 { ChannelEntry.default with slewStep := 4095 } s).entry 3).slewStep ≠ 0 ∧ s.mgx.slewBypass = false) ∧
    (let s := chan 3 { driven .moving 9 with action := .isolate } on
     s.TransmitterLaw ∧ s.sph = [] ∧ (s.ch 3).drive = .moving ∧ (s.ch 3).action ≠ .none ∧
     ((chan 23 (driven .releasing 9) s).ch 23).drive = .releasing) :=
  ⟨by decide, ⟨fun _ => rfl, by decide, by decide, by decide, by decide, by decide, by decide, by decide, by decide, by decide,
    by decide, by decide, by decide⟩, fun _ => rfl, by decide, by decide, by decide, by decide⟩

theorem witness_SetpointFrameAppliesItsPairsInOrder_granted :
    let s := bus (.held (trans (.write 3 9 false))) (chan 3 (driven .moving 9) on)
    s.TransmitterLaw ∧ s.sph = [] ∧ (s.ch 3).drive = .moving ∧ (s.ch 3).action = .none ∧ s.oq.hasEntry 3 = false ∧
    s.writeInFlight 3 = true ∧ s.writeJustGranted 3 = true ∧ (s.ch 3).goal ≠ some (calibrate (s.entry 3) 8).1 ∧
    (s.entry 3).slewStep = 0 :=
  ⟨fun _ => rfl, by decide, by decide, by decide, by decide, by decide, by decide, by decide, by decide⟩

theorem witness_TransmitEndBeginsTheNextEntry :
    (sending on).clp.tx = some aReport ∧
    ({ on with clp := { on.clp with tx := some (.response 1 4 .ok [] (.switchRate .r4000000)) } } : State).clp.tx =
      some (.response 1 4 .ok [] (.switchRate .r4000000)) := ⟨rfl, rfl⟩

theorem witness_OffersCoalesceInPlace :
    (sending on).clp.tx = some aReport ∧ (sending on).rq.any (Report.isAlarmOf 3) = false ∧ (sending on).rq.any Report.isPart = false ∧
    (let s := { sending on with rq := [.alarm 3 .empty .empty .none 255, aReport] }
     s.rq = [] ++ [.alarm 3 .empty .empty .none 255] ++ [aReport] ∧ [aReport].any (Report.isAlarmOf 3) = false ∧
     s.rq = [.alarm 3 .empty .empty .none 255] ++ [aReport] ++ []) := by decide

/-! For a management command the first two hypotheses are those of `ready_takes`. -/

theorem witness_ReadStatusShowsAndClears : (asked (.readStatus 7) on).TransmitterLaw ∧ (asked (.readStatus 7) on).Takes (.readStatus 7) [] :=
  ready_takes (by decide)

theorem witness_ReadsShowTheChannelAndTheRecords :
    ready (.readChannel 1 23) (asked (.readChannel 1 23) on) = true ∧ ready (.readChannel 1 24) (asked (.readChannel 1 24) on) = true ∧
    ready (.readEntryChannel 1 23) (asked (.readEntryChannel 1 23) on) = true ∧
    ready (.readEntryChannel 1 24) (asked (.readEntryChannel 1 24) on) = true ∧
    ready (.readEntrySequence 1 0) (asked (.readEntrySequence 1 0) on) = true ∧
    ready (.readEntrySequence 1 1) (asked (.readEntrySequence 1 1) on) = true ∧
    ready (.readEntryNode 1 0) (asked (.readEntryNode 1 0) on) = true ∧
    ready (.readEntryNode 1 30) (asked (.readEntryNode 1 30) on) = true ∧
    ready (.readEntryNode 1 31) (asked (.readEntryNode 1 31) on) = true ∧
    ready (.readEntryPreset 1 63) (asked (.readEntryPreset 1 63) on) = true ∧
    ready (.readEntryPreset 1 64) (asked (.readEntryPreset 1 64) on) = true ∧
    ready (.readEntryPart 1 0) (asked (.readEntryPart 1 0) on) = true ∧
    ready (.readEntryPart 1 1) (asked (.readEntryPart 1 1) on) = true := by decide

theorem witness_ReadAlarmsShowsAndNarrows :
    ready (.readAlarms 1 23) (asked (.readAlarms 1 23) on) = true ∧ ready (.readAlarms 1 24) (asked (.readAlarms 1 24) on) = true ∧
    ready (.readAlarms 1 254) (asked (.readAlarms 1 254) on) = true ∧
    ready (.readAlarms 1 0xFF) (asked (.readAlarms 1 0xFF) on) = true := by decide

theorem witness_BadCommandAnswersAndChangesNothing :
    ready (.badCommand [1, 0x0F, 2]) (asked (.badCommand [1, 0x0F, 2]) on) = true ∧
    ready (.badCommand [1, 0x03, 5, 0]) (asked (.badCommand [1, 0x03, 5, 0]) on) = true ∧
    ready (.badCommand [1, 0x04, 5, 0]) (asked (.badCommand [1, 0x04, 5, 0]) on) = true ∧
    ready (.badCommand [1, 0x04, 4]) (asked (.badCommand [1, 0x04, 4]) on) = true := by decide

/-- The store is SAVING. -/
def saving (s : State) : State := { s with pst := ⟨.saving .erase .default, .erased⟩ }

theorem witness_WriteEntryChannelChecksInOrder :
    (let i := Instr.writeEntryChannel 1 24 fullEntry; ready i (asked i on) = true ∧ fullEntry.length = 31) ∧
    (let i := Instr.writeEntryChannel 1 23 fullEntry
     ready i (asked i on) = true ∧ (asked i on).pst.state.isSaving = false ∧ ((asked i on).ch 23).drive = .off ∧
     ready i (asked i (saving on)) = true ∧ (saving on).pst.state.isSaving = true ∧
     ready i (asked i (chan 23 (driven .stopping 9) on)) = true ∧ ((chan 23 (driven .stopping 9) on).ch 23).drive ≠ .off) ∧
    channelRecordValid fullEntry ∧ ¬ channelRecordValid (List.replicate 31 0) := by
  unfold channelRecordValid; decide

/-- The sequencer waits for its next cycle. -/
def waiting (s : State) : State := { s with psq := { s.psq with state := .waiting, cycleTimer := .running 1000 } }

/-- A sequence record that passes every check of R87, each byte at the end of its range. -/
def lastRecord : List Byte := [15, 15, 1, 1, 3, 0xE8, 1] ++ List.replicate 30 0 ++ [2, 30]

theorem witness_WriteEntryTablesCheckInOrder_sequence :
    let i := Instr.writeEntrySequence 1 0 lastRecord
    let j := Instr.writeEntrySequence 1 1 lastRecord
    lastRecord.length = 39 ∧ ready j (asked j on) = true ∧ ready i (asked i (saving on)) = true ∧
    ready i (asked i (waiting on)) = true ∧ (waiting on).psq.state ≠ .idle ∧ ready i (asked i on) = true ∧ on.psq.state = .idle := by
  decide

theorem witness_sequenceRecordValid : sequenceRecordValid lastRecord ∧ ¬ sequenceRecordValid (List.replicate 39 0) := by
  unfold sequenceRecordValid slotValid; decide

theorem witness_WriteEntryTablesCheckInOrder_node :
    let i := Instr.writeEntryNode 1 30 [0, 0, 0, 0, 0, 0]
    let j := Instr.writeEntryNode 1 31 [0, 0, 0, 0, 0, 0]
    let k := Instr.writeEntryNode 1 1 [1, 0, 0, 0, 0, 0]
    let l := Instr.writeEntryNode 1 1 [2, 0, 0, 0, 0, 0]
    let m := Instr.writeEntryNode 1 1 [0, 0, 0, 0, 0, 0]
    ready j (asked j on) = true ∧ ready i (asked i (saving on)) = true ∧ ready i (asked i on) = true ∧ ready k (asked k on) = true ∧
    ready l (asked l on) = true ∧ ready m (asked m live) = true ∧ (live.ch 3).drive ≠ .off ∧ (live.entry 3).node = 0 ∧
    (∀ c, (on.ch c).drive ≠ .off → (on.entry c).node ≠ 29) := by decide

theorem witness_WriteEntryTablesCheckInOrder_preset :
    let i := Instr.writeEntryPreset 1 63 [1, 23, 0, 0]
    let j := Instr.writeEntryPreset 1 64 [1, 23, 0, 0]
    let k := Instr.writeEntryPreset 1 63 [1, 24, 0, 0]
    ready j (asked j on) = true ∧ ready i (asked i (saving on)) = true ∧ ready i (asked i (applying on)) = true ∧
    ready i (asked i on) = true ∧ ready k (asked k on) = true ∧ presetRecordValid [1, 23, 0, 0] ∧
    ¬ presetRecordValid [1, 24, 0, 0] := by
  unfold presetRecordValid; decide

theorem witness_WriteEntryPartChecksInOrder :
    (let i := Instr.writeEntryPart 1 1 [0, 4, 5, 1, 1, 4, 0]
     let j := Instr.writeEntryPart 1 0 [0, 4, 5, 1, 1, 4, 0]
     let k := Instr.writeEntryPart 1 0 [0, 3, 5, 1, 1, 4, 0]
     ready i (asked i on) = true ∧ ready j (asked j (saving on)) = true ∧ ready k (asked k on) = true ∧ ready j (asked j on) = true ∧
     on.switchPending = false ∧ on.act.state = .quiet) ∧
    configRecordValid [0, 4, 5, 1, 1, 4, 0] ∧ configRecordValid [255, 23, 255, 255, 255, 0, 255] ∧
    ¬ configRecordValid [0, 3, 5, 1, 1, 4, 0] := by
  unfold configRecordValid; decide

/-- The part is SILENT. -/
def silent (s : State) : State := { s with act := ⟨.silent, .expired⟩ }

/-- The condition of CONFLICT (R35) on a state, as a Bool. -/
def free (c : ChannelNo) (s : State) : Bool := !s.mappingConflict c && (s.node (s.entry c).node).expected

theorem witness_EnableChannelChecksInOrder :
    (let i := Instr.enableChannel 1 24; ready i (asked i on) = true) ∧
    (let i := Instr.enableChannel 1 3; ready i (asked i live) = true ∧ (live.ch 3).drive ≠ .off) ∧
    (let i := Instr.enableChannel 1 23
     ready i (asked i live) = true ∧ (live.ch 23).drive = .off ∧ live.mappingConflict 23 = true ∧
     ready i (asked i on) = true ∧ on.mappingConflict 23 = false ∧ (on.node (on.entry 23).node).expected = false ∧
     ready i (asked i (expects on)) = true ∧ (expects on).ch 23 = .reset ∧ (expects on).oq.hasEntry 23 = false ∧
     free 23 (expects on) = true ∧ (expects on).act.state = .quiet) := by decide

theorem witness_EnableChannelWhileSilent :
    let i := Instr.enableChannel 1 23
    let s := silent (expects on)
    let e := { ChannelEntry.default with actSilence := .isolate, alarmMask := ⟨false, false, false, false, true⟩ }
    ready i (asked i s) = true ∧ s.ch 23 = .reset ∧ s.oq.hasEntry 23 = false ∧ free 23 s = true ∧ s.act.state = .silent ∧
    (s.entry 23).actSilence ≠ .isolate ∧ ready i (asked i (entryIs 23 e s)) = true ∧ free 23 (entryIs 23 e s) = true ∧
    ((entryIs 23 e s).entry 23).actSilence = .isolate := by decide

theorem witness_DisableChannelStopsOrReachesOff :
    (let i := Instr.disableChannel 1 24; ready i (asked i on) = true) ∧
    (let i := Instr.disableChannel 1 23
     ready i (asked i on) = true ∧ (on.ch 23).drive = .off ∧
     (let s := queued [] [⟨23, 7, true⟩] (chan 23 (driven .releasing 9) on)
      ready i (asked i s) = true ∧ (s.ch 23).drive = .releasing ∧ s.oq.hasIsolate 23 = false ∧ s.oq.hasWrite 23 = true) ∧
     (let s := bus (.awaitBusy (trans (.isolate 23))) (chan 23 (driven .isolating 9) on)
      ready i (asked i s) = true ∧ (s.ch 23).drive = .isolating ∧ s.fbc.state.record?.isSome = true)) := by decide

/-- A POLL of channel 23 waits in the poll slot. -/
def pollWaits (s : State) : State := { s with psq := { s.psq with state := .running, slotPoll := .pending, pollSlot := some (.poll 23 false) } }

theorem witness_DisableChannelStopsOrReachesOff_poll :
    let i := Instr.disableChannel 1 23
    let s := pollWaits (chan 23 (driven .isolated 9) on)
    ready i (asked i s) = true ∧ (s.ch 23).drive = .isolated ∧ s.psq.pollSlot = some (.poll 23 false) ∧
    (after i (asked i s)).psq.pollSlot = some (.poll 23 true) := by decide

/-- NORESP isolates. -/
def strict : ChannelEntry := { ChannelEntry.default with actNoresp := .isolate }

/-- NORESP is active. -/
def deaf (d : DriveState) : ChannelCtx := { driven d 9 with
  active := ⟨false, false, false, true, false⟩, latched := ⟨false, false, false, true, false⟩ }

theorem witness_ReleaseChannelChecksInOrder :
    (let i := Instr.releaseChannel 1 24; ready i (asked i on) = true) ∧
    (let i := Instr.releaseChannel 1 23
     ready i (asked i on) = true ∧ (on.ch 23).drive ≠ .isolating ∧ (on.ch 23).drive ≠ .isolated ∧
     (let s := bus (.awaitBusy (trans (.isolate 23))) (chan 23 (driven .isolating 9) on)
      ready i (asked i s) = true ∧ (s.ch 23).drive = .isolating ∧ s.isolateInFlight 23 = true) ∧
     (let s := entryIs 23 strict (chan 23 { deaf .isolated with action := .isolate } on)
      ready i (asked i s) = true ∧ (s.ch 23).drive = .isolated ∧ s.isolateInFlight 23 = false ∧ (s.ch 23).active.noresp = true ∧
      (s.entry 23).actNoresp = .isolate) ∧
     (let s := chan 23 (deaf .isolated) on
      ready i (asked i s) = true ∧ (s.ch 23).drive = .isolated ∧ s.oq.hasEntry 23 = false ∧ s.isolateInFlight 23 = false ∧
      (s.entry 23).actNoresp ≠ .isolate ∧ (s.ch 23).active.silence = false ∧
      (s.ch 23).action = effectiveAction (s.entry 23) (s.ch 23).active) ∧
     (let s := queued [23] [] (chan 23 { driven .isolating 9 with stepTimer := .running 1 } on)
      ready i (asked i s) = true ∧ (s.ch 23).drive = .isolating ∧ s.fbc.state.record? = none ∧ s.oq.hasWrite 23 = false ∧
      (s.ch 23).stepTimer.isRunning = true ∧ (s.ch 23).active = .empty)) := by decide

theorem witness_InjectReadbackChecksInOrder :
    (let i := Instr.injectReadback 1 24 0 1; ready i (asked i on) = true) ∧
    (let i := Instr.injectReadback 1 23 0 1; ready i (asked i on) = true ∧ (on.ch 23).drive = .off) ∧
    (let i := Instr.injectReadback 1 3 0 0; ready i (asked i live) = true ∧ (live.ch 3).drive ≠ .off) ∧
    (let i := Instr.injectReadback 1 3 0 16; ready i (asked i live) = true ∧ 15 < (16 : Byte).toNat) ∧
    (let i := Instr.injectReadback 1 3 0 15; ready i (asked i live) = true ∧ (15 : Byte).toNat = (15 : Fin 16).val ∧ (15 : Fin 16) ≠ 0) := by
  decide

theorem witness_FlushOutputRemovesEveryWrite :
    (let i := Instr.flushOutput 1; ready i (asked i on) = true ∧ on.oq.writes = [] ∧ on.oq.hasWrite 3 = false) ∧
    (let i := Instr.flushOutput 1
     let s := queued [4] [⟨3, 7, true⟩] (chan 3 { driven .moving 9 with stepTimer := .running 1 } on)
     ready i (asked i s) = true ∧ s.oq.writes = [⟨3, 7, true⟩] ∧ s.oq.hasIsolate 3 = false ∧ (s.ch 3).drive = .moving ∧
     (s.ch 3).stepTimer.isRunning = true ∧ s.fbc.state.record? = none) := by decide

/-- A STOPPING channel with its WRITE in flight, a RELEASING one and three MOVING ones: at goal, with a step to issue, and waiting. -/
def flushable : State :=
  queued [9] [⟨1, 7, true⟩, ⟨2, 7, true⟩, ⟨3, 7, false⟩, ⟨4, 7, false⟩, ⟨5, 7, false⟩]
    (bus (.awaitBusy (trans (.write 1 6 false)))
      (chan 1 (driven .stopping 7) (chan 2 (driven .releasing 7) (chan 3 { driven .moving 9 with sent := some 7 }
        (chan 4 { driven .moving 9 with sent := some 7, applied := some 5 }
          (chan 5 { driven .moving 9 with applied := none, stepTimer := .running 1 } (sending on)))))))

theorem witness_FlushOutputRemovesEveryWrite_states :
    ready (.flushOutput 1) (asked (.flushOutput 1) flushable) = true ∧
    (flushable.oq.hasWrite 1 = true ∧ (flushable.ch 1).drive = .stopping ∧ (trans (.write 1 6 false)).job.channel? = some 1) ∧
    (flushable.oq.hasWrite 2 = true ∧ (flushable.ch 2).drive = .releasing) ∧
    (∀ c ∈ [(3 : ChannelNo), 4, 5], flushable.oq.hasWrite c = true ∧ (flushable.ch c).drive = .moving ∧
      flushable.oq.hasIsolate c = false ∧ flushable.writeInFlight c = false ∧ flushable.isolateInFlight c = false) ∧
    (flushable.ch 3).goal = (flushable.ch 3).applied ∧ (flushable.ch 4).goal = some 9 ∧ (flushable.ch 4).applied ≠ some 9 ∧
    (flushable.ch 4).stepTimer.isRunning = false ∧ (flushable.ch 5).stepTimer.isRunning = true := by decide

theorem witness_FlushOutputRemovesEveryWrite_poll :
    let i := Instr.flushOutput 1
    let s := pollWaits (queued [] [⟨23, 7, false⟩] (chan 23 (driven .stopping 7) on))
    ready i (asked i s) = true ∧ s.oq.hasWrite 23 = true ∧ (s.ch 23).drive = .stopping ∧ s.psq.pollSlot = some (.poll 23 false) ∧
    (after i (asked i s)).psq.pollSlot = some (.poll 23 true) := by decide

theorem test_flushOutput_states :
    let t := after (.flushOutput 1) (asked (.flushOutput 1) flushable)
    t.oq = ⟨[9], [⟨4, 9, false⟩]⟩ ∧ t.ch 1 = .reset ∧ (t.ch 3).drive = .steady ∧ (t.ch 5).sent = some 0 := by decide

theorem witness_SlewBypassCoalescesQueuedSteps :
    ready (.slewBypassOff 1) (asked (.slewBypassOff 1) on) = true ∧
    ready (.slewBypassOn 1) (asked (.slewBypassOn 1) { on with mgx := { on.mgx with slewBypass := true } }) = true ∧
    (let s := queued [4] [⟨3, 7, true⟩] (chan 3 (driven .moving 9) on)
     ready (.slewBypassOn 1) (asked (.slewBypassOn 1) s) = true ∧ s.mgx.slewBypass = false ∧
     (s.oq.isolates ++ s.oq.writes.map (·.channel)).Nodup ∧ ∀ c, (s.ch c).drive = .moving → (s.ch c).goal.isSome = true) := by decide

theorem witness_SlewBypassCoalescesQueuedSteps_granted :
    let s := bus (.sending (trans (.write 3 7 false))) (chan 3 { driven .moving 9 with sent := some 7 } on)
    ready (.slewBypassOn 1) (asked (.slewBypassOn 1) s) = true ∧ s.mgx.slewBypass = false ∧ (s.ch 3).drive = .moving ∧
    s.oq.hasWrite 3 = false ∧ s.writeJustGranted 3 = true ∧
    (bus (.awaitBusy (trans (.write 3 7 false))) s).writeJustGranted 3 = false := by decide

theorem test_slewBypassOn_after_the_grant :
    let s := fun (f : Transaction → FbcState) =>
      asked (.slewBypassOn 1) (bus (f (trans (.write 3 7 false))) (chan 3 { driven .moving 9 with sent := some 7 } on))
    ((after (.slewBypassOn 1) (s .held)).ch 3).sent = some 9 ∧ ((after (.slewBypassOn 1) (s .sending)).ch 3).sent = some 9 ∧
    ((after (.slewBypassOn 1) (s .awaitBusy)).ch 3).sent = some 7 ∧ ((after (.slewBypassOn 1) (s .awaitRelease)).ch 3).sent = some 7 := by
  decide

theorem witness_SeqRunAndSeqStopActByState :
    ready (.seqRun 1) (asked (.seqRun 1) (waiting on)) = true ∧ (waiting on).psq.state ≠ .idle ∧
    ready (.seqRun 1) (asked (.seqRun 1) (polling live)) = true ∧ (polling live).psq.state = .idle ∧
    ready (.seqStop 1) (asked (.seqStop 1) on) = true ∧ on.psq.state = .idle ∧
    ready (.seqStop 1) (asked (.seqStop 1) (waiting on)) = true ∧ (waiting on).psq.state = .waiting ∧
    (let s := { on with psq := { on.psq with state := .running, slotPoll := .inFlight } }
     ready (.seqStop 1) (asked (.seqStop 1) s) = true ∧ s.psq.state = .running ∧ s.psq.slotPoll ≠ .pending) ∧
    (let s := { on with psq := { on.psq with
       state := .running, slotPoll := .pending, pollSlot := some (.zero 0), spacingTimer := .running 1 } }
     ready (.seqStop 1) (asked (.seqStop 1) s) = true ∧ s.psq.state = .running ∧ s.psq.slotPoll = .pending ∧
     s.psq.spacingTimer ≠ .expired) := by decide

/-- preset_spacing is 5 ms. -/
def spaced (s : State) : State := { s with mgx := { s.mgx with config := { s.mgx.config with presetSpacing := 5 } } }

theorem witness_ApplyPresetChecksInOrder :
    ready (.applyPreset 1 0 1) (asked (.applyPreset 1 0 1) (applying on)) = true ∧ (applying on).pru.state = .applying ∧
    ready (.applyPreset 1 0 0) (asked (.applyPreset 1 0 0) on) = true ∧ on.pru.state = .idle ∧
    ready (.applyPreset 1 64 1) (asked (.applyPreset 1 64 1) on) = true ∧ 64 < (64 : Byte).toNat + (1 : Byte).toNat ∧
    ready (.applyPreset 1 62 2) (asked (.applyPreset 1 62 2) (spaced on)) = true ∧ (62 : Byte).toNat + (2 : Byte).toNat ≤ 64 ∧
    (spaced on).mgx.config.presetSpacing ≠ 0 ∧ 2 ≤ (2 : Byte).toNat ∧
    ready (.applyPreset 1 0 64) (asked (.applyPreset 1 0 64) on) = true ∧ on.mgx.config.presetSpacing = 0 := by decide

theorem witness_ApplyPresetChecksInOrder_entries :
    ready (.applyPreset 1 62 2) (asked (.applyPreset 1 62 2) (presets live)) = true ∧ (presets live).pru.state = .idle ∧
    (presets live).pru.list[63] = ⟨true, 3, 0x0100⟩ ∧ ((presets live).ch 3).drive.takesSetpoints = true ∧
    ((presets live).ch 4).drive.takesSetpoints = false ∧ (presets live).pru.list[62].valid = false ∧
    ((after (.applyPreset 1 62 2) (asked (.applyPreset 1 62 2) (presets live))).ch 3).target = some 0x0100 := by decide

theorem witness_PresetSpacingExpiryReachesEntries :
    (let s := spaced (applying (presets live))
     s.TransmitterLaw ∧ s.pru.state = .applying ∧ s.pru.spacingTimer.isRunning = true ∧ s.pru.nextIndex.val = (62 : Fin 64).val ∧
     1 ≤ s.pru.remaining.val ∧ s.mgx.config.presetSpacing ≠ 0) ∧
    (let s := applying (presets live)
     s.TransmitterLaw ∧ s.pru.nextIndex.val + s.pru.remaining.val ≤ 64 ∧ s.mgx.config.presetSpacing = 0) ∧
    (let s := spaced { applying (presets live) with pru := { (applying (presets live)).pru with nextIndex := 63, remaining := 1 } }
     s.pru.nextIndex.val = (63 : Fin 64).val ∧ s.pru.list[63] = ⟨true, 3, 0x0100⟩ ∧ s.pru.remaining.val = 1 ∧
     (s.ch 3).drive.takesSetpoints = true ∧ (s.ch 3).presetTaken = false) :=
  ⟨⟨fun _ => rfl, by decide, by decide, by decide, by decide, by decide⟩, ⟨fun _ => rfl, by decide, by decide⟩, by decide⟩

/-- The one remaining preset entry gives channel 3 the setpoint 0x0100; the channel has this context. -/
def presetDue (x : ChannelCtx) : State :=
  let s := spaced (applying (presets (chan 3 x on)))
  { s with pru := { s.pru with nextIndex := 63, remaining := 1 } }

/-! The clauses of `TargetTaken`, one after the other, each with the hypotheses that its state meets and what the step answers. -/

theorem witness_TargetTaken_stays :
    (calibrate (on.entry 3) 0x0100).1 = 0x0100 ∧
    (∀ x ∈ [{ driven .steady 9 with action := .hold }, { driven .moving 9 with action := .isolate }, driven .isolated 9,
        driven .releasing 9, { driven .moving 9 with goal := some 0x0100, target := some 0x0100 }],
      x.action ≠ .none ∨ (x.drive ≠ .moving ∧ x.drive ≠ .steady) ∨ x.goal = some 0x0100) ∧
    (let t := after .presetSpacingExpiry (presetDue { driven .steady 9 with action := .hold })
     t.ch 3 = { driven .steady 9 with action := .hold, target := some 0x0100 } ∧ t.oq.writesOf 3 = []) ∧
    (after .presetSpacingExpiry (presetDue (driven .isolated 9))).ch 3 = { driven .isolated 9 with target := some 0x0100 } := by
  decide

theorem witness_TargetTaken_queued :
    let s := queued [] [⟨4, 1, false⟩, ⟨3, 7, true⟩] (presetDue { driven .moving 9 with sent := some 7 })
    let slewed := entryIs 3 { ChannelEntry.default with slewStep := 4095 } s
    (s.ch 3).action = .none ∧ (s.ch 3).drive = .moving ∧ (s.ch 3).goal ≠ some 0x0100 ∧ s.oq.hasIsolate 3 = false ∧
    s.oq.hasWrite 3 = true ∧ (s.entry 3).slewStep = 0 ∧ (slewed.entry 3).slewStep ≠ 0 ∧ slewed.mgx.slewBypass = false ∧
    (after .presetSpacingExpiry s).oq.writes = [⟨4, 1, false⟩, ⟨3, 0x0100, true⟩] ∧
    ((after .presetSpacingExpiry s).ch 3).sent = some 0x0100 ∧
    (after .presetSpacingExpiry slewed).oq = s.oq ∧ ((after .presetSpacingExpiry slewed).ch 3).sent = some 7 ∧
    ((after .presetSpacingExpiry slewed).ch 3).goal = some 0x0100 := by decide

theorem witness_TargetTaken_inFlight :
    let s := fun (f : Transaction → FbcState) => bus (f (trans (.write 3 7 false))) (presetDue { driven .moving 9 with sent := some 7 })
    (s .sending).oq.hasEntry 3 = false ∧ (s .sending).hasWork 3 = true ∧ (s .sending).writeJustGranted 3 = true ∧
    (s .awaitBusy).hasWork 3 = true ∧ (s .awaitBusy).writeJustGranted 3 = false ∧
    ((after .presetSpacingExpiry (s .sending)).ch 3).sent = some 0x0100 ∧
    ((after .presetSpacingExpiry (s .awaitBusy)).ch 3).sent = some 7 ∧
    ((after .presetSpacingExpiry (s .awaitBusy)).ch 3).goal = some 0x0100 := by decide

theorem witness_TargetTaken_steps :
    let s := presetDue (driven .steady 9)
    let waits := presetDue { driven .steady 9 with stepTimer := .running 1 }
    let home := presetDue { driven .moving 9 with sent := some 0x0100, applied := some 0x0100 }
    s.hasWork 3 = false ∧ (s.ch 3).sent = some 9 ∧ (s.ch 3).stepTimer.isRunning = false ∧
    stepCode (s.entry 3) s.mgx.slewBypass 9 0x0100 = 0x0100 ∧
    (after .presetSpacingExpiry s).oq.writes = [⟨3, 0x0100, false⟩] ∧ ((after .presetSpacingExpiry s).ch 3).drive = .moving ∧
    ((after .presetSpacingExpiry waits).ch 3).sent = some 9 ∧ (after .presetSpacingExpiry waits).oq.writes = [] ∧
    ((after .presetSpacingExpiry waits).ch 3).drive = .moving ∧ home.hasWork 3 = false ∧
    ((after .presetSpacingExpiry home).ch 3).drive = .steady ∧ (after .presetSpacingExpiry home).oq.writes = [] := by decide

theorem witness_AbortPresetAnswersTheRemaining :
    ready (.abortPreset 1) (asked (.abortPreset 1) on) = true ∧ on.pru.state = .idle ∧
    ready (.abortPreset 1) (asked (.abortPreset 1) (applying on)) = true ∧ (applying on).pru.state = .applying := by decide

theorem witness_StoreOperationsRunTheirPhases :
    (∀ i ∈ [Instr.storeSave 1, .storeClear 1], ready i (asked i on) = true ∧ ready i (asked i (saving on)) = true ∧
      ready i (asked i { on with pst := ⟨.clearing, .erased⟩ }) = true ∧ ready i (asked i { on with pst := ⟨.valid, .erased⟩ }) = true) ∧
    on.pst.state = .empty ∧ (saving on).TransmitterLaw ∧ (saving on).pst.state = .saving .erase .default :=
  ⟨by decide, rfl, fun _ => rfl, rfl⟩

theorem witness_RestartIsPendingUntilItsResponseEnds :
    ready (.restart 1) (asked (.restart 1) on) = true ∧
    (after (.restart 1) (asked (.restart 1) on)).mgx.restartPending = true ∧ (payloadOf (.seqRun 1)).isSome = true ∧
    (after (.restart 1) (asked (.restart 1) on)).clp.tx = some (.response 1 0x12 .ok [] .restart) := by decide

theorem witness_EnterRunRunsTheStartUp :
    (let s := { expects (entryIs 23 { ChannelEntry.default with startEnabled := true } State.reset) with
       mgx := { State.reset.mgx with startUpStep := 23 } }
     s.TransmitterLaw ∧ s.mgx.mode = .loading ∧ s.mgx.startUpStep.val = (23 : ChannelNo).val ∧ s.act.state = .quiet ∧
     s.ch 23 = .reset ∧ s.oq.hasEntry 23 = false ∧ (s.entry 23).startEnabled = true ∧ free 23 s = true) ∧
    State.reset.TransmitterLaw ∧ State.reset.mgx.startUpStep = 0 ∧ (State.reset.entry 0).startEnabled = false ∧
    (∀ c, (State.reset.entry c).startEnabled = false) ∧ State.reset.psq.state = .idle :=
  ⟨⟨fun _ => rfl, by decide, by decide, by decide, by decide, by decide, by decide, by decide⟩, fun _ => rfl, by decide, by decide,
    by decide, by decide⟩

theorem witness_ArbiterGrantsByTheTable :
    on.TransmitterLaw ∧ on.fbc.state = .idle ∧ (bus (.gap 20) on).fbc.state = .gap 20 ∧ (bus (.gap 20) on).oq.isolates = [] ∧
    (bus (.gap 20) on).oq.writes = [] ∧ (bus (.gap 20) on).psq.pollSlot = none ∧
    (let s := { queued [3] [⟨4, 5, false⟩] on with
       psq := { on.psq with slotPoll := .pending, pollSlot := some (.zero 29) }, fbc := { on.fbc with passOver := 3 } }
     s.oq.isolates ≠ [] ∧ s.fbc.passOver ≠ 4) ∧
    (let s := { queued [] [⟨4, 5, false⟩] on with
       psq := { on.psq with slotPoll := .pending, pollSlot := some (.poll 3 true) }, fbc := { on.fbc with passOver := 4, fbsy := true } }
     s.oq.writes ≠ [] ∧ s.psq.pollSlot = some (.poll 3 true) ∧ s.fbc.passOver = 4) :=
  ⟨fun _ => rfl, by decide, by decide, by decide, by decide, by decide, by decide, by decide⟩

theorem witness_FieldFramesHaveTheirBytes :
    (trans (.write 3 0xABCD true)).point = some 0 ∧ (trans (.write 3 0xABCD true)).job = .write 3 0xABCD true ∧
    (trans (.isolate 3)).job = .isolate 3 ∧ (trans (.poll 3)).job = .poll 3 ∧ ({ trans .zero with point := none } : Transaction).job = .zero ∧
    (trans (.write 3 0xABCD true)).frame.length = 7 := by decide

theorem witness_HandshakeAdvances :
    on.TransmitterLaw ∧ (bus (.held (trans .zero)) on).fbc.state = .held (trans .zero) ∧
    (bus (.sending (trans (.poll 3))) on).fbc.state = .sending (trans (.poll 3)) ∧
    (bus (.sending (trans (.write 3 0 false))) on).fbc.state = .sending (trans (.write 3 0 false)) ∧
    (bus (.awaitBusy (trans (.isolate 3))) on).fbc.state = .awaitBusy (trans (.isolate 3)) := ⟨fun _ => rfl, rfl, rfl, rfl, rfl⟩

theorem witness_EveryCompletionIsCreditedToItsNode :
    (bus (.awaitRelease (trans (.isolate 3))) on).fbc.state = .awaitRelease (trans (.isolate 3)) ∧
    (bus (.awaitBusy (trans (.isolate 3))) on).fbc.state = .awaitBusy (trans (.isolate 3)) ∧
    (bus (.held (trans .zero)) on).fbc.state = .held (trans .zero) ∧
    (bus (.awaitReply (trans .zero)) on).fbc.state = .awaitReply (trans .zero) ∧ on.fbc.frx = .taking ∧
    (trans .zero).matchesReading ⟨1, 7, 34815, false, true⟩ = true ∧ (trans .zero).stale = false ∧
    ((34815 : Nat) : Int) - 32768 ≤ 2047 ∧ (trans (.poll 3)).matchesReading ⟨1, 0, 0, true, false⟩ = true := by decide

theorem witness_StaleResultReachesTheNodeTableOnly :
    on.TransmitterLaw ∧ ({ trans (.isolate 3) with stale := true } : Transaction).stale = true ∧
    (bus (.awaitRelease { trans (.isolate 3) with stale := true }) on).fbc.state = .awaitRelease { trans (.isolate 3) with stale := true } :=
  ⟨fun _ => rfl, rfl, rfl⟩

theorem witness_StaleResultReachesTheNodeTableOnly_poll :
    let x := { trans (.poll 3) with stale := true }
    x.stale = true ∧ (bus (.held x) on).fbc.state = .held x ∧ (bus (.awaitReply x) on).fbc.state = .awaitReply x ∧
    x.matchesReading ⟨1, 0, 5, false, true⟩ = true := by decide

theorem witness_WriteResultsMoveTheCodes :
    (let x := trans (.write 3 9 false)
     let s := bus (.awaitRelease x) (chan 3 { driven .moving 9 with applied := some 8 } on)
     s.TransmitterLaw ∧ s.fbc.state = .awaitRelease x ∧ (s.ch 3).drive = .moving ∧ s.oq.hasEntry 3 = false ∧ (s.ch 3).sent = some 9 ∧
     (s.ch 3).goal = some 9 ∧ (s.ch 3).active.noresp = false ∧ (s.node x.node).answerState ≠ .silent) ∧
    (let x := trans (.write 3 9 false)
     let s := bus (.awaitBusy x) (chan 3 { driven .moving 9 with applied := some 8, stepTimer := .running 1 } on)
     s.fbc.state = .awaitBusy x ∧ (s.ch 3).drive = .moving ∧ s.oq.hasEntry 3 = false ∧ (s.ch 3).stepTimer.isRunning = true ∧
     (s.entry 3).actNoresp = .none ∧ (s.ch 3).action = effectiveAction (s.entry 3) (s.ch 3).active) :=
  ⟨⟨fun _ => rfl, by decide, by decide, by decide, by decide, by decide, by decide, by decide⟩, by decide⟩

theorem witness_WriteResultsMoveTheCodes_states :
    let x := trans (.write 3 9 true)
    let e := { ChannelEntry.default with slewStep := 2 }
    (let s := bus (.awaitRelease x) (entryIs 3 e (chan 3 { driven .moving 9 with goal := some 12 } on))
     (s.ch 3).drive = .moving ∧ s.oq.hasEntry 3 = false ∧ (s.ch 3).sent = some 9 ∧ (s.ch 3).goal = some 12 ∧
     ¬ ((9 : Code) = 9 ∧ (12 : Code) = 9) ∧ (s.ch 3).active.noresp = false ∧ (s.ch 3).stepTimer.isRunning = false ∧
     stepCode (s.entry 3) s.mgx.slewBypass 9 12 = 11 ∧ (after .fbsyReleased s).oq.writes = [⟨3, 11, false⟩]) ∧
    (let s := bus (.awaitRelease x) (chan 3 { driven .releasing 9 with stepTimer := .running 1 } on)
     (s.ch 3).drive = .releasing ∧ s.oq.hasEntry 3 = false ∧ (s.ch 3).sent = some 9 ∧ (s.ch 3).stepTimer.isRunning = true ∧
     (s.ch 3).active.noresp = false ∧ (s.ch 3).action = .none ∧ (s.ch 3).target = some 9 ∧
     ((after .fbsyReleased s).ch 3).drive = .steady ∧ (s.entry 3).actNoresp = .none ∧
     (s.ch 3).action = effectiveAction (s.entry 3) (s.ch 3).active ∧
     ((after .busyTimeoutExpiry s).ch 3).drive = .releasing) ∧
    (let s := bus (.awaitRelease x) (chan 3 (driven .isolating 9) on)
     (s.ch 3).drive = .isolating ∧ s.fbc.state = .awaitRelease x ∧ x.stale = false) := by decide

theorem witness_WriteResultsMoveTheCodes_held :
    let x := trans (.write 3 9 true)
    (let s := bus (.held x) (chan 3 { driven .moving 9 with applied := some 8, stepTimer := .running 1 } on)
     s.handshakeFails .heldTimeout x ∧ (s.ch 3).stepTimer.isRunning = true ∧ s.oq.hasEntry 3 = false ∧
     ((after .heldTimeout s).ch 3).sent = some 8 ∧ ((after .heldTimeout s).ch 3).norespFaults = 1) ∧
    (let s := bus (.held x) (chan 3 (driven .releasing 9) on)
     s.handshakeFails .heldTimeout x ∧ ((after .heldTimeout s).ch 3).drive = .releasing) ∧
    (let s := bus (.held x) (chan 3 (driven .isolating 9) on)
     s.handshakeFails .heldTimeout x ∧ ((after .heldTimeout s).ch 3).drive = .isolating) := by
  unfold State.handshakeFails; decide

theorem witness_WriteResultsMoveTheCodes_stopping :
    let x := trans (.write 3 9 false)
    let s := fun (f : Transaction → FbcState) =>
      queued [] [⟨3, 0, false⟩] (bus (f x) (chan 3 { driven .stopping 9 with applied := some 8 } on))
    ((s .awaitRelease).ch 3).drive = .stopping ∧ (s .awaitRelease).oq.hasEntry 3 = true ∧
    (s .awaitRelease).fbc.state = .awaitRelease x ∧ (s .awaitBusy).handshakeFails .busyTimeoutExpiry x ∧
    (after .fbsyReleased (s .awaitRelease)).ch 3 = driven .stopping 9 ∧
    (after .fbsyReleased (s .awaitRelease)).oq = ⟨[], [⟨3, 0, false⟩]⟩ ∧
    ((after .busyTimeoutExpiry (s .awaitBusy)).ch 3).sent = some 8 ∧
    ((after .busyTimeoutExpiry (s .awaitBusy)).ch 3).drive = .stopping := by
  unfold State.handshakeFails; decide

theorem witness_LastWriteAndIsolateResults_failures :
    (let x := trans (.write 23 9 false)
     let s := pollWaits (bus (.held x) (chan 23 (driven .stopping 9) on))
     s.handshakeFails .heldTimeout x ∧ (s.ch 23).drive = .stopping ∧ s.psq.pollSlot = some (.poll 23 false) ∧
     (after .heldTimeout s).ch 23 = .reset ∧ (after .heldTimeout s).psq.pollSlot = some (.poll 23 true)) ∧
    (let x := trans (.isolate 3)
     (bus (.awaitRelease x) (chan 3 (driven .isolating 9) on)).handshakeFails .busyTimeoutExpiry x ∧
     (bus (.held x) (chan 3 (driven .isolating 9) on)).handshakeFails .heldTimeout x) := by
  unfold State.handshakeFails; decide

theorem witness_LastWriteAndIsolateResults :
    (let x := trans (.write 3 9 false)
     let s := bus (.awaitRelease x) (chan 3 (driven .stopping 9) on)
     let u := bus (.awaitBusy x) (chan 3 (driven .stopping 9) on)
     s.TransmitterLaw ∧ (s.ch 3).drive = .stopping ∧ s.oq.hasEntry 3 = false ∧ s.fbc.state = .awaitRelease x ∧
     (s.node x.node).answerState ≠ .silent ∧ u.TransmitterLaw ∧ u.fbc.state = .awaitBusy x ∧ (u.node x.node).nodeFaults = 0) ∧
    (let x := trans (.isolate 3)
     let s := bus (.awaitRelease x) (chan 3 (driven .isolating 9) on)
     let u := bus (.awaitBusy x) (chan 3 (driven .isolating 9) on)
     (s.ch 3).drive = .isolating ∧ s.oq.hasEntry 3 = false ∧ s.fbc.state = .awaitRelease x ∧ u.fbc.state = .awaitBusy x) :=
  ⟨⟨fun _ => rfl, by decide, by decide, by decide, by decide, fun _ => rfl, by decide, by decide⟩, by decide⟩

theorem witness_StrayReadingsAreLatched :
    on.TransmitterLaw ∧ on.fbc.frx = .taking ∧ on.fbc.state = .idle ∧ (trans (.poll 3)).matchesReading ⟨1, 1, 0, false, true⟩ = false ∧
    readingVerdict [⟨0x3A, true, true⟩, ⟨1, false, false⟩] = .malformed ∧ idleFirst [⟨0x3A, true, true⟩, ⟨1, false, false⟩] = true ∧
    readingVerdict [⟨0x3A, true, false⟩, ⟨1, true, true⟩] = .broken ∧
    readingVerdict (cleanFieldBytes [0x3A, 1, 0, 0, 5, 0, 0]) = .badCheck ∧
    { on with fbc := { on.fbc with frx := .discarding } }.fbc.frx = .discarding :=
  ⟨fun _ => rfl, by decide, by decide, by decide, by decide, by decide, by decide, by decide +kernel, by decide⟩

theorem witness_StrayReadingsAreLatched_characters :
    (0x3B : Byte) ≠ 0x3A ∧ (2 : Byte) ≠ 0 ∧ (2 : Byte) ≠ 1 ∧ (0 : Byte) ≠ crc8 ((readingFrame ⟨1, 0, 5, false, true⟩).take 6) ∧
    receivedReading ⟨1, 0, 5, false, true⟩ = [⟨0x3A, true, true⟩] ++ ⟨1, true, false⟩ ::
      cleanFieldBytes ([0, 0, 5, 0] ++ [crc8 [0x3A, 1, 0, 0, 5, 0]]) := by decide +kernel

theorem witness_ReadingOfASteadyChannelIsEvaluated :
    let x := trans (.poll 3)
    let s := bus (.awaitReply x) live
    s.fbc.state = .awaitReply x ∧ s.fbc.frx = .taking ∧ x.matchesReading ⟨1, 0, 0xFFFF, false, true⟩ = true ∧ (s.ch 3).drive = .steady ∧
    (s.ch 3).action = effectiveAction (s.entry 3) (s.ch 3).active ∧ (s.ch 3).injectLeft = 0 ∧ (s.ch 3).settleLeft = 0 ∧
    (s.ch 3).applied = some 9 ∧ (s.entry 3).window.val < codesApart 0xFFFF 9 ∧ ¬ (s.entry 3).window.val < codesApart 4104 9 := by decide

/-! Witnesses of `OffersReadback`: report modes OFF, EVERY and DELTA at the boundary of deadband, and high_water at the occupancy and one
above it, with and without the ALARM of the same reading. -/

/-- Channel 3 polled in this context, its entry reporting in this mode, with one report queued and high_water at `high`. -/
def reporting (m : ReportMode) (high : Fin 24) (x : ChannelCtx) : State :=
  let s := bus (.awaitReply (trans (.poll 3)))
    (entryIs 3 { ChannelEntry.default with reportMode := m, deadband := 4, window := 0, faultLimit := 0,
                                           alarmMask := ⟨true, false, false, false, false⟩ } (chan 3 x (sending on)))
  { s with rq := [aReport], mgx := { s.mgx with config := { s.mgx.config with highWater := high } } }

theorem witness_OffersReadback_due :
    (let s := reporting .delta 4 { driven .steady 9 with lastReported := some 13 }
     readbackOffered (s.entry 3) (s.ch 3) 9 ∧ ¬ readbackOffered (s.entry 3) (s.ch 3) 10) ∧
    (let s := reporting .delta 4 (driven .steady 9)
     readbackOffered (s.entry 3) (s.ch 3) 9) ∧
    (let s := reporting .off 4 (driven .moving 9)
     ¬ readbackOffered (s.entry 3) (s.ch 3) 9) := by
  refine ⟨⟨.inr ⟨rfl, ?_⟩, ?_⟩, .inr ⟨rfl, ?_⟩, ?_⟩
  · rintro _ ⟨⟩; decide
  · rintro (h | ⟨_, h⟩)
    · cases h
    · exact absurd (h 13 rfl) (by decide)
  · rintro _ ⟨⟩
  · exact not_or.mpr ⟨by decide, fun h => absurd h.1 (by decide)⟩

theorem witness_OffersReadback_admitted :
    let r : Reading := ⟨1, 0, 9, false, true⟩
    (∀ d ∈ [DriveState.steady, .moving], let s := reporting .delta 4 { driven d 9 with lastReported := some 13 }
      s.occupancyAfterAlarm 3 ((after (.readingReceived r) s).ch 3).active = 1 ∧
      ((after (.readingReceived r) s).ch 3).lastReported = some 9 ∧
      (after (.readingReceived r) s).rq = [aReport, .readback 3 9 false d .none]) ∧
    (∀ d ∈ [DriveState.steady, .moving], let s := reporting .off 4 (driven d 9)
      ((after (.readingReceived r) s).ch 3).lastReported = none ∧ (after (.readingReceived r) s).rq = [aReport]) := by decide

theorem witness_OffersReadback_refused :
    let r : Reading := ⟨1, 0, 5, false, true⟩
    let s := fun high => reporting .every high (driven .steady 9)
    ((after (.readingReceived r) (s 4)).ch 3).active.trk = true ∧
    (s 4).occupancyAfterAlarm 3 ((after (.readingReceived r) (s 4)).ch 3).active = 2 ∧
    (after (.readingReceived r) (s 2)).mgx.latches.reportsSuppressed = true ∧
    ((after (.readingReceived r) (s 2)).ch 3).lastReported = none ∧
    (readbacks (after (.readingReceived r) (s 2)).outgoing).length = (readbacks (s 2).outgoing).length ∧
    (after (.readingReceived r) (s 3)).mgx.latches.reportsSuppressed = false ∧
    ((after (.readingReceived r) (s 3)).ch 3).lastReported = some 5 := by decide

/-- Channel 3 of `live` polled, with TRK mapped to an action at its first occurrence. -/
def tracked (a : Action) (settle : Fin 8) : State := bus (.awaitReply (trans (.poll 3)))
  (entryIs 3 { ChannelEntry.default with window := 0, faultLimit := 0, actTrack := a } (chan 3 { driven .steady 9 with settleLeft := settle } on))

theorem witness_ReadingOfASteadyChannelIsEvaluated_actions :
    (∀ p ∈ [(Action.safe, (0 : Fin 8)), (.isolate, 0), (.hold, 7)],
      ((tracked p.1 p.2).ch 3).drive = .steady ∧
      ((tracked p.1 p.2).ch 3).action = effectiveAction ((tracked p.1 p.2).entry 3) ((tracked p.1 p.2).ch 3).active) ∧
    ((after (.readingReceived ⟨1, 0, 5, false, true⟩) (tracked .safe 0)).ch 3).goal = some 0 ∧
    ((after (.readingReceived ⟨1, 0, 5, false, true⟩) (tracked .isolate 0)).ch 3).drive = .isolating ∧
    ((after (.readingReceived ⟨1, 0, 5, false, true⟩) (tracked .hold 7)).ch 3).settleLeft = 6 := by decide

theorem witness_PollResultsOutsideSteady :
    let x := trans (.poll 3)
    let e := { ChannelEntry.default with reportMode := .every }
    let s := bus (.awaitReply x) (entryIs 3 e (chan 3 (driven .releasing 9) on))
    s.TransmitterLaw ∧ s.fbc.state = .awaitReply x ∧ s.fbc.frx = .taking ∧ x.matchesReading ⟨1, 0, 5, false, true⟩ = true ∧
    (s.ch 3).drive = .releasing ∧ (s.ch 3).injectLeft = 0 ∧ (s.ch 3).active.noresp = false ∧ (s.entry 3).reportMode = .every ∧
    s.rq.length < s.mgx.config.highWater.val ∧ s.mgx.config.highWater.val ≤ (List.replicate 16 aReport).length :=
  ⟨fun _ => rfl, by decide, by decide, by decide, by decide, by decide, by decide, by decide, by decide, by decide⟩

theorem witness_PollResultsOutsideSteady_failures :
    let x := trans (.poll 3)
    (bus (.held x) (chan 3 (driven .stopping 9) on)).pollFails .heldTimeout x ∧
    (bus (.awaitReply x) live).pollFails .responseTimeoutExpiry x ∧
    (bus (.awaitReply x) live).pollFails (.readingReceived ⟨1, 0, 5, true, true⟩) x :=
  ⟨.inr (.inl ⟨rfl, rfl⟩), .inl ⟨rfl, rfl⟩, .inr (.inr ⟨_, rfl, rfl, .inl rfl, by decide, rfl⟩)⟩

theorem witness_PollResultsOutsideSteady_delta :
    let e := { ChannelEntry.default with reportMode := .delta, deadband := 4 }
    let s := bus (.awaitReply (trans (.poll 3))) (entryIs 3 e (chan 3 { driven .isolated 9 with lastReported := some 1 } on))
    (s.entry 3).reportMode = .delta ∧ (s.ch 3).lastReported = some 1 ∧ (s.entry 3).deadband.val ≤ codesApart 5 1 ∧
    ¬ (s.entry 3).deadband.val ≤ codesApart 4 1 ∧
    ((after (.readingReceived ⟨1, 0, 5, false, true⟩) s).ch 3).lastReported = some 5 ∧
    ((after (.readingReceived ⟨1, 0, 4, false, true⟩) s).ch 3).lastReported = some 1 := by decide

theorem witness_PollResultsOutsideSteady_driving :
    let s := fun d => bus (.awaitReply (trans (.poll 3))) (chan 3 { driven d 9 with sent := some 8, settleLeft := 7 } on)
    ((s .moving).ch 3).drive = .moving ∧ ((s .moving).ch 3).injectLeft = 0 ∧ ((s .stopping).ch 3).drive = .stopping ∧
    ((s .stopping).ch 3).active.noresp = false ∧ (s .stopping).TransmitterLaw :=
  ⟨by decide, by decide, by decide, by decide, fun _ => rfl⟩

theorem witness_CalibrationFollowsTheEntry :
    let e := { ChannelEntry.default with offset := 0x8000, codeMin := 5, codeMax := 9, safeCode := 7 }
    e.codeMin.toNat ≤ e.codeMax.toNat ∧ calibrate e 0 = (5, true) ∧ calibrate e 0xFFFF = (9, true) ∧ calibrate e 32775 = (7, false) := by
  decide

theorem witness_StepCodeFollowsTheTable :
    let e := { ChannelEntry.default with slewStep := 10, slewShape := .eased }
    (100 : Code).toNat + 7 = (107 : Code).toNat ∧ e.slewStep ≠ 0 ∧ (4 : Nat) = Nat.min e.slewStep.val ((7 + 1) / 2) ∧
    stepCode e false 100 107 = 104 ∧ stepCode e false 107 100 = 103 ∧ stepCode e true 100 107 = 107 := by decide

theorem witness_CorrectedReadingIsLimited :
    correctedReading ⟨true, .answering, 0, .valid, 2047⟩ 5 = 0 ∧ correctedReading ⟨true, .answering, 0, .valid, -2048⟩ 65000 = 65535 ∧
    correctedReading ⟨true, .answering, 0, .rejected, 100⟩ 5 = 5 := by decide

theorem witness_StepTimerExpiryActsByState :
    (let s := chan 3 { driven .moving 9 with sent := some 4, applied := some 4, stepTimer := .running 1 } on
     s.TransmitterLaw ∧ (s.ch 3).stepTimer.isRunning = true ∧ (s.ch 3).drive = .moving ∧ s.hasWork 3 = false ∧
     (s.ch 3).sent = some 4 ∧ (s.ch 3).goal = some 9) ∧
    (let s := chan 3 { driven .releasing 9 with stepTimer := .running 1 } on
     (s.ch 3).stepTimer.isRunning = true ∧ (s.ch 3).drive = .releasing ∧ s.hasWork 3 = false) ∧
    (let s := queued [] [⟨3, 5, false⟩] (chan 3 { driven .moving 9 with stepTimer := .running 1 } on)
     (s.ch 3).stepTimer.isRunning = true ∧ s.hasWork 3 = true) :=
  ⟨⟨fun _ => rfl, by decide, by decide, by decide, by decide, by decide⟩, by decide, by decide⟩

/-- A walk in slot `i` with its timers running. -/
def walking (i : Fin 16) (mode : SeqMode) (period : Fin 1001) (s : State) : State := { s with psq := { s.psq with
  state := .running, currentIndex := i, spacingTimer := .running 1, cycleTimer := .running 1
  record := { s.psq.record with stopIndex := 15, mode := mode, cyclePeriod := period } } }

theorem witness_SlotsAndCyclesEnd :
    (walking 15 .once 0 on).TransmitterLaw ∧ (walking 15 .once 0 on).psq.spacingTimer = .running 1 ∧
    (walking 15 .once 0 on).psq.slotPoll = .none ∧ (walking 15 .once 0 on).psq.currentIndex = (walking 15 .once 0 on).psq.record.lastSlot ∧
    (walking 14 .once 0 on).psq.currentIndex ≠ (walking 14 .once 0 on).psq.record.lastSlot ∧
    (walking 15 .cyclic 1000 on).psq.record.mode = .cyclic ∧ (walking 15 .cyclic 1000 on).psq.record.cyclePeriod ≠ 0 ∧
    (walking 15 .cyclic 0 on).psq.record.cyclePeriod = 0 ∧ (walking 15 .cyclic 0 on).psq.cycleTimer.isRunning = true ∧
    (waiting on).psq.cycleTimer.isRunning = true ∧ (waiting on).psq.state = .waiting :=
  ⟨fun _ => rfl, by decide, by decide, by decide, by decide, by decide, by decide, by decide, by decide, by decide, by decide⟩

/-- The slot's poll is in flight, and the spacing timer has expired. -/
def awaited (s : State) : State :=
  { bus (.awaitReply { trans .zero with point := none }) s with psq := { s.psq with slotPoll := .inFlight, spacingTimer := .expired } }

theorem witness_SlotsAndCyclesEnd_polls :
    ({ trans .zero with point := none } : Transaction).matchesReading ⟨1, 7, 0, false, true⟩ = true ∧
    (walking 14 .once 0 on).psq.spacingTimer.isRunning = true ∧ (awaited (walking 14 .once 0 on)).psq.slotPoll = .inFlight ∧
    (awaited (walking 14 .once 0 on)).psq.state = .running ∧ (awaited (walking 14 .once 0 on)).psq.currentIndex ≠ 15 ∧
    (awaited (walking 14 .once 0 on)).psq.record.lastSlot = 15 := by decide

theorem test_slot_ends_with_its_poll :
    (after .responseTimeoutExpiry (awaited (walking 14 .once 0 on))).psq.currentIndex = 15 ∧
    (after .responseTimeoutExpiry (awaited (walking 15 .cyclic 1000 on))).psq.state = .waiting ∧
    (after .responseTimeoutExpiry (awaited (walking 15 .cyclic 0 on))).psq.currentIndex = 0 := by decide +kernel

theorem witness_SilenceTimerExpirySilencesThePart :
    let s := { live with act := ⟨.quiet, .running 1⟩ }
    s.TransmitterLaw ∧ s.act.state = .quiet ∧ s.act.timer.isRunning = true ∧
    (∀ c, (s.ch c).action = effectiveAction (s.entry c) (s.ch c).active) ∧ (∀ c, (s.entry c).alarmMask.silence = false) ∧
    (s.ch 3).drive ≠ .off ∧ (s.ch 4).drive = .off :=
  ⟨fun _ => rfl, by decide, by decide, by decide, by decide, by decide, by decide⟩

theorem test_silenceTimerExpiry_reaches_the_drive :
    let s := { entryIs 3 { ChannelEntry.default with actSilence := .isolate } live with act := ⟨.quiet, .running 1⟩ }
    ((after .silenceTimerExpiry s).ch 3).drive = .isolating ∧ (after .silenceTimerExpiry s).oq.isolates = [3] := by decide +kernel

theorem witness_SilenceEndsOnEveryChannel :
    let s := { silent live with mgx := { live.mgx with config := { live.mgx.config with silenceTimeout := 255 } } }
    let r : List Byte := [0, 4, 5, 1, 1, 0, 0]
    s.TransmitterLaw ∧ s.clp.rx ≠ .hunt ∧ s.mgx.mode = .run ∧ s.act.state = .silent ∧ 24 ≤ (24 : Byte).toNat ∧
    (∀ c, (s.entry c).alarmMask.silence = false) ∧ (∀ c, (s.ch c).action = effectiveAction (s.entry c) (s.ch c).active) ∧
    ready (.writeEntryPart 1 0 r) (asked (.writeEntryPart 1 0 r) s) = true ∧ s.pst.state.isSaving = false ∧ byteAt r 0 = 0 ∧
    s.mgx.config.silenceTimeout ≠ 0 ∧ s.switchPending = false ∧ configRecordValid r :=
  ⟨fun _ => rfl, by decide, by decide, by decide, by decide, by decide, by decide, by decide, by decide, by decide, by decide,
    by decide, by unfold configRecordValid; decide⟩

theorem witness_ActionChangeReachesTheDrive :
    (on.ch 3).drive = .off ∧ (live.ch 3).drive = .steady ∧ live.oq.hasIsolate 3 = false ∧
    ((chan 3 (driven .releasing 9) on).ch 3).drive = .releasing := by decide

theorem witness_ActionChangeReachesTheDrive_highest :
    let e := { ChannelEntry.default with actTrack := .hold, actLimit := .safe, actNoresp := .isolate, actSilence := .safe }
    e.mapsTo ⟨true, true, false, false, false⟩ .safe ∧ ¬ e.mapsTo ⟨true, true, false, false, false⟩ .isolate ∧
    effectiveAction e ⟨true, true, false, false, false⟩ = .safe ∧ effectiveAction e ⟨true, true, true, true, true⟩ = .isolate ∧
    effectiveAction e ⟨true, false, false, false, false⟩ = .hold ∧ ¬ e.mapsTo .empty .hold ∧ effectiveAction e .empty = .none := by
  unfold ChannelEntry.mapsTo; decide

theorem witness_ActionChangeReachesTheDrive_recompute :
    let e := { ChannelEntry.default with actLimit := .safe, alarmMask := ⟨false, true, false, false, false⟩ }
    let s := entryIs 3 e live
    effectiveAction (s.entry 3) (s.ch 3).active = (s.ch 3).action ∧ s.TransmitterLaw ∧
    effectiveAction (s.entry 3) ⟨false, true, false, false, false⟩ ≠ (s.ch 3).action ∧
    (s.ch 3).active.touches ⟨false, true, false, false, false⟩ (s.entry 3).alarmMask = true ∧
    (s.ch 3).active.touches ⟨false, false, true, false, false⟩ (s.entry 3).alarmMask = false :=
  ⟨by decide, fun _ => rfl, by decide, by decide, by decide⟩

end Sys2Proof.Machine.Tests
end

