-- ==== Sys2Proof/Proofs/ChannelRecord.lean ====
section
/-! SUPPORT. The 31 bytes of a channel entry (Section 9.7): what each field reads back as, that an entry read from a record has that
record as its layout, and that a record reads as an entry exactly when the value checks of R7 pass. -/

namespace Sys2Proof.Machine

/-! ### Fields of one and two bytes -/

theorem be16_toNat (hi lo : Byte) : (be16 hi lo).toNat = hi.toNat * 256 + lo.toNat := by
  have := hi.isLt
  have := lo.isLt
  rw [be16, BitVec.toNat_ofNat]
  omega

theorem bytes16_be16 (hi lo : Byte) : bytes16 (be16 hi lo) = [hi, lo] := by
  have := hi.isLt
  have := lo.isLt
  have hHi : BitVec.ofNat 8 ((be16 hi lo).toNat / 256) = hi := by
    apply BitVec.eq_of_toNat_eq
    rw [be16_toNat, BitVec.toNat_ofNat]
    omega
  have hLo : BitVec.ofNat 8 (be16 hi lo).toNat = lo := by
    apply BitVec.eq_of_toNat_eq
    rw [be16_toNat, BitVec.toNat_ofNat]
    omega
  rw [bytes16, hHi, hLo]

/-- The two bytes of a value make up the value. -/
theorem word_bytes16 (w : BitVec 16) :
    (BitVec.ofNat 8 (w.toNat / 256)).toNat * 256 + (BitVec.ofNat 8 w.toNat).toNat = w.toNat := by
  have := w.isLt
  simp only [BitVec.toNat_ofNat]
  omega

theorem finOf?_of_le {n x : Nat} (h : x ≤ n) : finOf? (n + 1) x = some ⟨x, Nat.lt_succ_of_le h⟩ := finOf?_eq_some rfl

theorem byteOf_of_finOf? {n : Nat} {b : Byte} {i : Fin n} (h : finOf? n b.toNat = some i) : byteOf i.val = b := by
  rw [← finOf?_some_iff.mp h, byteOf_toNat]

theorem bytes16_of_finOf? {n : Nat} {hi lo : Byte} {i : Fin n} (h : finOf? n (be16 hi lo).toNat = some i) :
    bytes16 (BitVec.ofNat 16 i.val) = [hi, lo] := by
  rw [← finOf?_some_iff.mp h, BitVec.ofNat_toNat, BitVec.setWidth_eq, bytes16_be16]

/-! ### The coded fields (Section 9.7, common encodings) -/

/-- The byte that names a node is its number, 1 to 30. -/
theorem nodeOf?_some_iff {b : Byte} {n : Node} : nodeOf? b = some n ↔ b.toNat = n.val + 1 := by
  refine ⟨fun h => ?_, nodeOf?_eq_some⟩
  unfold nodeOf? at h
  split at h
  · cases h
  · next hb =>
    have hpos : b.toNat ≠ 0 := fun h0 => hb (BitVec.eq_of_toNat_eq h0)
    have := finOf?_some_iff.mp h
    omega

theorem nodeByte_of_nodeOf? {b : Byte} {n : Node} (h : nodeOf? b = some n) : nodeByte n = b := by
  rw [nodeByte, ← nodeOf?_some_iff.mp h, byteOf_toNat]

theorem exists_nodeOf?_iff {b : Byte} : (∃ n, nodeOf? b = some n) ↔ 1 ≤ b.toNat ∧ b.toNat ≤ 30 := by
  simp only [nodeOf?_some_iff]
  constructor
  · rintro ⟨n, hn⟩
    omega
  · rintro ⟨h1, h30⟩
    exact ⟨⟨b.toNat - 1, by omega⟩, by simp only; omega⟩

theorem reportModeOf?_some_iff {b : Byte} {m : ReportMode} : reportModeOf? b = some m ↔ m.code = b := by
  unfold reportModeOf?
  constructor
  · intro h
    split_ifs at h with h0 h1 h2 <;> cases h
    exacts [h0.symm, h1.symm, h2.symm]
  · rintro rfl
    cases m <;> rfl

theorem exists_reportModeOf?_iff {b : Byte} : (∃ m, reportModeOf? b = some m) ↔ b.toNat ≤ 2 := by
  simp only [reportModeOf?_some_iff]
  constructor
  · rintro ⟨m, rfl⟩
    cases m <;> decide
  · intro h
    obtain h | h | h : b.toNat = 0 ∨ b.toNat = 1 ∨ b.toNat = 2 := by omega
    · exact ⟨.off, BitVec.eq_of_toNat_eq h.symm⟩
    · exact ⟨.every, BitVec.eq_of_toNat_eq h.symm⟩
    · exact ⟨.delta, BitVec.eq_of_toNat_eq h.symm⟩

theorem exists_classSetOf?_iff {b : Byte} : (∃ k, classSetOf? b = some k) ↔ b.toNat < 32 := by
  simp [classSetOf?]

theorem byte_of_classSetOf? {b : Byte} {k : ClassSet} (h : classSetOf? b = some k) : k.byte = b := by
  have hb : b.toNat < 32 := exists_classSetOf?_iff.mp ⟨k, h⟩
  rw [classSetOf?, if_pos hb] at h
  cases h
  have hsum : b.toNat % 2 + 2 * (b.toNat / 2 % 2) + 4 * (b.toNat / 4 % 2) + 8 * (b.toNat / 8 % 2) + 16 * (b.toNat / 16 % 2) =
      b.toNat := by omega
  simp only [ClassSet.byte, BitVec.getLsbD, Nat.toNat_testBit]
  simpa using congrArg byteOf hsum

theorem ClassSet.byte_lt (k : ClassSet) : k.byte.toNat < 32 := by
  have h (b : Bool) : b.toNat ≤ 1 := Bool.toNat_le b
  have := h k.trk
  have := h k.high
  have := h k.low
  have := h k.noresp
  have := h k.silence
  rw [ClassSet.byte, byteOf, BitVec.toNat_ofNat]
  omega

theorem actionOf_code (n : Nat) : (actionOf n).code = n % 4 := by
  obtain h | h | h | h : n % 4 = 0 ∨ n % 4 = 1 ∨ n % 4 = 2 ∨ n % 4 = 3 := by omega
  all_goals simp [actionOf, h, Action.code]

/-- Four two-bit action codes make up the action byte. -/
theorem byteOf_actionCodes (b : Byte) :
    byteOf ((actionOf b.toNat).code + 4 * (actionOf (b.toNat / 4)).code + 16 * (actionOf (b.toNat / 16)).code +
      64 * (actionOf (b.toNat / 64)).code) = b := by
  have := b.isLt
  have hsum : b.toNat % 4 + 4 * (b.toNat / 4 % 4) + 16 * (b.toNat / 16 % 4) + 64 * (b.toNat / 64 % 4) = b.toNat := by omega
  simp only [actionOf_code]
  rw [hsum, byteOf_toNat]

/-- The two bits of the mode byte: start_enabled and slew_shape. -/
theorem modeBits (m : Fin 4) :
    (m.val % 2 == 1).toNat + 2 * ((if m.val / 2 = 1 then SlewShape.eased else .linear) == .eased).toNat = m.val := by
  revert m; decide

/-! ### The whole record -/

theorem ChannelEntry.ok_iff {e : ChannelEntry} : e.ok = true ↔
    e.gainN ≠ 0 ∧ e.slewInterval ≠ 0 ∧ e.codeMin.toNat ≤ e.safeCode.toNat ∧ e.safeCode.toNat ≤ e.codeMax.toNat ∧
      e.limitLo.toNat ≤ e.limitHi.toNat := by
  simp [ChannelEntry.ok, and_assoc]

/-- The layout of an entry that satisfies the relations of R7 passes the value checks, byte by byte. -/
theorem channelRecordValid_bytes {e : ChannelEntry} (he : e.ok = true) : channelRecordValid e.bytes := by
  obtain ⟨hgain, hinterval, hmin, hmax, hlimits⟩ := ChannelEntry.ok_iff.mp he
  have hgain0 : e.gainN.toNat ≠ 0 := fun h0 => hgain (BitVec.eq_of_toNat_eq h0)
  have hinterval0 : e.slewInterval.val ≠ 0 := fun h0 => hinterval (Fin.ext h0)
  have hmode := exists_reportModeOf?_iff.mp ⟨_, reportModeOf?_some_iff.mpr (rfl : e.reportMode.code = _)⟩
  have hmask := e.alarmMask.byte_lt
  have hstart := e.startEnabled.toNat_le
  have hshape := (e.slewShape == .eased).toNat_le
  simp only [channelRecordValid, byteAt, wordAt, ChannelEntry.bytes, bytes16, List.cons_append, List.nil_append,
    List.getD_cons_succ, List.getD_cons_zero, word_bytes16, nodeByte, byteOf]
  simp only [BitVec.toNat_ofNat]
  refine ⟨⟨?_, ?_⟩, ?_, ?_, Nat.one_le_iff_ne_zero.mpr hgain0, hmin, hmax, ?_, ⟨?_, ?_⟩, ?_, ?_, hlimits, ?_, ?_, hmode, ?_, ?_⟩
  all_goals omega

/-- An entry read from a record has that record as its layout. -/
theorem bytes_of_channelEntryOf? {r : List Byte} {e : ChannelEntry} (h : channelEntryOf? r = some e) : e.bytes = r := by
  unfold channelEntryOf? at h
  split at h
  · obtain ⟨node, hnode, h⟩ := Option.bind_eq_some_iff.mp h
    obtain ⟨point, hpoint, h⟩ := Option.bind_eq_some_iff.mp h
    obtain ⟨mode, hmode, h⟩ := Option.bind_eq_some_iff.mp h
    obtain ⟨slewStep, hstep, h⟩ := Option.bind_eq_some_iff.mp h
    obtain ⟨slewInterval, hinterval, h⟩ := Option.bind_eq_some_iff.mp h
    obtain ⟨settleCount, hsettle, h⟩ := Option.bind_eq_some_iff.mp h
    obtain ⟨window, hwindow, h⟩ := Option.bind_eq_some_iff.mp h
    obtain ⟨faultLimit, hfault, h⟩ := Option.bind_eq_some_iff.mp h
    obtain ⟨norespLimit, hnoresp, h⟩ := Option.bind_eq_some_iff.mp h
    obtain ⟨reportMode, hreport, h⟩ := Option.bind_eq_some_iff.mp h
    obtain ⟨deadband, hdeadband, h⟩ := Option.bind_eq_some_iff.mp h
    obtain ⟨alarmMask, hmask, h⟩ := Option.bind_eq_some_iff.mp h
    obtain ⟨-, he⟩ := Option.ite_none_right_eq_some.mp h
    cases he
    simp [ChannelEntry.bytes, ChannelEntry.actions, nodeByte_of_nodeOf? hnode, byteOf_of_finOf? hpoint, modeBits,
      byteOf_of_finOf? hmode, bytes16_be16, bytes16_of_finOf? hstep, byteOf_of_finOf? hinterval, byteOf_of_finOf? hsettle,
      bytes16_of_finOf? hwindow, byteOf_of_finOf? hfault, byteOf_of_finOf? hnoresp, byteOf_actionCodes,
      reportModeOf?_some_iff.mp hreport, bytes16_of_finOf? hdeadband, byte_of_classSetOf? hmask]
  · cases h

/-- A record that passes the value checks is refused by no field's range and by no relation between the fields (R7). -/
theorem channelEntryOf?_isSome {r : List Byte} (hlen : r.length = 31) (hv : channelRecordValid r) :
    (channelEntryOf? r).isSome = true := by
  match r, hlen with
  | [b0, b1, b2, b3, b4, b5, b6, b7, b8, b9, b10, b11, b12, b13, b14, b15, b16, b17, b18, b19, b20, b21, b22, b23, b24,
     b25, b26, b27, b28, b29, b30], _ =>
    simp only [channelRecordValid, byteAt, wordAt, List.getD_cons_succ, List.getD_cons_zero, ← be16_toNat] at hv
    obtain ⟨hnode, hpoint, hmode, hgain, hmin, hmax, hstep, hinterval, hsettle, hwindow, hlimits, hfault, hnoresp, hreport,
      hdeadband, hmask⟩ := hv
    obtain ⟨node, hnode⟩ := exists_nodeOf?_iff.mpr hnode
    obtain ⟨mode, hreport⟩ := exists_reportModeOf?_iff.mpr hreport
    obtain ⟨mask, hmask⟩ := exists_classSetOf?_iff.mpr (Nat.lt_succ_of_le hmask)
    have hgain0 : be16 b3 b4 ≠ 0 := fun h0 => by rw [h0] at hgain; cases hgain
    simp only [channelEntryOf?, hnode, finOf?_of_le hpoint, finOf?_of_le hmode, finOf?_of_le hstep, finOf?_of_le hinterval.2,
      finOf?_of_le hsettle, finOf?_of_le hwindow, finOf?_of_le hfault, finOf?_of_le hnoresp, hreport, finOf?_of_le hdeadband, hmask,
      Option.bind_eq_bind, Option.bind_some]
    rw [if_pos]
    · rfl
    · refine ChannelEntry.ok_iff.mpr ⟨hgain0, ?_, hmin, hmax, hlimits⟩
      exact Fin.ne_of_val_ne (Nat.one_le_iff_ne_zero.mp hinterval.1)

/-- A record that fails a value check of R7 reads as no entry: one that did would have it as the layout of a checked entry. -/
theorem channelEntryOf?_eq_none {r : List Byte} (hv : ¬ channelRecordValid r) : channelEntryOf? r = none := by
  refine Option.eq_none_iff_forall_ne_some.mpr fun e he => hv ?_
  rw [← bytes_of_channelEntryOf? he]
  exact channelRecordValid_bytes (channelEntryOf?_ok he)

/-- A record of 31 bytes that passes the value checks of R7 reads as the entry whose layout it is. -/
theorem channelEntryOf?_eq_some {r : List Byte} (hlen : r.length = 31) (hv : channelRecordValid r) :
    ∃ e : ChannelEntry, e.bytes = r ∧ channelEntryOf? r = some e := by
  obtain ⟨e, he⟩ := Option.isSome_iff_exists.mp (channelEntryOf?_isSome hlen hv)
  exact ⟨e, bytes_of_channelEntryOf? he, he⟩

end Sys2Proof.Machine
end

