-- ==== Sys2Proof/Proofs/WriteEntryChannel.lean ====
section
/-! PROOF. WRITE_ENTRY of a channel entry (R6, R7): one outcome per check, in the order of the checks. -/

namespace Sys2Proof.Machine

theorem exec_writeEntryChannel (tag index : Byte) (record : List Byte) (s : State) :
    exec (.writeEntryChannel tag index record) s = execWriteEntryChannel tag index record s :=
  rfl

@[simp] theorem State.withFrames_pst (s : State) (q : List (List Byte)) : (s.withFrames q).pst = s.pst := rfl
@[simp] theorem State.withFrames_ch (s : State) (q : List (List Byte)) (c : ChannelNo) : (s.withFrames q).ch c = s.ch c := rfl

/-- Settles O25: each check that fails ends the command with its own completion and a state otherwise untouched; the record that
passes them all reads as the entry whose layout it is (`channelEntryOf?_eq_some`). -/
theorem writeEntryChannelChecksInOrder : Obligations.WriteEntryChannelChecksInOrder := by
  intro tag index record rest s hlaw hlen htakes
  rw [exec_writeEntryChannel]
  unfold execWriteEntryChannel
  refine ⟨fun hindex => ?badIndex, fun c hc => ⟨fun hsaving => ?storeBusy, fun hsaving hdrive => ?chActive,
    fun hsaving hoff hv => ?badValue, fun hsaving hoff hv => ?ok⟩⟩
  case badIndex => exact State.takeCommand_respond htakes hlaw (by rw [channelOf?_eq_none hindex]; rfl)
  all_goals have hchannel := channelOf?_eq_some hc
  case storeBusy => exact State.takeCommand_respond htakes hlaw (by simp [hchannel, hsaving, cmdWriteEntry])
  case chActive => exact State.takeCommand_respond htakes hlaw (by simp [hchannel, hsaving, hdrive, cmdWriteEntry])
  case badValue =>
    have hnone := channelEntryOf?_eq_none hv
    exact State.takeCommand_respond htakes hlaw (by simp [hchannel, hsaving, hoff, hnone, cmdWriteEntry])
  case ok =>
    obtain ⟨e, hbytes, he⟩ := channelEntryOf?_eq_some hlen hv
    refine ⟨e, hbytes, ?_⟩
    exact State.takeCommand_respond_of (u := (s.withFrames rest).setEntry c e) htakes hlaw
      (by simp [hchannel, hsaving, hoff, he, State.respond, cmdWriteEntry]) (by simp) (by simp)

end Sys2Proof.Machine
end

