-- ==== Sys2Proof/Proofs/ChannelCommands.lean ====
section
/-! SUPPORT. What the management commands on a channel share: the end of a command that has offered reports (R176, R177), a WRITE placed
with no ISOLATE ahead of it (R47), and what an arrival at OFF changes and leaves unchanged (R41, R75, R92). -/

namespace Sys2Proof.Machine

/-! ### A command with reports -/

/-- The end of a command: the transmission that may begin moves reports alone. -/
theorem State.respond_onlyReports (s : State) (tag cmd : Byte) (k : Completion) (data : List Byte) :
    s.OnlyReports (s.respond tag cmd k data).beginTransmission :=
  (s.onlyReports_setRq _).trans (State.beginTransmission_onlyReports _)

/-- The end of a command: the RESPONSE stands behind the reports that the command has offered. -/
theorem State.respond_outgoing (s : State) (tag cmd : Byte) (k : Completion) (data : List Byte) :
    (s.respond tag cmd k data).beginTransmission.outgoing = s.outgoing ++ [answer tag cmd k data] := by
  rw [State.beginTransmission_outgoing]
  simp [State.outgoing, State.respond, State.respondThen, State.placeReport, answer]

theorem State.offerAlarm_outgoing {s : State} (h : s.TransmitterLaw) (c : ChannelNo) (active latched : ClassSet) (a : Action) :
    (s.offerAlarm c active latched a).outgoing = s.clp.tx.toList ++ alarmPlaced s.rq c active latched a := by
  rw [State.offerAlarm_of_law h, State.outgoing, State.clp_setRq, State.rq_setRq]

/-- The frame of the reports, read beside any field bus and any sequencer. -/
theorem State.OnlyReports.withField {s t : State} (h : s.OnlyReports t) (f : FieldBus) (q : Sequencer) :
    State.OnlyReports { s with fbc := f, psq := q } { t with fbc := f, psq := q } where
  link := h.link
  tables := h.tables
  channels := h.channels
  field := ⟨rfl, rfl⟩
  units := h.units
  waiting := h.waiting
  pairs := h.pairs

/-! ### A placed WRITE -/

/-- A WRITE placed where no ISOLATE of the channel is queued: coalesced in place, otherwise new at the tail (R47). -/
theorem OutputQueue.placeWrite_of_noIsolate {q : OutputQueue} {c : ChannelNo} (hi : q.hasIsolate c = false) (k : Code) (r : Bool) :
    q.placeWrite c k r = { q with
      writes :=
        if q.hasWrite c then q.writes.map fun w => if w.channel = c then ⟨c, k, w.reconnect || r⟩ else w
        else q.writes ++ [⟨c, k, r⟩] } := by
  have hcoalesce : WriteEntry.coalesce c k r = fun w => if w.channel = c then ⟨c, k, w.reconnect || r⟩ else w := by
    funext w
    unfold WriteEntry.coalesce
    split
    · next hw => rw [hw]
    · rfl
  unfold OutputQueue.placeWrite
  rw [if_neg (by simp [hi]), hcoalesce]
  split <;> rfl

/-! ### Arrival at OFF -/

@[simp] theorem Transaction.markStale_job (c : ChannelNo) (x : Transaction) : (x.markStale c).job = x.job := by
  unfold Transaction.markStale
  split <;> rfl

@[simp] theorem Transaction.markStale_stale (c : ChannelNo) (x : Transaction) :
    (x.markStale c).stale = (x.stale || decide (x.job.channel? = some c)) := by
  unfold Transaction.markStale
  split
  · next hc => simp [hc]
  · next hc => simp [hc]

/-- Only a waiting POLL of the channel takes the stale mark (R92). -/
theorem PollRequest.markStale_of_ne {c : ChannelNo} {p : PollRequest} (h : ∀ m, p ≠ .poll c m) : p.markStale c = p := by
  cases p with
  | zero n => rfl
  | poll d m =>
    have hd : d ≠ c := fun e => h m (e ▸ rfl)
    simp [PollRequest.markStale, hd]

theorem Sequencer.marked_markStale (c : ChannelNo) (q : Sequencer) :
    q.marked c { q with pollSlot := q.pollSlot.map (PollRequest.markStale c) } := by
  refine ⟨fun m hm => ?_, fun hne => ?_⟩
  · simp [hm, PollRequest.markStale]
  · have hslot : q.pollSlot.map (PollRequest.markStale c) = q.pollSlot := by
      cases hp : q.pollSlot with
      | none => rfl
      | some p => rw [Option.map_some, PollRequest.markStale_of_ne fun m e => hne m (by rw [hp, e])]
    rw [hslot]

/-- The part with the channel OFF (R41, R75, R92), before the ALARM report that may be offered. -/
def State.atOff (s : State) (c : ChannelNo) : State := (s.modCh c fun _ => .reset).markStale c

theorem State.atOff_ch (s : State) (c : ChannelNo) : (s.atOff c).ch c = .reset := s.ch_modCh_self c fun _ => .reset

theorem State.atOff_oq (s : State) (c : ChannelNo) : (s.atOff c).oq = s.oq := s.oq_modCh c fun _ => .reset

/-- A transaction in flight stays in flight at an arrival at OFF, and one of the channel is stale from then on (R75). -/
theorem State.atOff_record (s : State) (c : ChannelNo) :
    (s.atOff c).fbc.state.record? = s.fbc.state.record?.map (Transaction.markStale c) :=
  FbcState.record?_mapRecord _ _

theorem State.atOff_psq (s : State) (c : ChannelNo) : s.psq.marked c (s.atOff c).psq := Sequencer.marked_markStale c s.psq

/-- The stale marks apart, an arrival at OFF touches nothing but its channel. -/
theorem State.atOff_onlyChannel (s : State) (c : ChannelNo) :
    State.OnlyChannel c s { s.atOff c with fbc := s.fbc, psq := s.psq } :=
  s.onlyChannel_modCh c fun _ => .reset

theorem State.reachOff_onlyReports (s : State) (c : ChannelNo) : State.OnlyReports (s.atOff c) (s.reachOff c) := by
  unfold State.reachOff
  dsimp only
  split
  · exact State.offerAlarm_onlyReports _ _ _ _ _
  · exact .refl _

/-- The ALARM report of an arrival at OFF (R41). -/
theorem State.reachOff_outgoing {s : State} (h : s.TransmitterLaw) (c : ChannelNo) : (s.reachOff c).outgoing = s.clp.tx.toList ++
    (if ((s.ch c).active.inter (s.entry c).alarmMask).nonempty then alarmPlaced s.rq c .empty .empty .none else s.rq) := by
  unfold State.reachOff
  dsimp only
  split
  · exact State.offerAlarm_outgoing (s := s.atOff c) (h.congr rfl rfl) c .empty .empty .none
  · rfl

end Sys2Proof.Machine
end

