-- ==== Sys2Proof/Proofs/DisableChannel.lean ====
section
/-! PROOF. DISABLE_CHANNEL (R37 to R39, R41): the refusals, the last write of a driving channel, and OFF at once from isolation. -/

namespace Sys2Proof.Machine

theorem exec_disableChannel (tag channel : Byte) (s : State) : exec (.disableChannel tag channel) s = execDisableChannel tag channel s :=
  rfl

/-- A driving channel begins to stop (R37, R39). -/
theorem State.disable_of_driving {s : State} {c : ChannelNo}
    (hd : (s.ch c).drive = .moving ∨ (s.ch c).drive = .steady ∨ (s.ch c).drive = .releasing) : s.disable c = s.beginStopping c := by
  unfold State.disable
  rcases hd with hd | hd | hd <;> rw [hd]

/-- An isolated channel reaches OFF (R37, R38). -/
theorem State.disable_of_isolated {s : State} {c : ChannelNo} (hd : (s.ch c).drive = .isolating ∨ (s.ch c).drive = .isolated) :
    s.disable c = (s.removeEntry c).reachOff c := by
  unfold State.disable
  rcases hd with hd | hd <;> rw [hd] <;> rfl

/-- The state after a disable of a driving channel (R39). -/
theorem State.beginStopping_eq {s : State} {c : ChannelNo} (hi : s.oq.hasIsolate c = false) :
    s.beginStopping c = { s with
      ctx := s.ctx.set c.val { s.ch c with
        drive := .stopping, goal := some (s.entry c).safeCode, sent := some (s.entry c).safeCode }
      oq := { s.oq with writes :=
        if s.oq.hasWrite c then s.oq.writes.map fun w =>
          if w.channel = c then ⟨c, (s.entry c).safeCode, w.reconnect || decide ((s.ch c).drive = .releasing)⟩ else w
        else s.oq.writes ++ [⟨c, (s.entry c).safeCode, decide ((s.ch c).drive = .releasing)⟩] } } := by
  unfold State.beginStopping State.placeWrite
  rw [OutputQueue.placeWrite_of_noIsolate hi]
  rfl

/-- DISABLE_CHANNEL of a channel that it does not refuse (R37). -/
theorem exec_disableChannel_accepted {tag channel : Byte} {c : ChannelNo} {rest : List (List Byte)} {s : State}
    (htakes : s.Takes (.disableChannel tag channel) rest) (hc : channel.toNat = c.val)
    (hd : ¬ ((s.ch c).drive = .off ∨ (s.ch c).drive = .stopping)) :
    exec (.disableChannel tag channel) s =
      .next (((s.withFrames rest).disable c).respond tag 0x06 .ok []).beginTransmission := by
  rw [exec_disableChannel]
  unfold execDisableChannel
  rw [State.takeCommand_of_takes htakes, channelOf?_eq_some hc]
  dsimp only
  rw [State.withFrames_ch, if_neg hd]
  rfl

/-- Settles O30: a refusal answers and changes nothing else; a driving channel takes its last write and stops (`beginStopping_eq`); an
isolated one arrives at OFF at once (`exec_disableChannel_of_isolated`). -/
theorem disableChannelStopsOrReachesOff : Obligations.DisableChannelStopsOrReachesOff := by
  refine ⟨fun tag channel rest s hlaw htakes => ?driving, fun tag channel c rest s hlaw htakes hc hd => ?isolated⟩
  case driving =>
    refine ⟨fun hindex => ?badIndex, fun c hc => ⟨fun hd => ?chOff, fun hd hi => ?stops⟩⟩
    case badIndex =>
      rw [exec_disableChannel]
      unfold execDisableChannel
      exact State.takeCommand_respond htakes hlaw (by rw [channelOf?_eq_none hindex]; rfl)
    case chOff =>
      rw [exec_disableChannel]
      unfold execDisableChannel
      exact State.takeCommand_respond htakes hlaw (by simp [channelOf?_eq_some hc, hd, cmdDisableChannel])
    case stops =>
      have hon : ¬ ((s.ch c).drive = .off ∨ (s.ch c).drive = .stopping) := by
        rcases hd with hd | hd | hd <;> simp [hd]
      rw [exec_disableChannel_accepted htakes hc hon, State.disable_of_driving (s := s.withFrames rest) hd,
        State.beginStopping_eq (s := s.withFrames rest) hi]
      refine congrArg _ (State.beginTransmission_placeReport ?_ _)
      exact hlaw.congr rfl rfl
  case isolated =>
    have hon : ¬ ((s.ch c).drive = .off ∨ (s.ch c).drive = .stopping) := by
      rcases hd with hd | hd <;> simp [hd]
    have hexec := exec_disableChannel_accepted htakes hc hon
    rw [State.disable_of_isolated (s := s.withFrames rest) hd] at hexec
    have hreports := (State.reachOff_onlyReports ((s.withFrames rest).removeEntry c) c).trans
      (State.respond_onlyReports _ tag 0x06 .ok [])
    refine ⟨_, hexec, ?_, ?_, ?_, fun x hx => ⟨x.markStale c, ?_, by simp, by simp⟩, ?_, ?_, ?_⟩
    · rw [hreports.ch, State.atOff_ch]
    · rw [hreports.channels.2, State.atOff_oq]
      rfl
    · rw [hreports.channels.2, State.atOff_oq]
      rfl
    · rw [hreports.field.1, State.atOff_record]
      exact congrArg (Option.map (Transaction.markStale c)) hx
    · rw [hreports.field.2]
      exact State.atOff_psq _ c
    · rw [State.respond_outgoing, State.reachOff_outgoing (s := (s.withFrames rest).removeEntry c) (hlaw.congr rfl rfl)]
      rfl
    · have hOff := State.atOff_onlyChannel ((s.withFrames rest).removeEntry c) c
      exact ((State.onlyChannel_removeEntry _ c).trans hOff).trans ((hreports.withField s.fbc s.psq).onlyChannel c)

end Sys2Proof.Machine
end

