-- ==== Sys2Proof/Proofs/IsolatedAlarms.lean ====
section
/-! SUPPORT. A change of the active set of a channel in ISOLATING or ISOLATED (R24, R34, R123, R131, R137): the drive takes no notice of
it, so it is one of the context and of the reports alone. -/

namespace Sys2Proof.Machine

/-! ### Classes that leave -/

theorem ClassSet.touches_self (a mask : ClassSet) : a.touches a mask = false := by
  simp [ClassSet.touches, ClassSet.minus, ClassSet.union, ClassSet.inter, ClassSet.nonempty]

/-- Leaving classes touch the mask where it names an active one of them (R137). -/
theorem ClassSet.touches_minus (a b mask : ClassSet) : a.touches (a.minus b) mask = (a.inter (mask.inter b)).nonempty := by
  have hbit : ∀ x y m : Bool, ((x && !(x && !y) || (x && !y) && !x) && m) = (x && (m && y)) := by decide
  simp only [ClassSet.touches, ClassSet.minus, ClassSet.union, ClassSet.inter, ClassSet.nonempty, hbit]

/-- Leaving classes latch nothing (R123). -/
theorem ClassSet.union_minus_leaving (latched a b : ClassSet) : latched.union ((a.minus b).minus a) = latched := by
  have hbit : ∀ l x y : Bool, (l || ((x && !y) && !x)) = l := by decide
  simp only [ClassSet.union, ClassSet.minus, hbit]

/-! ### A change of the active set under isolation -/

/-- A drive in ISOLATING or ISOLATED takes no notice of a change of action (R24, R34). -/
theorem State.actionChanged_of_isolated {s : State} {c : ChannelNo} (hd : (s.ch c).drive = .isolating ∨ (s.ch c).drive = .isolated)
    (a : Action) : s.actionChanged c a = s := by
  unfold State.actionChanged
  rcases hd with hd | hd <;> rw [hd]

/-- Under isolation a change of the active set is one of the context and of the reports alone. -/
theorem State.setActive_isolated {s : State} {c : ChannelNo} {active : ClassSet}
    (hd : (s.ch c).drive = .isolating ∨ (s.ch c).drive = .isolated) (hne : active ≠ (s.ch c).active) :
    s.setActive c active =
      let u := s.modCh c (ChannelCtx.activeSet (s.entry c) active)
      if (s.ch c).active.touches active (s.entry c).alarmMask then u.offerAlarm c (u.ch c).active (u.ch c).latched (u.ch c).action
      else u := by
  have hu : ((s.modCh c (ChannelCtx.activeSet (s.entry c) active)).ch c).drive = (s.ch c).drive := by rw [State.ch_modCh_self]; rfl
  rw [State.setActive_eq, if_neg hne]
  simp only [State.actionChanged_of_isolated (hu ▸ hd), ite_self]

/-- Under isolation a change of the active set changes the context and leaves the queue. -/
theorem State.setActive_isolated_onlyReports {s : State} {c : ChannelNo} {active : ClassSet}
    (hd : (s.ch c).drive = .isolating ∨ (s.ch c).drive = .isolated) (hne : active ≠ (s.ch c).active) :
    State.OnlyReports (s.modCh c (ChannelCtx.activeSet (s.entry c) active)) (s.setActive c active) := by
  rw [State.setActive_isolated hd hne]
  dsimp only
  split
  · exact State.offerAlarm_onlyReports _ _ _ _ _
  · exact .refl _

theorem State.setActive_self (s : State) (c : ChannelNo) : s.setActive c (s.ch c).active = s := if_pos rfl

/-- The queue under isolation. -/
theorem State.setActive_isolated_oq {s : State} {c : ChannelNo} (hd : (s.ch c).drive = .isolating ∨ (s.ch c).drive = .isolated)
    (active : ClassSet) : (s.setActive c active).oq = s.oq := by
  by_cases hne : active = (s.ch c).active
  · rw [hne, State.setActive_self]
  · rw [(State.setActive_isolated_onlyReports hd hne).channels.2, State.oq_modCh]

/-- The context under isolation: an event that leaves the set as it was is no change (R123). -/
theorem State.setActive_isolated_ch {s : State} {c : ChannelNo} (hd : (s.ch c).drive = .isolating ∨ (s.ch c).drive = .isolated)
    (active : ClassSet) :
    (s.setActive c active).ch c = if active = (s.ch c).active then s.ch c else (s.ch c).activeSet (s.entry c) active := by
  split
  · next he => rw [he, State.setActive_self]
  · next hne => rw [(State.setActive_isolated_onlyReports hd hne).ch, State.ch_modCh_self]

/-- The ALARM report under isolation (R137). -/
theorem State.setActive_isolated_outgoing {s : State} {c : ChannelNo} (hl : s.TransmitterLaw)
    (hd : (s.ch c).drive = .isolating ∨ (s.ch c).drive = .isolated) (active : ClassSet) :
    (s.setActive c active).outgoing = s.clp.tx.toList ++
      (if (s.ch c).active.touches active (s.entry c).alarmMask then
        alarmPlaced s.rq c ((s.setActive c active).ch c).active ((s.setActive c active).ch c).latched ((s.setActive c active).ch c).action
      else s.rq) := by
  by_cases hne : active = (s.ch c).active
  · rw [hne, State.setActive_self, ClassSet.touches_self]
    rfl
  · rw [(State.setActive_isolated_onlyReports hd hne).ch, State.setActive_isolated hd hne]
    have hlaw : (s.modCh c (ChannelCtx.activeSet (s.entry c) active)).TransmitterLaw := hl.congr (by simp) (by simp)
    dsimp only
    split
    · rw [State.offerAlarm_outgoing hlaw, State.clp_modCh, State.rq_modCh]
    · rw [State.outgoing, State.clp_modCh, State.rq_modCh]

end Sys2Proof.Machine
end

