-- ==== Sys2Proof/Proofs/ReleaseChannel.lean ====
section
/-! PROOF. RELEASE_CHANNEL (R42 to R44, R56, R136, R137): the four checks, the classes that leave, and how the drive resumes. -/

namespace Sys2Proof.Machine

/-! ### The first half of a release: TRK, HIGH and LOW leave (R43) -/

/-- The part when the value classes have left and the drive has not yet resumed (R43). -/
def State.withoutValueClasses (s : State) (c : ChannelNo) : State :=
  (s.modCh c fun x => { x with valueFaults := 0 }).setActive c ((s.ch c).active.minus .valueClasses)

theorem State.release_eq (s : State) (c : ChannelNo) : s.release c = (s.withoutValueClasses c).resumeDrive c := rfl

theorem ClassSet.minus_valueClasses (a : ClassSet) : a.minus .valueClasses = ⟨false, false, false, a.noresp, a.silence⟩ := by
  simp [ClassSet.minus, ClassSet.valueClasses]

/-- The context then, under an effective action: TRK, HIGH and LOW have left, and the latched set keeps every class (R43). -/
def ChannelCtx.released (x : ChannelCtx) (a : Action) : ChannelCtx := { x with
  valueFaults := 0
  active := ⟨false, false, false, x.active.noresp, x.active.silence⟩
  action := a }

section
variable {s : State} {c : ChannelNo} (hd : (s.ch c).drive = .isolating ∨ (s.ch c).drive = .isolated)
include hd

theorem State.withoutValueClasses_cleared :
    ((s.modCh c fun x => { x with valueFaults := 0 }).ch c).drive = .isolating ∨
      ((s.modCh c fun x => { x with valueFaults := 0 }).ch c).drive = .isolated := by
  simpa using hd

theorem State.withoutValueClasses_ch :
    (s.withoutValueClasses c).ch c = (s.ch c).released ((s.withoutValueClasses c).ch c).action := by
  unfold State.withoutValueClasses ChannelCtx.released
  rw [State.setActive_isolated_ch (State.withoutValueClasses_cleared hd), State.ch_modCh_self, ← ClassSet.minus_valueClasses]
  split
  · next he => rw [he]
  · simp only [ChannelCtx.activeSet, ChannelCtx.withActive, ClassSet.union_minus_leaving]

/-- The effective action is recomputed (R43, R130). -/
theorem State.withoutValueClasses_action (ha : (s.ch c).action = effectiveAction (s.entry c) (s.ch c).active) :
    ((s.withoutValueClasses c).ch c).action = effectiveAction (s.entry c) ((s.ch c).active.minus .valueClasses) := by
  unfold State.withoutValueClasses
  rw [State.setActive_isolated_ch (State.withoutValueClasses_cleared hd), State.ch_modCh_self]
  split
  · next he => rw [he, ha]
  · simp [ChannelCtx.activeSet]

theorem State.withoutValueClasses_oq : (s.withoutValueClasses c).oq = s.oq := by
  unfold State.withoutValueClasses
  rw [State.setActive_isolated_oq (State.withoutValueClasses_cleared hd), State.oq_modCh]

/-- The ALARM report of a release (R137). -/
theorem State.withoutValueClasses_outgoing (hl : s.TransmitterLaw) : (s.withoutValueClasses c).outgoing = s.clp.tx.toList ++
    (if ((s.ch c).active.inter ((s.entry c).alarmMask.inter .valueClasses)).nonempty then
      alarmPlaced s.rq c ((s.withoutValueClasses c).ch c).active ((s.withoutValueClasses c).ch c).latched
        ((s.withoutValueClasses c).ch c).action
    else s.rq) := by
  unfold State.withoutValueClasses
  rw [State.setActive_isolated_outgoing (hl.congr (by simp) (by simp)) (State.withoutValueClasses_cleared hd)]
  simp [ClassSet.touches_minus]

end

theorem State.withoutValueClasses_onlyChannel (s : State) (c : ChannelNo) : State.OnlyChannel c s (s.withoutValueClasses c) :=
  (s.onlyChannel_modCh c _).trans (State.setActive_onlyChannel _ c _)

/-! ### The second half of a release: the drive resumes (R43, R44, R56) -/

theorem State.modCh_modCh (s : State) (c : ChannelNo) (f g : ChannelCtx → ChannelCtx) :
    (s.modCh c f).modCh c g = s.modCh c fun x => g (f x) := by
  unfold State.modCh
  simp [State.ch]

theorem State.modCh_congr {s : State} {c : ChannelNo} {f g : ChannelCtx → ChannelCtx} (h : f (s.ch c) = g (s.ch c)) :
    s.modCh c f = s.modCh c g := by
  unfold State.modCh
  rw [h]

theorem State.modCh_of_eq {s : State} {c : ChannelNo} {f : ChannelCtx → ChannelCtx} (h : f (s.ch c) = s.ch c) : s.modCh c f = s := by
  unfold State.modCh
  rw [h]
  simp [State.ch]

/-- From ISOLATED: the reconnecting write (R44). -/
theorem State.resumeDrive_of_isolated {s : State} {c : ChannelNo} (hd : (s.ch c).drive = .isolated) :
    s.resumeDrive c = (s.issueReconnect c).modCh c fun x => { x with drive := .releasing } := by
  unfold State.resumeDrive
  rw [hd]

theorem State.issueReconnect_ch (s : State) (c : ChannelNo) : (s.issueReconnect c).ch c = { s.ch c with
    sent := some ((s.ch c).applied.getD (s.entry c).safeCode)
    stepTimer := .running ((s.entry c).slewInterval.val * 1000) } := by
  unfold State.issueReconnect State.issueWrite
  rw [State.ch_modCh_self]
  rfl

/-- The reconnecting write is new at the tail of the write section (R44, R47). -/
theorem State.issueReconnect_oq {s : State} {c : ChannelNo} (hq : s.oq.hasEntry c = false) : (s.issueReconnect c).oq =
    { s.oq with writes := s.oq.writes ++ [⟨c, (s.ch c).applied.getD (s.entry c).safeCode, true⟩] } := by
  obtain ⟨hi, hw⟩ := (s.oq.hasEntry_eq_false c).mp hq
  unfold State.issueReconnect State.issueWrite State.placeWrite
  rw [State.oq_modCh, State.oq_setOq, OutputQueue.placeWrite_of_noIsolate hi, if_neg (by simp [hw])]
  rfl

/-- The context that enters MOVING from ISOLATING: the sent code is rolled back and the goal set from the action (R24, R43, R56). -/
def ChannelCtx.resumed (e : ChannelEntry) (x : ChannelCtx) : ChannelCtx := { x with
  drive := .moving
  sent := some (x.applied.getD e.safeCode)
  goal := match x.action with
    | .none => x.target
    | .hold => some (x.applied.getD e.safeCode)
    | .safe => some e.safeCode
    | .isolate => x.goal }

/-- With the sent code rolled back, the output is at goal when the applied code is present and is the goal (R26). -/
theorem ChannelCtx.resumed_atGoal (e : ChannelEntry) (x : ChannelCtx) :
    (x.resumed e).atGoal = true ↔ x.applied.isSome = true ∧ (x.resumed e).goal = x.applied := by
  have happlied : (x.resumed e).applied = x.applied := rfl
  have hsent : (x.resumed e).sent = some (x.applied.getD e.safeCode) := rfl
  unfold ChannelCtx.atGoal
  rw [happlied, hsent]
  cases x.applied with
  | none => simp
  | some k =>
    simp only [Option.isSome_some, Option.getD_some, beq_self_eq_true, Bool.true_and, beq_iff_eq, true_and]
    exact eq_comm

/-- The context with the step test made while its step timer runs (R26, R28). -/
def ChannelCtx.tested (e : ChannelEntry) (x : ChannelCtx) : ChannelCtx :=
  if x.atGoal then { x with drive := .steady, settleLeft := e.settleCount } else x

/-- The step test leaves the codes, the sets and the action (R28). -/
theorem ChannelCtx.tested_eq (e : ChannelEntry) (x : ChannelCtx) :
    x.tested e = { x with drive := (x.tested e).drive, settleLeft := (x.tested e).settleLeft } := by
  unfold ChannelCtx.tested
  split <;> rfl

/-- The step test decides the drive state of a resumed channel. -/
theorem ChannelCtx.tested_resumed_drive (e : ChannelEntry) (x : ChannelCtx) :
    (((x.resumed e).tested e).drive = .steady ↔ x.applied.isSome = true ∧ ((x.resumed e).tested e).goal = x.applied) ∧
      (((x.resumed e).tested e).drive = .steady ∨ ((x.resumed e).tested e).drive = .moving) := by
  rw [ChannelCtx.tested_eq e (x.resumed e), ← ChannelCtx.resumed_atGoal]
  unfold ChannelCtx.tested
  split
  · next hg => exact ⟨iff_of_true rfl hg, Or.inl rfl⟩
  · next hg => exact ⟨iff_of_false (by simp [ChannelCtx.resumed]) hg, Or.inr rfl⟩

/-- The step test of a channel without work while its step timer runs (R26, R28). -/
theorem State.stepTest_of_waiting {s : State} {c : ChannelNo} (hd : (s.ch c).drive = .moving) (hw : s.hasWork c = false)
    (ht : (s.ch c).stepTimer.isRunning = true) : s.stepTest c = s.modCh c (ChannelCtx.tested (s.entry c)) := by
  unfold State.stepTest
  rw [if_neg (by simp [hd]), if_neg (by simp [hw]), if_pos ht]
  split
  · next hg => exact State.modCh_congr (if_pos hg).symm
  · next hg => exact (State.modCh_of_eq (if_neg hg)).symm

theorem State.removeEntry_hasWork {s : State} {c : ChannelNo} (hr : s.fbc.state.record? = none) :
    (s.removeEntry c).hasWork c = false := by
  unfold State.hasWork
  rw [State.removeEntry_hasEntry]
  simp [State.writeInFlight, State.isolateInFlight, State.removeEntry, hr]

/-- From ISOLATING with no transaction in flight: MOVING with the sent code rolled back, and the step test (R43, R56). -/
theorem State.resumeDrive_eq_stepTest {s : State} {c : ChannelNo} (hd : (s.ch c).drive = .isolating)
    (hr : s.fbc.state.record? = none) :
    s.resumeDrive c = ((s.removeEntry c).modCh c (ChannelCtx.resumed (s.entry c))).stepTest c := by
  have hflight : (s.removeEntry c).writeInFlight c = false := by simp [State.writeInFlight, State.removeEntry, hr]
  unfold State.resumeDrive
  rw [hd]
  dsimp only
  rw [hflight, if_neg (by simp)]
  unfold State.enterMoving State.rollBack
  rw [State.modCh_modCh]
  refine congrArg (State.stepTest · c) (State.modCh_congr ?_)
  unfold State.goalUnder ChannelCtx.resumed
  rw [State.ch_modCh_self]
  cases (s.ch c).action <;> rfl

/-- While the step timer runs that test places no WRITE (R26, R43): the queued entry is removed and the context is the tested one. -/
theorem State.resumeDrive_of_isolating {s : State} {c : ChannelNo} (hd : (s.ch c).drive = .isolating)
    (hr : s.fbc.state.record? = none) (ht : (s.ch c).stepTimer.isRunning = true) :
    s.resumeDrive c = (s.removeEntry c).modCh c fun x => (x.resumed (s.entry c)).tested (s.entry c) := by
  have hch : ((s.removeEntry c).modCh c (ChannelCtx.resumed (s.entry c))).ch c = (s.ch c).resumed (s.entry c) :=
    State.ch_modCh_self _ c _
  have hwork : ((s.removeEntry c).modCh c (ChannelCtx.resumed (s.entry c))).hasWork c = false := State.removeEntry_hasWork hr
  rw [State.resumeDrive_eq_stepTest hd hr, State.stepTest_of_waiting (by rw [hch]; rfl) hwork (by rw [hch]; exact ht),
    State.modCh_modCh, State.entry_modCh]
  rfl

/-- A removal where no WRITE of the channel is queued. -/
theorem OutputQueue.remove_of_noWrite {q : OutputQueue} {c : ChannelNo} (hw : q.hasWrite c = false) :
    q.remove c = { q with isolates := q.isolates.filter fun d => d != c } := by
  have hall : ∀ w ∈ q.writes, (!w.isOf c) = true := by simpa [OutputQueue.hasWrite] using hw
  rw [OutputQueue.remove, List.filter_eq_self.mpr hall]

/-! ### The whole release -/

theorem State.release_onlyChannel (s : State) (c : ChannelNo) : State.OnlyChannel c s (s.release c) :=
  (s.withoutValueClasses_onlyChannel c).trans (State.Drives.resumeDrive _ c).frame

/-- The drive record apart, the context after a release is the one that the leaving classes have left (R43). -/
theorem State.release_moves (s : State) (c : ChannelNo) : ((s.withoutValueClasses c).ch c).Moves ((s.release c).ch c) :=
  (State.Drives.resumeDrive _ c).moves

/-- The reports that a release offers (R137): the resuming drive offers none and leaves the sets and the action shown. -/
theorem State.release_outgoing {s : State} {c : ChannelNo} (hl : s.TransmitterLaw)
    (hd : (s.ch c).drive = .isolating ∨ (s.ch c).drive = .isolated) :
    (s.release c).outgoing = s.clp.tx.toList ++
      (if ((s.ch c).active.inter ((s.entry c).alarmMask.inter .valueClasses)).nonempty then
        alarmPlaced s.rq c ((s.release c).ch c).active ((s.release c).ch c).latched ((s.release c).ch c).action
      else s.rq) := by
  obtain ⟨hclp, hrq⟩ := (State.Drives.resumeDrive (s.withoutValueClasses c) c).reports
  obtain ⟨hmoves, -⟩ := s.release_moves c
  rw [hmoves, State.release_eq, State.outgoing, hclp, hrq]
  exact State.withoutValueClasses_outgoing hd hl

/-- The context after a release from ISOLATED (R43, R44). -/
theorem State.release_ch_of_isolated {s : State} {c : ChannelNo} (hd : (s.ch c).drive = .isolated)
    (ha : (s.ch c).action = effectiveAction (s.entry c) (s.ch c).active) :
    (s.release c).ch c = { s.ch c with
      drive := .releasing, sent := some ((s.ch c).applied.getD (s.entry c).safeCode), valueFaults := 0
      stepTimer := .running ((s.entry c).slewInterval.val * 1000)
      active := ⟨false, false, false, (s.ch c).active.noresp, (s.ch c).active.silence⟩
      action := effectiveAction (s.entry c) ⟨false, false, false, (s.ch c).active.noresp, (s.ch c).active.silence⟩ } := by
  have hch := State.withoutValueClasses_ch (c := c) (Or.inr hd)
  rw [State.withoutValueClasses_action (Or.inr hd) ha, ClassSet.minus_valueClasses] at hch
  rw [State.release_eq, State.resumeDrive_of_isolated (by rw [hch]; exact hd), State.ch_modCh_self, State.issueReconnect_ch,
    (s.withoutValueClasses_onlyChannel c).entry, hch]
  rfl

/-- The reconnecting write of a release from ISOLATED (R44). -/
theorem State.release_oq_of_isolated {s : State} {c : ChannelNo} (hd : (s.ch c).drive = .isolated) (hq : s.oq.hasEntry c = false) :
    (s.release c).oq =
      { s.oq with writes := s.oq.writes ++ [⟨c, (s.ch c).applied.getD (s.entry c).safeCode, true⟩] } := by
  have hch := State.withoutValueClasses_ch (c := c) (Or.inr hd)
  have hoq := State.withoutValueClasses_oq (c := c) (Or.inr hd)
  rw [State.release_eq, State.resumeDrive_of_isolated (by rw [hch]; exact hd), State.oq_modCh,
    State.issueReconnect_oq (by rw [hoq]; exact hq), hoq, hch, (s.withoutValueClasses_onlyChannel c).entry]
  rfl

/-- The context after a release from ISOLATING, under the recomputed action (R43, R56). -/
theorem State.release_ch_of_isolating {s : State} {c : ChannelNo} (hd : (s.ch c).drive = .isolating)
    (hr : s.fbc.state.record? = none) (ht : (s.ch c).stepTimer.isRunning = true) :
    (s.release c).ch c =
      (((s.ch c).released ((s.withoutValueClasses c).ch c).action).resumed (s.entry c)).tested (s.entry c) := by
  have hch := State.withoutValueClasses_ch (c := c) (Or.inl hd)
  have hframe := s.withoutValueClasses_onlyChannel c
  rw [State.release_eq, State.resumeDrive_of_isolating (by rw [hch]; exact hd) (by rw [hframe.field.1]; exact hr)
    (by rw [hch]; exact ht), State.ch_modCh_self, hframe.entry, ← hch]
  rfl

/-- The queue after a release from ISOLATING (R43). -/
theorem State.release_oq_of_isolating {s : State} {c : ChannelNo} (hd : (s.ch c).drive = .isolating)
    (hr : s.fbc.state.record? = none) (ht : (s.ch c).stepTimer.isRunning = true) (hw : s.oq.hasWrite c = false) :
    (s.release c).oq = { s.oq with isolates := s.oq.isolates.filter fun d => d != c } := by
  have hch := State.withoutValueClasses_ch (c := c) (Or.inl hd)
  rw [State.release_eq, State.resumeDrive_of_isolating (by rw [hch]; exact hd)
    (by rw [(s.withoutValueClasses_onlyChannel c).field.1]; exact hr) (by rw [hch]; exact ht), State.oq_modCh,
    ← OutputQueue.remove_of_noWrite hw, ← State.withoutValueClasses_oq (Or.inl hd)]
  rfl

/-! ### The command -/

theorem exec_releaseChannel (tag channel : Byte) (s : State) : exec (.releaseChannel tag channel) s = execReleaseChannel tag channel s :=
  rfl

/-- A class that a release cannot remove is active and isolates: the fourth check of R42. -/
def State.StaysIsolated (s : State) (c : ChannelNo) : Prop :=
  ((s.ch c).active.noresp = true ∧ (s.entry c).actNoresp = .isolate) ∨
    ((s.ch c).active.silence = true ∧ (s.entry c).actSilence = .isolate)

/-- The second check of R42. -/
theorem State.releaseRefusal_notIsolated {s : State} {c : ChannelNo} (h1 : (s.ch c).drive ≠ .isolating)
    (h2 : (s.ch c).drive ≠ .isolated) : s.releaseRefusal c = some .notIsolated := if_pos ⟨h1, h2⟩

section
variable {s : State} {c : ChannelNo} (hd : (s.ch c).drive = .isolating ∨ (s.ch c).drive = .isolated)
include hd

/-- The third check of R42. -/
theorem State.releaseRefusal_busy (hf : s.inFlight c (.isolate c)) : s.releaseRefusal c = some .busy := by
  unfold State.releaseRefusal
  rw [if_neg (not_and_or.mpr (hd.imp not_not.mpr not_not.mpr)), if_pos ((s.isolateInFlight_iff c).mpr hf)]

/-- The fourth check of R42. -/
theorem State.releaseRefusal_alarmActive (hf : ¬ s.inFlight c (.isolate c)) (ha : s.StaysIsolated c) :
    s.releaseRefusal c = some .alarmActive := by
  unfold State.releaseRefusal
  rw [if_neg (not_and_or.mpr (hd.imp not_not.mpr not_not.mpr)), if_neg (mt (s.isolateInFlight_iff c).mp hf), if_pos]
  simpa [State.StaysIsolated] using ha

/-- A release that passes the checks of R42. -/
theorem State.releaseRefusal_none (hf : ¬ s.inFlight c (.isolate c)) (ha : ¬ s.StaysIsolated c) : s.releaseRefusal c = none := by
  unfold State.releaseRefusal
  rw [if_neg (not_and_or.mpr (hd.imp not_not.mpr not_not.mpr)), if_neg (mt (s.isolateInFlight_iff c).mp hf), if_neg]
  intro hk
  exact ha (by simpa [State.StaysIsolated] using hk)

end

/-- RELEASE_CHANNEL refused by a check behind the first (R42). -/
theorem exec_releaseChannel_refused {tag channel : Byte} {c : ChannelNo} {rest : List (List Byte)} {s : State} {k : Completion}
    (hl : s.TransmitterLaw) (htakes : s.Takes (.releaseChannel tag channel) rest) (hc : channel.toNat = c.val)
    (hk : s.releaseRefusal c = some k) :
    exec (.releaseChannel tag channel) s = .next ((s.withFrames rest).sends (answer tag 0x07 k [])) := by
  have hframes : (s.withFrames rest).releaseRefusal c = some k := hk
  rw [exec_releaseChannel]
  unfold execReleaseChannel
  exact State.takeCommand_respond htakes hl (by simp [channelOf?_eq_some hc, hframes, cmdReleaseChannel])

/-- RELEASE_CHANNEL that passes its checks (R43). -/
theorem exec_releaseChannel_accepted {tag channel : Byte} {c : ChannelNo} {rest : List (List Byte)} {s : State}
    (htakes : s.Takes (.releaseChannel tag channel) rest) (hc : channel.toNat = c.val) (hk : s.releaseRefusal c = none) :
    exec (.releaseChannel tag channel) s =
      .next (((s.withFrames rest).release c).respond tag 0x07 .ok []).beginTransmission := by
  have hframes : (s.withFrames rest).releaseRefusal c = none := hk
  rw [exec_releaseChannel]
  unfold execReleaseChannel
  rw [State.takeCommand_of_takes htakes, channelOf?_eq_some hc]
  dsimp only
  rw [hframes]
  rfl

/-- Settles O31: a refusal answers and changes nothing else; from ISOLATED the reconnecting write is placed
(`release_ch_of_isolated`); from ISOLATING the drive resumes at the rolled-back code (`release_ch_of_isolating`); the ALARM report and
the frame are those of every release (`release_outgoing`, `release_onlyChannel`). -/
theorem releaseChannelChecksInOrder : Obligations.ReleaseChannelChecksInOrder := by
  refine ⟨fun tag channel rest s hlaw htakes => ?refused,
    fun tag channel c rest s hlaw htakes hc hd hq hf hnoresp hsilence ha => ?isolated,
    fun tag channel c rest s hlaw htakes hc hd hr hw ht hnoresp hsilence => ?isolating⟩
  case refused =>
    refine ⟨fun hindex => ?badIndex, fun c hc => ?checks⟩
    case badIndex =>
      rw [exec_releaseChannel]
      unfold execReleaseChannel
      exact State.takeCommand_respond htakes hlaw (by rw [channelOf?_eq_none hindex]; rfl)
    case checks =>
      exact ⟨fun h1 h2 => exec_releaseChannel_refused hlaw htakes hc (State.releaseRefusal_notIsolated h1 h2),
        fun hd hf => exec_releaseChannel_refused hlaw htakes hc (State.releaseRefusal_busy hd hf),
        fun hd hf ha => exec_releaseChannel_refused hlaw htakes hc (State.releaseRefusal_alarmActive hd hf ha)⟩
  case isolated =>
    have hexec := exec_releaseChannel_accepted htakes hc
      (State.releaseRefusal_none (Or.inr hd) hf (not_or.mpr ⟨hnoresp, hsilence⟩))
    have hreports := State.respond_onlyReports ((s.withFrames rest).release c) tag 0x07 .ok []
    refine ⟨_, hexec, ?_, ?_, ?_, ((s.withFrames rest).release_onlyChannel c).trans (hreports.onlyChannel c)⟩
    · rw [hreports.ch]
      exact State.release_ch_of_isolated (s := s.withFrames rest) hd ha
    · rw [hreports.channels.2]
      exact State.release_oq_of_isolated (s := s.withFrames rest) hd hq
    · rw [State.respond_outgoing, hreports.ch]
      exact congrArg (· ++ _) (State.release_outgoing (s := s.withFrames rest) (hlaw.congr rfl rfl) (Or.inr hd))
  case isolating =>
    have hf : ¬ s.inFlight c (.isolate c) := by simp [State.inFlight, flying, hr]
    have hexec := exec_releaseChannel_accepted htakes hc
      (State.releaseRefusal_none (Or.inl hd) hf (not_or.mpr ⟨hnoresp, hsilence⟩))
    have hreports := State.respond_onlyReports ((s.withFrames rest).release c) tag 0x07 .ok []
    have hch := (hreports.ch c).trans (State.release_ch_of_isolating (s := s.withFrames rest) hd hr ht)
    have hctx := hch.trans (ChannelCtx.tested_eq (s.entry c) _)
    have hfield {α : Type} (f : ChannelCtx → α) := congrArg f hctx
    obtain ⟨hsteady, hdrive⟩ := ChannelCtx.tested_resumed_drive (s.entry c) ((s.ch c).released _)
    refine ⟨_, hexec, ?_, hfield ChannelCtx.active, hfield ChannelCtx.latched, hfield ChannelCtx.valueFaults,
      hfield ChannelCtx.norespFaults, hfield ChannelCtx.sent, hfield ChannelCtx.applied, ?_, hch ▸ hsteady, hch ▸ hdrive, ?_,
      ((s.withFrames rest).release_onlyChannel c).trans (hreports.onlyChannel c)⟩
    · rw [hreports.channels.2]
      exact State.release_oq_of_isolating (s := s.withFrames rest) hd hr ht hw
    · rw [hctx]
      rfl
    · rw [State.respond_outgoing, hreports.ch]
      exact congrArg (· ++ _) (State.release_outgoing (s := s.withFrames rest) (hlaw.congr rfl rfl) (Or.inl hd))

end Sys2Proof.Machine
end

