-- ==== Sys2Proof/Proofs/ReadAlarms.lean ====
section
/-! PROOF. READ_ALARMS (R125): the answer shows the sets as they stood before the latched sets are narrowed. -/

namespace Sys2Proof.Machine

/-- The frame of the reports, read beside any channel contexts. -/
theorem State.OnlyReports.withCtx {s t : State} (h : s.OnlyReports t) (v : Vector ChannelCtx 24) :
    State.OnlyReports { s with ctx := v } { t with ctx := v } where
  link := h.link
  tables := h.tables
  channels := ⟨rfl, h.channels.2⟩
  field := h.field
  units := h.units
  waiting := h.waiting
  pairs := h.pairs

/-- With the contexts of before put back, a change of all contexts has changed nothing. -/
theorem State.modAll_withCtx (s : State) (f : ChannelCtx → ChannelCtx) : { s.modAll f with ctx := s.ctx } = s := by
  unfold State.modAll
  rfl

/-- A change of the contexts alone leaves the reports not yet sent. -/
@[simp] theorem State.outgoing_modAll (s : State) (f : ChannelCtx → ChannelCtx) : (s.modAll f).outgoing = s.outgoing := by
  simp [State.outgoing]

@[simp] theorem State.withFrames_outgoing (s : State) (q : List (List Byte)) : (s.withFrames q).outgoing = s.outgoing := rfl

/-- A byte that names one channel is not the byte that names all of them. -/
theorem channel_ne_all {channel : Byte} {c : ChannelNo} (hc : channel.toNat = c.val) : channel ≠ 0xFF := by
  rintro rfl
  exact absurd hc (Nat.ne_of_gt (Nat.lt_trans c.isLt (by decide)))

theorem exec_readAlarms (tag channel : Byte) (s : State) : exec (.readAlarms tag channel) s = execReadAlarms tag channel s :=
  rfl

/-- READ_ALARMS of all channels: every latched set is narrowed, then the RESPONSE shows the sets as they stood. -/
theorem exec_readAlarms_all {tag : Byte} {rest : List (List Byte)} {s : State} (htakes : s.Takes (.readAlarms tag 0xFF) rest) :
    exec (.readAlarms tag 0xFF) s =
      .next (((s.withFrames rest).modAll ChannelCtx.narrowed).respond tag 0x08 .ok
        (channelsAscending.flatMap fun c => (s.ch c).alarmBytes)).beginTransmission := by
  rw [exec_readAlarms]
  unfold execReadAlarms
  rw [State.takeCommand_of_takes htakes, if_pos rfl]
  rfl

/-- Settles O23: an index that names no channel is refused; one channel is shown and narrowed in place; for all of them the contexts
are those of `modAll`, and beside the contexts only the reports differ (`OnlyReports.withCtx`, `modAll_withCtx`). -/
theorem readAlarmsShowsAndNarrows : Obligations.ReadAlarmsShowsAndNarrows := by
  intro tag channel rest s hlaw htakes
  refine ⟨fun hindex hall => ?badIndex, fun c hc => ?one, fun hall => ?all⟩
  case badIndex =>
    rw [exec_readAlarms]
    unfold execReadAlarms
    exact State.takeCommand_respond htakes hlaw (by rw [if_neg hall, channelOf?_eq_none hindex]; rfl)
  case one =>
    rw [exec_readAlarms]
    unfold execReadAlarms
    refine State.takeCommand_respond_of (u := (s.withFrames rest).modCh c ChannelCtx.narrowed) htakes hlaw ?_ (by simp) (by simp)
    rw [if_neg (channel_ne_all hc), channelOf?_eq_some hc]
    rfl
  case all =>
    subst hall
    have hreports := State.respond_onlyReports ((s.withFrames rest).modAll ChannelCtx.narrowed) tag 0x08 .ok
      (channelsAscending.flatMap fun c => (s.ch c).alarmBytes)
    have hframe := hreports.withCtx (s.withFrames rest).ctx
    rw [State.modAll_withCtx] at hframe
    refine ⟨_, exec_readAlarms_all htakes, fun c => ?contexts, ?answered, hframe⟩
    case contexts =>
      rw [hreports.ch, State.ch_modAll]
      rfl
    case answered =>
      rw [State.respond_outgoing, State.outgoing_modAll, State.withFrames_outgoing]
      rfl

end Sys2Proof.Machine
end

