-- ==== Sys2Proof/Proofs/InjectReadback.lean ====
section
/-! PROOF. INJECT_READBACK (R110): one outcome per check, in the order of the checks, and the substitution. -/

namespace Sys2Proof.Machine

/-- A count outside 1 to 15 is refused (R110). -/
theorem injectCount?_eq_none {count : Byte} (h : count = 0 ∨ 15 < count.toNat) : injectCount? count = none := by
  unfold injectCount?
  split
  · rfl
  · next hcount => exact finOf?_eq_none (h.resolve_left hcount)

/-- A count of 1 to 15 is taken as it is (R110). -/
theorem injectCount?_eq_some {count : Byte} {n : Fin 16} (hn : n ≠ 0) (h : count.toNat = n.val) : injectCount? count = some n := by
  have hcount : count ≠ 0 := by
    rintro rfl
    exact hn (Fin.ext h.symm)
  rw [injectCount?, if_neg hcount, finOf?_eq_some h]

theorem exec_injectReadback (tag channel : Byte) (value : Code) (count : Byte) (s : State) :
    exec (.injectReadback tag channel value count) s = execInjectReadback tag channel value count s :=
  rfl

/-- Settles O32: each check that fails ends the command with its own completion and a state otherwise untouched; a count that passes
is the one carried (`injectCount?_eq_some`), and value and count replace those of the channel. -/
theorem injectReadbackChecksInOrder : Obligations.InjectReadbackChecksInOrder := by
  intro tag channel count value rest s hlaw htakes
  rw [exec_injectReadback]
  unfold execInjectReadback
  refine ⟨fun hindex => ?badIndex, fun c hc => ⟨fun hoff => ?chOff, fun hon hcount => ?badValue, fun n hon hn hcount => ?ok⟩⟩
  case badIndex => exact State.takeCommand_respond htakes hlaw (by rw [channelOf?_eq_none hindex]; rfl)
  all_goals have hchannel := channelOf?_eq_some hc
  case chOff => exact State.takeCommand_respond htakes hlaw (by simp [hchannel, hoff, cmdInjectReadback])
  case badValue =>
    have hnone := injectCount?_eq_none hcount
    exact State.takeCommand_respond htakes hlaw (by simp [hchannel, hon, hnone, cmdInjectReadback])
  case ok =>
    have hsome := injectCount?_eq_some hn hcount
    exact State.takeCommand_respond_of
      (u := (s.withFrames rest).modCh c fun x => { x with injectValue := value, injectLeft := n }) htakes hlaw
      (by simp [hchannel, hon, hsome, State.respond, cmdInjectReadback]) (by simp) (by simp)

end Sys2Proof.Machine
end

