-- ==== Sys2Proof/Proofs/AbortPreset.lean ====
section
/-! PROOF. ABORT_PRESET (R155): the remaining count is answered, and an apply that was running ends with PRESET_ABORTED. -/

namespace Sys2Proof.Machine

theorem State.offerPart_outgoing {s : State} (h : s.TransmitterLaw) (e : PartEvent) :
    (s.offerPart e).outgoing = s.clp.tx.toList ++ partPlaced s.rq e := by
  rw [State.offerPart_of_law h, State.outgoing, State.clp_setRq, State.rq_setRq]

/-- The frame of the reports, read beside any preset unit. -/
theorem State.OnlyReports.setPru {s t : State} (h : s.OnlyReports t) (p : PresetUnit) : (s.setPru p).OnlyReports (t.setPru p) := by
  obtain ⟨hact, -, hmgx, hpst⟩ := h.units
  exact { link := h.link, tables := h.tables, channels := h.channels, field := h.field, units := ⟨hact, rfl, hmgx, hpst⟩,
          waiting := h.waiting, pairs := h.pairs }

/-- The apply ends where it stands (R155): the list, the next index and the remaining count stay. -/
def PresetUnit.ended (p : PresetUnit) : PresetUnit := { p with state := .idle, spacingTimer := .stopped }

theorem exec_abortPreset (tag : Byte) (s : State) : exec (.abortPreset tag) s = execAbortPreset tag s := rfl

/-- ABORT_PRESET in IDLE answers 0 and does nothing else. -/
theorem exec_abortPreset_of_idle {tag : Byte} {rest : List (List Byte)} {s : State} (hlaw : s.TransmitterLaw)
    (htakes : s.Takes (.abortPreset tag) rest) (hidle : s.pru.state = .idle) :
    exec (.abortPreset tag) s = .next ((s.withFrames rest).sends (answer tag 0x0D .ok [0])) := by
  have hframes : (s.withFrames rest).pru.state = .idle := hidle
  rw [exec_abortPreset]
  unfold execAbortPreset
  exact State.takeCommand_respond htakes hlaw (by rw [hframes]; rfl)

/-- ABORT_PRESET in APPLYING ends the apply, offers PRESET_ABORTED and answers the remaining count, in this order. -/
theorem exec_abortPreset_of_applying {tag : Byte} {rest : List (List Byte)} {s : State}
    (htakes : s.Takes (.abortPreset tag) rest) (happlying : s.pru.state = .applying) :
    exec (.abortPreset tag) s = .next ((((s.withFrames rest).setPru s.pru.ended).offerPart .presetAborted).respond tag 0x0D .ok
      [byteOf s.pru.remaining.val]).beginTransmission := by
  have hframes : (s.withFrames rest).pru.state = .applying := happlying
  rw [exec_abortPreset]
  unfold execAbortPreset
  rw [State.takeCommand_of_takes htakes, hframes]
  rfl

/-- Settles O38: from IDLE the command only answers; from APPLYING everything after the end of the apply (the offer, the RESPONSE, the
transmission that may begin) moves reports alone, so the ended apply is the one other change. -/
theorem abortPresetAnswersTheRemaining : Obligations.AbortPresetAnswersTheRemaining := by
  intro tag rest s hlaw htakes
  refine ⟨exec_abortPreset_of_idle hlaw htakes, fun happlying => ?_⟩
  have hreports := (State.offerPart_onlyReports ((s.withFrames rest).setPru s.pru.ended) .presetAborted).trans
    (State.respond_onlyReports _ tag 0x0D .ok [byteOf s.pru.remaining.val])
  obtain ⟨-, hpru, -⟩ := hreports.units
  refine ⟨_, exec_abortPreset_of_applying htakes happlying, hpru, ?_, hreports.setPru s.pru⟩
  rw [State.respond_outgoing,
    State.offerPart_outgoing (s := (s.withFrames rest).setPru s.pru.ended) (hlaw.congr rfl rfl)]
  rfl

end Sys2Proof.Machine
end

