-- ==== Sys2Proof/Proofs/ReadStatus.lean ====
section
/-! PROOF. READ_STATUS (R166, R167): the bytes of the record, and the answer over the state with the latches and the link-error set
emptied. -/

namespace Sys2Proof.Machine

/-- The part status record while the part is in RUN, the only mode in which a command reads it (R164, R166). -/
theorem State.statusBytes_of_run {s : State} (hrun : s.mgx.mode = .run) : s.statusBytes =
    [0x53, 0x24, 1, 1, s.psq.state.code, if s.pru.state = .applying then 1 else 0, s.pst.state.code,
     byteOf ((if s.act.state = .silent then 1 else 0) + if s.mgx.slewBypass then 2 else 0),
     byteOf (s.oq.isolates.length + s.oq.writes.length), byteOf s.rq.length, s.mgx.latches.byte,
     s.mgx.latches.lastDiscarded, s.clp.linkErrors] := by
  simp only [State.statusBytes, OutputQueue.occupancy, hrun, if_true, Bool.toNat, Bool.cond_eq_ite, mul_ite, mul_one, mul_zero, beq_iff_eq]

/-- MGX takes commands in RUN alone (R164). -/
theorem State.Takes.run {s : State} {i : Instr} {rest : List (List Byte)} (h : s.Takes i rest) : s.mgx.mode = .run := h.1

/-- The latches, the last discarded channel and the link-error set emptied (R167). -/
def State.statusCleared (s : State) : State :=
  (s.latch fun _ => .clear).setClp { s.clp with linkErrors := 0 }

theorem exec_readStatus (tag : Byte) (s : State) : exec (.readStatus tag) s = execReadStatus tag s := rfl

/-- Settles O21: the record is read before the clearing (`statusBytes_of_run`), and the clearing leaves the reports, so the RESPONSE is
the one report handed on. -/
theorem readStatusShowsAndClears : Obligations.ReadStatusShowsAndClears := by
  intro tag rest s hlaw htakes
  have hbytes := State.statusBytes_of_run (s := s.withFrames rest) htakes.run
  rw [exec_readStatus]
  unfold execReadStatus
  exact State.takeCommand_respond_of (u := (s.withFrames rest).statusCleared) htakes hlaw (by rw [hbytes]; rfl) rfl rfl

end Sys2Proof.Machine
end

