-- ==== Sys2Proof/Proofs/Reads.lean ====
section
/-! PROOF. READ_CHANNEL (R168) and READ_ENTRY (R8, R87, R100, R148, R169): the byte names what is shown or is refused, and the command
only answers. -/

namespace Sys2Proof.Machine

theorem channelByte_of_toNat {channel : Byte} {c : ChannelNo} (hc : channel.toNat = c.val) : channelByte c = channel := by
  rw [channelByte, ← hc, byteOf_toNat]

/-- The data of READ_CHANNEL (Section 9.7) with each flag at its weight. -/
theorem ChannelCtx.bytes_eq (c : ChannelNo) (x : ChannelCtx) : x.bytes c =
    [channelByte c, x.drive.code,
      byteOf ((if x.target.isSome then 1 else 0) + (if x.goal.isSome then 2 else 0) + (if x.sent.isSome then 4 else 0) +
        (if x.applied.isSome then 8 else 0) + (if x.lastReading.isSome then 16 else 0) +
        (if x.lastReported.isSome then 32 else 0) + (if x.clamped then 64 else 0) + if x.presetTaken then 128 else 0)] ++
    optBytes x.target ++ optBytes x.goal ++ optBytes x.sent ++ optBytes x.applied ++
    [byteOf (x.settleLeft.val + (if x.stepTimer.isRunning then 8 else 0) + 16 * x.injectLeft.val),
     byteOf x.valueFaults, byteOf x.norespFaults, x.active.byte, x.latched.byte, byteOf x.action.code] ++
    bytes16 x.injectValue ++ optBytes x.lastReading ++ optBytes x.lastReported := by
  rw [ChannelCtx.bytes]
  simp only [Bool.toNat, Bool.cond_eq_ite, mul_ite, mul_one, mul_zero]
  cases x.stepTimer <;> rfl

theorem exec_readChannel (tag channel : Byte) (s : State) : exec (.readChannel tag channel) s = execReadChannel tag channel s := rfl

theorem exec_readEntryChannel (tag index : Byte) (s : State) :
    exec (.readEntryChannel tag index) s = execReadEntryChannel tag index s := rfl

theorem exec_readEntrySequence (tag index : Byte) (s : State) :
    exec (.readEntrySequence tag index) s = execReadEntrySequence tag index s := rfl

theorem exec_readEntryNode (tag index : Byte) (s : State) : exec (.readEntryNode tag index) s = execReadEntryNode tag index s := rfl

theorem exec_readEntryPreset (tag index : Byte) (s : State) :
    exec (.readEntryPreset tag index) s = execReadEntryPreset tag index s := rfl

theorem exec_readEntryPart (tag index : Byte) (s : State) : exec (.readEntryPart tag index) s = execReadEntryPart tag index s := rfl

/-- Settles O22: for each command, an index that names nothing is refused, and one that names a channel or a record is answered with
it; either way the command only answers (`takeCommand_respond`). -/
theorem readsShowTheChannelAndTheRecords : Obligations.ReadsShowTheChannelAndTheRecords := by
  refine ⟨fun tag channel rest s hlaw htakes => ?context, fun tag index rest s hlaw =>
    ⟨fun htakes => ?channelEntry, fun htakes => ?sequenceRecord, fun htakes => ?nodeRecord, fun htakes => ?presetEntry,
      fun htakes => ?partConfig⟩⟩
  case context =>
    rw [exec_readChannel]
    unfold execReadChannel
    refine ⟨fun hindex => ?_, fun c hc => ?_⟩
    · exact State.takeCommand_respond htakes hlaw (by rw [channelOf?_eq_none hindex]; rfl)
    · have hbytes := ChannelCtx.bytes_eq c (s.ch c)
      rw [channelByte_of_toNat hc] at hbytes
      exact State.takeCommand_respond htakes hlaw (by rw [channelOf?_eq_some hc]; exact congrArg (State.respond _ tag 0x02 .ok) hbytes)
  case channelEntry =>
    rw [exec_readEntryChannel]
    unfold execReadEntryChannel
    exact ⟨fun hindex => State.takeCommand_respond htakes hlaw (by rw [channelOf?_eq_none hindex]; rfl),
      fun c hc => State.takeCommand_respond htakes hlaw (by rw [channelOf?_eq_some hc]; rfl)⟩
  case sequenceRecord =>
    rw [exec_readEntrySequence]
    unfold execReadEntrySequence
    exact ⟨fun hindex => State.takeCommand_respond htakes hlaw (if_neg hindex),
      fun hindex => State.takeCommand_respond htakes hlaw (by rw [if_pos hindex, hindex]; rfl)⟩
  case nodeRecord =>
    rw [exec_readEntryNode]
    unfold execReadEntryNode
    exact ⟨fun hindex => State.takeCommand_respond htakes hlaw (by rw [nodeOf?_eq_none hindex]; rfl),
      fun n hn => State.takeCommand_respond htakes hlaw (by rw [nodeOf?_eq_some hn]; rfl)⟩
  case presetEntry =>
    rw [exec_readEntryPreset]
    unfold execReadEntryPreset
    exact ⟨fun hindex => State.takeCommand_respond htakes hlaw (by rw [presetOf?_eq_none hindex]; rfl),
      fun k hk => State.takeCommand_respond htakes hlaw (by rw [presetOf?_eq_some hk]; rfl)⟩
  case partConfig =>
    rw [exec_readEntryPart]
    unfold execReadEntryPart
    exact ⟨fun hindex => State.takeCommand_respond htakes hlaw (if_neg hindex),
      fun hindex => State.takeCommand_respond htakes hlaw (by rw [if_pos hindex, hindex]; rfl)⟩

end Sys2Proof.Machine
end

