-- ==== Sys2Proof/Proofs/Effects.lean ====
section
/-! PROOF. Everything a command can do, said once: `Commanded` for what MGX does with a frame that it takes, `Effect` for the whole of
an event, and `exec_effect`, the inversion from which the statements about every step are proved. -/

namespace Sys2Proof.Machine

/-- What an accepted management command makes of the part before its RESPONSE is placed, with the checks it has passed. -/
inductive State.Commanded (s : State) : State → Prop where
  | nothing : s.Commanded s
  | statusCleared : s.Commanded s.statusCleared
  | enabled (c : ChannelNo) (h : s.enableRefusal c = none) : s.Commanded (s.enable c)
  | disabled (c : ChannelNo) (h : (s.ch c).drive ≠ .off) : s.Commanded (s.disable c)
  | released (c : ChannelNo) (h : s.releaseRefusal c = none) : s.Commanded (s.release c)
  | allNarrowed : s.Commanded (s.modAll ChannelCtx.narrowed)
  | narrowed (c : ChannelNo) : s.Commanded (s.modCh c ChannelCtx.narrowed)
  | injected (c : ChannelNo) (value : Code) (n : Fin 16) (h : (s.ch c).drive ≠ .off) :
      s.Commanded (s.modCh c fun x => { x with injectValue := value, injectLeft := n })
  | flushed : s.Commanded s.flush
  | bypassed (on : Bool) : s.Commanded (s.setBypass on)
  | restartPending : s.Commanded (s.setMgx { s.mgx with restartPending := true })
  | saving : s.Commanded (s.setPst { state := .saving .erase s.tables, image := { s.pst.image with check := none } })
  | clearing : s.Commanded (s.setPst { state := .clearing, image := { s.pst.image with check := none } })
  | entryWritten (c : ChannelNo) (e : ChannelEntry) (h : (s.ch c).drive = .off) (he : e.ok = true) : s.Commanded (s.setEntry c e)
  | sequenceWritten (r : SequenceRecord) : s.Commanded (s.setPsq { s.psq with record := r })
  | expectedWritten (n : Node) (expected : Bool) (h : expected = true ∨ s.nodeInUse n = false) :
      s.Commanded (s.modNode n fun r => { r with expected := expected })
  | presetsWritten (list : Vector PresetEntry 64) : s.Commanded (s.setPru { s.pru with list := list })
  | configWritten (p : PartConfig) : s.Commanded (s.writeConfig p)
  | walkStarted (h : s.psq.state = .idle) : s.Commanded s.startCycle
  | walkStopped : s.Commanded s.stopSequence
  | presetsApplied (start count : Byte) : s.Commanded (s.startApply start count)
  | presetsAborted : s.Commanded ((s.setPru s.pru.ended).offerPart .presetAborted)

/-- A management command ends with its RESPONSE (R165). -/
def State.Answered (s t : State) : Prop := ∃ u tag cmd k data e, s.Commanded u ∧ t = u.respondThen tag cmd k data e

/-- What an event makes of the part before an idle transmitter begins the next report, with what made the event due. -/
inductive State.Effect (s : State) : State → Prop where
  | powerOn : s.Effect s.powerOn
  | startUp (n : Nat) : s.Effect (State.startUpRun n s)
  | receiverReady : s.Effect s.rxReady
  | pairsGoOn : s.Effect (s.applyPairs s.sph)
  | setpoints (pairs : List SetpointPair) : s.Effect (s.rxReady.takeSetpoints pairs)
  | frameQueued (payload : List Byte) : s.Effect (s.rxReady.queueFrame payload)
  | linkError (e : LinkError) : s.Effect (s.linkError e)
  | answered {t : State} (h : s.mgxMayTake = true) (ht : s.dropFrame.Answered t) : s.Effect t
  | erased (copy : Tables) (h : s.pst.state = .saving .erase copy) :
      s.Effect (s.setPst { state := .saving .program copy, image := .erased })
  | saved (copy : Tables) (h : s.pst.state = .saving .program copy) :
      s.Effect ((s.setPst { state := .valid, image := ⟨some copy, some copy.check⟩ }).offerPart .storeDone)
  | emptied (e : PartEvent) : s.Effect ((s.setPst { state := .empty, image := .erased }).offerPart e)
  | transmitted (r : Report) : s.Effect ((s.setClp { s.clp with tx := none }).transmitted r)
  | granted (h : s.fbc.state = .idle) : s.Effect s.arbitrate
  | gapEnded (us : Nat) (h : s.fbc.state = .gap us) : s.Effect (s.setFbc { s.fbc with state := .idle }).arbitrate
  | strobed (x : Transaction) (h : s.fbc.state = .sending x) :
      s.Effect (s.setFbc { s.fbc with state := afterStrobe s.fbc.fbsy x, fstbPulses := s.fbc.fstbPulses + 1 })
  | busyBegan (x : Transaction) (h : s.fbc.state = .awaitBusy x) : s.Effect (s.setFbc { s.fbc with state := .awaitRelease x })
  | sendingBegan (x : Transaction) (h : s.fbc.state = .held x) : s.Effect (s.setFbc { s.fbc with state := .sending x })
  | heldOut (x : Transaction) (h : s.fbc.state = .held x) :
      s.Effect ((s.latch fun l => { l with busHeld := true }).complete x .busHeld)
  | completed (x : Transaction) (r : FieldResult) (h : s.fbc.state.record? = some x) : s.Effect (s.complete x r)
  | readingTaken (r : Reading) : s.Effect ((s.setFrx .discarding).takeReading r)
  | readingMalformed (f : FrxState) : s.Effect (s.strayReading.setFrx f)
  | frxIdle : s.Effect (s.setFrx .taking)
  | stepTimerExpired (c : ChannelNo) (h : (s.ch c).stepTimer.isRunning = true) : s.Effect (s.stepTimerExpired c)
  | spacingExpired : s.Effect s.spacingExpired
  | cycleExpired : s.Effect s.cycleExpired
  | silenceBegan : s.Effect s.silenceBegins
  | presetsReached (spacingTimer : Timer) : s.Effect (State.reachEntries 64 (s.setPru { s.pru with spacingTimer := spacingTimer }))

/-- An event that is not due leaves the state, and one that is ends as `done` says. -/
def State.Taken (s t : State) : Prop := t = s ∨ ∃ u, s.Effect u ∧ t = u.beginTransmission

variable {s t : State}

theorem State.Taken.event {due : Bool} {f : State → State} (hf : due = true → s.Effect (f s)) (h : s.event due f = .next t) :
    s.Taken t := by
  rcases State.event_cases h with ⟨hd, rfl⟩ | ⟨-, rfl⟩
  · exact Or.inr ⟨_, hf hd, rfl⟩
  · exact Or.inl rfl

theorem State.Taken.done {u : State} (hu : s.Effect u) (h : u.done = .next t) : s.Taken t := by
  cases h; exact Or.inr ⟨u, hu, rfl⟩

theorem State.Taken.next (h : (.next s : Host.Outcome State Fault Refusal) = .next t) : s.Taken t := by
  cases h; exact Or.inl rfl

theorem State.Taken.command {i : Instr} {f : State → State} (hf : ∀ v : State, v.Answered (f v)) (h : s.takeCommand i f = .next t) :
    s.Taken t := by
  refine State.Taken.event (fun hd => ?_) h
  simp only [State.mgxTakes, Bool.and_eq_true] at hd
  exact .answered hd.1 (hf _)

theorem State.Commanded.answers {u : State} (h : s.Commanded u) (tag cmd : Byte) (k : Completion) (data : List Byte) (e : AtEnd) :
    s.Answered (u.respondThen tag cmd k data e) := ⟨u, tag, cmd, k, data, e, h, rfl⟩

theorem State.Commanded.responds {u : State} (h : s.Commanded u) (tag cmd : Byte) (k : Completion) (data : List Byte) :
    s.Answered (u.respond tag cmd k data) := h.answers tag cmd k data .nothing

/-- A refused command, or one that only shows something. -/
theorem State.answered_nothing (s : State) (tag cmd : Byte) (k : Completion) (data : List Byte) :
    s.Answered (s.respond tag cmd k data) := State.Commanded.nothing.responds tag cmd k data

/-! ### The management commands -/

theorem execReadStatus_taken {tag : Byte} (h : execReadStatus tag s = .next t) : s.Taken t :=
  State.Taken.command (fun _ => State.Commanded.statusCleared.responds tag cmdReadStatus .ok _) h

theorem execReadChannel_taken {tag channel : Byte} (h : execReadChannel tag channel s = .next t) : s.Taken t := by
  refine State.Taken.command (fun v => ?_) h
  split <;> exact v.answered_nothing ..

theorem execBadCommand_taken {payload : List Byte} (h : execBadCommand payload s = .next t) : s.Taken t :=
  State.Taken.command (fun v => v.answered_nothing ..) h

theorem execEnableChannel_taken {tag channel : Byte} (h : execEnableChannel tag channel s = .next t) : s.Taken t := by
  refine State.Taken.command (fun v => ?_) h
  split
  · exact v.answered_nothing ..
  · split
    · exact v.answered_nothing ..
    · next hr => exact (State.Commanded.enabled _ hr).responds ..

theorem execDisableChannel_taken {tag channel : Byte} (h : execDisableChannel tag channel s = .next t) : s.Taken t := by
  refine State.Taken.command (fun v => ?_) h
  split
  · exact v.answered_nothing ..
  · split
    · exact v.answered_nothing ..
    · next hd => exact (State.Commanded.disabled _ fun e => hd (Or.inl e)).responds ..

theorem execReleaseChannel_taken {tag channel : Byte} (h : execReleaseChannel tag channel s = .next t) : s.Taken t := by
  refine State.Taken.command (fun v => ?_) h
  split
  · exact v.answered_nothing ..
  · split
    · exact v.answered_nothing ..
    · next hr => exact (State.Commanded.released _ hr).responds ..

theorem execReadAlarms_taken {tag channel : Byte} (h : execReadAlarms tag channel s = .next t) : s.Taken t := by
  refine State.Taken.command (fun v => ?_) h
  split
  · exact State.Commanded.allNarrowed.responds ..
  · split
    · exact v.answered_nothing ..
    · exact (State.Commanded.narrowed _).responds ..

theorem execInjectReadback_taken {tag channel : Byte} {value : Code} {count : Byte}
    (h : execInjectReadback tag channel value count s = .next t) : s.Taken t := by
  refine State.Taken.command (fun v => ?_) h
  split
  · exact v.answered_nothing ..
  · split
    · exact v.answered_nothing ..
    · next hd =>
      split
      · exact v.answered_nothing ..
      · exact (State.Commanded.injected _ _ _ hd).responds ..

theorem execStoreSave_taken {tag : Byte} (h : execStoreSave tag s = .next t) : s.Taken t := by
  refine State.Taken.command (fun v => ?_) h
  split
  · exact State.Commanded.saving.responds ..
  · exact v.answered_nothing ..

theorem execStoreClear_taken {tag : Byte} (h : execStoreClear tag s = .next t) : s.Taken t := by
  refine State.Taken.command (fun v => ?_) h
  split
  · exact State.Commanded.clearing.responds ..
  · exact v.answered_nothing ..

theorem execReadEntryChannel_taken {tag index : Byte} (h : execReadEntryChannel tag index s = .next t) : s.Taken t := by
  refine State.Taken.command (fun v => ?_) h
  split <;> exact v.answered_nothing ..

theorem execReadEntrySequence_taken {tag index : Byte} (h : execReadEntrySequence tag index s = .next t) : s.Taken t := by
  refine State.Taken.command (fun v => ?_) h
  split <;> exact v.answered_nothing ..

theorem execReadEntryNode_taken {tag index : Byte} (h : execReadEntryNode tag index s = .next t) : s.Taken t := by
  refine State.Taken.command (fun v => ?_) h
  split <;> exact v.answered_nothing ..

theorem execReadEntryPreset_taken {tag index : Byte} (h : execReadEntryPreset tag index s = .next t) : s.Taken t := by
  refine State.Taken.command (fun v => ?_) h
  split <;> exact v.answered_nothing ..

theorem execReadEntryPart_taken {tag index : Byte} (h : execReadEntryPart tag index s = .next t) : s.Taken t := by
  refine State.Taken.command (fun v => ?_) h
  split <;> exact v.answered_nothing ..

theorem execWriteEntryChannel_taken {tag index : Byte} {record : List Byte} (h : execWriteEntryChannel tag index record s = .next t) :
    s.Taken t := by
  refine State.Taken.command (fun v => ?_) h
  split
  · exact v.answered_nothing ..
  · split
    · exact v.answered_nothing ..
    · split
      · exact v.answered_nothing ..
      · next hd =>
        split
        · exact v.answered_nothing ..
        · next he => exact (State.Commanded.entryWritten _ _ (not_not.mp hd) (channelEntryOf?_ok he)).responds ..

theorem execWriteEntrySequence_taken {tag index : Byte} {record : List Byte}
    (h : execWriteEntrySequence tag index record s = .next t) : s.Taken t := by
  refine State.Taken.command (fun v => ?_) h
  split
  · exact v.answered_nothing ..
  · split
    · exact v.answered_nothing ..
    · split
      · exact v.answered_nothing ..
      · split
        · exact v.answered_nothing ..
        · exact (State.Commanded.sequenceWritten _).responds ..

theorem execWriteEntryNode_taken {tag index : Byte} {record : List Byte} (h : execWriteEntryNode tag index record s = .next t) :
    s.Taken t := by
  refine State.Taken.command (fun v => ?_) h
  split
  · exact v.answered_nothing ..
  · split
    · exact v.answered_nothing ..
    · split
      · exact v.answered_nothing ..
      · split
        · exact v.answered_nothing ..
        · next hc =>
          refine (State.Commanded.expectedWritten _ _ ?_).responds ..
          rw [Bool.and_eq_true, not_and_or] at hc
          simpa using hc

theorem execWriteEntryPreset_taken {tag index : Byte} {record : List Byte} (h : execWriteEntryPreset tag index record s = .next t) :
    s.Taken t := by
  refine State.Taken.command (fun v => ?_) h
  split
  · exact v.answered_nothing ..
  · split
    · exact v.answered_nothing ..
    · split
      · exact v.answered_nothing ..
      · split
        · exact v.answered_nothing ..
        · exact (State.Commanded.presetsWritten _).responds ..

theorem execWriteEntryPart_taken {tag index : Byte} {record : List Byte} (h : execWriteEntryPart tag index record s = .next t) :
    s.Taken t := by
  refine State.Taken.command (fun v => ?_) h
  split
  · exact v.answered_nothing ..
  · split
    · exact v.answered_nothing ..
    · split
      · exact v.answered_nothing ..
      · exact (State.Commanded.configWritten _).answers ..

theorem execSeqRun_taken {tag : Byte} (h : execSeqRun tag s = .next t) : s.Taken t := by
  refine State.Taken.command (fun v => ?_) h
  split
  · next hi => exact (State.Commanded.walkStarted hi).responds ..
  · exact v.answered_nothing ..

theorem execApplyPreset_taken {tag start count : Byte} (h : execApplyPreset tag start count s = .next t) : s.Taken t := by
  refine State.Taken.command (fun v => ?_) h
  split
  · exact v.answered_nothing ..
  · exact (State.Commanded.presetsApplied _ _).responds ..

theorem execAbortPreset_taken {tag : Byte} (h : execAbortPreset tag s = .next t) : s.Taken t := by
  refine State.Taken.command (fun v => ?_) h
  split
  · exact State.Commanded.presetsAborted.responds ..
  · exact v.answered_nothing ..

/-! ### The other events -/

theorem execSetpointFrame_taken {pairs : List SetpointPair} (h : execSetpointFrame pairs s = .next t) : s.Taken t := by
  unfold execSetpointFrame at h
  split at h
  · exact State.Taken.event (fun _ => .pairsGoOn) h
  · exact State.Taken.event (fun _ => .setpoints _) h

theorem execMgmtFrame_taken {payload : List Byte} (h : execMgmtFrame payload s = .next t) : s.Taken t :=
  State.Taken.event (f := fun s => s.rxReady.queueFrame payload) (fun _ => .frameQueued payload) h

theorem execLinkGapError_taken (h : execLinkGapError s = .next t) : s.Taken t :=
  State.Taken.event (f := fun s => s.linkError .gap) (fun _ => .linkError .gap) h

theorem execReadingReceived_taken {r : Reading} (h : execReadingReceived r s = .next t) : s.Taken t :=
  State.Taken.event (f := fun s => (s.setFrx .discarding).takeReading r) (fun _ => .readingTaken r) h

theorem execStepTimerExpiry_taken {c : ChannelNo} (h : execStepTimerExpiry c s = .next t) : s.Taken t :=
  State.Taken.event (f := fun s => s.stepTimerExpired c) (fun hd => .stepTimerExpired c hd) h

theorem execPresetSpacingExpiry_taken (h : execPresetSpacingExpiry s = .next t) : s.Taken t :=
  State.Taken.event (f := fun s => State.reachEntries 64 (s.setPru { s.pru with spacingTimer := .stopped }))
    (fun _ => .presetsReached .stopped) h

theorem execBadFrame_taken {received : List LinkByte} (h : execBadFrame received s = .next t) : s.Taken t := by
  unfold execBadFrame at h
  split at h
  · exact State.Taken.done (.linkError _) h
  · exact State.Taken.next h

theorem execSaveEraseEnd_taken (h : execSaveEraseEnd s = .next t) : s.Taken t := by
  unfold execSaveEraseEnd at h
  split at h
  · next hp => exact State.Taken.done (.erased _ hp) h
  all_goals exact State.Taken.next h

theorem execSaveProgramEnd_taken {verified : Bool} (h : execSaveProgramEnd verified s = .next t) : s.Taken t := by
  unfold execSaveProgramEnd at h
  split at h
  · next hp =>
    refine State.Taken.done ?_ h
    split
    · exact .saved _ hp
    · exact .emptied _
  all_goals exact State.Taken.next h

theorem execClearEnd_taken (h : execClearEnd s = .next t) : s.Taken t := by
  unfold execClearEnd at h
  split at h
  · exact State.Taken.done (.emptied _) h
  all_goals exact State.Taken.next h

theorem execTransmitEnd_taken (h : execTransmitEnd s = .next t) : s.Taken t := by
  unfold execTransmitEnd at h
  split at h
  · exact State.Taken.done (.transmitted _) h
  · exact State.Taken.next h

theorem execGrant_taken (h : execGrant s = .next t) : s.Taken t := by
  refine State.Taken.event (fun hd => .granted ?_) h
  simp only [State.grantDue, Bool.and_eq_true, beq_iff_eq] at hd
  exact hd.1

theorem execFieldGapExpiry_taken (h : execFieldGapExpiry s = .next t) : s.Taken t := by
  refine State.Taken.event (fun hd => ?_) h
  cases hs : s.fbc.state with
  | gap us => exact .gapEnded us hs
  | idle | held _ | sending _ | awaitBusy _ | awaitRelease _ | awaitReply _ => rw [hs] at hd; cases hd

theorem execStrobe_taken (h : execStrobe s = .next t) : s.Taken t := by
  unfold execStrobe at h
  split at h
  · next hs => exact State.Taken.done (.strobed _ hs) h
  all_goals exact State.Taken.next h

theorem execHeldTimeout_taken (h : execHeldTimeout s = .next t) : s.Taken t := by
  unfold execHeldTimeout at h
  split at h
  · next hs => exact State.Taken.done (.heldOut _ hs) h
  all_goals exact State.Taken.next h

theorem execBusyTimeoutExpiry_taken (h : execBusyTimeoutExpiry s = .next t) : s.Taken t := by
  unfold execBusyTimeoutExpiry at h
  split at h
  · next hs => exact State.Taken.done (.completed _ _ (by rw [hs]; rfl)) h
  · next hs => exact State.Taken.done (.completed _ _ (by rw [hs]; rfl)) h
  all_goals exact State.Taken.next h

theorem execResponseTimeoutExpiry_taken (h : execResponseTimeoutExpiry s = .next t) : s.Taken t := by
  unfold execResponseTimeoutExpiry at h
  split at h
  · next hs => exact State.Taken.done (.completed _ _ (by rw [hs]; rfl)) h
  all_goals exact State.Taken.next h

theorem execMalformedReading_taken {received : List FieldByte} (h : execMalformedReading received s = .next t) : s.Taken t := by
  unfold execMalformedReading at h
  split at h
  · exact State.Taken.done (.readingMalformed _) h
  · exact State.Taken.done (.readingMalformed _) h
  · exact State.Taken.done (.readingMalformed _) h
  · exact State.Taken.next h

/-- The level of the pin FBSY. -/
def State.setFbsy (s : State) (level : Bool) : State := s.setFbc { s.fbc with fbsy := level }

theorem execFbsyAsserted_taken (h : execFbsyAsserted s = .next t) : (s.setFbsy true).Taken t := by
  unfold execFbsyAsserted at h
  dsimp only at h
  split at h
  · next hs => exact State.Taken.done (s := s.setFbsy true) (.busyBegan _ hs) h
  all_goals exact State.Taken.next h

theorem execFbsyReleased_taken (h : execFbsyReleased s = .next t) : (s.setFbsy false).Taken t := by
  unfold execFbsyReleased at h
  dsimp only at h
  split at h
  · next hs => exact State.Taken.done (s := s.setFbsy false) (.sendingBegan _ hs) h
  · next hs => exact State.Taken.done (s := s.setFbsy false) (.completed _ _ (by rw [State.setFbsy, hs]; rfl)) h
  all_goals exact State.Taken.next h

/-- Every command does one of the effects, on the state as it stands or with a new level of FBSY. -/
theorem exec_effect {i : Instr} (h : exec i s = .next t) : s.Taken t ∨ ∃ level, (s.setFbsy level).Taken t := by
  cases i with
  | fbsyAsserted => exact Or.inr ⟨true, execFbsyAsserted_taken h⟩
  | fbsyReleased => exact Or.inr ⟨false, execFbsyReleased_taken h⟩
  | powerOn => exact Or.inl (State.Taken.done .powerOn h)
  | enterRun steps => exact Or.inl (State.Taken.event (fun _ => .startUp steps) h)
  | receiverReady => exact Or.inl (State.Taken.event (fun _ => .receiverReady) h)
  | setpointFrame pairs => exact Or.inl (execSetpointFrame_taken h)
  | mgmtFrame payload => exact Or.inl (execMgmtFrame_taken h)
  | badFrame received => exact Or.inl (execBadFrame_taken h)
  | linkGapError => exact Or.inl (execLinkGapError_taken h)
  | readStatus tag => exact Or.inl (execReadStatus_taken h)
  | readChannel tag channel => exact Or.inl (execReadChannel_taken h)
  | readEntryChannel tag index => exact Or.inl (execReadEntryChannel_taken h)
  | readEntrySequence tag index => exact Or.inl (execReadEntrySequence_taken h)
  | readEntryNode tag index => exact Or.inl (execReadEntryNode_taken h)
  | readEntryPreset tag index => exact Or.inl (execReadEntryPreset_taken h)
  | readEntryPart tag index => exact Or.inl (execReadEntryPart_taken h)
  | writeEntryChannel tag index record => exact Or.inl (execWriteEntryChannel_taken h)
  | writeEntrySequence tag index record => exact Or.inl (execWriteEntrySequence_taken h)
  | writeEntryNode tag index record => exact Or.inl (execWriteEntryNode_taken h)
  | writeEntryPreset tag index record => exact Or.inl (execWriteEntryPreset_taken h)
  | writeEntryPart tag index record => exact Or.inl (execWriteEntryPart_taken h)
  | badCommand payload => exact Or.inl (execBadCommand_taken h)
  | enableChannel tag channel => exact Or.inl (execEnableChannel_taken h)
  | disableChannel tag channel => exact Or.inl (execDisableChannel_taken h)
  | releaseChannel tag channel => exact Or.inl (execReleaseChannel_taken h)
  | readAlarms tag channel => exact Or.inl (execReadAlarms_taken h)
  | injectReadback tag channel value count => exact Or.inl (execInjectReadback_taken h)
  | seqRun tag => exact Or.inl (execSeqRun_taken h)
  | seqStop tag => exact Or.inl (State.Taken.command (fun _ => State.Commanded.walkStopped.responds tag cmdSeqStop .ok []) h)
  | applyPreset tag start count => exact Or.inl (execApplyPreset_taken h)
  | abortPreset tag => exact Or.inl (execAbortPreset_taken h)
  | flushOutput tag => exact Or.inl (State.Taken.command (fun _ => State.Commanded.flushed.responds tag cmdFlushOutput .ok _) h)
  | slewBypassOn tag => exact Or.inl (State.Taken.command (fun _ => (State.Commanded.bypassed true).responds tag cmdSlewBypass .ok []) h)
  | slewBypassOff tag => exact Or.inl (State.Taken.command (fun _ => (State.Commanded.bypassed false).responds tag cmdSlewBypass .ok []) h)
  | storeSave tag => exact Or.inl (execStoreSave_taken h)
  | storeClear tag => exact Or.inl (execStoreClear_taken h)
  | restart tag => exact Or.inl (State.Taken.command (fun _ => State.Commanded.restartPending.answers tag cmdRestart .ok [] .restart) h)
  | saveEraseEnd => exact Or.inl (execSaveEraseEnd_taken h)
  | saveProgramEnd verified => exact Or.inl (execSaveProgramEnd_taken h)
  | clearEnd => exact Or.inl (execClearEnd_taken h)
  | transmitEnd => exact Or.inl (execTransmitEnd_taken h)
  | grant => exact Or.inl (execGrant_taken h)
  | fieldGapExpiry => exact Or.inl (execFieldGapExpiry_taken h)
  | strobe => exact Or.inl (execStrobe_taken h)
  | heldTimeout => exact Or.inl (execHeldTimeout_taken h)
  | busyTimeoutExpiry => exact Or.inl (execBusyTimeoutExpiry_taken h)
  | responseTimeoutExpiry => exact Or.inl (execResponseTimeoutExpiry_taken h)
  | readingReceived reading => exact Or.inl (execReadingReceived_taken h)
  | malformedReading received => exact Or.inl (execMalformedReading_taken h)
  | stepTimerExpiry channel => exact Or.inl (execStepTimerExpiry_taken h)
  | spacingTimerExpiry => exact Or.inl (State.Taken.event (fun _ => .spacingExpired) h)
  | cycleTimerExpiry => exact Or.inl (State.Taken.event (fun _ => .cycleExpired) h)
  | silenceTimerExpiry => exact Or.inl (State.Taken.event (fun _ => .silenceBegan) h)
  | presetSpacingExpiry => exact Or.inl (execPresetSpacingExpiry_taken h)
  | frxIdle => exact Or.inl (State.Taken.done .frxIdle h)

/-! ### The package of an invariant -/

/-- What every effect, every start of a transmission and every new level of FBSY keep, every command keeps. -/
structure KeptByEffects (P : State → Prop) : Prop where
  fbsy : ∀ (s : State) (level : Bool), P s → P (s.setFbsy level)
  begins : ∀ s : State, P s → P s.beginTransmission
  effect : ∀ s u : State, s.Effect u → P s → P u

theorem State.Taken.kept {P : State → Prop} (K : KeptByEffects P) (h : s.Taken t) (hs : P s) : P t := by
  rcases h with rfl | ⟨u, hu, rfl⟩
  · exact hs
  · exact K.begins u (K.effect s u hu hs)

theorem exec_kept {P : State → Prop} (K : KeptByEffects P) {i : Instr} (h : exec i s = .next t) (hs : P s) : P t := by
  rcases exec_effect h with h | ⟨level, h⟩
  · exact h.kept K hs
  · exact h.kept K (K.fbsy s level hs)

/-- An invariant kept by the effects, which the waiting commands do not touch, is kept by every step. -/
theorem step_kept {P : State → Prop} (K : KeptByEffects P) (hp : ∀ (s : State) (rest : List Instr), P s → P (s.setPending rest))
    (h : step s = .next t) (hs : P s) : P t := by
  unfold step at h
  split at h
  · cases h; exact hs
  · exact exec_kept K h (hp s _ hs)

end Sys2Proof.Machine
end

