-- ==== Sys2Proof/Proofs/Drives.lean ====
section
/-! PROOF. The law of every channel is kept by every step (Sections 2, 3, 4.4, 6, 7): the laws of Laws/ for each operation, put together
over the effects. -/

namespace Sys2Proof.Machine

variable {s u : State}

/-- A change that leaves the active set may narrow the latched set down to it (R125). -/
theorem ContextLaw.narrowed {e : ChannelEntry} {x : ChannelCtx} {q : OutputQueue} {r : Option Transaction} {c : ChannelNo}
    (h : ContextLaw e x q r c) : ContextLaw e x.narrowed q r c :=
  { h with
    off := fun hd => by rw [h.off hd]; rfl
    latched := ClassSet.subset_self _ }

/-- A change of the substituted value leaves the law of its channel (R110). -/
theorem ContextLaw.injected {e : ChannelEntry} {x : ChannelCtx} {q : OutputQueue} {r : Option Transaction} {c : ChannelNo}
    (h : ContextLaw e x q r c) (hd : x.drive ≠ .off) (value : Code) (n : Fin 16) :
    ContextLaw e { x with injectValue := value, injectLeft := n } q r c :=
  { h with off := fun hoff => absurd hoff hd }

/-- A change of the store keeps the laws when what it may load satisfies the value checks (R9, R179). -/
theorem State.DriveLaw.setPst (h : s.DriveLaw) {x : Store} (hx : (s.setPst x).StoreLaw) : (s.setPst x).DriveLaw :=
  ⟨h.channel, hx, h.queue⟩

/-- The tables as they stand satisfy the value checks (R7). -/
theorem State.DriveLaw.tables (h : s.DriveLaw) : s.tables.entriesOk := fun c => (h.channel c).entryOk

/-- The drive state of a channel whose release passes the checks (R42). -/
theorem State.releaseRefusal_none_inv {c : ChannelNo} (h : s.releaseRefusal c = none) :
    ((s.ch c).drive = .isolating ∨ (s.ch c).drive = .isolated) ∧ ¬ s.inFlight c (.isolate c) := by
  unfold State.releaseRefusal at h
  split at h
  · cases h
  · next hd =>
    split at h
    · cases h
    · next hf => exact ⟨by rwa [not_and_or, not_not, not_not] at hd, fun k => hf ((s.isolateInFlight_iff c).mpr k)⟩

theorem State.DriveLaw.writeConfig (h : s.DriveLaw) (p : PartConfig) : (s.writeConfig p).DriveLaw := by
  unfold State.writeConfig
  dsimp only
  split
  · exact h.setMgx _
  · exact (h.setMgx _).silenceTimeoutWritten

/-- What MGX makes of the part keeps the law of every channel. -/
theorem State.DriveLaw.commanded (h : s.DriveLaw) (hu : s.Commanded u) : u.DriveLaw := by
  cases hu with
  | nothing => exact h
  | statusCleared => exact h.congr rfl rfl rfl rfl rfl
  | enabled c hr => exact h.enable (State.enableRefusal_none hr).1
  | disabled c hd => exact h.disable
  | released c hr =>
    obtain ⟨hd, hf⟩ := State.releaseRefusal_none_inv hr
    exact h.release (by rcases hd with e | e <;> simp [e]) hf
  | allNarrowed => exact h.modAll fun c => (h.channel c).narrowed
  | narrowed c => exact h.modCh (h.channel c).narrowed
  | injected c value n hd => exact h.modCh ((h.channel c).injected hd value n)
  | flushed => exact h.flush
  | bypassed on => exact h.setBypass on
  | restartPending => exact h.setMgx _
  | saving => exact h.setPst ⟨h.store.1, fun p t e => by cases e; exact h.tables⟩
  | clearing => exact h.setPst ⟨h.store.1, fun p t e => by cases e⟩
  | entryWritten c e hd he => exact h.setEntry hd he
  | sequenceWritten r => exact h.congr rfl rfl rfl rfl rfl
  | expectedWritten n b hn => exact h.modNode n _
  | presetsWritten list => exact h.setPru _
  | configWritten p => exact h.writeConfig p
  | walkStarted hi => exact s.startCycle_only.driveLaw h
  | walkStopped => exact s.stopSequence_only.driveLaw h
  | presetsApplied a n => exact h.startApply a n
  | presetsAborted => exact (h.setPru _).onlyReports (State.offerPart_onlyReports _ _)

theorem State.DriveLaw.setClp (h : s.DriveLaw) (x : LinkPort) : (s.setClp x).DriveLaw := h.congr rfl rfl rfl rfl rfl

theorem State.DriveLaw.latch (h : s.DriveLaw) (f : Latches → Latches) : (s.latch f).DriveLaw := h.setMgx _

theorem State.DriveLaw.linkError (h : s.DriveLaw) (e : LinkError) : (s.linkError e).DriveLaw := by
  unfold State.linkError
  dsimp only
  split
  · exact ((h.setClp _).setClp _).onlyReports (State.offerPart_onlyReports _ _)
  · exact h.setClp _

theorem State.DriveLaw.queueFrame (h : s.DriveLaw) (payload : List Byte) : (s.queueFrame payload).DriveLaw := by
  unfold State.queueFrame
  split
  · exact h.setMgx _
  · exact h.linkError _

theorem State.DriveLaw.transmitted (h : s.DriveLaw) (r : Report) : (s.transmitted r).DriveLaw := by
  unfold State.transmitted
  split
  · exact h.setClp _
  · exact State.DriveLaw.performRestart h.store
  all_goals exact h

/-- A handshake moves its record from state to state (R70 to R72). -/
theorem State.DriveLaw.sameRecord (h : s.DriveLaw) {b : FieldBus} (hb : b.state.record? = s.fbc.state.record?) :
    (s.setFbc b).DriveLaw := h.congr rfl rfl rfl hb rfl

theorem afterStrobe_record (fbsy : Bool) (x : Transaction) : (afterStrobe fbsy x).record? = some x := by
  unfold afterStrobe
  split
  · split <;> rfl
  · split <;> rfl
  all_goals rfl

/-- Every effect keeps the law of every channel. -/
theorem State.DriveLaw.effect (h : s.DriveLaw) (hu : s.Effect u) : u.DriveLaw := by
  cases hu with
  | powerOn => exact State.DriveLaw.powerOn h.store
  | startUp n => exact State.DriveLaw.startUpRun n h
  | receiverReady => exact h.setClp _
  | pairsGoOn => exact h.applyPairs _
  | setpoints pairs => exact (h.setClp _).takeSetpoints pairs
  | frameQueued payload => exact (h.setClp _).queueFrame payload
  | linkError e => exact h.linkError e
  | answered ht ha =>
    obtain ⟨v, tag, cmd, k, data, e, hv, rfl⟩ := ha
    exact (State.DriveLaw.commanded (h.setMgx _) hv).respondThen tag cmd k data e
  | erased copy hp => exact h.setPst ⟨fun t e => (by cases e), fun p t e => by cases e; exact h.store.2 _ copy hp⟩
  | saved copy hp =>
    refine State.DriveLaw.onlyReports (h.setPst ⟨fun t e => ?_, fun p t e => by cases e⟩) (State.offerPart_onlyReports _ _)
    cases e; exact h.store.2 _ copy hp
  | emptied e =>
    exact State.DriveLaw.onlyReports (h.setPst ⟨fun t k => (by cases k), fun p t k => by cases k⟩) (State.offerPart_onlyReports _ _)
  | transmitted r => exact (h.setClp _).transmitted r
  | granted hi => exact h.arbitrate
  | gapEnded us hs => exact (h.sameRecord (by rw [hs]; rfl)).arbitrate
  | strobed x hs => exact h.sameRecord ((afterStrobe_record _ x).trans (by rw [hs]; rfl))
  | busyBegan x hs => exact h.sameRecord (by rw [hs]; rfl)
  | sendingBegan x hs => exact h.sameRecord (by rw [hs]; rfl)
  | heldOut x hs =>
    exact (h.latch _).complete (x := x) (by show s.fbc.state.record? = _; rw [hs]; rfl) _
  | completed x r hx => exact h.complete hx r
  | readingTaken r => exact (h.setFrx _).takeReading r
  | readingMalformed f => exact (h.latch _).setFrx f
  | frxIdle => exact h.setFrx _
  | stepTimerExpired c ht => exact h.stepTimerExpired ht
  | spacingExpired => exact s.spacingExpired_only.driveLaw h
  | cycleExpired => exact s.cycleExpired_only.driveLaw h
  | silenceBegan => exact h.silenceBegins
  | presetsReached timer => exact State.DriveLaw.reachEntries 64 (h.setPru _)

/-- The law of every channel is kept by every command. -/
theorem driveLaw_kept : KeptByEffects State.DriveLaw where
  fbsy _ _ h := h.sameRecord rfl
  begins _ h := h.beginTransmission
  effect _ _ hu h := h.effect hu

/-- Settles O8: every effect keeps the law of every channel (`State.DriveLaw.effect`), and so does every step. -/
theorem stepKeepsDriveLaw : Obligations.StepKeepsDriveLaw :=
  fun _ _ hs h => step_kept driveLaw_kept (fun _ _ k => k.congr rfl rfl rfl rfl rfl) h hs

end Sys2Proof.Machine
end

