-- ==== Sys2Proof/Proofs/Queues.lean ====
section
/-! PROOF. The queues (R46, R163, R174): what every operation does to the output queue, the report queue and the management queue, said
once (`Queues`); and for the operations on channels, that they leave the field bus and the sequencer but for stale marks (`Works`). -/

namespace Sys2Proof.Machine

variable {s t u : State} {c : ChannelNo}

/-! ### The output queue of an engine operation -/

theorem State.OutputQueueLaw.congr (h : s.OutputQueueLaw) (hq : t.oq = s.oq) : t.OutputQueueLaw := by
  unfold State.OutputQueueLaw at *; rw [hq]; exact h

theorem State.OutputQueueLaw.modCh (h : s.OutputQueueLaw) (f : ChannelCtx → ChannelCtx) : (s.modCh c f).OutputQueueLaw :=
  h.congr (s.oq_modCh c f)

theorem State.OutputQueueLaw.placeWrite (h : s.OutputQueueLaw) (k : Code) (r : Bool) : (s.placeWrite c k r).OutputQueueLaw :=
  OutputQueue.placeWrite_keys (q := s.oq) h c k r

theorem State.OutputQueueLaw.placeIsolate (h : s.OutputQueueLaw) : (s.placeIsolate c).OutputQueueLaw :=
  OutputQueue.placeIsolate_keys (q := s.oq) h c

theorem State.OutputQueueLaw.removeEntry (h : s.OutputQueueLaw) : (s.removeEntry c).OutputQueueLaw :=
  OutputQueue.remove_keys (q := s.oq) h c

theorem State.OutputQueueLaw.issueWrite (h : s.OutputQueueLaw) (k : Code) (r : Bool) : (s.issueWrite c k r).OutputQueueLaw :=
  (h.placeWrite k r).modCh _

theorem State.OutputQueueLaw.stepTest (h : s.OutputQueueLaw) : (s.stepTest c).OutputQueueLaw := by
  unfold State.stepTest State.issueStep
  split
  · exact h
  · split
    · exact h
    · split
      · exact h.modCh _
      · split
        · exact h
        · split
          · exact h.issueWrite _ _
          · exact h

theorem State.OutputQueueLaw.requestCode (h : s.OutputQueueLaw) (k : Code) : (s.requestCode c k).OutputQueueLaw := by
  unfold State.requestCode State.meetGrant
  split
  · exact (h.placeWrite k false).modCh _
  · split
    · exact h.modCh _
    · exact h

theorem State.OutputQueueLaw.setGoal (h : s.OutputQueueLaw) (goal : Option Code) : (s.setGoal c goal).OutputQueueLaw := by
  unfold State.setGoal State.coalesceToGoal
  split
  · exact h
  · refine State.OutputQueueLaw.stepTest ?_
    split
    · split
      · exact (h.modCh _).requestCode _
      · exact h.modCh _
    · exact h.modCh _

theorem State.OutputQueueLaw.beginIsolation (h : s.OutputQueueLaw) : (s.beginIsolation c).OutputQueueLaw := h.placeIsolate.modCh _

theorem State.OutputQueueLaw.actionChanged (h : s.OutputQueueLaw) (a : Action) : (s.actionChanged c a).OutputQueueLaw := by
  unfold State.actionChanged
  split
  · split
    · exact h.beginIsolation
    · exact h.setGoal _
  · split
    · exact h.beginIsolation
    · exact h.setGoal _
  · split
    · exact h.beginIsolation
    · exact h
  all_goals exact h

theorem State.OutputQueueLaw.targetNotice (h : s.OutputQueueLaw) : (s.targetNotice c).OutputQueueLaw := by
  unfold State.targetNotice
  split
  · split
    · exact h.setGoal _
    · exact h
  · split
    · exact h.setGoal _
    · exact h
  all_goals exact h

theorem State.OutputQueueLaw.enterMoving (h : s.OutputQueueLaw) : (s.enterMoving c).OutputQueueLaw := (h.modCh _).stepTest

theorem State.OutputQueueLaw.writeOk (h : s.OutputQueueLaw) (k : Code) (r : Bool) : (s.writeOk c k r).OutputQueueLaw := by
  have ha : (s.setApplied c k).OutputQueueLaw := h.modCh _
  unfold State.writeOk
  dsimp only
  split
  · exact ha.stepTest
  · split
    · exact ha.enterMoving
    · exact ha
  all_goals exact ha

theorem State.OutputQueueLaw.writeFailed (h : s.OutputQueueLaw) (r : Bool) : (s.writeFailed c r).OutputQueueLaw := by
  have hr : (s.rollBack c).OutputQueueLaw := h.modCh _
  unfold State.writeFailed
  dsimp only
  split
  · exact hr.stepTest
  · split
    · exact hr.modCh _
    · exact hr
  all_goals exact hr

theorem State.OutputQueueLaw.isolateResult (h : s.OutputQueueLaw) (success : Bool) : (s.isolateResult c success).OutputQueueLaw := by
  unfold State.isolateResult
  split
  · split
    · exact h.modCh _
    · exact h.placeIsolate
  · exact h

theorem State.OutputQueueLaw.stepTimerExpired (h : s.OutputQueueLaw) : (s.stepTimerExpired c).OutputQueueLaw := by
  have he : (s.modCh c fun x => { x with stepTimer := .expired }).OutputQueueLaw := h.modCh _
  unfold State.stepTimerExpired
  dsimp only
  split
  · exact he.stepTest
  · split
    · exact he
    · exact he.issueWrite _ _
  all_goals exact he

theorem State.OutputQueueLaw.beginStopping (h : s.OutputQueueLaw) : (s.beginStopping c).OutputQueueLaw := (h.placeWrite _ _).modCh _

theorem State.OutputQueueLaw.resumeDrive (h : s.OutputQueueLaw) : (s.resumeDrive c).OutputQueueLaw := by
  unfold State.resumeDrive
  split
  · refine State.OutputQueueLaw.enterMoving ?_
    split
    · exact h.removeEntry
    · exact h.removeEntry.modCh _
  · exact (h.issueWrite _ _).modCh _
  all_goals exact h

/-! ### The kinds of entries in the report queue -/

theorem Report.rewriteAlarm_kinds (c d : ChannelNo) (active latched : ClassSet) (a : Action) (r : Report) :
    (r.rewriteAlarm c active latched a).isAlarmOf d = r.isAlarmOf d ∧ (r.rewriteAlarm c active latched a).isPart = r.isPart ∧
      (r.rewriteAlarm c active latched a).isBounded = r.isBounded := by
  cases r with
  | alarm e act lat x n => unfold Report.rewriteAlarm; dsimp only; split <;> exact ⟨rfl, rfl, rfl⟩
  | readback | part | response => exact ⟨rfl, rfl, rfl⟩

theorem Report.addEvent_kinds (e : PartEvent) (d : ChannelNo) (r : Report) :
    (r.addEvent e).isAlarmOf d = r.isAlarmOf d ∧ (r.addEvent e).isPart = r.isPart ∧ (r.addEvent e).isBounded = r.isBounded := by
  cases r <;> exact ⟨rfl, rfl, rfl⟩

/-- From one report queue to the next the entries stay within the bounds of R174, and the READBACK and RESPONSE entries grow only
where `more` allows it, and then to 23 at most. -/
structure Within (more : Prop) (p q : List Report) : Prop where
  alarms : ∀ c, p.countP (Report.isAlarmOf c) ≤ 1 → q.countP (Report.isAlarmOf c) ≤ 1
  parts : p.countP Report.isPart ≤ 1 → q.countP Report.isPart ≤ 1
  bounded : q.countP Report.isBounded ≤ p.countP Report.isBounded ∨ (more ∧ q.countP Report.isBounded ≤ 23)

variable {more : Prop} {p q r : List Report}

theorem Within.refl (more : Prop) (p : List Report) : Within more p p := ⟨fun _ h => h, fun h => h, Or.inl (le_refl _)⟩

theorem Within.trans (h : Within more p q) (k : Within more q r) : Within more p r where
  alarms c hp := k.alarms c (h.alarms c hp)
  parts hp := k.parts (h.parts hp)
  bounded := by
    rcases k.bounded with kb | kb
    · rcases h.bounded with hb | ⟨hm, hb⟩
      · exact Or.inl (kb.trans hb)
      · exact Or.inr ⟨hm, kb.trans hb⟩
    · exact Or.inr kb

theorem Within.of_sublist (h : q.Sublist p) : Within more p q where
  alarms _ hp := h.countP_le.trans hp
  parts hp := h.countP_le.trans hp
  bounded := Or.inl h.countP_le

/-- A rewriting of entries that leaves their kinds. -/
theorem Within.map (p : List Report) {f : Report → Report}
    (hf : ∀ (d : ChannelNo) (x : Report), (f x).isAlarmOf d = x.isAlarmOf d ∧ (f x).isPart = x.isPart ∧ (f x).isBounded = x.isBounded) :
    Within more p (p.map f) where
  alarms c hp := by
    have : Report.isAlarmOf c ∘ f = Report.isAlarmOf c := funext fun x => (hf c x).1
    rwa [List.countP_map, this]
  parts hp := by
    have : Report.isPart ∘ f = Report.isPart := funext fun x => (hf 0 x).2.1
    rwa [List.countP_map, this]
  bounded := by
    have : Report.isBounded ∘ f = Report.isBounded := funext fun x => (hf 0 x).2.2
    rw [List.countP_map, this]; exact Or.inl (le_refl _)

theorem countP_of_not_any {f : Report → Bool} (h : ¬ p.any f = true) : p.countP f = 0 := by
  rw [List.countP_eq_zero]
  intro x hx hf
  exact h (List.any_eq_true.mpr ⟨x, hx, hf⟩)

/-- An ALARM offer lands on the entry of its channel, or is the first one (R176). -/
theorem within_alarmPlaced (p : List Report) (c : ChannelNo) (active latched : ClassSet) (a : Action) :
    Within more p (alarmPlaced p c active latched a) := by
  unfold alarmPlaced
  split
  · exact .map p fun d x => x.rewriteAlarm_kinds c d active latched a
  · next hn =>
    refine ⟨fun d hp => ?_, fun hp => ?_, Or.inl ?_⟩
    · by_cases hd : c = d
      · subst hd
        simp [List.countP_append, countP_of_not_any hn, Report.isAlarmOf]
      · simpa [List.countP_append, List.countP_cons, Report.isAlarmOf, hd] using hp
    · simpa [List.countP_append, List.countP_cons, Report.isPart] using hp
    · simp [List.countP_append, Report.isBounded]

/-- A PART offer lands on the PART entry, or is the first one (R176). -/
theorem within_partPlaced (p : List Report) (e : PartEvent) : Within more p (partPlaced p e) := by
  unfold partPlaced
  split
  · exact .map p fun d x => x.addEvent_kinds e d
  · next hn =>
    refine ⟨fun d hp => ?_, fun _ => ?_, Or.inl ?_⟩
    · simpa [List.countP_append, List.countP_cons, Report.isAlarmOf] using hp
    · simp [List.countP_append, List.countP_cons, countP_of_not_any hn, Report.isPart]
    · simp [List.countP_append, Report.isBounded]

/-- A READBACK or RESPONSE placed while fewer than 23 of them wait (R174, R175). -/
theorem within_placed {x : Report} (hx : x.isBounded = true) (hp : p.countP Report.isBounded ≤ 22) (hm : more) :
    Within more p (p ++ [x]) := by
  obtain ⟨h1, h2⟩ : (∀ d, x.isAlarmOf d = false) ∧ x.isPart = false := by
    cases x with
    | readback | response => exact ⟨fun _ => rfl, rfl⟩
    | alarm | part => cases hx
  refine ⟨fun d h => ?_, fun h => ?_, Or.inr ⟨hm, ?_⟩⟩
  · simpa [List.countP_append, List.countP_cons, h1] using h
  · simpa [List.countP_append, List.countP_cons, h2] using h
  · simp only [List.countP_append, List.countP_cons, List.countP_nil, hx, if_pos]
    omega

/-! ### The queues of any operation -/

/-- What every operation does to the queues: it keeps the law of the output queue and of the management queue, stays within the bounds
of the report queue, and leaves the waiting commands. -/
structure State.Queues (more : Prop) (s t : State) : Prop where
  output : s.OutputQueueLaw → t.OutputQueueLaw
  reports : Within more s.rq t.rq
  frames : s.ManagementQueueLaw → t.ManagementQueueLaw
  pending : t.pending = s.pending

theorem State.Queues.refl (more : Prop) (s : State) : State.Queues more s s := ⟨fun h => h, .refl _ _, fun h => h, rfl⟩

theorem State.Queues.trans (h : State.Queues more s t) (k : State.Queues more t u) : State.Queues more s u :=
  ⟨fun x => k.output (h.output x), h.reports.trans k.reports, fun x => k.frames (h.frames x), k.pending.trans h.pending⟩

/-- What leaves the four queues. -/
theorem State.Queues.of_eq (hoq : t.oq = s.oq) (hrq : t.rq = s.rq) (hf : t.mgx.queue = s.mgx.queue) (hp : t.pending = s.pending) :
    State.Queues more s t :=
  ⟨fun h => h.congr hoq, by rw [hrq]; exact .refl _ _, fun h => by unfold State.ManagementQueueLaw at *; rwa [hf], hp⟩

theorem State.Queues.of_onlyReports (h : s.OnlyReports t) (hw : Within more s.rq t.rq) : State.Queues more s t :=
  ⟨fun x => x.congr h.channels.2, hw, fun x => by unfold State.ManagementQueueLaw at *; rwa [h.units.2.2.1], h.waiting⟩

/-- An operation on channels: beside the queues it leaves the field bus and the sequencer but for stale marks. -/
structure State.Works (more : Prop) (s t : State) : Prop extends State.Queues more s t where
  polling : t.fbc.state.isPolling ↔ s.fbc.state.isPolling
  passOver : t.fbc.passOver = s.fbc.passOver
  sequencer : t.psq = { s.psq with pollSlot := t.psq.pollSlot }
  pollSlot : t.psq.pollSlot.isSome = s.psq.pollSlot.isSome

theorem State.Works.refl (more : Prop) (s : State) : State.Works more s s :=
  ⟨.refl _ _, Iff.rfl, rfl, rfl, rfl⟩

theorem State.Works.trans (h : State.Works more s t) (k : State.Works more t u) : State.Works more s u :=
  ⟨h.toQueues.trans k.toQueues, k.polling.trans h.polling, k.passOver.trans h.passOver, by rw [k.sequencer, h.sequencer],
    k.pollSlot.trans h.pollSlot⟩

/-- Queues and an untouched field bus and sequencer. -/
theorem State.Works.of_queues (h : State.Queues more s t) (hf : t.fbc = s.fbc) (hp : t.psq = s.psq) : State.Works more s t :=
  ⟨h, by rw [hf], by rw [hf], by rw [hp], by rw [hp]⟩

theorem State.Works.of_onlyReports (h : s.OnlyReports t) (hw : Within more s.rq t.rq) : State.Works more s t :=
  .of_queues (.of_onlyReports h hw) h.field.1 h.field.2

/-- An engine operation that keeps the law of the output queue. -/
theorem State.Works.of_drives (h : State.Drives c s t) (hq : s.OutputQueueLaw → t.OutputQueueLaw) : State.Works more s t :=
  .of_queues ⟨hq, by rw [h.reports.2]; exact .refl _ _, fun x => by unfold State.ManagementQueueLaw at *; rwa [h.frame.units.2.2.1],
    h.frame.waiting⟩ h.frame.field.1 h.frame.field.2

theorem State.Works.modCh (s : State) (c : ChannelNo) (f : ChannelCtx → ChannelCtx) : State.Works more s (s.modCh c f) :=
  .of_queues (.of_eq (by simp) (by simp) (by simp) (by simp)) (by simp) (by simp)

theorem State.Works.foldl {β : Type} {f : State → β → State} (hf : ∀ s b, State.Works more s (f s b)) (l : List β) :
    ∀ s, State.Works more s (l.foldl f s) := by
  induction l with
  | nil => exact fun s => .refl _ s
  | cons b l ih => exact fun s => (hf s b).trans (ih _)

/-! ### The reports -/

theorem State.beginTransmission_within (s : State) : Within more s.rq s.beginTransmission.rq := by
  rcases s.beginTransmission_cases with h | ⟨x, rest, -, hq, h⟩
  · rw [h]; exact .refl _ _
  · rw [h, hq]; exact .of_sublist (List.sublist_cons_self x rest)

theorem State.meetTransmission_within (s : State) (f : Report → Bool) : Within more s.rq (s.meetTransmission f).rq := by
  rcases s.meetTransmission_cases f with h | h | h <;> rw [h]
  · exact .refl _ _
  · exact s.beginTransmission_within
  · exact .refl _ _

theorem State.Works.beginTransmission (s : State) : State.Works more s s.beginTransmission :=
  .of_onlyReports s.beginTransmission_onlyReports s.beginTransmission_within

theorem State.Works.offerAlarm (s : State) (c : ChannelNo) (active latched : ClassSet) (a : Action) :
    State.Works more s (s.offerAlarm c active latched a) :=
  .of_onlyReports (s.offerAlarm_onlyReports c active latched a) ((s.meetTransmission_within _).trans (within_alarmPlaced _ _ _ _ _))

theorem State.Works.offerPart (s : State) (e : PartEvent) : State.Works more s (s.offerPart e) :=
  .of_onlyReports (s.offerPart_onlyReports e) ((s.meetTransmission_within _).trans (within_partPlaced _ _))

theorem State.Works.latch (s : State) (f : Latches → Latches) : State.Works more s (s.latch f) :=
  .of_queues (.of_eq rfl rfl rfl rfl) rfl rfl

/-! ### Changes of the active set, setpoints, silence -/

theorem State.Works.setActive (s : State) (c : ChannelNo) (active : ClassSet) : State.Works more s (s.setActive c active) := by
  rw [State.setActive_eq]
  split
  · exact .refl _ s
  · dsimp only
    have hset := State.Works.modCh (more := more) s c (ChannelCtx.activeSet (s.entry c) active)
    have htold : State.Works more s (if effectiveAction (s.entry c) active = (s.ch c).action then
        s.modCh c (ChannelCtx.activeSet (s.entry c) active)
      else (s.modCh c (ChannelCtx.activeSet (s.entry c) active)).actionChanged c (effectiveAction (s.entry c) active)) := by
      split
      · exact hset
      · exact hset.trans (.of_drives (State.Drives.actionChanged _ c _) fun h => h.actionChanged _)
    split
    · exact htold.trans (.offerAlarm _ _ _ _ _)
    · exact htold

theorem State.Works.startDriving (s : State) (c : ChannelNo) : State.Works more s (s.startDriving c) :=
  (State.Works.modCh s c _).trans (.of_drives (State.Drives.issueWrite _ c _ _) fun h => h.issueWrite _ _)

theorem State.Works.enable (s : State) (c : ChannelNo) : State.Works more s (s.enable c) := by
  unfold State.enable
  dsimp only
  split
  · exact (State.Works.startDriving s c).trans (.setActive _ _ _)
  · exact .startDriving s c

theorem State.Works.release (s : State) (c : ChannelNo) : State.Works more s (s.release c) :=
  ((State.Works.modCh s c _).trans (.setActive _ _ _)).trans (.of_drives (State.Drives.resumeDrive _ c) fun h => h.resumeDrive)

theorem FbcState.isPolling_mapRecord {x : FbcState} {f : Transaction → Transaction} (hf : ∀ y, (f y).job = y.job) :
    (x.mapRecord f).isPolling ↔ x.isPolling := by
  unfold FbcState.isPolling
  rw [FbcState.record?_mapRecord]
  cases x.record? with
  | none => simp
  | some y => simp [hf]

theorem State.Works.atOff (s : State) (c : ChannelNo) : State.Works more s (s.atOff c) := by
  refine (State.Works.modCh s c fun _ => .reset).trans
    ⟨.of_eq rfl rfl rfl rfl, FbcState.isPolling_mapRecord (Transaction.markStale_job c), rfl, rfl, ?_⟩
  exact Option.isSome_map

theorem State.Works.reachOff (s : State) (c : ChannelNo) : State.Works more s (s.reachOff c) := by
  unfold State.reachOff
  dsimp only
  split
  · exact (State.Works.atOff s c).trans (.offerAlarm _ _ _ _ _)
  · exact .atOff s c

theorem State.Works.disable (s : State) (c : ChannelNo) : State.Works more s (s.disable c) := by
  have hoff : State.Works more s (s.disableIsolated c) :=
    (State.Works.of_drives (State.Drives.removeEntry s c) fun h => h.removeEntry).trans (.reachOff _ c)
  have hstop : (s.ch c).drive ≠ .off → State.Works more s (s.beginStopping c) := fun hd =>
    .of_drives (State.Drives.beginStopping s c hd) fun h => h.beginStopping
  unfold State.disable
  split
  · exact hoff
  · exact hoff
  · next hd => exact hstop (by simp [hd])
  · next hd => exact hstop (by simp [hd])
  · next hd => exact hstop (by simp [hd])
  all_goals exact .refl _ s

theorem State.Works.applySetpoint (s : State) (c : ChannelNo) (data : Code) (takes : Bool) :
    State.Works more s (s.applySetpoint c data takes) :=
  (State.Works.modCh s c _).trans (.of_drives (State.Drives.targetNotice _ c) fun h => h.targetNotice)

theorem State.Works.takePair (s : State) (p : SetpointPair) : State.Works more s (s.takePair p) := by
  unfold State.takePair
  split
  · exact .latch s _
  · split
    · exact .applySetpoint s _ _ _
    · exact .latch s _

theorem State.Works.applyPairs (s : State) (pairs : List SetpointPair) : State.Works more s (s.applyPairs pairs) := by
  unfold State.applyPairs
  split
  · exact .refl _ s
  · exact (State.Works.foldl (fun s p => .takePair s p) _ s).trans (.of_queues (.of_eq rfl rfl rfl rfl) rfl rfl)

theorem State.Works.setAct (s : State) (x : SilenceRecord) : State.Works more s (s.setAct x) :=
  .of_queues (.of_eq rfl rfl rfl rfl) rfl rfl

theorem State.Works.silenceJoins (s : State) (c : ChannelNo) : State.Works more s (s.silenceJoins c) := by
  unfold State.silenceJoins
  split
  · exact .refl _ s
  · exact .setActive s c _

theorem State.Works.silenceBegins (s : State) : State.Works more s s.silenceBegins :=
  ((State.Works.setAct s _).trans (.foldl (fun s c => .silenceJoins s c) _ _)).trans (.offerPart _ _)

theorem State.Works.silenceEnds (s : State) : State.Works more s s.silenceEnds :=
  ((State.Works.setAct s _).trans (.foldl (fun s c => .setActive s c _) _ _)).trans (.offerPart _ _)

theorem State.Works.setpointNotice (s : State) : State.Works more s s.setpointNotice := by
  unfold State.setpointNotice
  split
  · exact .setAct s _
  · exact .silenceEnds s

theorem State.Works.takeSetpoints (s : State) (pairs : List SetpointPair) : State.Works more s (s.takeSetpoints pairs) := by
  unfold State.takeSetpoints
  split
  · exact .latch s _
  · exact ((State.Works.foldl (fun s p => .takePair s p) s.sph s).trans (.setpointNotice _)).trans (.applyPairs _ _)

theorem State.Works.writeConfig (s : State) (p : PartConfig) : State.Works more s (s.writeConfig p) := by
  have hw : State.Works more s (s.setMgx { s.mgx with config := p }) := .of_queues (.of_eq rfl rfl rfl rfl) rfl rfl
  unfold State.writeConfig State.silenceTimeoutWritten
  dsimp only
  split
  · exact hw
  · split
    · exact hw.trans (.setAct _ _)
    · split
      · exact hw.trans (.silenceEnds _)
      · exact hw

/-! ### Flush, bypass, presets -/

theorem State.Works.flushedChannel (s : State) (c : ChannelNo) : State.Works more s (s.flushedChannel c) := by
  unfold State.flushedChannel
  split
  · exact (State.Works.modCh s c _).trans (.of_drives (State.Drives.stepTest _ c) fun h => h.stepTest)
  · exact (State.Works.modCh s c _).trans (.modCh _ c _)
  · exact .reachOff s c
  all_goals exact .refl _ s

theorem State.Works.flush (s : State) : State.Works more s s.flush := by
  have hcleared : State.Works more s (s.setOq { s.oq with writes := [] }) := by
    refine .of_queues ⟨fun h => ?_, .refl _ _, fun h => h, rfl⟩ rfl rfl
    have : s.oq.isolates.Nodup := (List.nodup_append.mp h).1
    simpa [State.OutputQueueLaw] using this
  exact hcleared.trans (.foldl (fun s c => .flushedChannel s c) _ _)

theorem State.Works.bypassChannel (s : State) (c : ChannelNo) : State.Works more s (s.bypassChannel c) := by
  unfold State.bypassChannel
  split
  · split
    · exact .of_drives (State.Drives.requestCode s c _) fun h => h.requestCode _
    · exact .refl _ s
  · exact .refl _ s

theorem State.Works.setBypass (s : State) (on : Bool) : State.Works more s (s.setBypass on) := by
  have hset : State.Works more s (s.setMgx { s.mgx with slewBypass := on }) := .of_queues (.of_eq rfl rfl rfl rfl) rfl rfl
  unfold State.setBypass
  split
  · exact .refl _ s
  · dsimp only
    split
    · exact hset.trans (.foldl (fun s c => .bypassChannel s c) _ _)
    · exact hset

theorem State.Works.setPru (s : State) (x : PresetUnit) : State.Works more s (s.setPru x) :=
  .of_queues (.of_eq rfl rfl rfl rfl) rfl rfl

theorem State.Works.applyOrSkip (s : State) : State.Works more s s.applyOrSkip := by
  unfold State.applyOrSkip
  split
  · exact .refl _ s
  · dsimp only
    split
    · exact .applySetpoint s _ _ _
    · exact .refl _ s

theorem State.Works.reachEntries (fuel : Nat) : ∀ s : State, State.Works more s (State.reachEntries fuel s) := by
  induction fuel with
  | zero => exact fun s => .refl _ s
  | succ n ih =>
    intro s
    have hreached : State.Works more s (s.applyOrSkip.setPru s.applyOrSkip.pru.advance) := (State.Works.applyOrSkip s).trans (.setPru _ _)
    unfold State.reachEntries
    dsimp only
    split
    · exact (hreached.trans (.setPru _ _)).trans (.offerPart _ _)
    · split
      · exact hreached.trans (ih _)
      · exact hreached.trans (.setPru _ _)

theorem State.Works.modAll (s : State) (f : ChannelCtx → ChannelCtx) : State.Works more s (s.modAll f) :=
  .of_queues (.of_eq (by simp) (by simp) (by simp) (by simp)) (by simp) (by simp)

theorem State.Works.startApply (s : State) (start count : Byte) : State.Works more s (s.startApply start count) := by
  unfold State.startApply
  split
  · exact ((State.Works.modAll s _).trans (.setPru _ _)).trans (.reachEntries 64 _)
  · exact .refl _ s

/-! ### Results -/

theorem State.Works.norespResult (s : State) (c : ChannelNo) (success : Bool) : State.Works more s (s.norespResult c success) := by
  unfold State.norespResult
  split
  · exact (State.Works.modCh s c _).trans (.setActive _ _ _)
  · exact (State.Works.modCh s c _).trans (.setActive _ _ _)

/-- A READBACK is admitted only while fewer than high_water entries wait, so while fewer than 23 of its kind do (R175). -/
theorem State.bounded_of_lt_highWater (h : s.rq.length < s.mgx.config.highWater.val) : s.rq.countP Report.isBounded ≤ 22 := by
  have h1 := s.mgx.config.highWater.isLt
  have h2 := List.countP_le_length (p := Report.isBounded) (l := s.rq)
  omega

theorem State.Works.offerReadback (s : State) (c : ChannelNo) (value : Code) : State.Works True s (s.offerReadback c value) := by
  unfold State.offerReadback
  split
  · next ha =>
    refine .trans (.of_onlyReports (State.onlyReports_setRq _ _) ?_) (.modCh _ c _)
    exact within_placed rfl (State.bounded_of_lt_highWater (of_decide_eq_true ha)) trivial
  · exact .latch s _

theorem State.Works.pollReading (s : State) (c : ChannelNo) (n : Node) (raw : Code) : State.Works True s (s.pollReading c n raw) := by
  have hread : State.Works True s ((s.modCh c (ChannelCtx.afterReading (s.entry c) (readingValue (s.ch c) (s.node n) raw))).setActive c
      (activeAfterReading (s.entry c) (s.ch c) (readingValue (s.ch c) (s.node n) raw))) :=
    (State.Works.modCh s c _).trans (.setActive _ _ _)
  unfold State.pollReading
  dsimp only
  split
  · exact hread.trans (.offerReadback _ c _)
  · exact hread

theorem State.Works.takeWrite (s : State) (c : ChannelNo) (k : Code) (r success : Bool) :
    State.Works more s (s.takeWrite c k r success) := by
  unfold State.takeWrite
  split
  · exact .refl _ s
  · next hd =>
    split
    · refine .trans ?_ (.reachOff _ c)
      split
      · exact .modCh s c _
      · exact .modCh s c _
    · refine .trans ?_ (.norespResult _ c _)
      split
      · have hf := State.writeOk_onlyChannel (s := s) hd k r
        have hmoved : (s.writeOk c k r).rq = s.rq := by
          unfold State.writeOk
          dsimp only
          split
          · rw [(State.Drives.stepTest _ c).reports.2]; simp [State.setApplied]
          · next hr =>
            split
            · rw [(State.Drives.enterMoving _ c (by rw [hr]; simp)).reports.2]; simp [State.setApplied]
            · simp [State.setApplied]
          all_goals simp [State.setApplied]
        exact .of_queues ⟨fun h => h.writeOk k r, by rw [hmoved]; exact .refl _ _,
          fun h => by unfold State.ManagementQueueLaw at *; rwa [hf.units.2.2.1], hf.waiting⟩ hf.field.1 hf.field.2
      · exact .of_drives (State.Drives.writeFailed s c r) fun h => h.writeFailed r

theorem State.Works.takeIsolate (s : State) (c : ChannelNo) (success : Bool) : State.Works more s (s.takeIsolate c success) := by
  unfold State.takeIsolate
  split
  · exact .refl _ s
  · exact (State.Works.of_drives (State.Drives.isolateResult s c success) fun h => h.isolateResult _).trans (.norespResult _ c _)

theorem State.Works.takePoll (s : State) (c : ChannelNo) (n : Node) (r : FieldResult) : State.Works True s (s.takePoll c n r) := by
  unfold State.takePoll
  split
  · exact .refl _ s
  · refine .trans ?_ (.of_drives (State.Drives.stepTest _ c) fun h => h.stepTest)
    unfold State.monitorPoll
    split
    · exact .pollReading s c n _
    · exact .norespResult s c true
    all_goals exact .norespResult s c false

theorem State.Works.modNode (s : State) (n : Node) (f : NodeRecord → NodeRecord) : State.Works more s (s.modNode n f) :=
  .of_queues (.of_eq (by simp) (by simp) (by simp) (by simp)) (by simp) (by simp)

theorem State.Works.tellOwners (s : State) (x : Transaction) (r : FieldResult) : State.Works True s (s.tellOwners x r) := by
  unfold State.tellOwners
  split
  · exact .takeWrite s _ _ _ _
  · exact .takeIsolate s _ _
  · exact .takePoll s _ _ _
  · split
    · exact .modNode s _ _
    all_goals exact .refl _ s

theorem State.Works.creditNode (s : State) (n : Node) (success : Bool) : State.Works more s (s.creditNode n success) := by
  unfold State.creditNode
  dsimp only
  split
  · exact (State.Works.modNode s n _).trans (.offerPart _ _)
  · exact .modNode s n _

theorem State.Works.linkError (s : State) (e : LinkError) : State.Works more s (s.linkError e) := by
  have hclp : ∀ (s : State) (x : LinkPort), State.Works more s (s.setClp x) := fun s x => .of_queues (.of_eq rfl rfl rfl rfl) rfl rfl
  unfold State.linkError
  dsimp only
  split
  · exact ((hclp s _).trans (hclp _ _)).trans (.offerPart _ _)
  · exact hclp s _

end Sys2Proof.Machine
end

