-- ==== Sys2Proof/Proofs/StepQueues.lean ====
section
/-! PROOF. Every effect on the queues, and the laws of the queues along every step (R46, R163, R174, R177). -/

namespace Sys2Proof.Machine

variable {s t u : State} {more : Prop}

theorem State.Queues.after (h : State.Queues more t u) (hoq : t.oq = s.oq) (hrq : t.rq = s.rq) (hf : t.mgx.queue = s.mgx.queue)
    (hp : t.pending = s.pending) : State.Queues more s u := (State.Queues.of_eq hoq hrq hf hp).trans h

/-! ### The sequencer -/

/-- The sequencer leaves the queues but for the part events that it offers. -/
theorem State.Queues.of_onlySequencer (h : s.OnlySequencer t) (hw : Within more s.rq t.rq) : State.Queues more s t :=
  ⟨fun x => x.congr h.channels.2, hw, fun x => by unfold State.ManagementQueueLaw at *; rwa [h.executor.1], h.units.2.2.2⟩

theorem State.offerPart_within {p : List Report} (hp : s.rq = p) (e : PartEvent) : Within more p (s.offerPart e).rq :=
  hp ▸ (State.Works.offerPart s e).reports

theorem State.endWalk_within {p : List Report} (hp : s.rq = p) : Within more p s.endWalk.rq := by
  subst hp
  unfold State.endWalk
  split
  · exact State.offerPart_within (by rfl) _
  · split
    · exact .refl _ _
    · split
      · exact State.offerPart_within (s := s.latch _) (by rfl) .seqOverrun
      · exact .refl _ _

theorem State.endSlotIfDue_within {p : List Report} (hp : s.rq = p) : Within more p s.endSlotIfDue.rq := by
  subst hp
  unfold State.endSlotIfDue State.endSlot
  split
  · dsimp only
    split
    · split
      · exact State.endWalk_within rfl
      · exact .refl _ _
    · exact .refl _ _
    all_goals exact .refl _ _
  · exact .refl _ _

theorem State.cycleExpired_within (s : State) : Within more s.rq s.cycleExpired.rq := by
  unfold State.cycleExpired
  dsimp only
  split <;> exact .refl _ _

theorem State.stopSequence_within (s : State) : Within more s.rq s.stopSequence.rq := by
  unfold State.stopSequence
  split
  · dsimp only
    split
    · exact State.endSlotIfDue_within rfl
    · exact .refl _ _
  all_goals exact .refl _ _

theorem State.Queues.tellSequencer (s : State) (job : FieldJob) : State.Queues more s (s.tellSequencer job) := by
  refine .of_onlySequencer (s.tellSequencer_only job) ?_
  unfold State.tellSequencer
  split
  · exact State.endSlotIfDue_within rfl
  · exact State.endSlotIfDue_within rfl
  all_goals exact .refl _ _

/-! ### The field bus -/

theorem State.Queues.complete (s : State) (x : Transaction) (r : FieldResult) : State.Queues True s (s.complete x r) := by
  have hgap : State.Queues True s s.enterGap := .of_eq rfl rfl rfl rfl
  have htold : State.Queues True s (s.told x r) := by
    unfold State.told
    split
    · exact hgap
    · exact hgap.trans (State.Works.tellOwners _ x r).toQueues
  rw [State.complete_eq]
  exact (htold.trans (State.Works.creditNode _ _ _).toQueues).trans (.tellSequencer _ _)

theorem State.Queues.grantQueue (s : State) : State.Queues more s s.grantQueue := by
  unfold State.grantQueue
  split
  · next d rest hi =>
    refine ⟨fun h => ?_, .refl _ _, fun h => h, rfl⟩
    have h : (s.oq.isolates ++ s.oq.writes.map (·.channel)).Nodup := h
    rw [hi] at h
    exact (List.nodup_cons.mp h).2
  · next w rest hi hw =>
    refine ⟨fun h => ?_, .refl _ _, fun h => h, rfl⟩
    have h : (s.oq.isolates ++ s.oq.writes.map (·.channel)).Nodup := h
    rw [hw] at h
    exact h.sublist (List.Sublist.append_left (List.sublist_cons_self _ _) _)
  · exact .refl _ s

theorem State.Queues.grantPoll (s : State) : State.Queues more s s.grantPoll := by
  unfold State.grantPoll
  dsimp only
  split
  · exact .of_eq rfl rfl rfl rfl
  · exact .of_eq rfl rfl rfl rfl
  · exact .refl _ s

theorem State.Queues.arbitrate (s : State) : State.Queues more s s.arbitrate := by
  have hp : ∀ n, State.Queues more s (s.setPassOver n) := fun n => .of_eq rfl rfl rfl rfl
  unfold State.arbitrate
  split
  · exact .refl _ s
  · exact .grantQueue s
  · exact (hp 0).trans (.grantPoll _)
  · split
    · exact (hp 0).trans (.grantPoll _)
    · exact (hp _).trans (.grantQueue _)

theorem State.Queues.takeReading (s : State) (r : Reading) : State.Queues True s (s.takeReading r) := by
  unfold State.takeReading
  split
  · split
    · exact .complete s _ _
    · exact .of_eq rfl rfl rfl rfl
  all_goals exact .of_eq rfl rfl rfl rfl

/-! ### Resets, start-up, the link -/

theorem State.Queues.resetAndLoad (s : State) : State.Queues more s s.resetAndLoad := by
  have h : ∀ (t : Tables) (v : Bool), State.Queues more s (s.resetAround t v) := fun t v =>
    ⟨fun _ => List.nodup_nil, .of_sublist (List.nil_sublist _), fun _ => Nat.zero_le _, rfl⟩
  unfold State.resetAndLoad
  split
  · exact h _ _
  · exact h _ _

theorem State.Queues.startUpStep (s : State) : State.Queues more s s.startUpStep := by
  have hmgx : ∀ k, State.Queues more s (s.setMgx { s.mgx with startUpStep := k }) := fun k => .of_eq rfl rfl rfl rfl
  unfold State.startUpStep
  split
  · exact .refl _ s
  · have hnext := hmgx (if s.mgx.startUpStep = 25 then 25 else s.mgx.startUpStep + 1)
    dsimp only
    generalize s.setMgx { s.mgx with startUpStep := if s.mgx.startUpStep = 25 then 25 else s.mgx.startUpStep + 1 } = v at hnext
    refine hnext.trans ?_
    split
    · unfold State.startUpEnable
      split
      · exact (State.Works.enable _ _).toQueues
      · exact .refl _ _
    · by_cases hk : s.mgx.startUpStep = 24
      · rw [if_pos hk]
        unfold State.autostart
        split
        · exact .of_onlySequencer (State.startCycle_only _) (.refl _ _)
        · exact .refl _ _
      · rw [if_neg hk]
        exact .of_eq rfl rfl rfl rfl

theorem State.Queues.startUpRun (n : Nat) : ∀ s : State, State.Queues more s (State.startUpRun n s) := by
  induction n with
  | zero => exact fun s => .refl _ s
  | succ n ih => exact fun s => (State.Queues.startUpStep s).trans (ih _)

theorem State.Queues.queueFrame (s : State) (payload : List Byte) : State.Queues more s (s.queueFrame payload) := by
  unfold State.queueFrame
  split
  · next hlen =>
    refine ⟨fun h => h, .refl _ _, fun _ => ?_, rfl⟩
    simp only [State.ManagementQueueLaw, State.mgx_setMgx, List.length_append, List.length_singleton]
    omega
  · exact (State.Works.linkError s _).toQueues

theorem State.Queues.transmitted (s : State) (r : Report) : State.Queues more s (s.transmitted r) := by
  unfold State.transmitted
  split
  · exact .of_eq rfl rfl rfl rfl
  · exact (State.Queues.resetAndLoad s).trans (.of_eq rfl rfl rfl rfl)
  all_goals exact .refl _ s

/-! ### Every effect -/

/-- What MGX makes of the part adds no READBACK and no RESPONSE. -/
theorem State.Commanded.queues (h : s.Commanded u) : State.Queues False s u := by
  cases h with
  | nothing => exact .refl _ s
  | statusCleared => exact .of_eq rfl rfl rfl rfl
  | enabled c hr => exact (State.Works.enable s c).toQueues
  | disabled c hd => exact (State.Works.disable s c).toQueues
  | released c hr => exact (State.Works.release s c).toQueues
  | allNarrowed => exact (State.Works.modAll s _).toQueues
  | narrowed c => exact (State.Works.modCh s c _).toQueues
  | injected c value n hd => exact (State.Works.modCh s c _).toQueues
  | flushed => exact (State.Works.flush s).toQueues
  | bypassed on => exact (State.Works.setBypass s on).toQueues
  | restartPending => exact .of_eq rfl rfl rfl rfl
  | saving => exact .of_eq rfl rfl rfl rfl
  | clearing => exact .of_eq rfl rfl rfl rfl
  | entryWritten c e hd he => exact .of_eq (by simp) (by simp) (by simp) (by simp)
  | sequenceWritten r => exact .of_eq rfl rfl rfl rfl
  | expectedWritten n b hn => exact (State.Works.modNode s n _).toQueues
  | presetsWritten list => exact .of_eq rfl rfl rfl rfl
  | configWritten p => exact (State.Works.writeConfig s p).toQueues
  | walkStarted hi => exact .of_onlySequencer s.startCycle_only (.refl _ _)
  | walkStopped => exact .of_onlySequencer s.stopSequence_only s.stopSequence_within
  | presetsApplied a n => exact (State.Works.startApply s a n).toQueues
  | presetsAborted => exact ((State.Works.setPru s _).trans (.offerPart _ _)).toQueues

/-- A frame that MGX takes leaves at most 22 READBACK and RESPONSE entries, so its RESPONSE is at most the 23rd (R164, R174). -/
theorem State.Queues.answered {w : State} (h : s.mgxMayTake = true) (hw : s.dropFrame.Answered w) : State.Queues True s w := by
  obtain ⟨v, tag, cmd, k, data, e, hv, rfl⟩ := hw
  have hq := hv.queues
  have hlt : s.rq.countP Report.isBounded ≤ 22 := by
    refine State.bounded_of_lt_highWater ?_
    simp only [State.mgxMayTake, Bool.and_eq_true, decide_eq_true_eq] at h
    exact h.1.2
  have hv22 : v.rq.countP Report.isBounded ≤ 22 := by
    rcases hq.reports.bounded with hb | ⟨hf, -⟩
    · exact hb.trans hlt
    · exact hf.elim
  refine ⟨hq.output, ?_, fun hm => hq.frames ?_, hq.pending⟩
  · have hr : Within True s.rq v.rq := ⟨hq.reports.alarms, hq.reports.parts, Or.inr ⟨trivial, by omega⟩⟩
    exact hr.trans (within_placed rfl hv22 trivial)
  · exact le_trans (by simp [State.dropFrame]) (show s.mgx.queue.length ≤ 4 from hm)

/-- Every effect keeps the laws of the queues and leaves the waiting commands. -/
theorem State.Effect.queues (h : s.Effect u) : State.Queues True s u := by
  cases h with
  | powerOn => exact (State.Queues.resetAndLoad s).trans (.of_eq rfl rfl rfl rfl)
  | startUp n => exact .startUpRun n s
  | receiverReady => exact .of_eq rfl rfl rfl rfl
  | pairsGoOn => exact (State.Works.applyPairs s _).toQueues
  | setpoints pairs => exact State.Queues.after (State.Works.takeSetpoints _ pairs).toQueues rfl rfl rfl rfl
  | frameQueued payload => exact State.Queues.after (.queueFrame _ payload) rfl rfl rfl rfl
  | linkError e => exact (State.Works.linkError s e).toQueues
  | answered ht ha => exact .answered ht ha
  | erased copy hp => exact .of_eq rfl rfl rfl rfl
  | saved copy hp => exact State.Queues.after (State.Works.offerPart _ _).toQueues rfl rfl rfl rfl
  | emptied e => exact State.Queues.after (State.Works.offerPart _ _).toQueues rfl rfl rfl rfl
  | transmitted r => exact State.Queues.after (.transmitted _ r) rfl rfl rfl rfl
  | granted hi => exact .arbitrate s
  | gapEnded us hs => exact State.Queues.after (.arbitrate _) rfl rfl rfl rfl
  | strobed x hs => exact .of_eq rfl rfl rfl rfl
  | busyBegan x hs => exact .of_eq rfl rfl rfl rfl
  | sendingBegan x hs => exact .of_eq rfl rfl rfl rfl
  | heldOut x hs => exact State.Queues.after (.complete _ x _) rfl rfl rfl rfl
  | completed x r hx => exact .complete s x r
  | readingTaken r => exact State.Queues.after (.takeReading _ r) rfl rfl rfl rfl
  | readingMalformed f => exact .of_eq rfl rfl rfl rfl
  | frxIdle => exact .of_eq rfl rfl rfl rfl
  | stepTimerExpired c ht =>
    exact (State.Works.of_drives (State.Drives.stepTimerExpired s c) fun h => h.stepTimerExpired).toQueues
  | spacingExpired => exact .of_onlySequencer s.spacingExpired_only (State.endSlotIfDue_within rfl)
  | cycleExpired => exact .of_onlySequencer s.cycleExpired_only s.cycleExpired_within
  | silenceBegan => exact (State.Works.silenceBegins s).toQueues
  | presetsReached timer => exact ((State.Works.setPru s _).trans (.reachEntries 64 _)).toQueues

/-! ### Every step -/

theorem outputQueueLaw_kept : KeptByEffects State.OutputQueueLaw where
  fbsy _ _ h := h
  begins s h := (State.Works.beginTransmission (more := True) s).output h
  effect _ _ hu h := hu.queues.output h

/-- Settles O5: no operation queues a second entry for a channel (`State.Queues.output`). -/
theorem stepKeepsOutputQueueLaw : Obligations.StepKeepsOutputQueueLaw :=
  fun _ _ hs h => step_kept outputQueueLaw_kept (fun _ _ k => k) h hs

theorem State.ReportQueueLaw.within (h : s.ReportQueueLaw) (hw : Within more s.rq t.rq) : t.ReportQueueLaw where
  oneAlarm c := hw.alarms c (h.oneAlarm c)
  onePart := hw.parts h.onePart
  bounded := by
    rcases hw.bounded with hb | ⟨-, hb⟩
    · exact hb.trans h.bounded
    · exact hb

theorem reportQueueLaw_kept : KeptByEffects State.ReportQueueLaw where
  fbsy _ _ h := h.within (.refl False _)
  begins s h := h.within (more := False) s.beginTransmission_within
  effect _ _ hu h := h.within hu.queues.reports

/-- Every entry is an ALARM of a channel, the PART entry, or one of the bounded kinds. -/
theorem length_eq_sum_countP (l : List Report) :
    l.length = (channelsAscending.map fun c => l.countP (Report.isAlarmOf c)).sum + l.countP Report.isPart +
      l.countP Report.isBounded := by
  have hone : ∀ d : ChannelNo, (channelsAscending.map fun c => if d = c then 1 else 0).sum = 1 := by decide
  induction l with
  | nil => simp
  | cons x l ih =>
    have hsum : (channelsAscending.map fun c => (x :: l).countP (Report.isAlarmOf c)).sum =
        (channelsAscending.map fun c => l.countP (Report.isAlarmOf c)).sum +
          (channelsAscending.map fun c => if x.isAlarmOf c then 1 else 0).sum := by
      simp only [List.countP_cons, ← List.sum_map_add]
    rw [hsum, List.length_cons, ih, List.countP_cons, List.countP_cons]
    cases x with
    | alarm d _ _ _ _ =>
      have := hone d
      simp only [Report.isAlarmOf, Report.isPart, Report.isBounded, beq_iff_eq, Bool.false_eq_true, if_false]
      omega
    | readback _ _ _ _ _ | part _ _ _ | response _ _ _ _ _ =>
      have : (channelsAscending.map fun _ => 0).sum = 0 := by decide
      simp only [Report.isAlarmOf, Report.isPart, Report.isBounded, Bool.false_eq_true, if_false, if_true]
      omega

theorem sum_map_le_length {β : Type} (f : β → Nat) (hf : ∀ b, f b ≤ 1) (l : List β) : (l.map f).sum ≤ l.length := by
  induction l with
  | nil => simp
  | cons b l ih =>
    have := hf b
    simp only [List.map_cons, List.sum_cons, List.length_cons]
    omega

/-- 24 ALARM entries, one PART entry and 23 others at most (R174). -/
theorem State.ReportQueueLaw.length_le (h : s.ReportQueueLaw) : s.rq.length ≤ 48 := by
  have halarms := sum_map_le_length _ h.oneAlarm channelsAscending
  have hchannels : channelsAscending.length = 24 := by decide
  have hpart := h.onePart
  have hbounded := h.bounded
  rw [length_eq_sum_countP]
  omega

/-- Settles O6: no operation leaves the bounds (`State.Queues.reports`), and the bounds add up to 48. -/
theorem stepKeepsReportQueueLaw : Obligations.StepKeepsReportQueueLaw := fun s t hs h => by
  have ht : t.ReportQueueLaw := step_kept reportQueueLaw_kept (fun _ _ k => k.within (.refl False _)) h hs
  exact ⟨ht, ht.length_le⟩

theorem managementQueueLaw_kept : KeptByEffects State.ManagementQueueLaw where
  fbsy _ _ h := h
  begins s h := (State.Works.beginTransmission (more := True) s).frames h
  effect _ _ hu h := hu.queues.frames h

theorem State.TransmitterLaw.taken (h : s.TransmitterLaw) (ht : s.Taken t) : t.TransmitterLaw := by
  rcases ht with rfl | ⟨u, -, rfl⟩
  · exact h
  · exact u.beginTransmission_law

theorem State.TransmitterLaw.exec {i : Instr} (h : s.TransmitterLaw) (he : exec i s = .next t) : t.TransmitterLaw := by
  rcases exec_effect he with ht | ⟨level, ht⟩
  · exact h.taken ht
  · exact State.TransmitterLaw.taken (s := s.setFbsy level) (h.congr rfl rfl) ht

theorem State.TransmitterLaw.step (h : s.TransmitterLaw) (he : step s = .next t) : t.TransmitterLaw := by
  unfold Sys2Proof.Machine.step at he
  split at he
  · cases he; exact h
  · next rest _ => exact State.TransmitterLaw.exec (s := s.setPending rest) (h.congr rfl rfl) he

/-- Settles O7: the management queue grows only below 4 frames (`State.Queues.frames`), and every event ends with the start of a
transmission that is possible (`State.beginTransmission_law`). -/
theorem stepKeepsLinkLaws : Obligations.StepKeepsLinkLaws := fun _ _ hm hx h =>
  ⟨step_kept managementQueueLaw_kept (fun _ _ k => k) h hm, hx.step h⟩

/-! ### Every command answers -/

theorem State.event_next (s : State) (due : Bool) (f : State → State) : ∃ t, s.event due f = .next t := by
  cases due
  · exact ⟨_, rfl⟩
  · exact ⟨_, rfl⟩

theorem exec_next (i : Instr) (s : State) : ∃ t, exec i s = .next t := by
  have hcommand : ∀ (i : Instr) (f : State → State), ∃ t, s.takeCommand i f = .next t := fun i f => s.event_next _ _
  cases i with
  | powerOn | frxIdle => exact ⟨_, rfl⟩
  | enterRun | receiverReady | mgmtFrame | linkGapError | grant | fieldGapExpiry | readingReceived | stepTimerExpiry
  | spacingTimerExpiry | cycleTimerExpiry | silenceTimerExpiry | presetSpacingExpiry =>
    simp only [exec, execEnterRun, execReceiverReady, execMgmtFrame, execLinkGapError, execGrant, execFieldGapExpiry,
      execReadingReceived, execStepTimerExpiry, execSpacingTimerExpiry, execCycleTimerExpiry, execSilenceTimerExpiry,
      execPresetSpacingExpiry, State.event_next]
  | readStatus | readChannel | readEntryChannel | readEntrySequence | readEntryNode | readEntryPreset | readEntryPart
  | writeEntryChannel | writeEntrySequence | writeEntryNode | writeEntryPreset | writeEntryPart | badCommand | enableChannel
  | disableChannel | releaseChannel | readAlarms | injectReadback | seqRun | seqStop | applyPreset | abortPreset | flushOutput
  | slewBypassOn | slewBypassOff | storeSave | storeClear | restart =>
    simp only [exec, execReadStatus, execReadChannel, execReadEntryChannel, execReadEntrySequence, execReadEntryNode,
      execReadEntryPreset, execReadEntryPart, execWriteEntryChannel, execWriteEntrySequence, execWriteEntryNode,
      execWriteEntryPreset, execWriteEntryPart, execBadCommand, execEnableChannel, execDisableChannel, execReleaseChannel,
      execReadAlarms, execInjectReadback, execSeqRun, execSeqStop, execApplyPreset, execAbortPreset, execFlushOutput,
      execSlewBypassOn, execSlewBypassOff, execStoreSave, execStoreClear, execRestart, hcommand]
  | setpointFrame pairs =>
    show ∃ t, execSetpointFrame pairs s = .next t
    unfold execSetpointFrame
    split <;> exact s.event_next _ _
  | badFrame received => show ∃ t, execBadFrame received s = .next t; unfold execBadFrame; split <;> exact ⟨_, rfl⟩
  | saveEraseEnd => show ∃ t, execSaveEraseEnd s = .next t; unfold execSaveEraseEnd; split <;> exact ⟨_, rfl⟩
  | saveProgramEnd v => show ∃ t, execSaveProgramEnd v s = .next t; unfold execSaveProgramEnd; split <;> exact ⟨_, rfl⟩
  | clearEnd => show ∃ t, execClearEnd s = .next t; unfold execClearEnd; split <;> exact ⟨_, rfl⟩
  | transmitEnd => show ∃ t, execTransmitEnd s = .next t; unfold execTransmitEnd; split <;> exact ⟨_, rfl⟩
  | strobe => show ∃ t, execStrobe s = .next t; unfold execStrobe; split <;> exact ⟨_, rfl⟩
  | fbsyAsserted =>
    show ∃ t, execFbsyAsserted s = .next t; unfold execFbsyAsserted; dsimp only; split <;> exact ⟨_, rfl⟩
  | fbsyReleased =>
    show ∃ t, execFbsyReleased s = .next t; unfold execFbsyReleased; dsimp only; split <;> exact ⟨_, rfl⟩
  | heldTimeout => show ∃ t, execHeldTimeout s = .next t; unfold execHeldTimeout; split <;> exact ⟨_, rfl⟩
  | busyTimeoutExpiry => show ∃ t, execBusyTimeoutExpiry s = .next t; unfold execBusyTimeoutExpiry; split <;> exact ⟨_, rfl⟩
  | responseTimeoutExpiry =>
    show ∃ t, execResponseTimeoutExpiry s = .next t; unfold execResponseTimeoutExpiry; split <;> exact ⟨_, rfl⟩
  | malformedReading r =>
    show ∃ t, execMalformedReading r s = .next t; unfold execMalformedReading; split <;> exact ⟨_, rfl⟩

theorem pending_kept (rest : List Instr) : KeptByEffects fun s => s.pending = rest where
  fbsy _ _ h := h
  begins s h := (State.Works.beginTransmission (more := True) s).pending.trans h
  effect _ _ hu h := hu.queues.pending.trans h

/-- Settles O2: every command is defined on every state (`exec_next`), and no effect touches the waiting commands. -/
theorem everyCommandAnswersNext : Obligations.EveryCommandAnswersNext := fun i s => by
  obtain ⟨t, ht⟩ := exec_next i s
  exact ⟨t, ht, exec_kept (pending_kept s.pending) ht rfl⟩

/-- Settles O1: `step` takes the queue apart. -/
theorem stepRunsTheFrontCommand : Obligations.StepRunsTheFrontCommand := by
  refine ⟨fun c rest s => rfl, fun s hs => ?_⟩
  unfold step
  rw [hs]

end Sys2Proof.Machine
end

