-- ==== Sys2Proof/Proofs/StepSequencer.lean ====
section
/-! PROOF. The poll slot, the slot poll, the transaction in flight and the pass-over count agree after every step (R80, R89). -/

namespace Sys2Proof.Machine

variable {s t u : State} {more : Prop}

/-- No poll waits in the poll slot and none is in flight. -/
structure State.NoPoll (s : State) : Prop where
  flight : ¬ s.fbc.state.isPolling
  slot : s.psq.pollSlot = none
  passOver : s.fbc.passOver = 0

/-- The law rests on these components alone. -/
theorem State.SequencerLaw.congr (h : s.SequencerLaw) (hpsq : t.psq = s.psq) (hp : t.fbc.state.isPolling ↔ s.fbc.state.isPolling)
    (hc : t.fbc.passOver = s.fbc.passOver) : t.SequencerLaw := by
  obtain ⟨h1, h2, h3, h4⟩ := h
  exact ⟨by rwa [hpsq], by rwa [hpsq, hp], by rwa [hpsq], by rwa [hpsq, hc]⟩

theorem State.SequencerLaw.onlyReports (h : s.SequencerLaw) (k : s.OnlyReports t) : t.SequencerLaw :=
  h.congr k.field.2 (by rw [k.field.1]) (by rw [k.field.1])

/-- An operation on channels keeps the law: stale marks are all that it leaves in the sequencer and on the field bus. -/
theorem State.SequencerLaw.works (h : s.SequencerLaw) (k : State.Works more s t) : t.SequencerLaw := by
  obtain ⟨h1, h2, h3, h4⟩ := h
  have hpoll : t.psq.slotPoll = s.psq.slotPoll := by rw [k.sequencer]
  have hstate : t.psq.state = s.psq.state := by rw [k.sequencer]
  refine ⟨by rw [k.pollSlot, hpoll]; exact h1, by rw [k.polling, hpoll]; exact h2, by rw [hstate, hpoll]; exact h3, fun e => ?_⟩
  rw [k.passOver]
  refine h4 ?_
  rw [← Option.isNone_iff_eq_none] at e ⊢
  rw [← Option.not_isSome] at e ⊢
  rwa [k.pollSlot] at e

theorem State.SequencerLaw.noPoll (h : s.SequencerLaw) (h1 : s.psq.slotPoll ≠ .pending) (h2 : s.psq.slotPoll ≠ .inFlight) :
    s.NoPoll := by
  have hslot : s.psq.pollSlot = none := by
    rw [← Option.isNone_iff_eq_none, ← Option.not_isSome]
    simpa using fun e => h1 (h.pollSlot.mp e)
  exact ⟨fun e => h2 (h.inFlight.mp e), hslot, h.passOver hslot⟩

/-- Where no poll waits and none is in flight, the law asks for the slot poll only. -/
theorem State.NoPoll.law (h : s.NoPoll) (h1 : s.psq.slotPoll ≠ .pending) (h2 : s.psq.slotPoll ≠ .inFlight)
    (h3 : s.psq.state = .idle ∨ s.psq.state = .waiting → s.psq.slotPoll = .none) : s.SequencerLaw where
  pollSlot := by rw [h.slot]; simpa using h1
  inFlight := iff_of_false h.flight h2
  resting := h3
  passOver _ := h.passOver

theorem State.NoPoll.congr (h : s.NoPoll) (hslot : t.psq.pollSlot = s.psq.pollSlot) (hf : t.fbc = s.fbc) : t.NoPoll :=
  ⟨by rw [hf]; exact h.flight, hslot.trans h.slot, by rw [hf]; exact h.passOver⟩

/-! ### Slots, walks and cycles -/

/-- A slot that starts in RUNNING places its poll or none (R91). -/
theorem State.NoPoll.startSlot (h : s.NoPoll) (hrun : s.psq.state = .running) (i : Fin 16) : (s.startSlot i).SequencerLaw where
  pollSlot := by
    show (s.slotRequest _).isSome = true ↔ (if (s.slotRequest _).isSome then SlotPoll.pending else .none) = .pending
    split
    · next hs => simp [hs]
    · next hs => simp [hs]
  inFlight := by
    refine iff_of_false h.flight ?_
    show (if (s.slotRequest _).isSome then SlotPoll.pending else .none) ≠ .inFlight
    split <;> simp
  resting e := by
    have e : s.psq.state = .idle ∨ s.psq.state = .waiting := e
    rw [hrun] at e; simp at e
  passOver _ := h.passOver

theorem State.NoPoll.startCycle (h : s.NoPoll) : s.startCycle.SequencerLaw :=
  State.NoPoll.startSlot (s := s.modPsq fun q =>
    { q with periodElapsed := false, state := .running,
             cycleTimer := if q.record.usesCycleTimer then .running (q.record.cyclePeriod.val * 1000) else .stopped })
    (h.congr rfl rfl) rfl _

theorem State.NoPoll.onlyReports (h : s.NoPoll) (k : s.OnlyReports t) : t.NoPoll := h.congr (by rw [k.field.2]) k.field.1

theorem State.NoPoll.endWalk (h : s.NoPoll) (hp : s.psq.slotPoll = .none) : s.endWalk.SequencerLaw := by
  have hlaw : ∀ q : Sequencer, q.pollSlot = s.psq.pollSlot → q.slotPoll = .none → (s.setPsq q).SequencerLaw := fun q hq hn =>
    State.NoPoll.law (h.congr hq rfl) (by rw [State.psq_setPsq, hn]; simp) (by rw [State.psq_setPsq, hn]; simp) fun _ => hn
  unfold State.endWalk
  split
  · exact State.SequencerLaw.onlyReports (hlaw { s.psq with state := .idle, cycleTimer := .stopped } rfl hp)
      (State.offerPart_onlyReports _ _)
  · split
    · exact h.startCycle
    · split
      · exact State.NoPoll.startCycle ((h.congr (t := s.latch _) rfl rfl).onlyReports (State.offerPart_onlyReports _ _))
      · exact hlaw { s.psq with state := .waiting } rfl hp

theorem State.NoPoll.endSlot (h : s.NoPoll) : s.endSlot.SequencerLaw := by
  have hn : (s.modPsq fun q => { q with slotPoll := .none }).NoPoll := h.congr rfl rfl
  have hlaw : (s.modPsq fun q => { q with slotPoll := .none }).SequencerLaw := hn.law (by simp [State.modPsq]) (by simp [State.modPsq]) fun _ => rfl
  unfold State.endSlot
  dsimp only
  split
  · next hrun =>
    split
    · exact hn.endWalk rfl
    · exact hn.startSlot hrun _
  · exact State.NoPoll.law (hn.congr rfl rfl) (by simp [State.modPsq]) (by simp [State.modPsq]) fun _ => rfl
  all_goals exact hlaw

theorem State.SequencerLaw.endSlotIfDue (h : s.SequencerLaw) : s.endSlotIfDue.SequencerLaw := by
  unfold State.endSlotIfDue
  split
  · next hd => exact (h.noPoll (by rcases hd.2 with e | e <;> simp [e]) (by rcases hd.2 with e | e <;> simp [e])).endSlot
  · exact h

/-- The end of the slot's poll (R92): the field bus is free of it, and a slot is going on. -/
theorem State.NoPoll.pollEnded (h : s.NoPoll) (hr : ¬ (s.psq.state = .idle ∨ s.psq.state = .waiting)) : s.pollEnded.SequencerLaw := by
  refine State.SequencerLaw.endSlotIfDue (State.NoPoll.law (h.congr rfl rfl) ?_ ?_ fun e => absurd e hr)
  · simp [State.modPsq]
  · simp [State.modPsq]

theorem State.SequencerLaw.setPsq (h : s.SequencerLaw) {q : Sequencer} (h1 : q.pollSlot = s.psq.pollSlot)
    (h2 : q.slotPoll = s.psq.slotPoll) (h3 : q.state = .idle ∨ q.state = .waiting → q.slotPoll = .none) : (s.setPsq q).SequencerLaw where
  pollSlot := by rw [State.psq_setPsq, h1, h2]; exact h.pollSlot
  inFlight := by rw [State.psq_setPsq, h2]; exact h.inFlight
  resting := h3
  passOver e := h.passOver (h1 ▸ e)

theorem State.SequencerLaw.spacingExpired (h : s.SequencerLaw) : s.spacingExpired.SequencerLaw :=
  State.SequencerLaw.endSlotIfDue (h.setPsq (q := { s.psq with spacingTimer := .expired }) rfl rfl h.resting)

theorem State.SequencerLaw.cycleExpired (h : s.SequencerLaw) : s.cycleExpired.SequencerLaw := by
  have he : (s.modPsq fun q => { q with cycleTimer := .expired }).SequencerLaw := h.setPsq rfl rfl h.resting
  unfold State.cycleExpired
  dsimp only
  split
  · exact he.setPsq rfl rfl he.resting
  · next hw =>
    have hp := he.resting (Or.inr hw)
    exact (he.noPoll (by rw [hp]; simp) (by rw [hp]; simp)).startCycle
  all_goals exact he

theorem State.SequencerLaw.stopSequence (h : s.SequencerLaw) : s.stopSequence.SequencerLaw := by
  unfold State.stopSequence
  split
  · have hs : (s.modPsq fun q => { q with state := .seqStopping, cycleTimer := .stopped }).SequencerLaw :=
      h.setPsq rfl rfl fun e => by simp at e
    dsimp only
    split
    · next hp =>
      refine State.SequencerLaw.endSlotIfDue (State.NoPoll.law ⟨?_, rfl, rfl⟩ ?_ ?_ fun _ => rfl)
      · exact fun e => by have := hs.inFlight.mp e; rw [hp] at this; cases this
      · simp [State.withdrawPoll, State.modPsq]
      · simp [State.withdrawPoll, State.modPsq]
    · exact hs
  · next hw => exact h.setPsq rfl rfl fun _ => h.resting (Or.inr hw)
  all_goals exact h

/-! ### Grants and completions -/

theorem FbcState.isPolling_of_record {x : FbcState} {y : Transaction} (h : x.record? = some y) :
    x.isPolling ↔ (∃ c, y.job = .poll c) ∨ y.job = .zero := by
  unfold FbcState.isPolling
  rw [h]
  exact ⟨fun ⟨z, e, k⟩ => by cases e; exact k, fun k => ⟨y, rfl, k⟩⟩

theorem FbcState.not_isPolling_of_none {x : FbcState} (h : x.record? = none) : ¬ x.isPolling := by
  rintro ⟨y, e, -⟩; rw [h] at e; cases e

/-- A grant of the output queue's head starts no poll (R51, R69). -/
theorem State.SequencerLaw.grantQueue (h : s.SequencerLaw) (hf : ¬ s.fbc.state.isPolling) : s.grantQueue.SequencerLaw := by
  have hstart : ∀ (v : State) (x : Transaction), v.psq = s.psq → v.fbc.passOver = s.fbc.passOver →
      ((∃ c, x.job = .isolate c) ∨ ∃ c k r, x.job = .write c k r) → (v.startTransaction x).SequencerLaw := fun v x hq hc hj => by
    refine h.congr hq (iff_of_false ?_ hf) hc
    rw [FbcState.isPolling_of_record (v.startTransaction_record x)]
    rcases hj with ⟨c, e⟩ | ⟨c, k, r, e⟩ <;> simp [e]
  unfold State.grantQueue
  split
  · exact hstart _ _ rfl rfl (Or.inl ⟨_, rfl⟩)
  · exact hstart _ _ rfl rfl (Or.inr ⟨_, _, _, rfl⟩)
  · exact h

/-- A grant of the poll slot puts its poll in flight (R69, R92). -/
theorem State.SequencerLaw.grantPoll (h : s.SequencerLaw) (hc : s.fbc.passOver = 0) : s.grantPoll.SequencerLaw := by
  have hstart : ∀ x : Transaction, s.psq.pollSlot.isSome = true → ((∃ c, x.job = .poll c) ∨ x.job = .zero) →
      ((s.modPsq fun q => { q with pollSlot := none, slotPoll := .inFlight }).startTransaction x).SequencerLaw := fun x hs hj =>
    { pollSlot := by simp [State.startTransaction, State.modPsq]
      inFlight := by
        rw [FbcState.isPolling_of_record (State.startTransaction_record _ x)]
        exact iff_of_true hj rfl
      resting := fun e => by have := h.resting e; rw [h.pollSlot.mp hs] at this; cases this
      passOver := fun _ => hc }
  unfold State.grantPoll
  dsimp only
  split
  · next hp => exact hstart _ (by rw [hp]; rfl) (Or.inl ⟨_, rfl⟩)
  · next hp => exact hstart _ (by rw [hp]; rfl) (Or.inr rfl)
  · exact h

theorem State.SequencerLaw.arbitrate (h : s.SequencerLaw) (hf : ¬ s.fbc.state.isPolling) : s.arbitrate.SequencerLaw := by
  have hpass : ∀ n : Fin 5, s.psq.pollSlot.isSome = true → (s.setPassOver n).SequencerLaw := fun n hs =>
    ⟨h.pollSlot, h.inFlight, h.resting, fun e => by rw [show s.psq.pollSlot = none from e] at hs; cases hs⟩
  unfold State.arbitrate
  split
  · exact h
  · exact h.grantQueue hf
  · next hp => exact (hpass 0 hp).grantPoll rfl
  · next hp =>
    split
    · exact (hpass 0 hp).grantPoll rfl
    · exact (hpass _ hp).grantQueue hf

/-- The owners' share of a result leaves the sequencer but for a stale mark. -/
theorem State.told_sequencer (s : State) (x : Transaction) (r : FieldResult) :
    (s.told x r).psq = { s.psq with pollSlot := (s.told x r).psq.pollSlot } ∧
      (s.told x r).psq.pollSlot.isSome = s.psq.pollSlot.isSome := by
  unfold State.told
  split
  · exact ⟨rfl, rfl⟩
  · have := State.Works.tellOwners s.enterGap x r
    exact ⟨this.sequencer, this.pollSlot⟩

/-- A completion ends the poll in flight, if it is one (R76, R77, R92). -/
theorem State.SequencerLaw.complete (h : s.SequencerLaw) {x : Transaction} (hx : s.fbc.state.record? = some x) (r : FieldResult) :
    (s.complete x r).SequencerLaw := by
  have hcredit := State.creditNode_only (s.told x r) x.node r.success
  have hpsq : ((s.told x r).creditNode x.node r.success).psq = (s.told x r).psq := hcredit.field.2.trans (by simp)
  have hfbc : ((s.told x r).creditNode x.node r.success).fbc = { s.fbc with state := .gap s.mgx.config.fieldGap.val } := by
    rw [hcredit.field.1]; simp [(s.told_fbc x r).1]
  obtain ⟨hsame, hslot⟩ := s.told_sequencer x r
  have hpoll : (s.told x r).psq.slotPoll = s.psq.slotPoll := by rw [hsame]
  have hstate : (s.told x r).psq.state = s.psq.state := by rw [hsame]
  have hgap : ¬ (FbcState.gap s.mgx.config.fieldGap.val).isPolling := FbcState.not_isPolling_of_none rfl
  have hnone : (s.told x r).psq.pollSlot = none → s.psq.pollSlot = none := fun e => by
    rw [e] at hslot
    rw [← Option.isNone_iff_eq_none, ← Option.not_isSome, ← hslot]; rfl
  rw [State.complete_eq]
  unfold State.tellSequencer
  by_cases hp : (∃ c, x.job = .poll c) ∨ x.job = .zero
  · have hin := h.inFlight.mp ((FbcState.isPolling_of_record hx).mpr hp)
    have hempty : (s.told x r).psq.pollSlot = none := by
      rw [← Option.isNone_iff_eq_none, ← Option.not_isSome, hslot, Bool.not_eq_true']
      by_contra e
      have := h.pollSlot.mp (by simpa [Option.isSome_iff_ne_none] using e)
      rw [hin] at this; cases this
    have hended : ((s.told x r).creditNode x.node r.success).pollEnded.SequencerLaw := by
      refine State.NoPoll.pollEnded ⟨by rw [hfbc]; exact hgap, hpsq.symm ▸ hempty, ?_⟩ ?_
      · rw [hfbc]; exact h.passOver (hnone hempty)
      · rw [hpsq, hstate]
        intro e
        have := h.resting e
        rw [hin] at this; cases this
    rcases hp with ⟨c, hj⟩ | hj <;> rw [hj] <;> exact hended
  · have hnot : s.psq.slotPoll ≠ .inFlight := fun e => hp ((FbcState.isPolling_of_record hx).mp (h.inFlight.mpr e))
    have hlaw : ((s.told x r).creditNode x.node r.success).SequencerLaw := by
      refine ⟨?_, ?_, ?_, ?_⟩
      · rw [hpsq, hslot, hpoll]; exact h.pollSlot
      · rw [hpsq, hfbc, hpoll]; exact iff_of_false hgap hnot
      · rw [hpsq, hstate, hpoll]; exact h.resting
      · rw [hpsq, hfbc]; exact fun e => h.passOver (hnone e)
    cases hj : x.job with
    | write c k rc => exact hlaw
    | isolate c => exact hlaw
    | poll c => exact absurd (Or.inl ⟨c, hj⟩) hp
    | zero => exact absurd (Or.inr hj) hp

theorem State.SequencerLaw.takeReading (h : s.SequencerLaw) (r : Reading) : (s.takeReading r).SequencerLaw := by
  unfold State.takeReading
  split
  · next x hs =>
    split
    · exact h.complete (by rw [hs]; rfl) _
    · exact h.congr rfl Iff.rfl rfl
  all_goals exact h.congr rfl Iff.rfl rfl

/-! ### Resets and the start-up -/

/-- A reset of the sequencer with the field bus free. -/
theorem State.sequencerLaw_of_reset {record : SequenceRecord} (hq : s.psq = .reset record) (hf : s.fbc.state.record? = none)
    (hc : s.fbc.passOver = 0) : s.SequencerLaw := by
  refine State.NoPoll.law ⟨FbcState.not_isPolling_of_none hf, by rw [hq]; rfl, hc⟩ ?_ ?_ fun _ => by rw [hq]; rfl
  · rw [hq]; simp [Sequencer.reset]
  · rw [hq]; simp [Sequencer.reset]

theorem State.resetAndLoad_polls (s : State) :
    (∃ record, s.resetAndLoad.psq = .reset record) ∧ s.resetAndLoad.fbc.passOver = 0 := by
  unfold State.resetAndLoad
  split
  · exact ⟨⟨_, rfl⟩, rfl⟩
  · exact ⟨⟨_, rfl⟩, rfl⟩

theorem State.powerOn_sequencerLaw (s : State) : s.powerOn.SequencerLaw := by
  obtain ⟨⟨record, hq⟩, hc⟩ := s.resetAndLoad_polls
  exact State.sequencerLaw_of_reset (s := s.powerOn) hq (by show s.resetAndLoad.fbc.state.record? = _; rw [s.resetAndLoad_record]; rfl) hc

theorem State.performRestart_sequencerLaw (s : State) : s.performRestart.SequencerLaw := by
  obtain ⟨⟨record, hq⟩, hc⟩ := s.resetAndLoad_polls
  exact State.sequencerLaw_of_reset (s := s.performRestart) hq rfl hc

theorem State.SequencerLaw.startCycle (h : s.SequencerLaw) (hi : s.psq.state = .idle) : s.startCycle.SequencerLaw := by
  have hp := h.resting (Or.inl hi)
  exact (h.noPoll (by rw [hp]; simp) (by rw [hp]; simp)).startCycle

theorem State.SequencerLaw.startUpStep (h : s.SequencerLaw) : s.startUpStep.SequencerLaw := by
  unfold State.startUpStep
  split
  · exact h
  · have hnext : (s.setMgx { s.mgx with startUpStep := if s.mgx.startUpStep = 25 then 25 else s.mgx.startUpStep + 1 }).SequencerLaw :=
      h.congr rfl Iff.rfl rfl
    dsimp only
    generalize s.setMgx { s.mgx with startUpStep := if s.mgx.startUpStep = 25 then 25 else s.mgx.startUpStep + 1 } = v at hnext
    split
    · unfold State.startUpEnable
      split
      · exact hnext.works (more := True) (State.Works.enable _ _)
      · exact hnext
    · by_cases hk : s.mgx.startUpStep = 24
      · rw [if_pos hk]
        unfold State.autostart
        split
        · next ha => exact hnext.startCycle ha.2
        · exact hnext
      · rw [if_neg hk]
        exact hnext.congr rfl Iff.rfl rfl

theorem State.SequencerLaw.startUpRun (n : Nat) : ∀ {s : State}, s.SequencerLaw → (State.startUpRun n s).SequencerLaw := by
  induction n with
  | zero => exact fun h => h
  | succ n ih => exact fun h => ih h.startUpStep

theorem State.SequencerLaw.transmitted (h : s.SequencerLaw) (r : Report) : (s.transmitted r).SequencerLaw := by
  unfold State.transmitted
  split
  · exact h.congr rfl Iff.rfl rfl
  · exact s.performRestart_sequencerLaw
  all_goals exact h

/-! ### Every step -/

theorem State.SequencerLaw.commanded (h : s.SequencerLaw) (hu : s.Commanded u) : u.SequencerLaw := by
  cases hu with
  | nothing => exact h
  | enabled c hr => exact h.works (more := False) (.enable s c)
  | disabled c hd => exact h.works (more := False) (.disable s c)
  | released c hr => exact h.works (more := False) (.release s c)
  | allNarrowed => exact h.works (more := False) (.modAll s _)
  | narrowed c => exact h.works (more := False) (.modCh s c _)
  | injected c value n hd => exact h.works (more := False) (.modCh s c _)
  | flushed => exact h.works (more := False) (.flush s)
  | bypassed on => exact h.works (more := False) (.setBypass s on)
  | configWritten p => exact h.works (more := False) (.writeConfig s p)
  | presetsApplied a n => exact h.works (more := False) (.startApply s a n)
  | presetsAborted => exact h.works (more := False) ((State.Works.setPru s _).trans (.offerPart _ _))
  | expectedWritten n b hn => exact h.works (more := False) (.modNode s n _)
  | entryWritten c e hd he => exact h.congr (by simp) (by simp) (by simp)
  | sequenceWritten r => exact h.setPsq rfl rfl h.resting
  | walkStarted hi => exact h.startCycle hi
  | walkStopped => exact h.stopSequence
  | statusCleared | restartPending | saving | clearing | presetsWritten list => exact h.congr rfl Iff.rfl rfl

theorem State.SequencerLaw.sameRecord (h : s.SequencerLaw) {b : FieldBus} (hb : b.state.record? = s.fbc.state.record?)
    (hc : b.passOver = s.fbc.passOver) : (s.setFbc b).SequencerLaw :=
  h.congr rfl (by unfold FbcState.isPolling; rw [State.fbc_setFbc, hb]) hc

theorem State.SequencerLaw.setPst (h : s.SequencerLaw) (x : Store) : (s.setPst x).SequencerLaw := h.congr rfl Iff.rfl rfl

theorem State.SequencerLaw.setClp (h : s.SequencerLaw) (x : LinkPort) : (s.setClp x).SequencerLaw := h.congr rfl Iff.rfl rfl

theorem State.SequencerLaw.effect (h : s.SequencerLaw) (hu : s.Effect u) : u.SequencerLaw := by
  have hsame : ∀ {v : State}, v.psq = s.psq → v.fbc = s.fbc → v.SequencerLaw := fun h1 h2 => h.congr h1 (by rw [h2]) (by rw [h2])
  cases hu with
  | powerOn => exact s.powerOn_sequencerLaw
  | startUp n => exact State.SequencerLaw.startUpRun n h
  | receiverReady => exact hsame rfl rfl
  | pairsGoOn => exact h.works (more := False) (.applyPairs s _)
  | setpoints pairs => exact (hsame (v := s.rxReady) rfl rfl).works (more := False) (.takeSetpoints _ pairs)
  | frameQueued payload =>
    unfold State.queueFrame
    split
    · exact hsame rfl rfl
    · exact (hsame (v := s.rxReady) rfl rfl).works (more := False) (.linkError _ _)
  | linkError e => exact h.works (more := False) (.linkError s e)
  | answered ht ha =>
    obtain ⟨v, tag, cmd, k, data, e, hv, rfl⟩ := ha
    exact ((hsame (v := s.dropFrame) rfl rfl).commanded hv).onlyReports (State.onlyReports_setRq _ _)
  | erased copy hp => exact hsame rfl rfl
  | saved copy hp => exact (h.setPst _).onlyReports (State.offerPart_onlyReports _ _)
  | emptied e => exact (h.setPst _).onlyReports (State.offerPart_onlyReports _ _)
  | transmitted r => exact (h.setClp _).transmitted r
  | granted hi => exact h.arbitrate (FbcState.not_isPolling_of_none (by rw [hi]; rfl))
  | gapEnded us hs =>
    have hidle : (s.setFbc { s.fbc with state := .idle }).SequencerLaw := h.sameRecord (by rw [hs]; rfl) rfl
    exact hidle.arbitrate (FbcState.not_isPolling_of_none rfl)
  | strobed x hs => exact h.sameRecord ((afterStrobe_record _ x).trans (by rw [hs]; rfl)) rfl
  | busyBegan x hs => exact h.sameRecord (by rw [hs]; rfl) rfl
  | sendingBegan x hs => exact h.sameRecord (by rw [hs]; rfl) rfl
  | heldOut x hs =>
    exact State.SequencerLaw.complete (s := s.latch _) (hsame rfl rfl) (by show s.fbc.state.record? = _; rw [hs]; rfl) _
  | completed x r hx => exact h.complete hx r
  | readingTaken r => exact (h.sameRecord rfl rfl : (s.setFrx .discarding).SequencerLaw).takeReading r
  | readingMalformed f => exact h.congr rfl Iff.rfl rfl
  | frxIdle => exact h.sameRecord rfl rfl
  | stepTimerExpired c ht =>
    exact h.works (more := False) (.of_drives (State.Drives.stepTimerExpired s c) fun h => h.stepTimerExpired)
  | spacingExpired => exact h.spacingExpired
  | cycleExpired => exact h.cycleExpired
  | silenceBegan => exact h.works (more := False) (.silenceBegins s)
  | presetsReached timer => exact h.works (more := False) ((State.Works.setPru s _).trans (.reachEntries 64 _))

theorem sequencerLaw_kept : KeptByEffects State.SequencerLaw where
  fbsy _ _ h := h.sameRecord rfl rfl
  begins s h := h.onlyReports s.beginTransmission_onlyReports
  effect _ _ hu h := h.effect hu

/-- Settles O10: operations on channels leave all that the law speaks of (`State.SequencerLaw.works`); grants, completions and the
sequencer's own operations keep it each. -/
theorem stepKeepsSequencerLaw : Obligations.StepKeepsSequencerLaw :=
  fun _ _ hs h => step_kept sequencerLaw_kept (fun _ _ k => k.congr rfl Iff.rfl rfl) h hs

end Sys2Proof.Machine
end

