-- ==== Sys2Proof/Proofs/StepUse.lean ====
section
/-! PROOF. Which channels are in use, and what holds of them along every step: their mappings are apart (R35), their nodes are expected
(R101), and SILENCE is active on them exactly while the part is SILENT (R145). -/

namespace Sys2Proof.Machine

variable {s t u : State} {c : ChannelNo}

/-- The three laws of the channels in use. -/
structure State.UseLaw (s : State) : Prop where
  mapping : s.MappingLaw
  expected : s.ExpectedLaw
  silence : s.SilenceLaw

/-! ### Operations that bring no channel into use and leave SILENCE -/

/-- Whether the channel is in use and whether SILENCE is active on it stay, or it has gone to OFF without an active SILENCE. -/
def ChannelCtx.StaysUsed (x y : ChannelCtx) : Prop :=
  (y.active.silence = false ∧ y.drive = .off) ∨ (y.active.silence = x.active.silence ∧ (y.drive = .off ↔ x.drive = .off))

theorem ChannelCtx.StaysUsed.refl (x : ChannelCtx) : x.StaysUsed x := Or.inr ⟨rfl, Iff.rfl⟩

theorem ChannelCtx.StaysUsed.trans {x y z : ChannelCtx} (h : x.StaysUsed y) (k : y.StaysUsed z) : x.StaysUsed z := by
  rcases k with k | ⟨k1, k2⟩
  · exact Or.inl k
  · rcases h with ⟨h1, h2⟩ | ⟨h1, h2⟩
    · exact Or.inl ⟨k1.trans h1, k2.mpr h2⟩
    · exact Or.inr ⟨k1.trans h1, k2.trans h2⟩

theorem ChannelCtx.Moves.active {x y : ChannelCtx} (h : x.Moves y) : y.active = x.active := by rw [h.1]

theorem ChannelCtx.Moves.staysUsed {x y : ChannelCtx} (h : x.Moves y) : x.StaysUsed y := Or.inr ⟨by rw [h.active], h.2⟩

theorem ChannelCtx.staysUsed_reset (x : ChannelCtx) : x.StaysUsed .reset := Or.inl ⟨rfl, rfl⟩

/-- The channels in use, their entries, the expected nodes and the silence state stay, but for channels that go to OFF. -/
structure State.Spares (s t : State) : Prop where
  silence : t.act.state = s.act.state
  entries : t.ct = s.ct
  nodes : ∀ n, (t.node n).expected = (s.node n).expected
  channels : ∀ c, (s.ch c).StaysUsed (t.ch c)

theorem State.Spares.refl (s : State) : s.Spares s := ⟨rfl, rfl, fun _ => rfl, fun _ => .refl _⟩

theorem State.Spares.trans (h : s.Spares t) (k : t.Spares u) : s.Spares u :=
  ⟨k.silence.trans h.silence, k.entries.trans h.entries, fun n => (k.nodes n).trans (h.nodes n),
    fun c => (h.channels c).trans (k.channels c)⟩

/-- What leaves these components. -/
theorem State.Spares.of_eq (ha : t.act.state = s.act.state) (hct : t.ct = s.ct) (hnt : t.nt = s.nt) (hctx : t.ctx = s.ctx) :
    s.Spares t :=
  ⟨ha, hct, fun n => by unfold State.node; rw [hnt], fun c => by unfold State.ch; rw [hctx]; exact .refl _⟩

theorem State.OnlyReports.spares (h : s.OnlyReports t) : s.Spares t :=
  .of_eq (by rw [h.units.1]) h.tables.1 h.tables.2 h.channels.1

theorem State.OnlySequencer.spares (h : s.OnlySequencer t) : s.Spares t :=
  .of_eq (by rw [h.units.1]) h.tables.1 h.tables.2 h.channels.1

theorem State.OnlyChannel.spares (h : State.OnlyChannel c s t) (hc : (s.ch c).StaysUsed (t.ch c)) : s.Spares t where
  silence := by rw [h.units.1]
  entries := h.tables.1
  nodes n := by unfold State.node; rw [h.tables.2]
  channels d := by
    by_cases hd : d = c
    · subst hd; exact hc
    · rw [h.others d hd]; exact .refl _

theorem State.Drives.spares (h : State.Drives c s t) : s.Spares t := h.frame.spares h.moves.staysUsed

theorem State.Spares.modCh (s : State) (c : ChannelNo) {f : ChannelCtx → ChannelCtx} (hf : (s.ch c).StaysUsed (f (s.ch c))) :
    s.Spares (s.modCh c f) := (s.onlyChannel_modCh c f).spares (by rwa [s.ch_modCh_self])

theorem State.Spares.foldl {β : Type} {f : State → β → State} (hf : ∀ s b, State.Spares s (f s b)) (l : List β) :
    ∀ s, State.Spares s (l.foldl f s) := by
  induction l with
  | nil => exact fun s => .refl s
  | cons b l ih => exact fun s => (hf s b).trans (ih _)

/-- A change of the active set leaves it at the new set, and the channel in use or not. -/
theorem State.setActive_use (s : State) (c : ChannelNo) (active : ClassSet) :
    ((s.setActive c active).ch c).active = active ∧
      (((s.setActive c active).ch c).drive = .off ↔ (s.ch c).drive = .off) := by
  rw [State.setActive_eq]
  split
  · next h => exact ⟨h.symm, Iff.rfl⟩
  · dsimp only
    have hset : (s.modCh c (ChannelCtx.activeSet (s.entry c) active)).ch c = (s.ch c).activeSet (s.entry c) active :=
      s.ch_modCh_self c _
    have hmoves : ((s.ch c).activeSet (s.entry c) active).Moves ((if effectiveAction (s.entry c) active = (s.ch c).action then
        s.modCh c (ChannelCtx.activeSet (s.entry c) active)
      else (s.modCh c (ChannelCtx.activeSet (s.entry c) active)).actionChanged c (effectiveAction (s.entry c) active)).ch c) := by
      split
      · rw [hset]; exact .refl _
      · rw [← hset]; exact (State.Drives.actionChanged _ c _).moves
    split
    · rw [(State.offerAlarm_onlyReports _ _ _ _ _).ch]; exact ⟨hmoves.active, hmoves.2⟩
    · exact ⟨hmoves.active, hmoves.2⟩

theorem State.Spares.setActive (s : State) (c : ChannelNo) {active : ClassSet} (h : active.silence = (s.ch c).active.silence) :
    s.Spares (s.setActive c active) := by
  obtain ⟨hactive, hdrive⟩ := s.setActive_use c active
  exact (s.setActive_onlyChannel c active).spares (Or.inr ⟨by rw [hactive, h], hdrive⟩)

theorem State.Spares.latch (s : State) (f : Latches → Latches) : s.Spares (s.latch f) := .of_eq rfl rfl rfl rfl

theorem State.Spares.reachOff (s : State) (c : ChannelNo) : s.Spares (s.reachOff c) :=
  ((State.Spares.modCh s c (ChannelCtx.staysUsed_reset _)).trans
    (t := s.modCh c fun _ => .reset) (u := s.atOff c) (.of_eq rfl rfl rfl rfl)).trans (s.reachOff_onlyReports c).spares

theorem State.Spares.release (s : State) (c : ChannelNo) : s.Spares (s.release c) := by
  refine .trans (.trans (.modCh s c (Or.inr ⟨rfl, Iff.rfl⟩)) (.setActive _ c ?_)) (State.Drives.resumeDrive _ c).spares
  rw [s.ch_modCh_self, ClassSet.minus_valueClasses]

theorem State.Spares.disable (s : State) (c : ChannelNo) : s.Spares (s.disable c) := by
  have hoff : s.Spares (s.disableIsolated c) := (State.Drives.removeEntry s c).spares.trans (.reachOff _ c)
  have hstop : (s.ch c).drive ≠ .off → s.Spares (s.beginStopping c) := fun hd => (State.Drives.beginStopping s c hd).spares
  unfold State.disable
  split
  · exact hoff
  · exact hoff
  · next hd => exact hstop (by simp [hd])
  · next hd => exact hstop (by simp [hd])
  · next hd => exact hstop (by simp [hd])
  all_goals exact .refl s

theorem State.Spares.applySetpoint (s : State) (c : ChannelNo) (data : Code) (takes : Bool) : s.Spares (s.applySetpoint c data takes) :=
  .trans (.modCh s c (Or.inr ⟨rfl, Iff.rfl⟩)) (State.Drives.targetNotice _ c).spares

theorem State.Spares.takePair (s : State) (p : SetpointPair) : s.Spares (s.takePair p) := by
  unfold State.takePair
  split
  · exact .latch s _
  · split
    · exact .applySetpoint s _ _ _
    · exact .latch s _

theorem State.Spares.applyPairs (s : State) (pairs : List SetpointPair) : s.Spares (s.applyPairs pairs) := by
  unfold State.applyPairs
  split
  · exact .refl s
  · exact .trans (.foldl (fun s p => .takePair s p) _ s) (.of_eq rfl rfl rfl rfl)

/-! ### Results -/

theorem State.Spares.norespResult (s : State) (c : ChannelNo) (success : Bool) : s.Spares (s.norespResult c success) := by
  unfold State.norespResult State.norespSuccess State.norespFailure
  split
  · exact .trans (.modCh s c (Or.inr ⟨rfl, Iff.rfl⟩)) (.setActive _ c (by rw [s.ch_modCh_self]))
  · refine .trans (.modCh s c (Or.inr ⟨rfl, Iff.rfl⟩)) (.setActive _ c ?_)
    rw [s.ch_modCh_self]
    unfold norespFailureActive
    split <;> rfl

theorem activeAfterReading_silence (e : ChannelEntry) (x : ChannelCtx) (value : Code) :
    (activeAfterReading e x value).silence = x.active.silence := by
  unfold activeAfterReading evaluatedActive
  dsimp only
  split
  · split <;> simp [ClassSet.minus, ClassSet.union, clearings, conditions]
  · rfl

theorem ChannelCtx.afterReading_active (e : ChannelEntry) (value : Code) (x : ChannelCtx) :
    (x.afterReading e value).active = x.active := by
  unfold ChannelCtx.afterReading
  dsimp only
  split <;> rfl

theorem State.Spares.offerReadback (s : State) (c : ChannelNo) (value : Code) : s.Spares (s.offerReadback c value) := by
  unfold State.offerReadback
  split
  · exact .trans (s.onlyReports_setRq _).spares (.modCh _ c (Or.inr ⟨rfl, Iff.rfl⟩))
  · exact .latch s _

theorem State.Spares.pollReading (s : State) (c : ChannelNo) (n : Node) (raw : Code) : s.Spares (s.pollReading c n raw) := by
  unfold State.pollReading
  dsimp only
  have hread : s.Spares ((s.modCh c (ChannelCtx.afterReading (s.entry c) (readingValue (s.ch c) (s.node n) raw))).setActive c
      (activeAfterReading (s.entry c) (s.ch c) (readingValue (s.ch c) (s.node n) raw))) := by
    refine .trans (.modCh s c (Or.inr ⟨?_, ?_⟩)) (.setActive _ c ?_)
    · rw [ChannelCtx.afterReading_active]
    · rw [ChannelCtx.afterReading_drive]
    · rw [activeAfterReading_silence, s.ch_modCh_self, ChannelCtx.afterReading_active]
  split
  · exact hread.trans (.offerReadback _ c _)
  · exact hread

theorem State.Spares.takeWrite (s : State) (c : ChannelNo) (k : Code) (r success : Bool) : s.Spares (s.takeWrite c k r success) := by
  unfold State.takeWrite
  split
  · exact .refl s
  · next hd =>
    split
    · refine .trans ?_ (.reachOff _ c)
      split
      · exact .modCh s c (Or.inr ⟨rfl, Iff.rfl⟩)
      · exact (State.Drives.rollBack s c).spares
    · refine .trans ?_ (.norespResult _ c _)
      split
      · have hmoves := State.writeOk_moves (s := s) hd k r
        exact (State.writeOk_onlyChannel hd k r).spares (Or.inr ⟨by rw [hmoves.active], hmoves.2⟩)
      · exact (State.Drives.writeFailed s c r).spares

theorem State.Spares.tellOwners (s : State) (x : Transaction) (r : FieldResult) : s.Spares (s.tellOwners x r) := by
  unfold State.tellOwners State.takeIsolate State.takePoll State.monitorPoll
  split
  · exact .takeWrite s _ _ _ _
  · split
    · exact .refl s
    · exact (State.Drives.isolateResult s _ _).spares.trans (.norespResult _ _ _)
  · split
    · exact .refl s
    · refine .trans ?_ (State.Drives.stepTest _ _).spares
      split
      · exact .pollReading s _ _ _
      · exact .norespResult s _ true
      all_goals exact .norespResult s _ false
  · split
    · refine ⟨by simp [State.zeroResult], by simp [State.zeroResult], fun n => ?_, fun c => ?_⟩
      · rw [State.zeroResult, State.node_modNode]
        split
        · next hn => rw [hn]; unfold NodeRecord.zeroed; dsimp only; split <;> rfl
        · rfl
      · rw [State.zeroResult, State.ch_modNode]; exact .refl _
    all_goals exact .refl s

theorem State.Spares.creditNode (s : State) (n : Node) (success : Bool) : s.Spares (s.creditNode n success) where
  silence := by rw [(s.creditNode_only n success).units.1]; simp
  entries := by rw [(s.creditNode_only n success).tables.1]; simp
  nodes m := by
    rw [State.creditNode_node]
    split
    · next hm => rw [hm]; split <;> rfl
    · rfl
  channels c := by rw [(s.creditNode_only n success).ch, State.ch_modNode]; exact .refl _

theorem State.Spares.complete (s : State) (x : Transaction) (r : FieldResult) : s.Spares (s.complete x r) := by
  have hgap : s.Spares s.enterGap := .of_eq rfl rfl rfl rfl
  rw [State.complete_eq]
  refine .trans (.trans ?_ (.creditNode _ _ _)) (State.tellSequencer_only _ _).spares
  unfold State.told
  split
  · exact hgap
  · exact hgap.trans (.tellOwners _ x r)

theorem State.Spares.takeReading (s : State) (r : Reading) : s.Spares (s.takeReading r) := by
  unfold State.takeReading
  split
  · split
    · exact .complete s _ _
    · exact .latch s _
  all_goals exact .latch s _

theorem State.Spares.grantQueue (s : State) : s.Spares s.grantQueue := by
  unfold State.grantQueue
  split
  · exact .of_eq rfl rfl rfl rfl
  · exact .of_eq rfl rfl rfl rfl
  · exact .refl s

theorem State.Spares.grantPoll (s : State) : s.Spares s.grantPoll := by
  unfold State.grantPoll
  dsimp only
  split
  · exact .of_eq rfl rfl rfl rfl
  · exact .of_eq rfl rfl rfl rfl
  · exact .refl s

theorem State.Spares.arbitrate (s : State) : s.Spares s.arbitrate := by
  have hp : ∀ n, s.Spares (s.setPassOver n) := fun n => .of_eq rfl rfl rfl rfl
  unfold State.arbitrate
  split
  · exact .refl s
  · exact .grantQueue s
  · exact (hp 0).trans (.grantPoll _)
  · split
    · exact (hp 0).trans (.grantPoll _)
    · exact (hp _).trans (.grantQueue _)

/-! ### Flush, bypass, presets -/

theorem State.Spares.flushedChannel (s : State) (c : ChannelNo) : s.Spares (s.flushedChannel c) := by
  unfold State.flushedChannel
  split
  · exact ((State.Drives.rollBack s c).trans (.stepTest _ c)).spares
  · exact ((State.Drives.rollBack s c).trans (.startStepTimer _ c)).spares
  · exact .reachOff s c
  all_goals exact .refl s

theorem State.Spares.flush (s : State) : s.Spares s.flush :=
  .trans (t := s.setOq { s.oq with writes := [] }) (.of_eq rfl rfl rfl rfl) (.foldl (fun s c => .flushedChannel s c) _ _)

theorem State.Spares.setBypass (s : State) (on : Bool) : s.Spares (s.setBypass on) := by
  have hone : ∀ (s : State) (c : ChannelNo), s.Spares (s.bypassChannel c) := fun s c => by
    unfold State.bypassChannel
    split
    · split
      · exact (State.Drives.requestCode s c _).spares
      · exact .refl s
    · exact .refl s
  have hset : s.Spares (s.setMgx { s.mgx with slewBypass := on }) := .of_eq rfl rfl rfl rfl
  unfold State.setBypass
  split
  · exact .refl s
  · dsimp only
    split
    · exact hset.trans (.foldl hone _ _)
    · exact hset

theorem State.Spares.setPru (s : State) (x : PresetUnit) : s.Spares (s.setPru x) := .of_eq rfl rfl rfl rfl

theorem State.Spares.offerPart (s : State) (e : PartEvent) : s.Spares (s.offerPart e) := (s.offerPart_onlyReports e).spares

theorem State.Spares.reachEntries (fuel : Nat) : ∀ s : State, s.Spares (State.reachEntries fuel s) := by
  induction fuel with
  | zero => exact fun s => .refl s
  | succ n ih =>
    intro s
    have hreached : s.Spares (s.applyOrSkip.setPru s.applyOrSkip.pru.advance) := by
      refine .trans ?_ (.setPru _ _)
      unfold State.applyOrSkip
      split
      · exact .refl s
      · dsimp only
        split
        · exact .applySetpoint s _ _ _
        · exact .refl s
    unfold State.reachEntries
    dsimp only
    split
    · exact (hreached.trans (.setPru _ _)).trans (.offerPart _ _)
    · split
      · exact hreached.trans (ih _)
      · exact hreached.trans (.setPru _ _)

theorem State.Spares.modAll (s : State) {f : ChannelCtx → ChannelCtx} (hf : ∀ x, ChannelCtx.StaysUsed x (f x)) : s.Spares (s.modAll f) :=
  ⟨by simp, by simp, by simp, fun c => by rw [State.ch_modAll]; exact hf _⟩

theorem State.Spares.startApply (s : State) (start count : Byte) : s.Spares (s.startApply start count) := by
  unfold State.startApply
  split
  · have hfree : s.Spares (s.modAll fun x => { x with presetTaken := false }) := .modAll s fun x => Or.inr ⟨rfl, Iff.rfl⟩
    exact (hfree.trans (.setPru _ _)).trans (.reachEntries 64 _)
  · exact .refl s

theorem State.Spares.setClp (s : State) (x : LinkPort) : s.Spares (s.setClp x) := .of_eq rfl rfl rfl rfl

theorem State.Spares.linkError (s : State) (e : LinkError) : s.Spares (s.linkError e) := by
  unfold State.linkError
  dsimp only
  split
  · exact ((State.Spares.setClp s _).trans (.setClp _ _)).trans (.offerPart _ _)
  · exact .setClp s _

/-! ### The laws -/

theorem ChannelCtx.StaysUsed.used {x y : ChannelCtx} (h : x.StaysUsed y) (hy : y.drive ≠ .off) :
    x.drive ≠ .off ∧ y.active.silence = x.active.silence := by
  rcases h with ⟨-, h⟩ | ⟨h1, h2⟩
  · exact absurd h hy
  · exact ⟨fun e => hy (h2.mpr e), h1⟩

/-- What brings no channel into use and leaves SILENCE keeps the three laws. -/
theorem State.UseLaw.spares (h : s.UseLaw) (k : s.Spares t) : t.UseLaw := by
  have hentry : ∀ c, t.entry c = s.entry c := fun c => by unfold State.entry; rw [k.entries]
  refine ⟨fun c d hc hd hn hp => ?_, fun c hc => ?_, fun c => ?_⟩
  · rw [hentry, hentry] at hn hp
    exact h.mapping c d ((k.channels c).used hc).1 ((k.channels d).used hd).1 hn hp
  · rw [hentry, k.nodes]
    exact h.expected c ((k.channels c).used hc).1
  · rw [k.silence]
    by_cases hoff : (t.ch c).drive = .off
    · refine iff_of_false ?_ fun e => e.1 hoff
      rcases k.channels c with ⟨hs, -⟩ | ⟨hs, hd⟩
      · simp [hs]
      · rw [hs]; exact fun e => ((h.silence c).mp e).1 (hd.mp hoff)
    · obtain ⟨hd, hs⟩ := (k.channels c).used hoff
      rw [hs, h.silence c]
      simp [hoff, hd]

/-- A part all of whose channels are at reset. -/
theorem State.useLaw_of_reset (h : ∀ c, s.ch c = .reset) : s.UseLaw := by
  have hoff : ∀ c, (s.ch c).drive = .off := fun c => by rw [h c]; rfl
  refine ⟨fun c _ hc => absurd (hoff c) hc, fun c hc => absurd (hoff c) hc, fun c => ?_⟩
  rw [h c]
  exact iff_of_false (by simp [ChannelCtx.reset, ClassSet.empty]) fun e => e.1 rfl

theorem State.UseLaw.silence_of_off (h : s.UseLaw) (hd : (s.ch c).drive = .off) : (s.ch c).active.silence = false := by
  have := (h.silence c).not.mpr fun e => e.1 hd
  simpa using this

/-! ### An enable -/

theorem State.startDriving_ch (s : State) (c : ChannelNo) :
    ((s.startDriving c).ch c).drive = .moving ∧ ((s.startDriving c).ch c).active = (s.ch c).active := by
  simp [State.startDriving, State.issueWrite, State.placeWrite]

theorem State.startDriving_onlyChannel (s : State) (c : ChannelNo) : State.OnlyChannel c s (s.startDriving c) :=
  (s.onlyChannel_modCh c _).trans (State.Drives.issueWrite _ c _ _).frame

/-- An enable reaches its channel only, which it brings into use with SILENCE as the part has it (R36). -/
theorem State.enable_use (s : State) (c : ChannelNo) : State.OnlyChannel c s (s.enable c) ∧ ((s.enable c).ch c).drive ≠ .off ∧
    ((s.enable c).ch c).active.silence = if s.act.state = .silent then true else (s.ch c).active.silence := by
  have hact : (s.startDriving c).act = s.act := (s.startDriving_onlyChannel c).units.1
  obtain ⟨hdrive, hactive⟩ := s.startDriving_ch c
  unfold State.enable
  dsimp only
  rw [hact]
  split
  · obtain ⟨hset, hoff⟩ := (s.startDriving c).setActive_use c { ((s.startDriving c).ch c).active with silence := true }
    refine ⟨(s.startDriving_onlyChannel c).trans (State.setActive_onlyChannel _ _ _), fun e => ?_, by rw [hset]⟩
    have := hoff.mp e
    rw [hdrive] at this; cases this
  · exact ⟨s.startDriving_onlyChannel c, by rw [hdrive]; simp, by rw [hactive]⟩

/-- An enable that passes the checks of R35 keeps the laws. -/
theorem State.UseLaw.enable (h : s.UseLaw) (hr : s.enableRefusal c = none) : (s.enable c).UseLaw := by
  obtain ⟨hoff, hfree, hexp⟩ := State.enableRefusal_none hr
  obtain ⟨hframe, hdrive, hsilence⟩ := s.enable_use c
  have hapart : ∀ d, d ≠ c → (s.ch d).drive ≠ .off → (s.entry d).node = (s.entry c).node → (s.entry d).point ≠ (s.entry c).point := by
    intro d hd hu hn hp
    have := (s.mappingConflict_iff c).mpr ⟨d, hd, hu, hn, hp⟩
    rw [hfree] at this; cases this
  have hnode : ∀ n, (s.enable c).node n = s.node n := fun n => by unfold State.node; rw [hframe.tables.2]
  refine ⟨fun d e hd he hn hp => ?_, fun d hd => ?_, fun d => ?_⟩
  · rw [hframe.entry, hframe.entry] at hn hp
    by_cases hdc : d = c
    · by_cases hec : e = c
      · rw [hdc, hec]
      · subst hdc
        rw [hframe.others e hec] at he
        exact absurd hp.symm (hapart e hec he hn.symm)
    · rw [hframe.others d hdc] at hd
      by_cases hec : e = c
      · subst hec
        exact absurd hp (hapart d hdc hd hn)
      · rw [hframe.others e hec] at he
        exact h.mapping d e hd he hn hp
  · rw [hframe.entry, hnode]
    by_cases hdc : d = c
    · rw [hdc]; exact hexp
    · rw [hframe.others d hdc] at hd
      exact h.expected d hd
  · rw [hframe.units.1]
    by_cases hdc : d = c
    · subst hdc
      rw [hsilence, h.silence_of_off hoff]
      simp [hdrive]
    · rw [hframe.others d hdc]; exact h.silence d

/-! ### One operation for each channel in turn -/

/-- Operations that reach one channel each, made for the channels of a list: a channel of the list is acted on once, in a state that
holds its context, its entry and all that is no channel's as they were; the others stay. -/
theorem foldl_onlyChannel {f : State → ChannelNo → State} (hf : ∀ s c, State.OnlyChannel c s (f s c)) {l : List ChannelNo} :
    l.Nodup → ∀ s : State, (l.foldl f s).act = s.act ∧ (l.foldl f s).ct = s.ct ∧ (l.foldl f s).nt = s.nt ∧
      ∀ c, (c ∉ l → (l.foldl f s).ch c = s.ch c) ∧
        (c ∈ l → ∃ v : State, v.ch c = s.ch c ∧ v.ct = s.ct ∧ (l.foldl f s).ch c = (f v c).ch c) := by
  induction l with
  | nil => exact fun _ s => ⟨rfl, rfl, rfl, fun c => ⟨fun _ => rfl, fun h => by cases h⟩⟩
  | cons b l ih =>
    intro hl s
    obtain ⟨hb, hl⟩ := List.nodup_cons.mp hl
    have hone := hf s b
    obtain ⟨hact, hct, hnt, hch⟩ := ih hl (f s b)
    refine ⟨hact.trans hone.units.1, hct.trans hone.tables.1, hnt.trans hone.tables.2, fun c => ⟨fun hc => ?_, fun hc => ?_⟩⟩
    · simp only [List.mem_cons, not_or] at hc
      exact ((hch c).1 hc.2).trans (hone.others c hc.1)
    · by_cases hcb : c = b
      · subst hcb
        exact ⟨s, rfl, rfl, (hch c).1 hb⟩
      · obtain ⟨v, hv, hvct, hvc⟩ := (hch c).2 (List.mem_of_ne_of_mem hcb hc)
        exact ⟨v, hv.trans (hone.others c hcb), hvct.trans hone.tables.1, hvc⟩

theorem channelsAscending_nodup : channelsAscending.Nodup := List.nodup_finRange 24

theorem State.silenceJoins_onlyChannel (s : State) (c : ChannelNo) : State.OnlyChannel c s (s.silenceJoins c) := by
  unfold State.silenceJoins
  split
  · exact .refl c s
  · exact s.setActive_onlyChannel c _

/-- SILENCE after it has joined the channels that are not OFF (R142). -/
theorem State.silenceJoins_use (s : State) (c : ChannelNo) :
    (((s.silenceJoins c).ch c).drive = .off ↔ (s.ch c).drive = .off) ∧
      ((s.ch c).drive ≠ .off → ((s.silenceJoins c).ch c).active.silence = true) ∧
      ((s.ch c).drive = .off → (s.silenceJoins c).ch c = s.ch c) := by
  unfold State.silenceJoins
  split
  · next hd => exact ⟨Iff.rfl, fun h => absurd hd h, fun _ => rfl⟩
  · next hd =>
    obtain ⟨hset, hoff⟩ := s.setActive_use c { (s.ch c).active with silence := true }
    exact ⟨hoff, fun _ => by rw [hset], fun e => absurd e hd⟩

theorem State.UseLaw.silenceBegins (h : s.UseLaw) : s.silenceBegins.UseLaw := by
  refine State.UseLaw.spares ?_ (State.Spares.offerPart _ _)
  obtain ⟨hact, hct, hnt, hch⟩ := foldl_onlyChannel State.silenceJoins_onlyChannel channelsAscending_nodup
    (s.setAct ⟨.silent, .expired⟩)
  generalize channelsAscending.foldl State.silenceJoins (s.setAct ⟨.silent, .expired⟩) = v at hact hct hnt hch
  have hc : ∀ c, ((v.ch c).drive = .off ↔ (s.ch c).drive = .off) ∧ ((s.ch c).drive ≠ .off → (v.ch c).active.silence = true) ∧
      ((s.ch c).drive = .off → v.ch c = s.ch c) := fun c => by
    obtain ⟨w, hw, -, hvc⟩ := (hch c).2 (mem_channelsAscending c)
    have := w.silenceJoins_use c
    rwa [hw, ← hvc] at this
  have hentry : ∀ c, v.entry c = s.entry c := fun c => by unfold State.entry; rw [hct]; rfl
  have hnode : ∀ n, v.node n = s.node n := fun n => by unfold State.node; rw [hnt]; rfl
  refine ⟨fun c d hu hw hn hp => ?_, fun c hu => ?_, fun c => ?_⟩
  · rw [hentry, hentry] at hn hp
    exact h.mapping c d (fun e => hu ((hc c).1.mpr e)) (fun e => hw ((hc d).1.mpr e)) hn hp
  · rw [hentry, hnode]
    exact h.expected c fun e => hu ((hc c).1.mpr e)
  · rw [hact]
    by_cases hoff : (s.ch c).drive = .off
    · rw [(hc c).2.2 hoff, h.silence_of_off hoff]; simp [hoff]
    · rw [(hc c).2.1 hoff]
      simp [(hc c).1, hoff]

theorem State.UseLaw.silenceEnds (h : s.UseLaw) : s.silenceEnds.UseLaw := by
  refine State.UseLaw.spares ?_ (State.Spares.offerPart _ _)
  obtain ⟨hact, hct, hnt, hch⟩ := foldl_onlyChannel (f := State.silenceLeaves) (fun s c => s.setActive_onlyChannel c _)
    channelsAscending_nodup (s.setAct ⟨.quiet, s.silenceStart⟩)
  generalize channelsAscending.foldl State.silenceLeaves (s.setAct ⟨.quiet, s.silenceStart⟩) = v at hact hct hnt hch
  have hc : ∀ c, ((v.ch c).drive = .off ↔ (s.ch c).drive = .off) ∧ (v.ch c).active.silence = false := fun c => by
    obtain ⟨w, hw, -, hvc⟩ := (hch c).2 (mem_channelsAscending c)
    obtain ⟨hset, hoff⟩ := w.setActive_use c { (w.ch c).active with silence := false }
    rw [hvc]
    exact ⟨hoff.trans (by rw [hw]; rfl), by rw [State.silenceLeaves, hset]⟩
  have hentry : ∀ c, v.entry c = s.entry c := fun c => by unfold State.entry; rw [hct]; rfl
  have hnode : ∀ n, v.node n = s.node n := fun n => by unfold State.node; rw [hnt]; rfl
  refine ⟨fun c d hu hw hn hp => ?_, fun c hu => ?_, fun c => ?_⟩
  · rw [hentry, hentry] at hn hp
    exact h.mapping c d (fun e => hu ((hc c).1.mpr e)) (fun e => hw ((hc d).1.mpr e)) hn hp
  · rw [hentry, hnode]
    exact h.expected c fun e => hu ((hc c).1.mpr e)
  · rw [hact, (hc c).2]; simp

theorem State.UseLaw.setpointNotice (h : s.UseLaw) : s.setpointNotice.UseLaw := by
  unfold State.setpointNotice
  split
  · next hq => exact h.spares (.of_eq hq.symm rfl rfl rfl)
  · exact h.silenceEnds

theorem State.UseLaw.takeSetpoints (h : s.UseLaw) (pairs : List SetpointPair) : (s.takeSetpoints pairs).UseLaw := by
  unfold State.takeSetpoints
  split
  · exact h.spares (.latch s _)
  · exact ((h.spares (.foldl (fun s p => .takePair s p) s.sph s)).setpointNotice).spares (.applyPairs _ _)

theorem State.UseLaw.writeConfig (h : s.UseLaw) (p : PartConfig) : (s.writeConfig p).UseLaw := by
  have hw : (s.setMgx { s.mgx with config := p }).UseLaw := h.spares (.of_eq rfl rfl rfl rfl)
  unfold State.writeConfig State.silenceTimeoutWritten
  dsimp only
  split
  · exact hw
  · split
    · next hq => exact hw.spares (.of_eq hq.symm rfl rfl rfl)
    · split
      · exact hw.silenceEnds
      · exact hw

/-! ### Written tables and resets -/

/-- A new entry of a channel in OFF maps no channel in use (R6, R35). -/
theorem State.UseLaw.setEntry (h : s.UseLaw) (hd : (s.ch c).drive = .off) (e : ChannelEntry) : (s.setEntry c e).UseLaw := by
  have hentry : ∀ d, (s.ch d).drive ≠ .off → (s.setEntry c e).entry d = s.entry d := fun d hu => by
    rw [State.entry_setEntry, if_neg fun hdc => hu (by rw [hdc, hd])]
  have hch : ∀ d, (s.setEntry c e).ch d = s.ch d := s.ch_setEntry c e
  refine ⟨fun x y hx hy hn hp => ?_, fun x hx => ?_, fun x => ?_⟩
  · rw [hch] at hx hy
    rw [hentry x hx, hentry y hy] at hn hp
    exact h.mapping x y hx hy hn hp
  · rw [hch] at hx
    rw [hentry x hx, State.node_setEntry]
    exact h.expected x hx
  · rw [hch, State.act_setEntry]; exact h.silence x

/-- A node of a channel in use stays expected (R100, R101). -/
theorem State.UseLaw.setExpected (h : s.UseLaw) {n : Node} {b : Bool} (hb : b = true ∨ s.nodeInUse n = false) :
    (s.modNode n fun r => { r with expected := b }).UseLaw := by
  refine ⟨fun x y hx hy hn hp => ?_, fun x hx => ?_, fun x => ?_⟩
  · rw [State.ch_modNode] at hx hy
    rw [State.entry_modNode, State.entry_modNode] at hn hp
    exact h.mapping x y hx hy hn hp
  · rw [State.ch_modNode] at hx
    rw [State.entry_modNode, State.node_modNode]
    split
    · next hn =>
      rcases hb with hb | hb
      · exact hb
      · have := (s.nodeInUse_iff n).mpr ⟨x, hx, hn⟩
        rw [hb] at this; cases this
    · exact h.expected x hx
  · rw [State.ch_modNode, State.act_modNode]; exact h.silence x

theorem State.resetAndLoad_ch (s : State) (c : ChannelNo) : s.resetAndLoad.ch c = .reset := by
  unfold State.resetAndLoad
  split <;> simp [State.ch, State.resetAround]

theorem State.UseLaw.startUpStep (h : s.UseLaw) : s.startUpStep.UseLaw := by
  unfold State.startUpStep
  split
  · exact h
  · have hnext : (s.setMgx { s.mgx with startUpStep := if s.mgx.startUpStep = 25 then 25 else s.mgx.startUpStep + 1 }).UseLaw :=
      h.spares (.of_eq rfl rfl rfl rfl)
    dsimp only
    generalize s.setMgx { s.mgx with startUpStep := if s.mgx.startUpStep = 25 then 25 else s.mgx.startUpStep + 1 } = v at hnext
    split
    · unfold State.startUpEnable
      split
      · next hc =>
        simp only [Bool.and_eq_true, Option.isNone_iff_eq_none] at hc
        exact hnext.enable hc.2
      · exact hnext
    · by_cases hk : s.mgx.startUpStep = 24
      · rw [if_pos hk]
        unfold State.autostart
        split
        · exact hnext.spares v.startCycle_only.spares
        · exact hnext
      · rw [if_neg hk]
        exact hnext.spares (.of_eq rfl rfl rfl rfl)

theorem State.UseLaw.startUpRun (n : Nat) : ∀ {s : State}, s.UseLaw → (State.startUpRun n s).UseLaw := by
  induction n with
  | zero => exact fun h => h
  | succ n ih => exact fun h => ih h.startUpStep

/-! ### Every step -/

theorem State.UseLaw.commanded (h : s.UseLaw) (hu : s.Commanded u) : u.UseLaw := by
  cases hu with
  | nothing => exact h
  | enabled c hr => exact h.enable hr
  | disabled c hd => exact h.spares (.disable s c)
  | released c hr => exact h.spares (.release s c)
  | allNarrowed => exact h.spares (.modAll s fun x => Or.inr ⟨rfl, Iff.rfl⟩)
  | narrowed c => exact h.spares (.modCh s c (Or.inr ⟨rfl, Iff.rfl⟩))
  | injected c value n hd => exact h.spares (.modCh s c (Or.inr ⟨rfl, Iff.rfl⟩))
  | flushed => exact h.spares (.flush s)
  | bypassed on => exact h.spares (.setBypass s on)
  | entryWritten c e hd he => exact h.setEntry hd e
  | expectedWritten n b hn => exact h.setExpected hn
  | configWritten p => exact h.writeConfig p
  | walkStarted hi => exact h.spares s.startCycle_only.spares
  | walkStopped => exact h.spares s.stopSequence_only.spares
  | presetsApplied a n => exact h.spares (.startApply s a n)
  | presetsAborted => exact h.spares ((State.Spares.setPru s _).trans (.offerPart _ _))
  | statusCleared | restartPending | saving | clearing | sequenceWritten r | presetsWritten list =>
    exact h.spares (.of_eq rfl rfl rfl rfl)

theorem State.UseLaw.transmitted (h : s.UseLaw) (r : Report) : (s.transmitted r).UseLaw := by
  unfold State.transmitted
  split
  · exact h.spares (.of_eq rfl rfl rfl rfl)
  · exact State.useLaw_of_reset s.resetAndLoad_ch
  all_goals exact h

theorem State.UseLaw.effect (h : s.UseLaw) (hu : s.Effect u) : u.UseLaw := by
  have hsame : ∀ {v : State}, v.act = s.act → v.ct = s.ct → v.nt = s.nt → v.ctx = s.ctx → v.UseLaw :=
    fun h1 h2 h3 h4 => h.spares (.of_eq (by rw [h1]) h2 h3 h4)
  cases hu with
  | powerOn => exact State.useLaw_of_reset s.resetAndLoad_ch
  | startUp n => exact State.UseLaw.startUpRun n h
  | pairsGoOn => exact h.spares (.applyPairs s _)
  | setpoints pairs => exact State.UseLaw.takeSetpoints (s := s.rxReady) (hsame rfl rfl rfl rfl) pairs
  | frameQueued payload =>
    unfold State.queueFrame
    split
    · exact hsame rfl rfl rfl rfl
    · exact State.UseLaw.spares (s := s.rxReady) (hsame rfl rfl rfl rfl) (.linkError _ _)
  | linkError e => exact h.spares (.linkError s e)
  | answered ht ha =>
    obtain ⟨v, tag, cmd, k, data, e, hv, rfl⟩ := ha
    exact (State.UseLaw.commanded (s := s.dropFrame) (hsame rfl rfl rfl rfl) hv).spares (State.onlyReports_setRq _ _).spares
  | saved copy hp =>
    exact h.spares (.trans (t := s.setPst { state := .valid, image := ⟨some copy, some copy.check⟩ }) (.of_eq rfl rfl rfl rfl) (.offerPart _ _))
  | emptied e => exact h.spares (.trans (t := s.setPst { state := .empty, image := .erased }) (.of_eq rfl rfl rfl rfl) (.offerPart _ _))
  | transmitted r => exact State.UseLaw.transmitted (s := s.setClp { s.clp with tx := none }) (hsame rfl rfl rfl rfl) r
  | granted hi => exact h.spares (.arbitrate s)
  | gapEnded us hs => exact h.spares (.trans (t := s.setFbc { s.fbc with state := .idle }) (.of_eq rfl rfl rfl rfl) (.arbitrate _))
  | heldOut x hs => exact h.spares ((State.Spares.latch s _).trans (.complete _ x _))
  | completed x r hx => exact h.spares (.complete s x r)
  | readingTaken r => exact h.spares (.trans (t := s.setFrx .discarding) (.of_eq rfl rfl rfl rfl) (.takeReading _ r))
  | stepTimerExpired c ht => exact h.spares (State.Drives.stepTimerExpired s c).spares
  | spacingExpired => exact h.spares s.spacingExpired_only.spares
  | cycleExpired => exact h.spares s.cycleExpired_only.spares
  | silenceBegan => exact h.silenceBegins
  | presetsReached timer => exact h.spares ((State.Spares.setPru s _).trans (.reachEntries 64 _))
  | receiverReady | erased copy hp | strobed x hs | busyBegan x hs | sendingBegan x hs | readingMalformed f | frxIdle =>
    exact hsame rfl rfl rfl rfl

theorem useLaw_kept : KeptByEffects State.UseLaw where
  fbsy _ _ h := h.spares (.of_eq rfl rfl rfl rfl)
  begins s h := h.spares s.beginTransmission_onlyReports.spares
  effect _ _ hu h := h.effect hu

/-- Settles O9: only an enable brings a channel into use, and its checks are those of the laws (`State.UseLaw.enable`); only the
silence record's events move SILENCE, on every channel (`State.UseLaw.silenceBegins`, `State.UseLaw.silenceEnds`). -/
theorem stepKeepsMappingAndSilenceLaws : Obligations.StepKeepsMappingAndSilenceLaws := fun _ t _ hm he hs h => by
  have ht : t.UseLaw := step_kept useLaw_kept (fun _ _ k => k.spares (.of_eq rfl rfl rfl rfl)) h ⟨hm, he, hs⟩
  exact ⟨ht.mapping, ht.expected, ht.silence⟩

end Sys2Proof.Machine
end

