-- ==== Sys2Proof/Proofs/RecordLayouts.lean ====
section
/-! PROOF. Every record reads back from its layout (Section 9.7), every management payload as its command (R165), and the frames of both
links written out (Sections 4.2 and 9.1). -/

namespace Sys2Proof.Machine

/-! ### Fields -/

theorem byteOf_toNat_of_lt {n : Nat} (h : n < 256) : (byteOf n).toNat = n := by
  rw [byteOf, BitVec.toNat_ofNat]; omega

theorem finOf?_byteOf {n : Nat} (hn : n ≤ 256) (i : Fin n) : finOf? n (byteOf i.val).toNat = some i :=
  finOf?_eq_some (byteOf_toNat_of_lt (by omega))

theorem nodeOf?_nodeByte (n : Node) : nodeOf? (nodeByte n) = some n := nodeOf?_eq_some (byteOf_toNat_of_lt (by omega))

theorem channelOf?_channelByte (c : ChannelNo) : channelOf? (channelByte c) = some c :=
  channelOf?_eq_some (byteOf_toNat_of_lt (by omega))

theorem be16_bytes (w : BitVec 16) : be16 (BitVec.ofNat 8 (w.toNat / 256)) (BitVec.ofNat 8 w.toNat) = w := by
  apply BitVec.eq_of_toNat_eq
  rw [be16_toNat, word_bytes16]

theorem finOf?_word {n : Nat} (hn : n ≤ 65536) (i : Fin n) : finOf? n (BitVec.ofNat 16 i.val).toNat = some i :=
  finOf?_eq_some (by rw [BitVec.toNat_ofNat]; omega)

theorem byteOf_toFin (i : Fin 256) : (byteOf i.val).toFin = i := by
  apply Fin.ext
  exact byteOf_toNat_of_lt i.isLt

theorem reportModeOf?_code (m : ReportMode) : reportModeOf? m.code = some m := reportModeOf?_some_iff.mpr rfl

theorem linkRateOf?_code (r : LinkRate) : linkRateOf? r.code = some r := by cases r <;> rfl

theorem yesNo?_yesNo (b : Bool) : yesNo? (yesNo b) = some b := by cases b <;> rfl

theorem classSetOf?_byte (k : ClassSet) : classSetOf? k.byte = some k := by
  rcases k with ⟨_ | _, _ | _, _ | _, _ | _, _ | _⟩ <;> rfl

theorem actionOf_of_code {n : Nat} {a : Action} (h : n % 4 = a.code) : actionOf n = a := by
  unfold actionOf
  rw [h]
  cases a <;> rfl

theorem Action.code_lt (a : Action) : a.code < 4 := by cases a <;> decide

/-- The four actions of an entry stand in the two-bit fields of its action byte. -/
theorem ChannelEntry.actions_fields (e : ChannelEntry) :
    actionOf e.actions.toNat = e.actTrack ∧ actionOf (e.actions.toNat / 4) = e.actLimit ∧
      actionOf (e.actions.toNat / 16) = e.actNoresp ∧ actionOf (e.actions.toNat / 64) = e.actSilence := by
  have h1 := e.actTrack.code_lt
  have h2 := e.actLimit.code_lt
  have h3 := e.actNoresp.code_lt
  have h4 := e.actSilence.code_lt
  have hbyte : e.actions.toNat = e.actTrack.code + 4 * e.actLimit.code + 16 * e.actNoresp.code + 64 * e.actSilence.code :=
    byteOf_toNat_of_lt (by omega)
  rw [hbyte]
  exact ⟨actionOf_of_code (by omega), actionOf_of_code (by omega), actionOf_of_code (by omega), actionOf_of_code (by omega)⟩

/-- The mode byte's number. -/
def ChannelEntry.modeNumber (e : ChannelEntry) : Fin 4 :=
  ⟨e.startEnabled.toNat + 2 * (e.slewShape == .eased).toNat, by cases e.startEnabled <;> cases e.slewShape <;> decide⟩

theorem ChannelEntry.modeNumber_fields (e : ChannelEntry) :
    (e.modeNumber.val % 2 == 1) = e.startEnabled ∧
      (if e.modeNumber.val / 2 = 1 then SlewShape.eased else .linear) = e.slewShape := by
  show ((e.startEnabled.toNat + 2 * (e.slewShape == .eased).toNat) % 2 == 1) = e.startEnabled ∧
    (if (e.startEnabled.toNat + 2 * (e.slewShape == .eased).toNat) / 2 = 1 then SlewShape.eased else .linear) = e.slewShape
  cases e.startEnabled <;> cases e.slewShape <;> decide

/-! ### Records -/

theorem channelEntryOf?_bytes {e : ChannelEntry} (h : e.ok = true) : channelEntryOf? e.bytes = some e := by
  have hmode : finOf? 4 (byteOf (e.startEnabled.toNat + 2 * (e.slewShape == .eased).toNat)).toNat = some e.modeNumber :=
    finOf?_byteOf (by omega) e.modeNumber
  obtain ⟨hstart, hshape⟩ := e.modeNumber_fields
  obtain ⟨htrack, hlimit, hnoresp, hsilence⟩ := e.actions_fields
  simp only [ChannelEntry.bytes, bytes16, List.cons_append, List.nil_append, channelEntryOf?, nodeOf?_nodeByte, hmode, be16_bytes,
    finOf?_byteOf (show 4 ≤ 256 by omega), finOf?_byteOf (show 8 ≤ 256 by omega), finOf?_byteOf (show 251 ≤ 256 by omega),
    finOf?_word (show 4096 ≤ 65536 by omega), reportModeOf?_code, classSetOf?_byte, byteOf_toFin, hstart, hshape, htrack, hlimit,
    hnoresp, hsilence, h, if_true, Option.bind_eq_bind, Option.bind_some]

theorem slotOf?_bytes (s : Slot) : ∃ kind contents, s.bytes = [kind, contents] ∧ slotOf? kind contents = some s := by
  cases s with
  | empty => exact ⟨0, 0, rfl, rfl⟩
  | channel c => exact ⟨1, channelByte c, rfl, by simp [slotOf?, channelOf?_channelByte]⟩
  | zero n => exact ⟨2, nodeByte n, rfl, by simp [slotOf?, nodeOf?_nodeByte]⟩

theorem slotsOf?_bytes (l : List Slot) : slotsOf? (l.flatMap Slot.bytes) = some l ∧ (l.flatMap Slot.bytes).length = 2 * l.length := by
  induction l with
  | nil => exact ⟨rfl, rfl⟩
  | cons s l ih =>
    obtain ⟨kind, contents, hb, hs⟩ := slotOf?_bytes s
    obtain ⟨hread, hlen⟩ := ih
    rw [List.flatMap_cons, hb]
    refine ⟨?_, ?_⟩
    · simp [slotsOf?, hs, hread]
    · simp only [List.length_append, List.length_cons, List.length_nil, hlen]; omega

theorem vectorOf?_toList {α : Type} {n : Nat} (v : Vector α n) : vectorOf? n v.toList = some v := by
  unfold vectorOf?
  rw [dif_pos (by simp)]
  exact congrArg some (Vector.toArray_inj.mp Array.toArray_toList)

theorem sequenceRecordOf?_bytes {r : SequenceRecord} (h : r.slotSpacing ≠ 0) : sequenceRecordOf? r.bytes = some r := by
  have hspacing : byteOf r.slotSpacing.val ≠ 0 := fun e => h (by
    rw [← byteOf_toFin r.slotSpacing, e]; rfl)
  have hmode : yesNo? (if r.mode = .cyclic then 1 else 0) = some (r.mode == .cyclic) := by cases r.mode <;> rfl
  have hread : (if r.mode == .cyclic then SeqMode.cyclic else .once) = r.mode := by cases r.mode <;> rfl
  simp only [SequenceRecord.bytes, bytes16, List.cons_append, List.nil_append, sequenceRecordOf?,
    finOf?_byteOf (show 16 ≤ 256 by omega), hmode, be16_bytes, finOf?_word (show 1001 ≤ 65536 by omega), yesNo?_yesNo,
    (slotsOf?_bytes r.slots.toList).1, vectorOf?_toList, hspacing, if_false, byteOf_toFin, hread, Option.bind_eq_bind,
    Option.bind_some]

theorem partConfigOf?_bytes {p : PartConfig} (h : p.ok = true) : partConfigOf? p.bytes = some p := by
  simp only [PartConfig.bytes, partConfigOf?, finOf?_byteOf (show 24 ≤ 256 by omega), linkRateOf?_code, byteOf_toFin, h, if_true,
    Option.bind_eq_bind, Option.bind_some]

theorem presetEntryOf?_bytes (p : PresetEntry) : presetEntryOf? p.bytes = some p := by
  simp only [PresetEntry.bytes, bytes16, List.cons_append, List.nil_append, presetEntryOf?, yesNo?_yesNo, channelOf?_channelByte,
    be16_bytes, Option.bind_eq_bind, Option.bind_some]

/-- Settles O13: each layout is read field by field, each field as it was written. -/
theorem recordsReadBack : Obligations.RecordsReadBack := by
  refine ⟨fun e => ⟨rfl, channelEntryOf?_bytes⟩, fun r => ⟨?_, sequenceRecordOf?_bytes⟩, fun n => ⟨rfl, yesNo?_yesNo n.expected⟩,
    fun p => ⟨rfl, presetEntryOf?_bytes p⟩, fun p => ⟨rfl, partConfigOf?_bytes⟩⟩
  have hslots := (slotsOf?_bytes r.slots.toList).2
  rw [Vector.length_toList] at hslots
  simp [SequenceRecord.bytes, bytes16, hslots]

/-! ### Management payloads -/

theorem commandOf_writeEntry {tag table index : Byte} {record : List Byte} {i : Instr}
    (h : writeEntryCommand tag table index record = some i) :
    commandOf ([tag, cmdWriteEntry, table, index] ++ record) = i := by
  simp [commandOf, commandOf?, h]

/-- Settles O11: the command byte, the number of arguments and the table code of each payload lead back to its command. -/
theorem payloadReadsBack : Obligations.PayloadReadsBack := by
  intro i p hwf hp
  cases i with
  | powerOn | enterRun | receiverReady | setpointFrame | mgmtFrame | badFrame | linkGapError | saveEraseEnd | saveProgramEnd
  | clearEnd | transmitEnd | grant | fieldGapExpiry | strobe | fbsyAsserted | fbsyReleased | heldTimeout | busyTimeoutExpiry
  | responseTimeoutExpiry | readingReceived | malformedReading | stepTimerExpiry | spacingTimerExpiry | cycleTimerExpiry
  | silenceTimerExpiry | presetSpacingExpiry | frxIdle => cases hp
  | readStatus | readChannel | readEntryChannel | readEntrySequence | readEntryNode | readEntryPreset | readEntryPart | enableChannel
  | disableChannel | releaseChannel | readAlarms | seqRun | seqStop | applyPreset | abortPreset | flushOutput | slewBypassOn
  | slewBypassOff | storeSave | storeClear | restart =>
    cases hp
    exact ⟨rfl, by simp⟩
  | injectReadback t c v n =>
    cases hp
    refine ⟨?_, by simp [bytes16]⟩
    show Instr.injectReadback t c (be16 _ _) n = _
    rw [be16_bytes]
  | writeEntryChannel t i r | writeEntrySequence t i r | writeEntryNode t i r | writeEntryPreset t i r | writeEntryPart t i r =>
    cases hp
    have hlen := of_decide_eq_true hwf
    exact ⟨commandOf_writeEntry (by
      simp [writeEntryCommand, hlen, tableChannel, tableSequence, tableNode, tablePreset, tablePart]), by simp [hlen]⟩
  | badCommand q =>
    cases hp
    obtain ⟨h2, h60, hc⟩ := of_decide_eq_true hwf
    exact ⟨hc, h2, h60⟩

/-! ### Frames written out -/

/-- Settles O14: the checks and the layouts are computed. -/
theorem someFramesByteByByte : Obligations.SomeFramesByteByByte := by
  refine ⟨?_, ?_, ?_, ?_, ?_, ?_, ?_, ?_, ?_, ?_, ?_, ?_, ?_⟩ <;> decide +kernel

/-- Settles O43: by the kind of the transaction. -/
theorem fieldFramesHaveTheirBytes : Obligations.FieldFramesHaveTheirBytes := by
  intro x c p code r hx
  obtain ⟨job, node, point, stale, busy, response⟩ := x
  have hpoint : job ≠ .zero → point = some p := fun hj => hx.resolve_right hj
  refine ⟨?_, ?_, ?_, ?_⟩ <;> rintro rfl
  · rw [hpoint (by simp)]; rfl
  · rw [hpoint (by simp)]; rfl
  · rw [hpoint (by simp)]; rfl
  · rfl

/-- Settles O54: a VALID zero is subtracted and the difference limited; any other leaves the raw value. -/
theorem correctedReadingIsLimited : Obligations.CorrectedReadingIsLimited := by
  intro n raw
  refine ⟨fun h => ?_, fun h => ?_⟩
  · unfold correctedReading
    split
    · next hv => exact absurd hv h
    all_goals rfl
  · unfold correctedReading
    rw [h]
    dsimp only
    split
    · next hlow => rw [max_eq_left (by omega)]; rfl
    · next hlow =>
      split
      · next hhigh => rw [min_eq_left (by omega)]; rfl
      · next hhigh =>
        rw [min_eq_right (by omega), max_eq_right (by omega), BitVec.toNat_ofInt]
        omega

/-- Settles O4: at reset every channel is OFF with its reset context, and every queue is empty. -/
theorem resetHoldsTheLaws : Obligations.ResetHoldsTheLaws := by
  have hch : ∀ c, State.reset.ch c = .reset := fun c => by simp [State.ch, State.reset]
  have huse := State.useLaw_of_reset hch
  have hdrive : State.reset.DriveLaw := by
    refine ⟨fun c => ?_, ⟨fun t h => (by cases h), fun p t h => by cases h⟩, List.nodup_nil⟩
    unfold State.ChannelLaw
    rw [hch]
    exact ContextLaw.reset (Tables.entriesOk_default c) c
  exact ⟨hdrive, huse.mapping, huse.expected, huse.silence, State.sequencerLaw_of_reset rfl rfl rfl,
    ⟨fun _ => Nat.zero_le _, Nat.zero_le _, Nat.zero_le _⟩, Nat.zero_le _, fun _ => rfl⟩

end Sys2Proof.Machine
end

