-- ==== Sys2Proof/Proofs/LinkReceive.lean ====
section
/-! PROOF. The receive side of the controller link (Section 9.1): what the checks of R160 make of a frame, and what the receiver does
with it. -/

namespace Sys2Proof.Machine

/-! ### An event that leaves the transmitter's law -/

theorem State.done_of_law {s : State} (h : s.TransmitterLaw) : s.done = .next s :=
  congrArg _ (State.beginTransmission_of_law h)

theorem State.event_of_law {s : State} {f : State → State} (h : (f s).TransmitterLaw) : s.event true f = .next (f s) :=
  State.done_of_law h

theorem RxState.takesFrames_of_ne {x : RxState} (h : x ≠ .hunt) : x.takesFrames = true := by
  cases x
  · exact absurd rfl h
  · rfl
  · rfl

/-! ### The bytes of a frame, checked as they arrive -/

/-- No check fails at the last of these bytes, and they are no complete frame. -/
def goesOn (bytes : List Byte) : Prop := checkAt bytes = none ∧ frameComplete bytes = false

theorem lenAllowed_of {kind : Byte} {n : Nat} (h : linkLengthAllowed kind n) : lenAllowed kind (byteOf n) = true := by
  rcases h with ⟨rfl, h1, h2, h3⟩ | ⟨rfl, h1, h2⟩
  · have : (byteOf n).toNat = n := byteOf_toNat_of_lt (by omega)
    simp [lenAllowed, kindSetpoint, this, h1, h2, h3]
  · have : (byteOf n).toNat = n := byteOf_toNat_of_lt (by omega)
    simp [lenAllowed, kindSetpoint, this, h1, h2]

theorem not_lenAllowed_of {kind len : Byte} (hk : kind = 0x51 ∨ kind = 0x5C) (h : ¬ linkLengthAllowed kind len.toNat) :
    lenAllowed kind len = false := by
  rw [Bool.eq_false_iff]
  intro ha
  apply h
  rcases hk with rfl | rfl
  · simp only [lenAllowed, kindSetpoint, if_true, Bool.and_eq_true, decide_eq_true_eq, beq_iff_eq] at ha
    exact Or.inl ⟨rfl, ha.1.1, ha.1.2, ha.2⟩
  · have hne : ¬ (0x5C : Byte) = kindSetpoint := by decide
    rw [lenAllowed, if_neg hne] at ha
    simp only [Bool.and_eq_true, decide_eq_true_eq] at ha
    exact Or.inr ⟨rfl, ha⟩

theorem linkLengthAllowed.kind {kind : Byte} {n : Nat} (h : linkLengthAllowed kind n) : kind = kindSetpoint ∨ kind = kindMgmt :=
  h.imp (·.1) (·.1)

theorem linkLengthAllowed.toNat {kind : Byte} {n : Nat} (h : linkLengthAllowed kind n) : (byteOf n).toNat = n :=
  byteOf_toNat_of_lt (by rcases h with h | h <;> omega)

/-- Every proper beginning of a frame with an allowed header passes the checks. -/
theorem goesOn_of_prefix {kind : Byte} {n : Nat} (h : linkLengthAllowed kind n) {l more : List Byte}
    (hp : l <+: kind :: byteOf n :: more) (hne : l ≠ []) (hlen : l.length < n + 4) : goesOn l := by
  match l, hne with
  | [k], _ =>
    obtain rfl : k = kind := (List.cons_prefix_cons.mp hp).1
    exact ⟨if_pos h.kind, rfl⟩
  | [k, len], _ =>
    obtain ⟨rfl, htail⟩ := List.cons_prefix_cons.mp hp
    obtain rfl : len = byteOf n := (List.cons_prefix_cons.mp htail).1
    refine ⟨if_pos (lenAllowed_of h), ?_⟩
    simp [frameComplete, h.toNat]; omega
  | k :: len :: b :: rest, _ =>
    obtain ⟨rfl, htail⟩ := List.cons_prefix_cons.mp hp
    obtain rfl : len = byteOf n := (List.cons_prefix_cons.mp htail).1
    have hl : (k :: byteOf n :: b :: rest).length ≠ 4 + (byteOf n).toNat := by rw [h.toNat]; omega
    exact ⟨if_neg hl, by simp only [frameComplete, beq_eq_false_iff_ne, ne_eq]; exact hl⟩

/-- A whole frame with an allowed header: its check decides. -/
theorem checkAt_whole {kind : Byte} {payload check : List Byte} (h : linkLengthAllowed kind payload.length) (hc : check.length = 2) :
    checkAt (kind :: byteOf payload.length :: payload ++ check) =
        (if check = bytes16 (crc16 (kind :: byteOf payload.length :: payload)) then none else some .check) ∧
      frameComplete (kind :: byteOf payload.length :: payload ++ check) = true := by
  have hlen : (kind :: byteOf payload.length :: payload ++ check).length = 4 + (byteOf payload.length).toNat := by
    rw [h.toNat]; simp [hc]; omega
  have hcut : 2 + (byteOf payload.length).toNat = (kind :: byteOf payload.length :: payload).length := by
    rw [h.toNat]; simp; omega
  have hmore : ∃ b rest, payload ++ check = b :: rest := by
    cases hq : payload ++ check with
    | nil => simp [List.append_eq_nil_iff] at hq; simp [hq.2] at hc
    | cons b rest => exact ⟨b, rest, rfl⟩
  obtain ⟨b, rest, hmore⟩ := hmore
  have hshape : kind :: byteOf payload.length :: payload ++ check = kind :: byteOf payload.length :: b :: rest := by
    simp [hmore]
  constructor
  · rw [hshape, checkAt, ← hshape, if_pos hlen, hcut, List.drop_left, List.take_left]
    simp
  · rw [hshape, frameComplete, ← hshape]
    simp only [beq_iff_eq]
    exact hlen

/-- A clean byte at which a check fails. -/
theorem linkVerdictFrom_fails {sofar bytes : List Byte} {b : Byte} {e : LinkError} (hb : sofar ++ [b] = bytes)
    (h : checkAt bytes = some e) (rest : List LinkByte) : linkVerdictFrom sofar (⟨b, true⟩ :: rest) = .failed e := by
  subst hb
  simp only [linkVerdictFrom, h]

/-- A clean byte that ends a frame. -/
theorem linkVerdictFrom_ends {sofar bytes : List Byte} {b : Byte} (hb : sofar ++ [b] = bytes) (h : checkAt bytes = none)
    (hc : frameComplete bytes = true) (rest : List LinkByte) :
    linkVerdictFrom sofar (⟨b, true⟩ :: rest) = .accepted (bytes.headD 0) ((bytes.drop 2).take (bytes.length - 4)) := by
  subst hb
  simp only [linkVerdictFrom, h, hc, if_true]

/-- Clean bytes that go on are taken one after the other. -/
theorem linkVerdictFrom_clean (rest : List LinkByte) : ∀ (bytes sofar : List Byte),
    (∀ l, l <+: sofar ++ bytes → sofar.length < l.length → goesOn l) →
    linkVerdictFrom sofar (cleanLinkBytes bytes ++ rest) = linkVerdictFrom (sofar ++ bytes) rest
  | [], sofar, _ => by simp [cleanLinkBytes]
  | b :: bytes, sofar, h => by
    obtain ⟨hcheck, hframe⟩ : goesOn (sofar ++ [b]) := h _ (by simp) (by simp)
    have ih := linkVerdictFrom_clean rest bytes (sofar ++ [b]) fun l hl hlen =>
      h l (by simpa using hl) (by simp at hlen; omega)
    simp only [cleanLinkBytes, List.map_cons, List.cons_append, linkVerdictFrom, hcheck, hframe, if_neg Bool.false_ne_true]
    simpa [cleanLinkBytes] using ih

/-- The beginning of a frame with an allowed header, received cleanly. -/
theorem linkVerdict_beginning {kind : Byte} {n : Nat} (h : linkLengthAllowed kind n) {bytes more : List Byte}
    (hp : bytes <+: kind :: byteOf n :: more) (hlen : bytes.length < n + 4) (rest : List LinkByte) :
    linkVerdict (cleanLinkBytes bytes ++ rest) = linkVerdictFrom bytes rest := by
  refine linkVerdictFrom_clean rest bytes [] fun l hl hne => ?_
  rw [List.nil_append] at hl
  exact goesOn_of_prefix h (hl.trans hp) (List.ne_nil_of_length_pos hne) (lt_of_le_of_lt hl.length_le hlen)

theorem cleanLinkBytes_append (a b : List Byte) : cleanLinkBytes (a ++ b) = cleanLinkBytes a ++ cleanLinkBytes b :=
  List.map_append

/-- The last byte of a whole frame, received cleanly. -/
theorem linkVerdict_whole {kind : Byte} {payload : List Byte} {hi lo : Byte} (h : linkLengthAllowed kind payload.length)
    (rest : List LinkByte) :
    linkVerdict (cleanLinkBytes (kind :: byteOf payload.length :: payload ++ [hi, lo]) ++ rest) =
      if [hi, lo] = bytes16 (crc16 (kind :: byteOf payload.length :: payload)) then .accepted kind payload else .failed .check := by
  obtain ⟨hcheck, hframe⟩ := checkAt_whole (check := [hi, lo]) h rfl
  have hcut : kind :: byteOf payload.length :: payload ++ [hi, lo] = (kind :: byteOf payload.length :: payload ++ [hi]) ++ [lo] := by
    simp
  rw [hcut, cleanLinkBytes_append, List.append_assoc, linkVerdict_beginning h (more := payload ++ [hi]) (by simp) (by simp)]
  split
  · next hgood =>
    refine (linkVerdictFrom_ends hcut.symm (hcheck.trans (if_pos hgood)) hframe rest).trans ?_
    simp
  · next hbad => exact linkVerdictFrom_fails hcut.symm (hcheck.trans (if_neg hbad)) rest

/-- The bytes of a good frame before a bad stop bit. -/
theorem linkVerdict_badStop {kind b : Byte} {payload before after : List Byte} (h : linkLengthAllowed kind payload.length)
    (hf : linkFrame kind payload = before ++ b :: after) (rest : List LinkByte) :
    linkVerdict (cleanLinkBytes before ++ ⟨b, false⟩ :: rest) = .failed .byteFraming := by
  have hlen : (linkFrame kind payload).length = payload.length + 4 := by simp [linkFrame, bytes16]
  have hlen' : before.length + (after.length + 1) = payload.length + 4 := by
    rw [← hlen, hf]; simp
  have hp : before ++ [b] <+: linkFrame kind payload := ⟨after, by rw [hf]; simp⟩
  have hnone : checkAt (before ++ [b]) = none := by
    rcases Nat.lt_or_ge (before ++ [b]).length (payload.length + 4) with hlt | hge
    · exact (goesOn_of_prefix (more := payload ++ bytes16 _) h hp (by simp) hlt).1
    · rw [hp.eq_of_length_le (by omega)]
      exact (checkAt_whole h rfl).1.trans (if_pos rfl)
  rw [linkVerdict_beginning (more := payload ++ bytes16 _) h ((List.prefix_append before [b]).trans hp) (by omega)]
  simp only [linkVerdictFrom, hnone]

/-! ### The frames of the field bus -/

theorem yesNo_beq_one (b : Bool) : (yesNo b == 1) = b := by cases b <;> rfl

theorem readingVerdict_receivedReading (r : Reading) : readingVerdict (receivedReading r) = .valid r := by
  have hread : be16 (BitVec.ofNat 8 (r.value.toNat / 256)) (BitVec.setWidth 8 r.value) = r.value := by
    rw [← BitVec.ofNat_toNat, be16_bytes]
  have hflag : (yesNo r.measureFail == 1#8) = r.measureFail := yesNo_beq_one _
  simp [readingVerdict, receivedReading, readingFrame, fieldFrame, bytes16, cleanFieldBytes, readingVerdictFrom, malformedAt,
    readingOf, idleFirst, yesNo?_yesNo, hread, hflag]

/-- Settles O12: a clean frame goes on up to its last byte, where the check matches; the seven bytes of a reading are read back. -/
theorem goodFramesReadBack : Obligations.GoodFramesReadBack := by
  refine ⟨fun kind payload h => ?_, readingVerdict_receivedReading⟩
  exact (congrArg linkVerdict (List.append_nil _).symm).trans ((linkVerdict_whole h []).trans (if_pos rfl))

/-! ### What the receiver does -/

theorem LinkError.or_bit (e : LinkError) {l : Byte} (h : l &&& e.bit ≠ 0) : l ||| e.bit = l := by
  have : ∀ l : Byte, l &&& e.bit ≠ 0 → l ||| e.bit = l := by cases e <;> decide
  exact this l h

/-- A receive error as a whole (R159 to R161). -/
theorem State.linkError_next {s : State} (h : s.TransmitterLaw) (e : LinkError) : ∃ t, (s.linkError e).done = .next t ∧
    t.mgx = s.mgx ∧ t.clp.rx = .hunt ∧ t.clp.linkErrors = s.clp.linkErrors ||| e.bit ∧
    t.outgoing = s.clp.tx.toList ++ (if s.clp.linkErrors &&& e.bit = 0 then partPlaced s.rq .linkError else s.rq) ∧
    s.OnlyReports { t with clp := { t.clp with rx := s.clp.rx, linkErrors := s.clp.linkErrors } } := by
  refine ⟨_, rfl, ?_⟩
  have hout := (s.linkError e).beginTransmission_outgoing
  have honly := (s.linkError e).beginTransmission_onlyReports
  generalize (s.linkError e).beginTransmission = t at hout honly
  unfold State.linkError at hout honly
  dsimp only at hout honly
  by_cases hnew : s.clp.linkErrors &&& e.bit = 0
  · rw [if_pos (by exact hnew)] at hout honly ⊢
    have hlaw : TransmitterLaw ((s.setClp { s.clp with rx := .hunt }).setClp
      { s.clp with rx := .hunt, linkErrors := s.clp.linkErrors ||| e.bit }) := h
    have k := (State.offerPart_onlyReports _ _).trans honly
    exact ⟨k.units.2.2.1, k.link.1, k.link.2.1, hout.trans (State.offerPart_outgoing hlaw _),
      ⟨⟨rfl, rfl, k.link.2.2⟩, k.tables, k.channels, k.field, k.units, k.waiting, k.pairs⟩⟩
  · rw [if_neg (by exact hnew)] at hout honly ⊢
    exact ⟨honly.units.2.2.1, honly.link.1, honly.link.2.1.trans (e.or_bit hnew).symm, hout,
      ⟨⟨rfl, rfl, honly.link.2.2⟩, honly.tables, honly.channels, honly.field, honly.units, honly.waiting, honly.pairs⟩⟩

/-- Settles O15: by the kind of the event, and by the place of the first failing byte. -/
theorem receiverHuntsAfterAnError : Obligations.ReceiverHuntsAfterAnError := by
  refine ⟨fun s h hrx => ?_, fun i e s h hrx hi => ?_, fun kind rest h1 h2 => ?_, fun kind len rest hk hl => ?_,
    fun kind hi lo payload rest hl hc => ?_, fun kind b payload before after rest hl hf => linkVerdict_badStop hl hf rest⟩
  · show s.event (s.clp.rx == .hunt) State.rxReady = _
    rw [hrx]
    exact State.event_of_law (f := State.rxReady) h
  · have hnext := State.linkError_next h e
    obtain ⟨t, ht, -, hrest⟩ := hnext
    refine ⟨t, ht ▸ ?_, hrest⟩
    rcases hi with ⟨received, rfl, hv⟩ | ⟨rfl, rfl⟩
    · show execBadFrame received s = _
      rw [execBadFrame, RxState.takesFrames_of_ne hrx, hv]
    · show execLinkGapError s = _
      unfold execLinkGapError
      rw [RxState.takesFrames_of_ne hrx]
      rfl
  · have : ¬ (kind = kindSetpoint ∨ kind = kindMgmt) := not_or.mpr ⟨h1, h2⟩
    simp [linkVerdict, linkVerdictFrom, checkAt, this]
  · have hk' : kind = kindSetpoint ∨ kind = kindMgmt := hk
    simp [linkVerdict, linkVerdictFrom, checkAt, frameComplete, hk', not_lenAllowed_of hk hl]
  · exact (linkVerdict_whole hl rest).trans (if_neg hc)

/-- Settles O16: a frame joins a queue with room, and overruns a full one. -/
theorem mgmtFrameQueuesOrOverruns : Obligations.MgmtFrameQueuesOrOverruns := by
  intro p s h h2 h60 hrx
  have hdue : (s.clp.rx.takesFrames && (Instr.mgmtFrame p).wf) = true := by
    rw [RxState.takesFrames_of_ne hrx, Bool.true_and]
    exact decide_eq_true ⟨h2, h60⟩
  have hexec : exec (.mgmtFrame p) s = (s.rxReady.queueFrame p).done := by
    show execMgmtFrame p s = _
    unfold execMgmtFrame
    rw [hdue]; rfl
  refine ⟨fun hroom => ?_, fun hfull => ?_⟩
  · rw [hexec, State.queueFrame, if_pos (by exact hroom)]
    exact State.done_of_law (s := s.rxReady.setMgx { s.mgx with queue := s.mgx.queue ++ [p] }) h
  · rw [hexec, State.queueFrame, if_neg (show ¬ s.rxReady.mgx.queue.length < 4 from Nat.not_lt.mpr hfull)]
    exact State.linkError_next h .overrun

end Sys2Proof.Machine
end

