-- ==== Sys2Proof/Proofs/TableWrites.lean ====
section
/-! PROOF. WRITE_ENTRY of the sequence record, a node, a preset and the part config (R87, R100, R148, R170, R171): a record reads exactly
when it passes its value checks, and then it is the layout of what is read. -/

namespace Sys2Proof.Machine

/-! ### Reading back -/

theorem yesNo?_some {b : Byte} {x : Bool} (h : yesNo? b = some x) : yesNo x = b ∧ b.toNat ≤ 1 := by
  unfold yesNo? at h
  split at h
  · next h0 => cases h; subst h0; decide
  · split at h
    · next h1 => cases h; subst h1; decide
    · cases h

theorem yesNo?_of_le {b : Byte} (h : b.toNat ≤ 1) : ∃ x, yesNo? b = some x := by
  have : ∀ b : Byte, b.toNat ≤ 1 → (yesNo? b).isSome = true := by decide
  exact Option.isSome_iff_exists.mp (this b h)

theorem finOf?_le {n x : Nat} {i : Fin (n + 1)} (h : finOf? (n + 1) x = some i) : x ≤ n := by
  rw [finOf?_some_iff.mp h]
  exact Nat.le_of_lt_succ i.isLt

theorem vectorOf?_some {α : Type} {n : Nat} {l : List α} {v : Vector α n} (h : vectorOf? n l = some v) : v.toList = l := by
  unfold vectorOf? at h
  split at h
  · cases h; simp
  · cases h

theorem vectorOf?_of_length {α : Type} {n : Nat} {l : List α} (h : l.length = n) : ∃ v, vectorOf? n l = some v :=
  ⟨_, dif_pos h⟩

/-! ### Slots -/

/-- The two numbers code a slot (R86, R87). -/
def slotCoded (kind contents : Nat) : Prop :=
  (kind = 0 ∧ contents = 0) ∨ (kind = 1 ∧ contents ≤ 23) ∨ (kind = 2 ∧ 1 ≤ contents ∧ contents ≤ 30)

theorem slotValid_iff (r : List Byte) (k : Nat) : slotValid r k ↔ slotCoded (byteAt r (7 + 2 * k)) (byteAt r (8 + 2 * k)) := Iff.rfl

theorem channelOf?_some {b : Byte} {c : ChannelNo} (h : channelOf? b = some c) : channelByte c = b ∧ b.toNat ≤ 23 :=
  ⟨byteOf_of_finOf? h, finOf?_le h⟩

theorem slotOf?_some {kind contents : Byte} {s : Slot} (h : slotOf? kind contents = some s) :
    s.bytes = [kind, contents] ∧ slotCoded kind.toNat contents.toNat := by
  unfold slotOf? at h
  split at h
  · next hk =>
    obtain ⟨hc, hs⟩ := Option.ite_none_right_eq_some.mp h
    cases hs
    subst hk hc
    exact ⟨rfl, Or.inl ⟨rfl, rfl⟩⟩
  · split at h
    · next hk =>
      obtain ⟨c, hc, rfl⟩ := Option.map_eq_some_iff.mp h
      obtain ⟨hbyte, hle⟩ := channelOf?_some hc
      subst hk
      exact ⟨by rw [Slot.bytes, hbyte], Or.inr (Or.inl ⟨rfl, hle⟩)⟩
    · split at h
      · next hk =>
        obtain ⟨n, hn, rfl⟩ := Option.map_eq_some_iff.mp h
        subst hk
        exact ⟨by rw [Slot.bytes, nodeByte_of_nodeOf? hn], Or.inr (Or.inr ⟨rfl, exists_nodeOf?_iff.mp ⟨n, hn⟩⟩)⟩
      · cases h

theorem slotOf?_of_coded {kind contents : Byte} (h : slotCoded kind.toNat contents.toNat) : ∃ s, slotOf? kind contents = some s := by
  unfold slotOf?
  rcases h with ⟨hk, hc⟩ | ⟨hk, hc⟩ | ⟨hk, hc⟩
  · obtain rfl : kind = 0 := BitVec.eq_of_toNat_eq hk
    obtain rfl : contents = 0 := BitVec.eq_of_toNat_eq hc
    exact ⟨_, rfl⟩
  · obtain rfl : kind = 1 := BitVec.eq_of_toNat_eq hk
    have : channelOf? contents = some ⟨contents.toNat, by omega⟩ := channelOf?_eq_some rfl
    exact ⟨_, by rw [if_neg (by decide), if_pos rfl, this]; rfl⟩
  · obtain rfl : kind = 2 := BitVec.eq_of_toNat_eq hk
    obtain ⟨n, hn⟩ := exists_nodeOf?_iff.mpr hc
    exact ⟨_, by rw [if_neg (by decide), if_neg (by decide), if_pos rfl, hn]; rfl⟩

theorem slotsOf?_some : ∀ {l : List Byte} {ss : List Slot}, slotsOf? l = some ss →
    ss.flatMap Slot.bytes = l ∧ ∀ k, 2 * k < l.length → slotCoded (byteAt l (2 * k)) (byteAt l (2 * k + 1))
  | [], ss, h => by cases h; exact ⟨rfl, fun k hk => absurd hk (Nat.not_lt_zero _)⟩
  | [_], ss, h => by cases h
  | kind :: contents :: rest, ss, h => by
    obtain ⟨s, hs, h⟩ := Option.bind_eq_some_iff.mp h
    obtain ⟨more, hmore, h⟩ := Option.bind_eq_some_iff.mp h
    cases h
    obtain ⟨hbytes, hcoded⟩ := slotOf?_some hs
    obtain ⟨hrest, hcodeds⟩ := slotsOf?_some hmore
    refine ⟨by rw [List.flatMap_cons, hbytes, hrest]; rfl, fun k hk => ?_⟩
    cases k with
    | zero => exact hcoded
    | succ k => exact hcodeds k (by simp at hk; omega)

theorem slotsOf?_of_coded : ∀ (n : Nat) {l : List Byte}, l.length = 2 * n →
    (∀ k, k < n → slotCoded (byteAt l (2 * k)) (byteAt l (2 * k + 1))) → ∃ ss, slotsOf? l = some ss ∧ ss.length = n
  | 0, l, hl, _ => by
    obtain rfl := List.length_eq_zero_iff.mp hl
    exact ⟨[], rfl, rfl⟩
  | n + 1, l, hl, h => by
    match l, hl with
    | kind :: contents :: rest, hl =>
      obtain ⟨s, hs⟩ := slotOf?_of_coded (kind := kind) (contents := contents) (h 0 (Nat.succ_pos n))
      obtain ⟨more, hmore, hlen⟩ := slotsOf?_of_coded n (l := rest) (by simp at hl; omega) fun k hk => h (k + 1) (by omega)
      exact ⟨s :: more, by simp [slotsOf?, hs, hmore], by simp [hlen]⟩

/-! ### The sequence record -/

/-- A sequence record read from 39 bytes has them as its layout, and they pass the value checks. -/
theorem sequenceRecordOf?_some {r : List Byte} {e : SequenceRecord} (hlen : r.length = 39) (h : sequenceRecordOf? r = some e) :
    e.bytes = r ∧ sequenceRecordValid r := by
  match r, hlen with
  | b0 :: b1 :: b2 :: b3 :: b4 :: b5 :: b6 :: rest, hlen =>
    obtain ⟨startIndex, hstart, h⟩ := Option.bind_eq_some_iff.mp h
    obtain ⟨stopIndex, hstop, h⟩ := Option.bind_eq_some_iff.mp h
    obtain ⟨cyclic, hcyclic, h⟩ := Option.bind_eq_some_iff.mp h
    obtain ⟨cyclePeriod, hperiod, h⟩ := Option.bind_eq_some_iff.mp h
    obtain ⟨autostart, hauto, h⟩ := Option.bind_eq_some_iff.mp h
    obtain ⟨list, hlist, h⟩ := Option.bind_eq_some_iff.mp h
    obtain ⟨slots, hslots, h⟩ := Option.bind_eq_some_iff.mp h
    obtain ⟨hspacing, h⟩ := Option.ite_none_left_eq_some.mp h
    cases h
    obtain ⟨hmode, hmode1⟩ := yesNo?_some hcyclic
    obtain ⟨hauto', hauto1⟩ := yesNo?_some hauto
    obtain ⟨hbytes, hcoded⟩ := slotsOf?_some hlist
    have hspacing0 : b3.toNat ≠ 0 := fun h0 => hspacing (BitVec.eq_of_toNat_eq h0)
    have hmode' : (if (if cyclic = true then SeqMode.cyclic else .once) = .cyclic then 1 else 0) = b2 := by
      rw [← hmode]; cases cyclic <;> rfl
    refine ⟨?_, finOf?_le hstart, finOf?_le hstop, hmode1, Nat.one_le_iff_ne_zero.mpr hspacing0, ?_, hauto1, fun k hk => ?_⟩
    · have hb3 : byteOf b3.toFin.val = b3 := byteOf_toNat b3
      simp only [SequenceRecord.bytes, byteOf_of_finOf? hstart, byteOf_of_finOf? hstop, bytes16_of_finOf? hperiod, hauto',
        vectorOf?_some hslots, hbytes, hmode', hb3]
      rfl
    · exact (be16_toNat b4 b5).symm.trans_le (finOf?_le hperiod)
    · have := hcoded k (by simp at hlen; omega)
      rw [slotValid_iff, Nat.add_comm 7, Nat.add_comm 8]
      exact this

theorem sequenceRecordOf?_eq_none {r : List Byte} (hlen : r.length = 39) (hv : ¬ sequenceRecordValid r) : sequenceRecordOf? r = none :=
  Option.eq_none_iff_forall_ne_some.mpr fun _ he => hv (sequenceRecordOf?_some hlen he).2

theorem sequenceRecordOf?_eq_some {r : List Byte} (hlen : r.length = 39) (hv : sequenceRecordValid r) :
    ∃ e : SequenceRecord, e.bytes = r ∧ sequenceRecordOf? r = some e := by
  suffices ∃ e, sequenceRecordOf? r = some e by
    obtain ⟨e, he⟩ := this
    exact ⟨e, (sequenceRecordOf?_some hlen he).1, he⟩
  match r, hlen with
  | b0 :: b1 :: b2 :: b3 :: b4 :: b5 :: b6 :: rest, hlen =>
    obtain ⟨hstart, hstop, hmode, hspacing, hperiod, hauto, hslots⟩ := hv
    obtain ⟨cyclic, hcyclic⟩ := yesNo?_of_le (b := b2) hmode
    obtain ⟨autostart, hautostart⟩ := yesNo?_of_le (b := b6) hauto
    obtain ⟨list, hlist, hcount⟩ := slotsOf?_of_coded 16 (l := rest) (by simp at hlen; omega) fun k hk => by
      have := hslots k hk
      rw [slotValid_iff, Nat.add_comm 7, Nat.add_comm 8] at this
      exact this
    obtain ⟨slots, hvec⟩ := vectorOf?_of_length hcount
    have hspacing0 : b3 ≠ 0 := fun h0 => by subst h0; exact absurd (show 1 ≤ (0 : Byte).toNat from hspacing) (by decide)
    have hperiod' : (be16 b4 b5).toNat ≤ 1000 := be16_toNat b4 b5 ▸ hperiod
    simp only [sequenceRecordOf?, finOf?_of_le (show b0.toNat ≤ 15 from hstart), finOf?_of_le (show b1.toNat ≤ 15 from hstop), hcyclic,
      finOf?_of_le hperiod', hautostart, hlist, hvec, hspacing0, if_false, Option.bind_eq_bind, Option.bind_some]
    exact ⟨_, rfl⟩

/-! ### The preset entry -/

theorem presetEntryOf?_some {r : List Byte} {e : PresetEntry} (h : presetEntryOf? r = some e) :
    e.bytes = r ∧ presetRecordValid r := by
  unfold presetEntryOf? at h
  split at h
  · obtain ⟨valid, hvalid, h⟩ := Option.bind_eq_some_iff.mp h
    obtain ⟨c, hc, h⟩ := Option.bind_eq_some_iff.mp h
    cases h
    obtain ⟨hv, hle⟩ := yesNo?_some hvalid
    obtain ⟨hb, hle'⟩ := channelOf?_some hc
    exact ⟨by rw [PresetEntry.bytes, hv, hb, bytes16_be16]; rfl, hle, hle'⟩
  · cases h

theorem presetEntryOf?_eq_none {r : List Byte} (hv : ¬ presetRecordValid r) : presetEntryOf? r = none :=
  Option.eq_none_iff_forall_ne_some.mpr fun _ he => hv (presetEntryOf?_some he).2

theorem presetEntryOf?_eq_some {r : List Byte} (hlen : r.length = 4) (hv : presetRecordValid r) :
    ∃ e : PresetEntry, e.bytes = r ∧ presetEntryOf? r = some e := by
  suffices ∃ e, presetEntryOf? r = some e by
    obtain ⟨e, he⟩ := this
    exact ⟨e, (presetEntryOf?_some he).1, he⟩
  match r, hlen with
  | [b0, b1, b2, b3], _ =>
    obtain ⟨valid, hvalid⟩ := yesNo?_of_le (b := b0) hv.1
    have hc : channelOf? b1 = _ := finOf?_of_le (show b1.toNat ≤ 23 from hv.2)
    simp only [presetEntryOf?, hvalid, hc, Option.bind_eq_bind, Option.bind_some]
    exact ⟨_, rfl⟩

/-! ### The part config record -/

theorem linkRateOf?_some {b : Byte} {x : LinkRate} (h : linkRateOf? b = some x) : x.code = b ∧ b.toNat ≤ 4 := by
  have : ∀ b : Byte, (linkRateOf? b).all (fun x => x.code = b ∧ b.toNat ≤ 4) = true := by decide
  have hb := this b
  rw [h] at hb
  exact of_decide_eq_true hb

theorem linkRateOf?_of_le {b : Byte} (h : b.toNat ≤ 4) : ∃ x, linkRateOf? b = some x := by
  have : ∀ b : Byte, b.toNat ≤ 4 → (linkRateOf? b).isSome = true := by decide
  exact Option.isSome_iff_exists.mp (this b h)

theorem PartConfig.ok_iff {p : PartConfig} : p.ok = true ↔
    4 ≤ p.highWater.val ∧ 5 ≤ p.fieldGap.val ∧ p.busyTimeout ≠ 0 ∧ p.responseTimeout ≠ 0 := by
  simp [PartConfig.ok, and_assoc]

theorem one_le_iff_toFin_ne_zero {b : Byte} : 1 ≤ b.toNat ↔ b.toFin ≠ 0 := by
  rw [Nat.one_le_iff_ne_zero]
  exact not_congr ⟨fun h => Fin.ext h, fun h => congrArg Fin.val h⟩

theorem partConfigOf?_some {r : List Byte} {e : PartConfig} (h : partConfigOf? r = some e) : e.bytes = r ∧ configRecordValid r := by
  unfold partConfigOf? at h
  split at h
  · next b0 b1 b2 b3 b4 b5 b6 =>
    obtain ⟨highWater, hwater, h⟩ := Option.bind_eq_some_iff.mp h
    obtain ⟨linkRate, hrate, h⟩ := Option.bind_eq_some_iff.mp h
    obtain ⟨hok, h⟩ := Option.ite_none_right_eq_some.mp h
    cases h
    obtain ⟨hw, hg, hb, hr⟩ := PartConfig.ok_iff.mp hok
    obtain ⟨hcode, hle⟩ := linkRateOf?_some hrate
    have hfin : ∀ b : Byte, byteOf b.toFin.val = b := byteOf_toNat
    refine ⟨?_, ⟨(show 4 ≤ b1.toNat by rw [finOf?_some_iff.mp hwater]; exact hw), finOf?_le hwater⟩, hg, one_le_iff_toFin_ne_zero.mpr hb,
      one_le_iff_toFin_ne_zero.mpr hr, hle⟩
    simp only [PartConfig.bytes, byteOf_of_finOf? hwater, hcode, hfin]
  · cases h

theorem partConfigOf?_eq_none {r : List Byte} (hv : ¬ configRecordValid r) : partConfigOf? r = none :=
  Option.eq_none_iff_forall_ne_some.mpr fun _ he => hv (partConfigOf?_some he).2

theorem partConfigOf?_eq_some {r : List Byte} (hlen : r.length = 7) (hv : configRecordValid r) :
    ∃ e : PartConfig, e.bytes = r ∧ partConfigOf? r = some e := by
  suffices ∃ e, partConfigOf? r = some e by
    obtain ⟨e, he⟩ := this
    exact ⟨e, (partConfigOf?_some he).1, he⟩
  match r, hlen with
  | [b0, b1, b2, b3, b4, b5, b6], _ =>
    obtain ⟨⟨hw, hw'⟩, hg, hb, hr, hle⟩ := hv
    obtain ⟨x, hx⟩ := linkRateOf?_of_le (b := b5) hle
    simp only [partConfigOf?, finOf?_of_le (show b1.toNat ≤ 23 from hw'), hx, Option.bind_eq_bind, Option.bind_some]
    exact ⟨_, if_pos (PartConfig.ok_iff.mpr ⟨hw, hg, one_le_iff_toFin_ne_zero.mp hb, one_le_iff_toFin_ne_zero.mp hr⟩)⟩

/-! ### The four commands -/

@[simp] theorem State.withFrames_psq (s : State) (q : List (List Byte)) : (s.withFrames q).psq = s.psq := rfl
@[simp] theorem State.withFrames_pru (s : State) (q : List (List Byte)) : (s.withFrames q).pru = s.pru := rfl
@[simp] theorem State.withFrames_entry (s : State) (q : List (List Byte)) (c : ChannelNo) : (s.withFrames q).entry c = s.entry c := rfl
@[simp] theorem State.withFrames_node (s : State) (q : List (List Byte)) (n : Node) : (s.withFrames q).node n = s.node n := rfl
@[simp] theorem State.withFrames_nodeInUse (s : State) (q : List (List Byte)) (n : Node) :
    (s.withFrames q).nodeInUse n = s.nodeInUse n := rfl

/-- Settles O26: each check that fails ends the command with its own completion; the record that passes them all is stored. -/
theorem writeEntryTablesCheckInOrder : Obligations.WriteEntryTablesCheckInOrder := by
  refine ⟨fun tag index record rest s hlaw hlen htakes => ?sequence, fun tag index record rest s hlaw hlen htakes => ?node,
    fun tag index record rest s hlaw hlen htakes => ?preset⟩
  case sequence =>
    show _ ∧ _
    have hexec : exec (.writeEntrySequence tag index record) s = execWriteEntrySequence tag index record s := rfl
    rw [hexec]
    unfold execWriteEntrySequence
    refine ⟨fun hindex => ?_, fun h0 hsaving => ?_, fun h0 hsaving hstate => ?_, fun h0 hsaving hidle hv => ?_,
      fun h0 hsaving hidle hv => ?_⟩
    · exact State.takeCommand_respond htakes hlaw (by rw [if_pos hindex]; rfl)
    · exact State.takeCommand_respond htakes hlaw (by simp [h0, hsaving, cmdWriteEntry])
    · exact State.takeCommand_respond htakes hlaw (by simp [h0, hsaving, hstate, cmdWriteEntry])
    · have hnone := sequenceRecordOf?_eq_none hlen hv
      exact State.takeCommand_respond htakes hlaw (by simp [h0, hsaving, hidle, hnone, cmdWriteEntry])
    · obtain ⟨r, hbytes, hr⟩ := sequenceRecordOf?_eq_some hlen hv
      exact ⟨r, hbytes, State.takeCommand_respond_of (u := (s.withFrames rest).setPsq { s.psq with record := r }) htakes hlaw
        (by simp [h0, hsaving, hidle, hr, State.respond, cmdWriteEntry]) rfl rfl⟩
  case node =>
    have hexec : exec (.writeEntryNode tag index record) s = execWriteEntryNode tag index record s := rfl
    rw [hexec]
    unfold execWriteEntryNode
    have hread : ∀ b : Bool, byteAt record 0 = b.toNat → expectedOf? record = some b := by
      intro b hb
      match record, hlen with
      | b0 :: _, _ =>
        have : b0 = yesNo b := BitVec.eq_of_toNat_eq ((show b0.toNat = b.toNat from hb).trans (by cases b <;> rfl))
        rw [expectedOf?, this, yesNo?_yesNo]
    have hinUse : ∀ n, (∀ c, (s.ch c).drive ≠ .off → (s.entry c).node ≠ n) → s.nodeInUse n = false := fun n h => by
      rw [Bool.eq_false_iff]
      intro hu
      obtain ⟨c, hd, hn⟩ := (s.nodeInUse_iff n).mp hu
      exact h c hd hn
    refine ⟨fun hindex => ?_, fun n hn => ⟨fun hsaving => ?_, fun hsaving hb => ?_, fun hsaving hb hu => ?_,
      fun hsaving hb hu => ?_, fun hsaving hb => ?_⟩⟩
    · exact State.takeCommand_respond htakes hlaw (by rw [nodeOf?_eq_none hindex]; rfl)
    all_goals have hnode := nodeOf?_eq_some hn
    · exact State.takeCommand_respond htakes hlaw (by simp [hnode, hsaving, cmdWriteEntry])
    · have hnone : expectedOf? record = none := by
        match record, hlen with
        | b0 :: _, _ => exact Option.eq_none_iff_forall_ne_some.mpr fun x hx => absurd (yesNo?_some hx).2 (Nat.not_le.mpr hb)
      exact State.takeCommand_respond htakes hlaw (by simp [hnode, hsaving, hnone, cmdWriteEntry])
    · have hused : s.nodeInUse n = true := (s.nodeInUse_iff n).mpr hu
      exact State.takeCommand_respond htakes hlaw (by simp [hnode, hsaving, hread false hb, hused, cmdWriteEntry])
    · exact State.takeCommand_respond_of (u := (s.withFrames rest).modNode n fun r => { r with expected := false }) htakes hlaw
        (by simp [hnode, hsaving, hread false hb, hinUse n hu, State.respond, cmdWriteEntry]) rfl rfl
    · exact State.takeCommand_respond_of (u := (s.withFrames rest).modNode n fun r => { r with expected := true }) htakes hlaw
        (by simp [hnode, hsaving, hread true hb, State.respond, cmdWriteEntry]) rfl rfl
  case preset =>
    have hexec : exec (.writeEntryPreset tag index record) s = execWriteEntryPreset tag index record s := rfl
    rw [hexec]
    unfold execWriteEntryPreset
    refine ⟨fun hindex => ?_, fun k hk => ⟨fun hsaving => ?_, fun hsaving happlying => ?_, fun hsaving hidle hv => ?_,
      fun hsaving hidle hv => ?_⟩⟩
    · exact State.takeCommand_respond htakes hlaw (by rw [presetOf?_eq_none hindex]; rfl)
    all_goals have hpreset := presetOf?_eq_some hk
    · exact State.takeCommand_respond htakes hlaw (by simp [hpreset, hsaving, cmdWriteEntry])
    · exact State.takeCommand_respond htakes hlaw (by simp [hpreset, hsaving, happlying, cmdWriteEntry])
    · have hnone := presetEntryOf?_eq_none hv
      exact State.takeCommand_respond htakes hlaw (by simp [hpreset, hsaving, hidle, hnone, cmdWriteEntry])
    · obtain ⟨p, hbytes, hp⟩ := presetEntryOf?_eq_some hlen hv
      exact ⟨p, hbytes, State.takeCommand_respond_of
        (u := (s.withFrames rest).setPru { s.pru with list := s.pru.list.set k.val p }) htakes hlaw
        (by simp [hpreset, hsaving, hidle, hp, State.respond, cmdWriteEntry]) rfl rfl⟩

/-! ### The part config -/

theorem State.silenceStart_run {s : State} (h : s.mgx.mode = .run) : s.silenceStart =
    if s.mgx.config.silenceTimeout = 0 then .stopped else .running (s.mgx.config.silenceTimeout.val * 10000) := by
  unfold State.silenceStart
  by_cases h0 : s.mgx.config.silenceTimeout = 0 <;> simp [h, h0]

/-- A part config write that does not end the silence (R144). -/
theorem State.writeConfig_eq {s : State} {p : PartConfig} (hrun : s.mgx.mode = .run)
    (h : s.act.state = .quiet ∨ p.silenceTimeout ≠ 0 ∨ s.mgx.config.silenceTimeout = 0) :
    s.writeConfig p = { s with
      mgx := { s.mgx with config := p }
      act := if p.silenceTimeout = s.mgx.config.silenceTimeout ∨ s.act.state = .silent then s.act
        else ⟨.quiet, if p.silenceTimeout = 0 then .stopped else .running (p.silenceTimeout.val * 10000)⟩ } := by
  unfold State.writeConfig
  by_cases hsame : p.silenceTimeout = s.mgx.config.silenceTimeout
  · simp [hsame, State.setMgx]
  · simp only [hsame, if_false, false_or]
    cases hact : s.act.state with
    | quiet =>
      have hstart := State.silenceStart_run (s := s.setMgx { s.mgx with config := p }) hrun
      simp only [State.silenceTimeoutWritten, State.act_setMgx, hact, hstart]
      rfl
    | silent =>
      have hp : p.silenceTimeout ≠ 0 := by
        rcases h with h | h | h
        · rw [h] at hact; cases hact
        · exact h
        · exact fun h0 => hsame (h0.trans h.symm)
      simp only [State.silenceTimeoutWritten, State.act_setMgx, hact, State.mgx_setMgx, hp, if_false]
      rfl

theorem byteAt_silenceTimeout (p : PartConfig) : byteAt p.bytes 0 = p.silenceTimeout.val :=
  byteOf_toNat_of_lt p.silenceTimeout.isLt

/-- The RESPONSE's end while no switch of the rate is pending. -/
theorem State.rateAtEnd_eq {s : State} (h : s.switchPending = false) (rate : LinkRate) :
    s.rateAtEnd rate = if rate = s.clp.rate then .nothing else .switchRate rate := by
  simp [State.rateAtEnd, h]

/-- Settles O27: the checks in their order, and the record that passes them all takes the place of the old one. -/
theorem writeEntryPartChecksInOrder : Obligations.WriteEntryPartChecksInOrder := by
  refine ⟨fun tag index record rest s hlaw hlen htakes => ?refused, fun tag record rest s hlaw hlen htakes hsaving hv hpending hact => ?ok⟩
  case refused =>
    have hexec : exec (.writeEntryPart tag index record) s = execWriteEntryPart tag index record s := rfl
    rw [hexec]
    unfold execWriteEntryPart
    refine ⟨fun hindex => ?_, fun h0 hsaving => ?_, fun h0 hsaving hv => ?_⟩
    · exact State.takeCommand_respond htakes hlaw (by rw [if_pos hindex]; rfl)
    · exact State.takeCommand_respond htakes hlaw (by simp [h0, hsaving, cmdWriteEntry])
    · have hnone := partConfigOf?_eq_none hv
      exact State.takeCommand_respond htakes hlaw (by simp [h0, hsaving, hnone, cmdWriteEntry])
  case ok =>
    obtain ⟨p, hbytes, hp⟩ := partConfigOf?_eq_some hlen hv
    rw [← hbytes, byteAt_silenceTimeout] at hact
    have hwrite := State.writeConfig_eq (s := s.withFrames rest) (p := p) htakes.run
      (hact.imp_right (Or.imp_left fun h h0 => h (congrArg Fin.val h0)))
    have hend := State.rateAtEnd_eq (s := s.withFrames rest) hpending p.linkRate
    have hexec : exec (.writeEntryPart tag 0 record) s = execWriteEntryPart tag 0 record s := rfl
    refine ⟨p, hbytes, hexec.trans ?_⟩
    unfold execWriteEntryPart
    refine State.takeCommand_respond_of (e := if p.linkRate = s.clp.rate then .nothing else .switchRate p.linkRate) htakes hlaw ?_ ?_ ?_
    · simp only [ne_eq, not_true_eq_false, if_false, State.withFrames_pst, hsaving, Bool.false_eq_true, hp, hwrite, hend]
      rfl
    · rfl
    · rfl

end Sys2Proof.Machine
end

