-- ==== Sys2Proof/Proofs/ReportsAndStore.lean ====
section
/-! PROOF. Offers and the end of a transmission (R176, R177), BAD_COMMAND (R165), the profile store (R180, R181), power-on (R183) and
the restart (R173). -/

namespace Sys2Proof.Machine

/-! ### Offers and the transmitter -/

theorem State.TransmitterLaw.of_busy {s : State} {r : Report} (h : s.clp.tx = some r) : s.TransmitterLaw := fun e => by
  rw [h] at e; cases e

/-- Entries of another kind keep their place and contents through a rewrite. -/
theorem map_rewriteAlarm_of_none {rq : List Report} {c : ChannelNo} (h : rq.any (Report.isAlarmOf c) = false) (active latched : ClassSet)
    (a : Action) : rq.map (Report.rewriteAlarm c active latched a) = rq := by
  refine (List.map_congr_left (g := id) fun r hr => ?_).trans (List.map_id _)
  have hn := List.any_eq_false.mp h r hr
  cases r with
  | alarm d a l x n => exact if_neg fun hd => hn (by simp [Report.isAlarmOf, hd])
  | readback | part | response => rfl

theorem map_addEvent_of_none {rq : List Report} (h : rq.any Report.isPart = false) (e : PartEvent) : rq.map (Report.addEvent e) = rq := by
  refine (List.map_congr_left (g := id) fun r hr => ?_).trans (List.map_id _)
  have hn := List.any_eq_false.mp h r hr
  cases r with
  | part => exact absurd rfl hn
  | readback | alarm | response => rfl

/-- Settles O20: the entry is found between those that are none, and they stay. -/
theorem offersCoalesceInPlace : Obligations.OffersCoalesceInPlace := by
  intro s r htx
  have hlaw := State.TransmitterLaw.of_busy htx
  refine ⟨fun c active latched a => ?_, fun e => ?_⟩
  · rw [State.offerAlarm_of_law hlaw, State.rq_setRq, alarmPlaced]
    refine ⟨fun h => by rw [if_neg (by rw [h]; decide)], fun before after a0 l0 x0 n hq hb ha => ?_⟩
    have hany : s.rq.any (Report.isAlarmOf c) = true := by simp [hq, Report.isAlarmOf]
    rw [if_pos hany, hq, List.map_append, List.map_append, map_rewriteAlarm_of_none hb, map_rewriteAlarm_of_none ha]
    simp [Report.rewriteAlarm]
  · rw [State.offerPart_of_law hlaw, State.rq_setRq, partPlaced]
    refine ⟨fun h => by rw [if_neg (by rw [h]; decide)], fun before after ev lost back hq hb ha => ?_⟩
    have hany : s.rq.any Report.isPart = true := by simp [hq, Report.isPart]
    rw [if_pos hany, hq, List.map_append, List.map_append, map_addEvent_of_none hb, map_addEvent_of_none ha]
    rfl

/-- An idle transmitter takes the head of the queue, if there is one. -/
theorem State.beginTransmission_of_idle {s : State} (h : s.clp.tx = none) :
    s.beginTransmission = { s with clp := { s.clp with tx := s.rq.head? }, rq := s.rq.tail } := by
  obtain ⟨_, ⟨_, _, _, tx⟩, _, _, _, _, _, _, _, _, rq, _, _, _, _⟩ := s
  obtain rfl : tx = none := h
  cases rq <;> rfl

/-- Settles O19: the transmitter is idle when the entry has ended, so the head of the queue begins. -/
theorem transmitEndBeginsTheNextEntry : Obligations.TransmitEndBeginsTheNextEntry := by
  have hexec : ∀ (s : State) (r : Report), s.clp.tx = some r →
      exec .transmitEnd s = ((s.setClp { s.clp with tx := none }).transmitted r).done := fun s r h => by
    show execTransmitEnd s = _
    rw [execTransmitEnd, h]
  refine ⟨fun r s htx hrate hrestart => ?_, fun tag cmd k data rate s htx => ?_⟩
  · have hnothing : (s.setClp { s.clp with tx := none }).transmitted r = s.setClp { s.clp with tx := none } := by
      cases r with
      | readback | alarm | part => rfl
      | response tag cmd k data atEnd =>
        cases atEnd with
        | nothing => rfl
        | switchRate rate => exact absurd rfl (hrate tag cmd k data rate)
        | restart => exact absurd rfl (hrestart tag cmd k data)
    rw [hexec s r htx, hnothing]
    exact congrArg _ (State.beginTransmission_of_idle rfl)
  · rw [hexec s _ htx]
    exact congrArg _ (State.beginTransmission_of_idle rfl)

/-! ### BAD_COMMAND -/

/-- The command is not BAD_COMMAND. -/
def isKnown : Instr → Bool
  | .badCommand _ => false
  | _ => true

theorem noArgCommand_known {tag cmd : Byte} {i : Instr} (h : noArgCommand tag cmd = some i) : isKnown i = true := by
  unfold noArgCommand at h
  split_ifs at h <;> cases h <;> rfl

theorem oneArgCommand_known {tag cmd a : Byte} {i : Instr} (h : oneArgCommand tag cmd a = some i) : isKnown i = true := by
  unfold oneArgCommand at h
  split_ifs at h <;> cases h <;> rfl

theorem readEntryCommand_known {tag table index : Byte} {i : Instr} (h : readEntryCommand tag table index = some i) :
    isKnown i = true := by
  unfold readEntryCommand at h
  split_ifs at h <;> cases h <;> rfl

theorem writeEntryCommand_known {tag table index : Byte} {record : List Byte} {i : Instr}
    (h : writeEntryCommand tag table index record = some i) : isKnown i = true := by
  unfold writeEntryCommand at h
  split_ifs at h <;> cases h <;> rfl

theorem commandOf?_known {tag cmd : Byte} {args : List Byte} {i : Instr} (h : commandOf? tag cmd args = some i) : isKnown i = true := by
  unfold commandOf? at h
  split at h
  · split at h
    · exact writeEntryCommand_known h
    · cases h
  · split at h
    · exact noArgCommand_known h
    · exact oneArgCommand_known h
    · split at h
      · exact readEntryCommand_known h
      · obtain ⟨-, h⟩ := Option.ite_none_right_eq_some.mp h; cases h; rfl
    · obtain ⟨-, h⟩ := Option.ite_none_right_eq_some.mp h; cases h; rfl
    · cases h

/-- Only a payload without a command is BAD_COMMAND, and it is that payload's. -/
theorem commandOf_badCommand {p : List Byte} {tag cmd : Byte} {args : List Byte} (h : commandOf p = .badCommand (tag :: cmd :: args)) :
    commandOf? tag cmd args = none := by
  unfold commandOf at h
  split at h
  · next t k as =>
    cases hc : commandOf? t k as with
    | none =>
      rw [hc] at h
      cases h
      exact hc
    | some i =>
      rw [hc] at h
      have := commandOf?_known hc
      rw [show i = _ from h] at this
      cases this
  · next hshape => cases h; exact absurd rfl (hshape tag cmd args)

/-- The completion of BAD_COMMAND, by the command byte and the number of arguments (R165, R169, R172). -/
theorem badCommandCompletion_eq {tag cmd : Byte} {args : List Byte} (h : commandOf? tag cmd args = none) :
    badCommandCompletion (tag :: cmd :: args) =
      if cmd = 0x0F ∧ args.length = 1 then .badValue
      else if (cmd = 0x03 ∨ cmd = 0x04) ∧ 2 ≤ args.length ∧ 4 < byteAt args 0 then .badIndex else .badCommand := by
  match args with
  | [] => rw [if_neg (by simp), if_neg (by simp)]; rfl
  | [a] =>
    have hvalue : cmd = 0x0F → 1 < a.toNat := by
      rintro rfl
      by_contra hle
      have : ∀ a : Byte, ¬ 1 < a.toNat → a = 0 ∨ a = 1 := by decide
      rcases this a hle with rfl | rfl <;> cases h
    show (if cmd = 0x0F ∧ 1 < a.toNat then Completion.badValue else .badCommand) = _
    by_cases hcmd : cmd = 0x0F
    · rw [if_pos ⟨hcmd, hvalue hcmd⟩, if_pos ⟨hcmd, rfl⟩]
    · rw [if_neg fun h => hcmd h.1, if_neg fun h => hcmd h.1, if_neg fun h => absurd h.2.1 (by simp)]
  | a :: b :: rest =>
    show (if (cmd = 0x03 ∨ cmd = 0x04) ∧ 4 < a.toNat then Completion.badIndex else .badCommand) = _
    rw [if_neg fun h : cmd = 0x0F ∧ (a :: b :: rest).length = 1 => absurd h.2 (by simp)]
    exact if_congr ⟨fun h => ⟨h.1, by simp, h.2⟩, fun h => ⟨h.1, h.2.2⟩⟩ rfl rfl

/-- Settles O24: the command only answers. -/
theorem badCommandAnswersAndChangesNothing : Obligations.BadCommandAnswersAndChangesNothing := by
  intro tag cmd args rest s hlaw htakes
  have hnone : commandOf? tag cmd args = none := by
    obtain ⟨-, -, -, p, -, hp⟩ := htakes
    exact commandOf_badCommand hp
  rw [← badCommandCompletion_eq hnone]
  show execBadCommand _ s = _
  exact State.takeCommand_respond htakes hlaw rfl

/-! ### The profile store -/

/-- A part event offered at the end of an event. -/
theorem State.offerPart_done {s : State} (h : s.TransmitterLaw) (e : PartEvent) : ∃ t, (s.offerPart e).done = .next t ∧
    s.OnlyReports t ∧ t.outgoing = s.clp.tx.toList ++ partPlaced s.rq e :=
  ⟨_, rfl, (s.offerPart_onlyReports e).trans (State.beginTransmission_onlyReports _),
    (State.beginTransmission_outgoing _).trans (State.offerPart_outgoing h e)⟩

theorem State.OnlyReports.besideStore {s t : State} {x : Store} (h : (s.setPst x).OnlyReports t) :
    s.OnlyReports { t with pst := s.pst } where
  link := h.link
  tables := h.tables
  channels := h.channels
  field := h.field
  units := ⟨h.units.1, h.units.2.1, h.units.2.2.1, rfl⟩
  waiting := h.waiting
  pairs := h.pairs

/-- The store's next state with a part event. -/
theorem State.setPst_offerPart_done {s : State} (h : s.TransmitterLaw) (x : Store) (e : PartEvent) :
    ∃ t, ((s.setPst x).offerPart e).done = .next t ∧ t.pst = x ∧ t.outgoing = s.clp.tx.toList ++ partPlaced s.rq e ∧
      s.OnlyReports { t with pst := s.pst } := by
  obtain ⟨t, ht, honly, hout⟩ := State.offerPart_done (s := s.setPst x) h e
  exact ⟨t, ht, honly.units.2.2.2, hout, honly.besideStore⟩

theorem State.tables_eq (s : State) :
    s.tables = ⟨s.ct, s.psq.record, s.nt.map (·.expected), s.pru.list, s.mgx.config⟩ := by
  have : (Vector.ofFn fun n => (s.node n).expected) = s.nt.map (·.expected) := by
    ext i hi
    simp [State.node]
  rw [State.tables, this]

theorem StoreState.isFree_of {x : StoreState} (h : x = .empty ∨ x = .valid) : x.isFree = true := by
  rcases h with rfl | rfl <;> rfl

theorem StoreState.not_isFree_of {x : StoreState} (h : x = .clearing ∨ ∃ p copy, x = .saving p copy) : x.isFree = false := by
  rcases h with rfl | ⟨p, copy, rfl⟩ <;> rfl

/-- Settles O39: each operation by the state of the store. -/
theorem storeOperationsRunTheirPhases : Obligations.StoreOperationsRunTheirPhases := by
  refine ⟨fun tag rest s hlaw => ⟨fun htakes => ⟨fun hbusy => ?_, fun hfree => ?_⟩, fun htakes => ⟨fun hbusy => ?_, fun hfree => ?_⟩⟩,
    fun copy s hlaw => ⟨fun hstate => ?_, fun hstate => ?_, fun hstate => ?_, fun hstate => ?_⟩⟩
  · show execStoreSave tag s = _
    exact State.takeCommand_respond htakes hlaw (by simp [StoreState.not_isFree_of hbusy, cmdStoreSave])
  · show execStoreSave tag s = _
    rw [← State.tables_eq]
    exact State.takeCommand_respond_of
      (u := (s.withFrames rest).setPst { state := .saving .erase s.tables, image := { s.pst.image with check := none } })
      htakes hlaw ((if_pos (StoreState.isFree_of hfree)).trans rfl) rfl rfl
  · show execStoreClear tag s = _
    exact State.takeCommand_respond htakes hlaw (by simp [StoreState.not_isFree_of hbusy, cmdStoreClear])
  · show execStoreClear tag s = _
    exact State.takeCommand_respond_of
      (u := (s.withFrames rest).setPst { state := .clearing, image := { s.pst.image with check := none } }) htakes hlaw
      ((if_pos (StoreState.isFree_of hfree)).trans rfl) rfl rfl
  · have hlaw' : (s.setPst { state := .saving .program copy, image := .erased }).TransmitterLaw := hlaw
    refine ⟨s.setPst { state := .saving .program copy, image := .erased }, ?_, rfl, rfl, rfl, .refl s⟩
    show execSaveEraseEnd s = _
    rw [execSaveEraseEnd, hstate]
    exact State.done_of_law hlaw'
  · obtain ⟨t, ht, hpst, hrest⟩ := State.setPst_offerPart_done hlaw { state := .valid, image := ⟨some copy, some copy.check⟩ } .storeDone
    refine ⟨t, ht ▸ ?_, by rw [hpst], by rw [hpst], hrest⟩
    show execSaveProgramEnd true s = _
    rw [execSaveProgramEnd, hstate]
    rfl
  · obtain ⟨t, ht, hpst, hrest⟩ := State.setPst_offerPart_done hlaw { state := .empty, image := .erased } .storeFailed
    refine ⟨t, ht ▸ ?_, by rw [hpst], by rw [hpst]; rfl, hrest⟩
    show execSaveProgramEnd false s = _
    rw [execSaveProgramEnd, hstate]
    rfl
  · obtain ⟨t, ht, hpst, hrest⟩ := State.setPst_offerPart_done hlaw { state := .empty, image := .erased } .storeDone
    refine ⟨t, ht ▸ ?_, by rw [hpst], by rw [hpst]; rfl, hrest⟩
    show execClearEnd s = _
    rw [execClearEnd, hstate]

/-! ### Power-on and restart -/

theorem Image.load?_eq_some_iff {i : Image} {saved : Tables} :
    i.load? = some saved ↔ ∃ k, i.contents = some saved ∧ i.check = some k ∧ saved.check = k := by
  obtain ⟨contents, check⟩ := i
  cases contents with
  | none => simp [Image.load?]
  | some t =>
    cases check with
    | none => simp [Image.load?]
    | some k =>
      simp only [Image.load?, Option.ite_none_right_eq_some, Option.some.injEq]
      constructor
      · rintro ⟨hk, rfl⟩
        exact ⟨k, rfl, rfl, hk⟩
      · rintro ⟨_, rfl, rfl, hk⟩
        exact ⟨hk, rfl⟩

theorem Image.load?_getD (i : Image) : i.load?.getD .default = (match i.contents, i.check with
    | some saved, some k => if saved.check = k then saved else .default
    | _, _ => .default) := by
  obtain ⟨contents, check⟩ := i
  cases contents <;> cases check <;> simp only [Image.load?, Option.getD_none]
  split <;> rfl

theorem State.resetAndLoad_eq (s : State) :
    s.resetAndLoad = s.resetAround (s.pst.image.load?.getD .default) s.pst.image.load?.isSome := by
  unfold State.resetAndLoad
  cases s.pst.image.load? <;> rfl

theorem State.tables_resetAround (s : State) (t : Tables) (valid : Bool) : (s.resetAround t valid).tables = t := by
  have : (Vector.ofFn fun n => ((s.resetAround t valid).node n).expected) = t.expected := by
    ext i hi
    simp [State.node, State.resetAround, NodeRecord.reset]
  rw [State.tables, this]
  rfl

/-- The state that a power-on leads to, around the tables it loads. -/
def State.poweredOn (s : State) (t : Tables) (valid : Bool) : State :=
  { s.resetAround t valid with
    clp := ⟨.hunt, 0, t.config.linkRate, none⟩
    fbc := ⟨.idle, 0, s.fbc.fbsy, 0, .taking⟩ }

theorem exec_powerOn (s : State) :
    exec .powerOn s = .next (s.poweredOn (s.pst.image.load?.getD .default) s.pst.image.load?.isSome) := by
  show s.powerOn.done = _
  unfold State.powerOn
  rw [State.resetAndLoad_eq]
  rfl

/-- Settles O3: by what the image loads. -/
theorem powerOnLoadsTheProfile : Obligations.PowerOnLoadsTheProfile := by
  refine ⟨fun s => ⟨_, exec_powerOn s, ?_, ?_, ?_, rfl, rfl, fun c => ?_, rfl, rfl, rfl, ⟨rfl, rfl, rfl, rfl, rfl, rfl, rfl⟩, fun n => ?_,
    rfl, ⟨rfl, rfl, rfl, rfl⟩, rfl, rfl, rfl, rfl, rfl, rfl⟩, fun copy s hstate => ?_⟩
  · exact (State.tables_resetAround s (s.pst.image.load?.getD .default) s.pst.image.load?.isSome).trans (Image.load?_getD _)
  · have hstate : ∀ b : Bool, (if b then StoreState.valid else .empty) = .valid ↔ b = true := by decide
    refine (hstate _).trans (Option.isSome_iff_exists.trans (exists_congr fun saved => ?_))
    exact Image.load?_eq_some_iff
  · have hstate : ∀ b : Bool, (if b then StoreState.valid else .empty) = .valid ∨ (if b then StoreState.valid else .empty) = .empty := by
      decide
    exact hstate _
  · simp [State.ch, State.poweredOn, State.resetAround]
  · simp [State.node, State.poweredOn, State.resetAround, NodeRecord.reset]
  · let v := (s.setPst { state := .valid, image := ⟨some copy, some copy.check⟩ }).offerPart .storeDone
    obtain ⟨t, ht⟩ : ∃ t, v.done = .next t := ⟨_, rfl⟩
    have hpst : t.pst = ⟨.valid, ⟨some copy, some copy.check⟩⟩ := by
      cases ht
      exact ((State.offerPart_onlyReports _ _).trans (State.beginTransmission_onlyReports _)).units.2.2.2
    have hload : t.pst.image.load? = some copy := Image.load?_eq_some_iff.mpr ⟨_, by rw [hpst], by rw [hpst], rfl⟩
    have hexec : exec (.saveProgramEnd true) s = .next t := by
      rw [← ht]
      show execSaveProgramEnd true s = _
      rw [execSaveProgramEnd, hstate]
      rfl
    refine ⟨t, _, hexec, exec_powerOn t, ?_, ?_, ?_⟩
    · rw [hload]; exact State.tables_resetAround t copy true
    · rw [hload]; rfl
    · rw [hload]; rfl

/-- The state that a restart leads to, around the tables it loads. -/
def State.restarted (s : State) (t : Tables) (valid : Bool) : State :=
  { s.resetAround t valid with
    mgx := .reset { t.config with linkRate := s.mgx.config.linkRate }
    fbc := { s.fbc with state := .gap s.mgx.config.fieldGap.val, passOver := 0, frx := .taking } }

theorem State.performRestart_eq (s : State) :
    s.performRestart = s.restarted (s.pst.image.load?.getD .default) s.pst.image.load?.isSome := by
  unfold State.performRestart
  rw [State.resetAndLoad_eq]
  rfl

/-- A management command is taken by MGX or not at all. -/
theorem exec_of_payload {i : Instr} {p : List Byte} (h : payloadOf i = some p) (s : State) : ∃ f, exec i s = s.takeCommand i f := by
  cases i with
  | powerOn | enterRun | receiverReady | setpointFrame | mgmtFrame | badFrame | linkGapError | saveEraseEnd | saveProgramEnd
  | clearEnd | transmitEnd | grant | fieldGapExpiry | strobe | fbsyAsserted | fbsyReleased | heldTimeout | busyTimeoutExpiry
  | responseTimeoutExpiry | readingReceived | malformedReading | stepTimerExpiry | spacingTimerExpiry | cycleTimerExpiry
  | silenceTimerExpiry | presetSpacingExpiry | frxIdle => cases h
  | readStatus | readChannel | readEntryChannel | readEntrySequence | readEntryNode | readEntryPreset | readEntryPart
  | writeEntryChannel | writeEntrySequence | writeEntryNode | writeEntryPreset | writeEntryPart | badCommand | enableChannel
  | disableChannel | releaseChannel | readAlarms | injectReadback | seqRun | seqStop | applyPreset | abortPreset | flushOutput
  | slewBypassOn | slewBypassOff | storeSave | storeClear | restart =>
    apply Exists.intro
    unfold exec
    rfl

/-- Settles O40: while the restart is pending MGX takes nothing; the end of its RESPONSE resets the part around the loaded tables. -/
theorem restartIsPendingUntilItsResponseEnds : Obligations.RestartIsPendingUntilItsResponseEnds := by
  refine ⟨fun tag rest s hlaw htakes => ⟨?_, fun u i p hpending hp => ?_⟩, fun tag cmd k data s htx => ?_⟩
  · show execRestart tag s = _
    exact State.takeCommand_respond_of
      (u := (s.withFrames rest).setMgx { (s.withFrames rest).mgx with restartPending := true }) htakes hlaw rfl rfl rfl
  · obtain ⟨f, hf⟩ := exec_of_payload hp u
    rw [hf]
    exact State.takeCommand_of_not (by simp [State.mgxTakes, State.mgxMayTake, hpending]) f
  · have hexec : exec .transmitEnd s = (s.setClp { s.clp with tx := none }).performRestart.done := by
      show execTransmitEnd s = _
      rw [execTransmitEnd, htx]
      rfl
    rw [State.performRestart_eq] at hexec
    exact ⟨_, _, hexec.trans (State.done_of_law fun _ => rfl), exec_powerOn s, rfl, rfl, rfl, rfl, rfl, rfl, rfl, rfl, rfl, rfl, rfl,
      rfl, rfl⟩

end Sys2Proof.Machine
end

