-- ==== Sys2Proof/Proofs/EnableAndStartUp.lean ====
section
/-! PROOF. Enabling a channel (R35, R36) and the start-up sequence (R98, R184); and the equations of the sequencer's starts (R90, R91). -/

namespace Sys2Proof.Machine

/-! ### An enable -/

/-- The context that an enable gives a channel at OFF (R36). -/
def ChannelCtx.enabled (e : ChannelEntry) : ChannelCtx := { ChannelCtx.reset with
  drive := .moving, target := some e.safeCode, goal := some e.safeCode, sent := some e.safeCode
  stepTimer := .running (e.slewInterval.val * 1000) }

/-- An enable of a channel at OFF with nothing queued. -/
theorem State.startDriving_eq {s : State} {c : ChannelNo} (hx : s.ch c = .reset) (hq : s.oq.hasEntry c = false) :
    s.startDriving c = { s with
      ctx := s.ctx.set c.val (.enabled (s.entry c))
      oq := { s.oq with writes := s.oq.writes ++ [⟨c, (s.entry c).safeCode, true⟩] } } := by
  obtain ⟨hi, hw⟩ := (s.oq.hasEntry_eq_false c).mp hq
  have hplace := OutputQueue.placeWrite_of_noIsolate hi (s.entry c).safeCode true
  rw [if_neg (by rw [hw]; decide)] at hplace
  unfold State.startDriving State.issueWrite State.placeWrite
  rw [State.oq_modCh, show s.safeCode c = (s.entry c).safeCode from rfl, hplace]
  simp [State.modCh, State.setOq, State.ch, State.entry, ChannelCtx.enabled, ChannelEntry.stepLength, Vector.set_set]
  rw [show s.ctx[c.val] = .reset from hx]
  rfl

theorem State.mappingConflict_eq_false {s : State} {c : ChannelNo} (h : ∀ d, d ≠ c → (s.ch d).drive ≠ .off →
    (s.entry d).node = (s.entry c).node → (s.entry d).point ≠ (s.entry c).point) : s.mappingConflict c = false := by
  rw [Bool.eq_false_iff]
  intro hc
  obtain ⟨d, hd, hdrive, hnode, hpoint⟩ := (s.mappingConflict_iff c).mp hc
  exact h d hd hdrive hnode hpoint

theorem State.enableRefusal_conflict {s : State} {c : ChannelNo} (hd : (s.ch c).drive = .off) (h : s.mappingConflict c = true) :
    s.enableRefusal c = some .conflict := by simp [State.enableRefusal, hd, h]

theorem State.enableRefusal_nodeUnknown {s : State} {c : ChannelNo} (hd : (s.ch c).drive = .off) (h : s.mappingConflict c = false)
    (he : (s.node (s.entry c).node).expected = false) : s.enableRefusal c = some .nodeUnknown := by
  simp [State.enableRefusal, hd, h, he]

theorem State.enableRefusal_of_free {s : State} {c : ChannelNo} (hd : (s.ch c).drive = .off) (h : s.mappingConflict c = false)
    (he : (s.node (s.entry c).node).expected = true) : s.enableRefusal c = none := by simp [State.enableRefusal, hd, h, he]

theorem State.enable_of_quiet {s : State} {c : ChannelNo} (h : s.act.state = .quiet) : s.enable c = s.startDriving c := by
  have hact : (s.startDriving c).act = s.act := (s.startDriving_onlyChannel c).units.1
  unfold State.enable
  dsimp only
  rw [hact, h]
  rfl

@[simp] theorem State.withFrames_enableRefusal (s : State) (q : List (List Byte)) (c : ChannelNo) :
    (s.withFrames q).enableRefusal c = s.enableRefusal c := rfl

/-- ENABLE_CHANNEL that a check refuses. -/
theorem exec_enableChannel_refused {tag channel : Byte} {c : ChannelNo} {rest : List (List Byte)} {s : State} {k : Completion}
    (hl : s.TransmitterLaw) (htakes : s.Takes (.enableChannel tag channel) rest) (hc : channel.toNat = c.val)
    (hk : s.enableRefusal c = some k) :
    exec (.enableChannel tag channel) s = .next ((s.withFrames rest).sends (answer tag 0x05 k [])) := by
  show execEnableChannel tag channel s = _
  exact State.takeCommand_respond htakes hl (by simp [channelOf?_eq_some hc, hk, cmdEnableChannel])

/-- ENABLE_CHANNEL that passes the checks. -/
theorem exec_enableChannel_accepted {tag channel : Byte} {c : ChannelNo} {rest : List (List Byte)} {s : State}
    (htakes : s.Takes (.enableChannel tag channel) rest) (hc : channel.toNat = c.val) (hk : s.enableRefusal c = none) :
    exec (.enableChannel tag channel) s =
      .next (((s.withFrames rest).enable c).respond tag 0x05 .ok []).beginTransmission := by
  show execEnableChannel tag channel s = _
  unfold execEnableChannel
  rw [State.takeCommand_of_takes htakes]
  simp [channelOf?_eq_some hc, hk, cmdEnableChannel]

/-- Settles O28: the checks in their order, and the channel that passes them all. -/
theorem enableChannelChecksInOrder : Obligations.EnableChannelChecksInOrder := by
  refine ⟨fun tag channel rest s hlaw htakes => ⟨fun hindex => ?_, fun c hc => ⟨fun hd => ?_, fun hd hconflict => ?_,
    fun hd hfree hexp => ?_⟩⟩, fun tag channel c rest s hlaw htakes hc hx hq hfree hexp hact => ?_⟩
  · show execEnableChannel tag channel s = _
    exact State.takeCommand_respond htakes hlaw (by rw [channelOf?_eq_none hindex]; rfl)
  · exact exec_enableChannel_refused hlaw htakes hc (if_pos hd)
  · exact exec_enableChannel_refused hlaw htakes hc (State.enableRefusal_conflict hd ((s.mappingConflict_iff c).mpr hconflict))
  · exact exec_enableChannel_refused hlaw htakes hc
      (State.enableRefusal_nodeUnknown hd (State.mappingConflict_eq_false hfree) hexp)
  · have hnone := State.enableRefusal_of_free (c := c) (by rw [hx]; rfl) (State.mappingConflict_eq_false hfree) hexp
    rw [exec_enableChannel_accepted htakes hc hnone, State.enable_of_quiet (s := s.withFrames rest) hact,
      State.startDriving_eq (s := s.withFrames rest) hx hq]
    exact congrArg _ (State.beginTransmission_placeReport (by exact hlaw) _)

/-! ### The sequencer's starts -/

/-- The sequencer at the start of a slot (R91). -/
def Sequencer.atSlot (q : Sequencer) (i : Fin 16) (request : Option PollRequest) : Sequencer := { q with
  currentIndex := i, spacingTimer := .running (q.record.slotSpacing.val * 100)
  slotPoll := if request.isSome then .pending else .none, pollSlot := request }

theorem State.startSlot_eq (s : State) (i : Fin 16) :
    s.startSlot i = s.setPsq (s.psq.atSlot i (s.slotRequest s.psq.record.slots[i.val])) := rfl

/-- The sequencer at the start of a walk or of a cycle (R90, R96). -/
def Sequencer.cycling (q : Sequencer) : Sequencer := { q with
  periodElapsed := false, state := .running
  cycleTimer := if q.record.usesCycleTimer then .running (q.record.cyclePeriod.val * 1000) else .stopped }

theorem State.startCycle_eq (s : State) : s.startCycle =
    s.setPsq (s.psq.cycling.atSlot s.psq.record.startIndex (s.slotRequest s.psq.record.slots[s.psq.record.startIndex.val])) := rfl

/-- The poll that a slot places (R91). -/
theorem State.places_slotRequest (s : State) (slot : Slot) : s.places slot (s.slotRequest slot) := by
  cases slot with
  | empty => rfl
  | channel c => exact ⟨fun h => if_pos h, fun h => if_neg h⟩
  | zero n => exact ⟨fun h => if_neg (by rw [h]; decide), fun h => if_pos h⟩

/-! ### The start-up sequence -/

theorem exec_enterRun {s : State} (h : s.mgx.mode = .loading) (n : Nat) : exec (.enterRun n) s = (State.startUpRun n s).done := by
  show s.event (s.mgx.mode == .loading) (State.startUpRun n) = _
  rw [h]
  rfl

/-- A step of the sequence up to channel 23 considers one channel. -/
theorem State.startUpStep_channel {s : State} {c : ChannelNo} (hmode : s.mgx.mode = .loading) (hk : s.mgx.startUpStep.val = c.val) :
    s.startUpStep = (s.setMgx { s.mgx with startUpStep := s.mgx.startUpStep + 1 }).startUpEnable c := by
  have hne : s.mgx.startUpStep ≠ 25 := fun h => by rw [h] at hk; exact absurd c.isLt (by rw [← hk]; decide)
  unfold State.startUpStep
  simp only [hmode, finOf?_eq_some hk, hne, if_false]

theorem State.startUpEnable_of_refused {s : State} {c : ChannelNo}
    (h : (s.entry c).startEnabled = false ∨
      (∃ d, d ≠ c ∧ (s.ch d).drive ≠ .off ∧ (s.entry d).node = (s.entry c).node ∧ (s.entry d).point = (s.entry c).point) ∨
      (s.node (s.entry c).node).expected = false) : s.startUpEnable c = s := by
  unfold State.startUpEnable
  rw [if_neg]
  rw [Bool.and_eq_true, Option.isNone_iff_eq_none]
  rintro ⟨hstart, hnone⟩
  obtain ⟨-, hfree, hexp⟩ := State.enableRefusal_none hnone
  rcases h with h | h | h
  · rw [h] at hstart; cases hstart
  · rw [(s.mappingConflict_iff c).mpr h] at hfree; cases hfree
  · rw [h] at hexp; cases hexp

/-- Steps over channels that are not enabled at start only count. -/
theorem State.startUpRun_disabled : ∀ (n : Nat) (s : State) (k : Fin 26), s.mgx.mode = .loading → (∀ c, (s.entry c).startEnabled = false) →
    k.val = s.mgx.startUpStep.val + n → k.val ≤ 24 → State.startUpRun n s = s.setMgx { s.mgx with startUpStep := k }
  | 0, s, k, _, _, hk, _ => by
    obtain rfl : k = s.mgx.startUpStep := Fin.ext hk
    rfl
  | n + 1, s, k, hmode, hstart, hk, h24 => by
    have hc : s.mgx.startUpStep.val = (⟨s.mgx.startUpStep.val, by omega⟩ : ChannelNo).val := rfl
    have hstep : (s.mgx.startUpStep + 1).val = s.mgx.startUpStep.val + 1 := by
      rw [Fin.val_add_one_of_lt]
      exact Fin.lt_def.mpr (show s.mgx.startUpStep.val < 25 by omega)
    have hone : s.startUpStep = s.setMgx { s.mgx with startUpStep := s.mgx.startUpStep + 1 } := by
      rw [State.startUpStep_channel hmode hc, State.startUpEnable, if_neg]
      rw [State.entry_setMgx, hstart]
      simp
    show State.startUpRun n s.startUpStep = _
    rw [hone, State.startUpRun_disabled n (s.setMgx { s.mgx with startUpStep := s.mgx.startUpStep + 1 }) k hmode hstart (by rw [State.mgx_setMgx, hstep]; omega) h24]
    rfl

theorem State.startUpRun_add (m n : Nat) (s : State) : State.startUpRun (m + n) s = State.startUpRun n (State.startUpRun m s) := by
  induction m generalizing s with
  | zero => rw [Nat.zero_add]; rfl
  | succ m ih => rw [Nat.succ_add]; exact ih _

/-- The last two steps: the autostart and the entry to RUN. -/
theorem State.startUpRun_last {s : State} (hmode : s.mgx.mode = .loading) (hk : s.mgx.startUpStep = 24) :
    State.startUpRun 2 s = (((s.setMgx { s.mgx with startUpStep := 25 }).autostart).setMgx
      { s.mgx with startUpStep := 25 }).enterRun := by
  have hauto : s.startUpStep = (s.setMgx { s.mgx with startUpStep := 25 }).autostart := by
    unfold State.startUpStep
    simp only [hmode, hk]
    rfl
  have hmgx : (s.setMgx { s.mgx with startUpStep := 25 }).autostart.mgx = { s.mgx with startUpStep := 25 } := by
    unfold State.autostart
    split <;> rfl
  show s.startUpStep.startUpStep = _
  rw [hauto]
  generalize (s.setMgx { s.mgx with startUpStep := 25 }).autostart = v at hmgx
  unfold State.startUpStep
  simp only [hmgx, hmode]
  rfl

/-- The sequencer after the autostart (R98). -/
def State.autostarted (s : State) : Sequencer :=
  if s.psq.record.autostart = true ∧ s.psq.state = .idle then
    s.psq.cycling.atSlot s.psq.record.startIndex (s.slotRequest s.psq.record.slots[s.psq.record.startIndex.val])
  else s.psq

theorem State.autostart_eq (s : State) : s.autostart = s.setPsq s.autostarted := by
  unfold State.autostart State.autostarted
  split
  · exact s.startCycle_eq
  · rfl

theorem State.enterRun_eq (s : State) : s.enterRun = { s with
    mgx := { s.mgx with mode := .run }
    act := ⟨s.act.state, if s.mgx.config.silenceTimeout = 0 then .stopped else .running (s.mgx.config.silenceTimeout.val * 10000)⟩ } := by
  have hstart := State.silenceStart_run (s := s.setMgx { s.mgx with mode := .run }) rfl
  unfold State.enterRun
  dsimp only
  rw [hstart]
  rfl

/-- The whole sequence with no channel enabled at start. -/
theorem State.startUpRun_whole {s : State} (hmode : s.mgx.mode = .loading) (hk : s.mgx.startUpStep = 0)
    (hstart : ∀ c, (s.entry c).startEnabled = false) : State.startUpRun 26 s = { s with
      mgx := { s.mgx with startUpStep := 25, mode := .run }
      psq := s.autostarted
      act := ⟨s.act.state, if s.mgx.config.silenceTimeout = 0 then .stopped else .running (s.mgx.config.silenceTimeout.val * 10000)⟩ } := by
  show State.startUpRun (24 + 2) s = _
  rw [State.startUpRun_add, State.startUpRun_disabled 24 s 24 hmode hstart (by rw [hk]; rfl) (le_refl _),
    State.startUpRun_last (by exact hmode) (by rfl), State.autostart_eq, State.enterRun_eq]
  rfl

/-- Settles O41: a step considers one channel; the whole sequence without channels to enable is the autostart and the entry to RUN. -/
theorem enterRunRunsTheStartUp : Obligations.EnterRunRunsTheStartUp := by
  refine ⟨fun c s hlaw hmode hk hact hx hq => ⟨fun h => ?_, fun h => ?_⟩, fun s hlaw hmode hk hstart hidle => ?_⟩
  · obtain ⟨hstart, hfree, hexp⟩ := h
    rw [exec_enterRun hmode]
    show s.startUpStep.done = _
    have hnone := State.enableRefusal_of_free (c := c) (by rw [hx]; rfl) (State.mappingConflict_eq_false hfree) hexp
    have henable : (s.setMgx { s.mgx with startUpStep := s.mgx.startUpStep + 1 }).startUpEnable c =
        (s.setMgx { s.mgx with startUpStep := s.mgx.startUpStep + 1 }).enable c := by
      unfold State.startUpEnable
      rw [if_pos]
      rw [State.entry_setMgx, hstart, Bool.true_and, Option.isNone_iff_eq_none]
      exact hnone
    rw [State.startUpStep_channel hmode hk, henable, State.enable_of_quiet (by exact hact), State.startDriving_eq (by exact hx) (by exact hq)]
    exact State.done_of_law hlaw
  · rw [exec_enterRun hmode]
    show s.startUpStep.done = _
    rw [State.startUpStep_channel hmode hk, State.startUpEnable_of_refused (by exact h)]
    exact State.done_of_law hlaw
  · have hexec := exec_enterRun hmode 26
    rw [State.startUpRun_whole hmode hk hstart] at hexec
    refine ⟨_, hexec.trans (State.done_of_law hlaw), rfl, rfl, rfl, rfl, fun h => ?_, fun h => ?_, .refl s⟩
    · exact if_neg fun hc => by rw [h] at hc; cases hc.1
    · have : s.autostarted = s.psq.cycling.atSlot s.psq.record.startIndex
          (s.slotRequest s.psq.record.slots[s.psq.record.startIndex.val]) := if_pos ⟨h, hidle⟩
      simp only [this]
      exact ⟨rfl, rfl, rfl⟩

end Sys2Proof.Machine
end

