-- ==== Sys2Proof/Proofs/FieldBusEvents.lean ====
section
/-! PROOF. The arbiter and the handshake of the field bus (R69 to R72, R80), and the readings that answer nothing (R64, R65, R74). -/

namespace Sys2Proof.Machine

/-! ### The handshake -/

/-- Settles O44: each event in the state that it advances. -/
theorem handshakeAdvances : Obligations.HandshakeAdvances := by
  intro x s hlaw
  refine ⟨fun h => ?_, fun h hj => ?_, fun h hj => ?_, fun h => ?_⟩
  · show execFbsyReleased s = _
    simp only [execFbsyReleased, State.fbc_setFbc, h]
    exact State.done_of_law hlaw
  · have hafter : afterStrobe s.fbc.fbsy x = .awaitReply x := by
      rcases hj with hj | ⟨c, hj⟩ <;> rw [afterStrobe, hj]
    show execStrobe s = _
    simp only [execStrobe, h, hafter]
    exact State.done_of_law hlaw
  · have hafter : afterStrobe s.fbc.fbsy x = if s.fbc.fbsy then .awaitRelease x else .awaitBusy x := by
      rcases hj with ⟨c, code, r, hj⟩ | ⟨c, hj⟩ <;> rw [afterStrobe, hj]
    show execStrobe s = _
    simp only [execStrobe, h, hafter]
    exact State.done_of_law hlaw
  · show execFbsyAsserted s = _
    simp only [execFbsyAsserted, State.fbc_setFbc, h]
    exact State.done_of_law hlaw

/-! ### The arbiter -/

theorem State.queuePending_iff (s : State) : s.queuePending = true ↔ s.oq.isolates ≠ [] ∨ s.oq.writes ≠ [] := by
  simp [State.queuePending]

theorem State.queuePending_eq_false (s : State) : s.queuePending = false ↔ s.oq.isolates = [] ∧ s.oq.writes = [] := by
  simp [State.queuePending]

/-- The bus becomes available, or is. -/
theorem exec_granting {i : Instr} {s : State}
    (hi : (i = .grant ∧ s.fbc.state = .idle) ∨ (i = .fieldGapExpiry ∧ ∃ us, s.fbc.state = .gap us))
    (hp : s.queuePending = true ∨ s.pollPending = true ∨ i = .fieldGapExpiry) :
    exec i s = (s.setFbc { s.fbc with state := .idle }).arbitrate.done := by
  rcases hi with ⟨rfl, hidle⟩ | ⟨rfl, us, hgap⟩
  · have hself : s.setFbc { s.fbc with state := .idle } = s := by rw [← hidle]; rfl
    have hdue : s.grantDue = true := by
      rcases hp with hp | hp | hp
      · simp [State.grantDue, hidle, hp]
      · simp [State.grantDue, hidle, hp]
      · cases hp
    show s.event s.grantDue State.arbitrate = _
    rw [hdue, hself]
    rfl
  · show execFieldGapExpiry s = _
    unfold execFieldGapExpiry
    rw [hgap]
    rfl

/-- The output queue is granted unless the poll slot has been passed over four times (R80). -/
theorem State.arbitrate_queue {s : State} (hq : s.queuePending = true) (hp : s.psq.pollSlot = none ∨ s.fbc.passOver ≠ 4) :
    s.arbitrate = (s.setPassOver (if s.psq.pollSlot = none then s.fbc.passOver else s.fbc.passOver + 1)).grantQueue := by
  unfold State.arbitrate
  cases hslot : s.psq.pollSlot with
  | none => simp [hq, State.pollPending, hslot]; rfl
  | some request =>
    have hp : s.fbc.passOver ≠ 4 := hp.resolve_left (by simp [hslot])
    simp [hq, State.pollPending, hslot, hp]

theorem State.arbitrate_poll {s : State} {request : PollRequest} (hslot : s.psq.pollSlot = some request)
    (hq : s.queuePending = false ∨ s.fbc.passOver = 4) : s.arbitrate = (s.setPassOver 0).grantPoll := by
  unfold State.arbitrate
  cases hpend : s.queuePending with
  | false => simp [State.pollPending, hslot]
  | true =>
    have hq : s.fbc.passOver = 4 := hq.resolve_left (by simp [hpend])
    simp [State.pollPending, hslot, hq]

/-- Settles O42: the request that the table names is granted, and its record filled. -/
theorem arbiterGrantsByTheTable : Obligations.ArbiterGrantsByTheTable := by
  intro i s hlaw hi
  refine ⟨fun hisolates hwrites hslot hgap => ?_, fun hq hp => ?_, fun request hslot hq => ?_⟩
  · have hnone : (s.setFbc { s.fbc with state := .idle }).arbitrate = s.setFbc { s.fbc with state := .idle } := by
      simp [State.arbitrate, State.queuePending, State.pollPending, hisolates, hwrites, hslot]
    rw [exec_granting hi (Or.inr (Or.inr hgap)), hnone]
    exact State.done_of_law hlaw
  · have hpend := s.queuePending_iff.mpr hq
    rw [exec_granting hi (Or.inl hpend), State.arbitrate_queue (s := s.setFbc { s.fbc with state := .idle }) hpend hp]
    unfold State.grantQueue
    simp only [State.setPassOver, State.oq_setFbc]
    cases hisolates : s.oq.isolates with
    | cons c rest =>
      refine ⟨_, _, State.done_of_law hlaw, rfl, rfl, rfl, rfl, fun c' rest' h => ?_, fun w rest' h => (by cases h), .refl s, rfl⟩
      cases h
      exact ⟨rfl, rfl, rfl, rfl, rfl⟩
    | nil =>
      cases hwrites : s.oq.writes with
      | nil => exact absurd hq (by simp [hisolates, hwrites])
      | cons w rest =>
        refine ⟨_, _, State.done_of_law hlaw, rfl, rfl, rfl, rfl, fun c' rest' h => (by cases h), fun w' rest' _ h => ?_, .refl s, rfl⟩
        cases h
        exact ⟨rfl, rfl, rfl, rfl, by simp [State.startTransaction]⟩
  · have hpoll : s.pollPending = true := by rw [State.pollPending, hslot]; rfl
    rw [exec_granting hi (Or.inr (Or.inl hpoll)), State.arbitrate_poll (s := s.setFbc { s.fbc with state := .idle }) hslot
      (hq.imp_left fun h => (State.queuePending_eq_false _).mpr h)]
    unfold State.grantPoll
    simp only [State.setPassOver, State.psq_setFbc, hslot]
    cases request with
    | poll c marked =>
      refine ⟨_, _, State.done_of_law hlaw, rfl, rfl, rfl, rfl, rfl, fun c' marked' h => ?_, fun n h => (by cases h), .refl s, rfl⟩
      cases h
      exact ⟨rfl, rfl, rfl, rfl⟩
    | zero n =>
      refine ⟨_, _, State.done_of_law hlaw, rfl, rfl, rfl, rfl, rfl, fun c' marked' h => (by cases h), fun n' h => ?_, .refl s, rfl⟩
      cases h
      exact ⟨rfl, rfl, rfl, rfl⟩

/-! ### The characters of a reading -/

/-- Clean characters without a malformed byte are taken one after the other. -/
theorem readingVerdictFrom_clean (idle : Bool) (rest : List FieldByte) : ∀ (bytes sofar : List Byte),
    (∀ l, l <+: sofar ++ bytes → sofar.length < l.length → malformedAt l = false ∧ l.length ≠ 7) →
    readingVerdictFrom idle sofar (cleanFieldBytes bytes ++ rest) = readingVerdictFrom idle (sofar ++ bytes) rest
  | [], sofar, _ => by simp [cleanFieldBytes]
  | b :: bytes, sofar, h => by
    obtain ⟨hform, hlen⟩ := h (sofar ++ [b]) (by simp) (by simp)
    have ih := readingVerdictFrom_clean idle rest bytes (sofar ++ [b]) fun l hl hlt =>
      h l (by simpa using hl) (by simp at hlt; omega)
    simp only [cleanFieldBytes, List.map_cons, List.cons_append, readingVerdictFrom, hform, hlen, Bool.false_and, Bool.not_true,
      Bool.false_or, if_neg Bool.false_ne_true, if_false]
    simpa [cleanFieldBytes] using ih

theorem malformedAt_of_prefix {r : Reading} {l : List Byte} (h : l <+: readingFrame r) : malformedAt l = false := by
  have hall : ∀ n, n ≤ 7 → malformedAt ((readingFrame r).take n) = false := by
    intro n hn
    interval_cases n <;> simp [readingFrame, fieldFrame, bytes16, malformedAt, yesNo?_yesNo]
  rw [List.prefix_iff_eq_take.mp h]
  exact hall _ (h.length_le.trans (by simp [readingFrame, fieldFrame, bytes16]))

/-- The beginning of a reading's characters. -/
theorem readingVerdict_beginning {r : Reading} {l more : List Byte} (h : (readingFrame r).tail = l ++ more) (hm : more ≠ [])
    (rest : List FieldByte) :
    readingVerdict (⟨0x3A, true, r.idleBefore⟩ :: (cleanFieldBytes l ++ rest)) = readingVerdictFrom r.idleBefore (0x3A :: l) rest := by
  have hframe : readingFrame r = 0x3A :: l ++ more := by
    rw [List.cons_append, ← h]; rfl
  have hlen : (0x3A :: l ++ more).length = 7 := by rw [← hframe]; simp [readingFrame, fieldFrame, bytes16]
  have hfirst : readingVerdict (⟨0x3A, true, r.idleBefore⟩ :: (cleanFieldBytes l ++ rest)) =
      readingVerdictFrom r.idleBefore [0x3A] (cleanFieldBytes l ++ rest) := by
    simp [readingVerdict, idleFirst, readingVerdictFrom, malformedAt]
  rw [hfirst]
  refine readingVerdictFrom_clean _ rest l [0x3A] fun p hp _ => ⟨malformedAt_of_prefix (r := r) ?_, ?_⟩
  · rw [hframe]; exact hp.trans (List.prefix_append _ _)
  · have := hp.length_le
    have := List.length_pos_of_ne_nil hm
    simp only [List.length_append, List.length_cons, List.length_nil, List.cons_append] at *
    omega

theorem yesNo?_eq_none {b : Byte} (h0 : b ≠ 0) (h1 : b ≠ 1) : yesNo? b = none := by
  rw [yesNo?, if_neg h0, if_neg h1]

/-- A bad stop bit, or idle inside the frame, at any of a reading's characters (R65). -/
theorem readingVerdict_interrupted {r : Reading} {before after : List FieldByte} {b : FieldByte}
    (h : receivedReading r = before ++ b :: after) (stopOk idle : Bool) (rest : List FieldByte) :
    (stopOk = false → before = [] ∨ idle = false → readingVerdict (before ++ ⟨b.value, stopOk, idle⟩ :: rest) = .malformed) ∧
      (before ≠ [] → idle = true → readingVerdict (before ++ ⟨b.value, stopOk, idle⟩ :: rest) = .broken) := by
  cases before with
  | nil =>
    refine ⟨fun hs _ => ?_, fun hne => absurd rfl hne⟩
    simp [readingVerdict, readingVerdictFrom, hs]
  | cons first before =>
    rw [receivedReading, List.cons_append, List.cons.injEq] at h
    obtain ⟨rfl, h⟩ := h
    obtain ⟨l, more, hsplit, rfl, hmore⟩ := List.map_eq_append_iff.mp h
    have hne : more ≠ [] := fun e => by rw [e] at hmore; cases hmore
    have hbegin := readingVerdict_beginning hsplit hne (⟨b.value, stopOk, idle⟩ :: rest)
    rw [List.cons_append, show List.map _ l = cleanFieldBytes l from rfl, hbegin]
    refine ⟨fun hs hi => ?_, fun _ hi => ?_⟩
    · have hi : idle = false := hi.resolve_left (by simp)
      simp [readingVerdictFrom, hs, hi]
    · simp [readingVerdictFrom, hi]

/-! ### Readings that answer nothing -/

/-- A reading that answers no transaction is stray (R74). -/
theorem State.takeReading_stray {s : State} {r : Reading} (h : ∀ x, s.fbc.state = .awaitReply x → x.matchesReading r = false) :
    s.takeReading r = s.strayReading := by
  unfold State.takeReading
  split
  · next x hx => rw [h x hx]; rfl
  all_goals rfl

theorem FrxState.beginsFrame_of {x : FrxState} {idle : Bool} (h : x = .taking ∨ idle = true) : x.beginsFrame idle = true := by
  rcases h with rfl | rfl
  · cases idle <;> rfl
  · rfl

/-- READING_RECEIVED at the start of a frame. -/
theorem exec_readingReceived {r : Reading} {s : State} (h : s.fbc.frx = .taking ∨ r.idleBefore = true) :
    exec (.readingReceived r) s = ((s.setFrx .discarding).takeReading r).done := by
  show execReadingReceived r s = _
  unfold execReadingReceived
  rw [FrxState.beginsFrame_of h]
  rfl

/-- Settles O49: by what the receiver makes of the characters, byte by byte. -/
theorem strayReadingsAreLatched : Obligations.StrayReadingsAreLatched := by
  refine ⟨fun s hlaw => ⟨fun r hf hx => ?_, fun received hf => ⟨fun hv => ?_, fun hv => ?_⟩⟩,
    fun s hlaw => ⟨fun r hf hi => ?_, fun received hf hi => ?_, State.done_of_law (s := s.setFrx .taking) hlaw⟩,
    fun type idle rest ht => ?_, fun r before after b stopOk idle rest h => readingVerdict_interrupted h stopOk idle rest,
    fun r flags rest h0 h1 => ?_, fun r check rest hc => ?_⟩
  · rw [exec_readingReceived hf, State.takeReading_stray (s := s.setFrx .discarding) hx]
    exact State.done_of_law hlaw
  · show execMalformedReading received s = _
    rcases hv with hv | hv <;>
    · simp only [execMalformedReading, FrxState.beginsFrame_of hf, hv]
      exact State.done_of_law hlaw
  · show execMalformedReading received s = _
    simp only [execMalformedReading, FrxState.beginsFrame_of hf, hv]
    exact State.done_of_law hlaw
  · show execReadingReceived r s = _
    unfold execReadingReceived
    rw [hf, hi]
    rfl
  · show execMalformedReading received s = _
    unfold execMalformedReading
    rw [hf, hi]
    rfl
  · have hbad : malformedAt [type] = true := by simpa [malformedAt] using ht
    simp [readingVerdict, readingVerdictFrom, hbad]
  · simp [readingVerdict, receivedReading, readingFrame, fieldFrame, bytes16, cleanFieldBytes, readingVerdictFrom, malformedAt,
      idleFirst, yesNo?_eq_none h0 h1]
  · have hne : ¬ check = crc8 [0x3A, r.node, r.point, BitVec.ofNat 8 (r.value.toNat / 256), BitVec.ofNat 8 r.value.toNat,
      yesNo r.measureFail] := hc
    simp [readingVerdict, receivedReading, readingFrame, fieldFrame, bytes16, cleanFieldBytes, readingVerdictFrom, malformedAt,
      idleFirst, yesNo?_yesNo, readingOf]
    simpa using hne

end Sys2Proof.Machine
end

