-- ==== Sys2Proof/Proofs/CodeArithmetic.lean ====
section
/-! PROOF. Calibration (R13) and the slew step (R27). -/

namespace Sys2Proof.Machine

/-- The calibrated value before it is limited (R13). -/
def intermediate (e : ChannelEntry) (data : Code) : Int := ((data.toNat * e.gainN.toNat / 32768 : Nat) : Int) + e.offset.toInt

theorem calibrate_low {e : ChannelEntry} {data : Code} (h : intermediate e data < e.codeMin.toNat) :
    calibrate e data = (e.codeMin, true) := if_pos h

theorem calibrate_high {e : ChannelEntry} {data : Code} (hle : e.codeMin.toNat ≤ e.codeMax.toNat)
    (h : (e.codeMax.toNat : Int) < intermediate e data) : calibrate e data = (e.codeMax, true) := by
  have hlow : ¬ intermediate e data < e.codeMin.toNat := by omega
  exact (if_neg hlow).trans (if_pos h)

theorem calibrate_between {e : ChannelEntry} {data : Code} (h1 : (e.codeMin.toNat : Int) ≤ intermediate e data)
    (h2 : intermediate e data ≤ e.codeMax.toNat) :
    ((calibrate e data).1.toNat : Int) = intermediate e data ∧ (calibrate e data).2 = false := by
  have heq : calibrate e data = (BitVec.ofInt 16 (intermediate e data), false) :=
    (if_neg (Int.not_lt.mpr h1)).trans (if_neg (Int.not_lt.mpr h2))
  have hmax := e.codeMax.isLt
  refine ⟨?_, by rw [heq]⟩
  rw [heq, BitVec.toNat_ofInt]
  omega

/-- Settles O52: below, above and between the limits. -/
theorem calibrationFollowsTheEntry : Obligations.CalibrationFollowsTheEntry := by
  intro e data hle
  refine ⟨⟨calibrate_low, calibrate_high hle, calibrate_between⟩, ?_⟩
  rcases lt_or_ge (intermediate e data) e.codeMin.toNat with hlow | hlow
  · rw [calibrate_low hlow]; exact ⟨le_refl _, hle⟩
  · rcases lt_or_ge (e.codeMax.toNat : Int) (intermediate e data) with hhigh | hhigh
    · rw [calibrate_high hle hhigh]; exact ⟨hle, le_refl _⟩
    · have := (calibrate_between hlow hhigh).1
      exact ⟨by omega, by omega⟩

theorem stepSize_le (e : ChannelEntry) (bypass : Bool) (d : Nat) : stepSize e bypass d ≤ d := by
  unfold stepSize
  split
  · exact le_refl d
  · split
    · exact Nat.min_le_right _ _
    · exact (Nat.min_le_right _ _).trans (by omega)

theorem stepSize_slewed {e : ChannelEntry} {bypass : Bool} (hs : e.slewStep ≠ 0) (hb : bypass = false) (d : Nat) :
    stepSize e bypass d = Nat.min e.slewStep.val (if e.slewShape = .linear then d else (d + 1) / 2) := by
  rw [stepSize, if_neg (by simp [hs, hb])]
  cases e.slewShape <;> rfl

theorem distance_up {a b : Code} {d : Nat} (h : a.toNat + d = b.toNat) : distance a b = d := by
  rw [distance, if_pos (by omega)]; omega

theorem distance_down {a b : Code} {d : Nat} (h : b.toNat + d = a.toNat) : distance a b = d := by
  unfold distance; split <;> omega

theorem stepCode_up {e : ChannelEntry} {bypass : Bool} {current goal : Code} {d : Nat} (h : current.toNat + d = goal.toNat) :
    (stepCode e bypass current goal).toNat = current.toNat + stepSize e bypass d := by
  have hle := stepSize_le e bypass d
  have hgoal := goal.isLt
  have hup : current.toNat ≤ goal.toNat := by omega
  simp only [stepCode, distance_up h, hup, if_true, BitVec.toNat_ofNat]
  omega

theorem stepCode_down {e : ChannelEntry} {bypass : Bool} {current goal : Code} {d : Nat} (h : goal.toNat + d = current.toNat) :
    (stepCode e bypass current goal).toNat = current.toNat - stepSize e bypass d := by
  have hle := stepSize_le e bypass d
  have hcurrent := current.isLt
  rcases Nat.eq_zero_or_pos d with rfl | hd
  · have h0 : current.toNat + 0 = goal.toNat := h.symm
    rw [stepCode_up h0]
    omega
  · have hup : ¬ current.toNat ≤ goal.toNat := by omega
    simp only [stepCode, distance_down h, hup, if_false, BitVec.toNat_ofNat]
    omega

/-- A step over the whole distance reaches the goal. -/
theorem stepCode_whole {e : ChannelEntry} {bypass : Bool} {current goal : Code} (h : ∀ d, stepSize e bypass d = d) :
    stepCode e bypass current goal = goal := by
  apply BitVec.eq_of_toNat_eq
  rcases Nat.le_total current.toNat goal.toNat with hle | hle
  · obtain ⟨d, hd⟩ := Nat.exists_eq_add_of_le hle
    rw [stepCode_up hd.symm, h, hd]
  · obtain ⟨d, hd⟩ := Nat.exists_eq_add_of_le hle
    rw [stepCode_down hd.symm, h]
    omega

/-- Settles O53: the step has the size of the table in the direction of the goal. -/
theorem stepCodeFollowsTheTable : Obligations.StepCodeFollowsTheTable := by
  intro e bypass current goal
  refine ⟨?_, fun h => stepCode_whole fun d => if_pos h, fun d _ hs hb size hsize => ⟨?_, fun h => ?_, fun h => ?_⟩⟩
  · rintro rfl
    apply BitVec.eq_of_toNat_eq
    have hle := stepSize_le e bypass 0
    rw [stepCode_up (d := 0) rfl]
    omega
  · rw [hsize, ← stepSize_slewed hs hb]; exact stepSize_le e bypass d
  · rw [hsize, ← stepSize_slewed hs hb]; exact stepCode_up h
  · rw [hsize, ← stepSize_slewed hs hb]; exact stepCode_down h

end Sys2Proof.Machine
end

