-- ==== Sys2Proof/Proofs/SequencerEvents.lean ====
section
/-! PROOF. The events of the poll sequencer (R90 to R97): what the end of a slot does, by the state and the record, and what starts it. -/

namespace Sys2Proof.Machine

variable {s : State}

/-! ### SEQ_RUN and SEQ_STOP -/

theorem Sequencer.cycling_cycleTimer (q : Sequencer) : q.cycling.cycleTimer =
    if q.record.mode = .cyclic ∧ q.record.cyclePeriod ≠ 0 then .running (q.record.cyclePeriod.val * 1000) else .stopped := by
  simp [Sequencer.cycling, SequenceRecord.usesCycleTimer]

/-- Settles O35: by the sequencer's state. -/
theorem seqRunAndSeqStopActByState : Obligations.SeqRunAndSeqStopActByState := by
  refine ⟨fun tag rest s hlaw htakes => ⟨fun hbusy => ?_, fun hidle request hreq => ?_⟩,
    fun tag rest s hlaw htakes => ⟨fun hrest => ?_, fun hwait => ?_, fun hrun hpoll => ?_, fun hrun hpoll htimer => ?_⟩⟩
  · show execSeqRun tag s = _
    exact State.takeCommand_respond htakes hlaw (if_neg hbusy)
  · have hreq' : s.slotRequest s.psq.record.slots[s.psq.record.startIndex.val] = request := by
      rw [hreq]
      cases s.psq.record.slots[s.psq.record.startIndex.val] <;> rfl
    rw [← Sequencer.cycling_cycleTimer, ← hreq']
    show execSeqRun tag s = _
    exact State.takeCommand_respond_of (u := (s.withFrames rest).startCycle) htakes hlaw ((if_pos hidle).trans rfl) rfl rfl
  · have hstop : (s.withFrames rest).stopSequence = s.withFrames rest := by
      rcases hrest with h | h <;> rw [State.stopSequence, State.withFrames_psq, h]
    show execSeqStop tag s = _
    exact State.takeCommand_respond htakes hlaw (by rw [hstop]; rfl)
  · show execSeqStop tag s = _
    exact State.takeCommand_respond_of (u := (s.withFrames rest).setPsq { s.psq with state := .idle, cycleTimer := .stopped })
      htakes hlaw (by rw [State.stopSequence, State.withFrames_psq, hwait]; rfl) rfl rfl
  · have hstop : (s.withFrames rest).stopSequence =
        (s.withFrames rest).setPsq { s.psq with state := .seqStopping, cycleTimer := .stopped } := by
      rw [State.stopSequence, State.withFrames_psq, hrun]
      exact if_neg hpoll
    show execSeqStop tag s = _
    exact State.takeCommand_respond_of (u := (s.withFrames rest).setPsq { s.psq with state := .seqStopping, cycleTimer := .stopped })
      htakes hlaw (by rw [hstop]; rfl) rfl rfl
  · have hstop : (s.withFrames rest).stopSequence = ((s.withFrames rest).setPsq
        { s.psq with state := .seqStopping, cycleTimer := .stopped, pollSlot := none, slotPoll := .none }).setFbc
        { s.fbc with passOver := 0 } := by
      rw [State.stopSequence, State.withFrames_psq, hrun]
      exact (if_pos hpoll).trans (if_neg fun h => htimer h.1)
    show execSeqStop tag s = _
    exact State.takeCommand_respond_of (u := ((s.withFrames rest).setPsq
      { s.psq with state := .seqStopping, cycleTimer := .stopped, pollSlot := none, slotPoll := .none }).setFbc
      { s.fbc with passOver := 0 }) htakes hlaw (by rw [hstop]; rfl) rfl rfl

/-! ### The end of a slot -/

/-- The slot may end: its poll is NONE or DONE (R93). -/
theorem State.endSlotIfDue_of_due (h1 : s.psq.spacingTimer = .expired) (h2 : s.psq.slotPoll = .none ∨ s.psq.slotPoll = .done) :
    s.endSlotIfDue = s.endSlot := if_pos ⟨h1, h2⟩

theorem State.endSlot_of_stopping (h : s.psq.state = .seqStopping) :
    s.endSlot = s.setPsq { s.psq with slotPoll := .none, state := .idle } := by
  simp only [State.endSlot, State.modPsq, State.psq_setPsq, h]
  rfl

theorem State.endSlot_of_running (h : s.psq.state = .running) : s.endSlot =
    if s.psq.currentIndex = s.psq.record.lastSlot then (s.setPsq { s.psq with slotPoll := .none }).endWalk
    else (s.setPsq { s.psq with slotPoll := .none }).startSlot (s.psq.currentIndex + 1) := by
  simp only [State.endSlot, State.modPsq, State.psq_setPsq, h]
  rfl

theorem State.endWalk_of_once (h : s.psq.record.mode = .once) :
    s.endWalk = (s.setPsq { s.psq with state := .idle, cycleTimer := .stopped }).offerPart .seqDone := by
  simp only [State.endWalk, h]
  rfl

theorem State.endWalk_of_waiting (h : s.psq.record.mode = .cyclic) (hp : s.psq.record.cyclePeriod ≠ 0)
    (he : s.psq.periodElapsed = false) : s.endWalk = s.setPsq { s.psq with state := .waiting } := by
  unfold State.endWalk
  rw [h]
  exact (if_neg hp).trans (if_neg (by rw [he]; decide))

/-- The cycle that has overrun its period (R96). -/
def State.overrun (s : State) : State := (s.latch fun l => { l with seqOverrun := true }).offerPart .seqOverrun

theorem State.endWalk_of_overrun (h : s.psq.record.mode = .cyclic) (hp : s.psq.record.cyclePeriod ≠ 0)
    (he : s.psq.periodElapsed = true) : s.endWalk = s.overrun.startCycle := by
  simp only [State.endWalk, h, hp, he, if_false, if_true]
  rfl

theorem State.endWalk_of_unperiodic (h : s.psq.record.mode = .cyclic) (hp : s.psq.record.cyclePeriod = 0) : s.endWalk = s.startCycle := by
  simp only [State.endWalk, h, hp, if_true]

theorem State.overrun_psq (s : State) : s.overrun.psq = s.psq := (State.offerPart_onlyReports _ _).field.2

/-- What a slot places rests on the channels and the node table. -/
theorem State.places_congr {t : State} (hctx : t.ctx = s.ctx) (hnt : t.nt = s.nt) (slot : Slot) (request : Option PollRequest) :
    t.places slot request ↔ s.places slot request := by
  cases slot <;> simp only [State.places, State.ch, State.node, hctx, hnt]

theorem State.overrun_places (s : State) (slot : Slot) (request : Option PollRequest) :
    s.overrun.places slot request ↔ s.places slot request :=
  have honly := (s.latch fun l => { l with seqOverrun := true }).offerPart_onlyReports .seqOverrun
  State.places_congr honly.channels.1 honly.tables.2 slot request

/-- The sequencer as a slot's start leaves it, with the poll that the slot has placed. -/
structure Sequencer.Started (s : State) (record : SequenceRecord) (i : Fin 16) (q : Sequencer) : Prop where
  running : q.state = .running
  index : q.currentIndex = i
  spacing : q.spacingTimer = .running (record.slotSpacing.val * 100)
  places : s.places record.slots[i.val] q.pollSlot
  slotPoll : q.slotPoll = if q.pollSlot.isSome then .pending else .none

theorem State.startCycle_started (s : State) :
    Sequencer.Started s s.psq.record s.psq.record.startIndex s.startCycle.psq ∧ s.startCycle.psq.periodElapsed = false :=
  ⟨⟨rfl, rfl, rfl, s.places_slotRequest _, rfl⟩, rfl⟩

/-- A walk that goes on with its next cycle (R96). -/
theorem State.endWalk_started (h : s.psq.record.mode = .cyclic) (he : s.psq.record.cyclePeriod = 0 ∨ s.psq.periodElapsed = true) :
    Sequencer.Started s s.psq.record s.psq.record.startIndex s.endWalk.psq ∧ s.endWalk.psq.periodElapsed = false := by
  by_cases hp : s.psq.record.cyclePeriod = 0
  · rw [State.endWalk_of_unperiodic h hp]
    exact s.startCycle_started
  · rw [State.endWalk_of_overrun h hp (he.resolve_left hp)]
    obtain ⟨hstarted, helapsed⟩ := s.overrun.startCycle_started
    rw [s.overrun_psq] at hstarted
    exact ⟨⟨hstarted.running, hstarted.index, hstarted.spacing, (s.overrun_places _ _).mp hstarted.places, hstarted.slotPoll⟩, helapsed⟩

/-! ### The timers -/

/-- SPACING_TIMER_EXPIRY of a slot that ends. -/
theorem exec_spacingTimerExpiry {us : Nat} (h : s.psq.spacingTimer = .running us) :
    exec .spacingTimerExpiry s = (s.setPsq { s.psq with spacingTimer := .expired }).endSlotIfDue.done := by
  show s.event s.psq.spacingTimer.isRunning State.spacingExpired = _
  rw [h]
  rfl

theorem exec_cycleTimerExpiry (h : s.psq.cycleTimer.isRunning = true) : exec .cycleTimerExpiry s = s.cycleExpired.done := by
  show s.event s.psq.cycleTimer.isRunning State.cycleExpired = _
  rw [h]
  rfl

/-- The end of a transmission's start, for a state whose sequencer and outgoing reports are known. -/
theorem State.done_psq (u : State) : ∃ t, u.done = .next t ∧ t.psq = u.psq ∧ t.outgoing = u.outgoing ∧ u.OnlyReports t :=
  ⟨_, rfl, u.beginTransmission_onlyReports.field.2, u.beginTransmission_outgoing, u.beginTransmission_onlyReports⟩

theorem spacingTimerExpiry_endsTheSlot {us : Nat} (hlaw : s.TransmitterLaw) (h : s.psq.spacingTimer = .running us) :
    (s.psq.slotPoll = .pending ∨ s.psq.slotPoll = .inFlight →
       exec .spacingTimerExpiry s = .next { s with psq := { s.psq with spacingTimer := .expired } }) ∧
     (s.psq.slotPoll = .none ∨ s.psq.slotPoll = .done →
       (s.psq.state = .seqStopping → exec .spacingTimerExpiry s =
         .next { s with psq := { s.psq with spacingTimer := .expired, slotPoll := .none, state := .idle } }) ∧
       (s.psq.state = .running → s.psq.currentIndex ≠ s.psq.record.lastSlot →
         ∃ t, exec .spacingTimerExpiry s = .next t ∧ t.psq.currentIndex = s.psq.currentIndex + 1 ∧ t.psq.state = .running ∧
           t.psq.spacingTimer = .running (s.psq.record.slotSpacing.val * 100) ∧
           s.places s.psq.record.slots[(s.psq.currentIndex + 1).val] t.psq.pollSlot ∧
           t.psq.slotPoll = (if t.psq.pollSlot.isSome then .pending else .none) ∧ t.outgoing = s.outgoing ∧
           s.OnlyReports { t with psq := s.psq }) ∧
       (s.psq.state = .running → s.psq.currentIndex = s.psq.record.lastSlot →
         ∃ t, exec .spacingTimerExpiry s = .next t ∧
           (s.psq.record.mode = .once → t.psq.state = .idle ∧ t.psq.cycleTimer = .stopped ∧
             t.outgoing = s.clp.tx.toList ++ partPlaced s.rq .seqDone) ∧
           (s.psq.record.mode = .cyclic → s.psq.record.cyclePeriod ≠ 0 → s.psq.periodElapsed = false →
             t.psq.state = .waiting ∧ t.outgoing = s.outgoing) ∧
           (s.psq.record.mode = .cyclic → s.psq.record.cyclePeriod = 0 ∨ s.psq.periodElapsed = true →
             t.psq.state = .running ∧ t.psq.currentIndex = s.psq.record.startIndex ∧ t.psq.periodElapsed = false ∧
             s.places s.psq.record.slots[s.psq.record.startIndex.val] t.psq.pollSlot ∧
             t.psq.slotPoll = (if t.psq.pollSlot.isSome then .pending else .none)) ∧
           (s.psq.record.mode = .cyclic → s.psq.record.cyclePeriod ≠ 0 → s.psq.periodElapsed = true →
             t.mgx.latches.seqOverrun = true ∧ t.outgoing = s.clp.tx.toList ++ partPlaced s.rq .seqOverrun))) := by
  rw [exec_spacingTimerExpiry h]
  refine ⟨fun hpoll => ?_, fun hpoll => ?_⟩
  · have hnot : (s.setPsq { s.psq with spacingTimer := .expired }).endSlotIfDue =
        s.setPsq { s.psq with spacingTimer := .expired } := by
      refine if_neg fun hdue => ?_
      rcases hpoll with hp | hp <;> rcases hdue.2 with hd | hd <;> rw [State.psq_setPsq, hp] at hd <;> cases hd
    rw [hnot]
    exact State.done_of_law hlaw
  · rw [State.endSlotIfDue_of_due (by rfl) (by exact hpoll)]
    refine ⟨fun hstate => ?_, fun hstate hnext => ?_, fun hstate hlast => ?_⟩
    · rw [State.endSlot_of_stopping (by exact hstate)]
      exact State.done_of_law hlaw
    · rw [State.endSlot_of_running (by exact hstate), if_neg (by exact hnext)]
      refine ⟨_, State.done_of_law hlaw, rfl, hstate, rfl, s.places_slotRequest _, rfl, rfl, .refl s⟩
    · rw [State.endSlot_of_running (by exact hstate), if_pos (by exact hlast)]
      obtain ⟨t, ht, hpsq, hout, honly⟩ := State.done_psq
        (((s.setPsq { s.psq with spacingTimer := .expired }).setPsq { s.psq with spacingTimer := .expired, slotPoll := .none }).endWalk)
      refine ⟨t, ht, fun honce => ?_, fun hcyclic hperiod helapsed => ?_, fun hcyclic hover => ?_, fun hcyclic hperiod helapsed => ?_⟩
      · rw [State.endWalk_of_once (by exact honce)] at hpsq hout
        rw [hpsq, hout, (State.offerPart_onlyReports _ _).field.2]
        exact ⟨rfl, rfl, State.offerPart_outgoing (by exact hlaw) _⟩
      · rw [State.endWalk_of_waiting (by exact hcyclic) (by exact hperiod) (by exact helapsed)] at hpsq hout
        rw [hpsq, hout]
        exact ⟨rfl, rfl⟩
      · obtain ⟨hstarted, hperiod⟩ := State.endWalk_started
          (s := (s.setPsq { s.psq with spacingTimer := .expired }).setPsq { s.psq with spacingTimer := .expired, slotPoll := .none })
          hcyclic hover
        rw [hpsq]
        exact ⟨hstarted.running, hstarted.index, hperiod, hstarted.places, hstarted.slotPoll⟩
      · rw [State.endWalk_of_overrun (by exact hcyclic) (by exact hperiod) (by exact helapsed)] at hout honly
        rw [honly.units.2.2.1, hout]
        have hover := State.offerPart_onlyReports (((s.setPsq { s.psq with spacingTimer := .expired }).setPsq
          { s.psq with spacingTimer := .expired, slotPoll := .none }).latch fun l => { l with seqOverrun := true }) .seqOverrun
        refine ⟨?_, State.offerPart_outgoing (s := ((s.setPsq { s.psq with spacingTimer := .expired }).setPsq
          { s.psq with spacingTimer := .expired, slotPoll := .none }).latch fun l => { l with seqOverrun := true }) hlaw _⟩
        exact (congrArg (fun m : Executor => m.latches.seqOverrun) hover.units.2.2.1).trans rfl

theorem cycleTimerExpiry_actsByState (hlaw : s.TransmitterLaw) (h : s.psq.cycleTimer.isRunning = true) :
     (s.psq.state = .running → exec .cycleTimerExpiry s =
       .next { s with psq := { s.psq with cycleTimer := .expired, periodElapsed := true } }) ∧
     (s.psq.state = .seqStopping → exec .cycleTimerExpiry s = .next { s with psq := { s.psq with cycleTimer := .expired } }) ∧
     (s.psq.state = .waiting → ∃ t, exec .cycleTimerExpiry s = .next t ∧ t.psq.state = .running ∧ t.psq.periodElapsed = false ∧
       t.psq.currentIndex = s.psq.record.startIndex ∧ t.psq.spacingTimer = .running (s.psq.record.slotSpacing.val * 100) ∧
       s.places s.psq.record.slots[s.psq.record.startIndex.val] t.psq.pollSlot ∧
       t.psq.slotPoll = (if t.psq.pollSlot.isSome then .pending else .none) ∧
       t.outgoing = s.outgoing ∧ s.OnlyReports { t with psq := s.psq }) := by
  rw [exec_cycleTimerExpiry h]
  unfold State.cycleExpired
  simp only [State.modPsq, State.psq_setPsq]
  refine ⟨fun hstate => ?_, fun hstate => ?_, fun hstate => ?_⟩
  · simp only [hstate]
    exact State.done_of_law hlaw
  · simp only [hstate]
    exact State.done_of_law hlaw
  · simp only [hstate]
    exact ⟨_, State.done_of_law hlaw, rfl, rfl, rfl, rfl, s.places_slotRequest _, rfl, rfl, .refl s⟩

/-! ### The end of a poll -/

theorem State.pollReading_psq (s : State) (c : ChannelNo) (n : Node) (raw : Code) : (s.pollReading c n raw).psq = s.psq := by
  have hoffer : ∀ (u : State) (value : Code), (u.offerReadback c value).psq = u.psq := fun u value => by
    unfold State.offerReadback
    split
    · rw [State.psq_modCh]; rfl
    · rfl
  unfold State.pollReading
  dsimp only
  split
  · rw [hoffer, (State.setActive_onlyChannel _ _ _).field.2, State.psq_modCh]
  · rw [(State.setActive_onlyChannel _ _ _).field.2, State.psq_modCh]

theorem State.monitorPoll_psq (s : State) (c : ChannelNo) (n : Node) (r : FieldResult) : (s.monitorPoll c n r).psq = s.psq := by
  cases r with
  | value raw => exact s.pollReading_psq c n raw
  | ok => exact (s.norespResult_onlyChannel c true).field.2
  | noNode | stuck | busHeld | noReply => exact (s.norespResult_onlyChannel c false).field.2

theorem State.takePoll_psq (s : State) (c : ChannelNo) (n : Node) (r : FieldResult) : (s.takePoll c n r).psq = s.psq := by
  unfold State.takePoll
  split
  · rfl
  · exact (State.Drives.stepTest _ c).frame.field.2.trans (s.monitorPoll_psq c n r)

/-- The owners' share of a POLL or ZERO leaves the sequencer as it is. -/
theorem State.told_psq {x : Transaction} (hj : x.job = .zero ∨ ∃ c, x.job = .poll c) (r : FieldResult) : (s.told x r).psq = s.psq := by
  unfold State.told State.tellOwners
  split
  · rfl
  · rcases hj with hj | ⟨c, hj⟩ <;> rw [hj]
    · cases r with
      | value raw => exact State.psq_modNode _ _ _
      | ok | noNode | stuck | busHeld | noReply => rfl
    · exact State.takePoll_psq _ c x.node r

/-- The completion of a POLL or ZERO: the state that tells the sequencer holds it as it was. -/
theorem State.complete_of_poll (s : State) {x : Transaction} (hj : x.job = .zero ∨ ∃ c, x.job = .poll c) (r : FieldResult) :
    ∃ v : State, v.psq = s.psq ∧ s.complete x r = v.pollEnded := by
  refine ⟨(s.told x r).creditNode x.node r.success, ?_, ?_⟩
  · rw [(State.creditNode_only _ _ _).field.2, State.psq_modNode, State.told_psq hj]
  · rw [State.complete_eq]
    rcases hj with hj | ⟨c, hj⟩ <;> rw [hj] <;> rfl

/-- An event that ends the reply awaited for a POLL or ZERO. -/
theorem exec_reply {i : Instr} {x : Transaction} (hstate : s.fbc.state = .awaitReply x)
    (hi : i = .responseTimeoutExpiry ∨ ∃ r, i = .readingReceived r ∧ (s.fbc.frx = .taking ∨ r.idleBefore = true) ∧
      x.matchesReading r = true) : ∃ (u : State) (r : FieldResult), u.psq = s.psq ∧ exec i s = (u.complete x r).done := by
  rcases hi with rfl | ⟨r, rfl, hframe, hmatch⟩
  · refine ⟨s, .noReply, rfl, ?_⟩
    show execResponseTimeoutExpiry s = _
    simp only [execResponseTimeoutExpiry, hstate]
  · refine ⟨s.setFrx .discarding, readingResult r, rfl, ?_⟩
    have hstate' : (s.setFrx .discarding).fbc.state = .awaitReply x := hstate
    rw [exec_readingReceived hframe]
    simp only [State.takeReading, hstate', hmatch, if_true]

/-- Settles O56: a slot ends by its timer or by its poll, and the walk goes on as its record says. -/
theorem slotsAndCyclesEnd : Obligations.SlotsAndCyclesEnd := by
  refine ⟨fun us s hlaw h => spacingTimerExpiry_endsTheSlot hlaw h, fun s hlaw h => cycleTimerExpiry_actsByState hlaw h,
    fun r => ⟨fun h => if_pos (Fin.le_def.mpr h), fun h => if_neg fun h' => absurd (Fin.le_def.mp h') (Nat.not_le.mpr h)⟩,
    fun i x s hj hstate hpoll hi => ?_⟩
  obtain ⟨u, r, hu, hexec⟩ := exec_reply hstate hi
  obtain ⟨v, hv, hended⟩ := u.complete_of_poll hj r
  rw [hu] at hv
  have hdone : (v.setPsq { v.psq with slotPoll := .done }).psq = { s.psq with slotPoll := .done } := by rw [State.psq_setPsq, hv]
  have hended : u.complete x r = (v.setPsq { v.psq with slotPoll := .done }).endSlotIfDue := hended
  obtain ⟨w, hw⟩ : ∃ w, w = v.setPsq { v.psq with slotPoll := .done } := ⟨_, rfl⟩
  rw [← hw] at hdone hended
  obtain ⟨t, ht, hpsq, -, honly⟩ := State.done_psq w.endSlotIfDue
  refine ⟨t, by rw [hexec, hended, ht], fun htimer => ?_, fun htimer hs => ?_, fun htimer hs hnext => ?_, fun htimer hs hlast => ?_⟩
  · rw [hpsq]
    have hnot : w.endSlotIfDue = w := by
      refine if_neg fun hdue => ?_
      rw [hdone] at hdue
      have := hdue.1
      dsimp only at this
      rw [this] at htimer; cases htimer
    rw [hnot, hdone]
  all_goals
    have hdue : w.endSlotIfDue = w.endSlot :=
      State.endSlotIfDue_of_due (by rw [hdone]; exact htimer) (Or.inr (by rw [hdone]))
    rw [hdue] at hpsq honly
    have hstate' : w.psq.state = s.psq.state := by rw [hdone]
    have hplaces : ∀ slot request, w.places slot request → t.places slot request := fun slot request =>
      (State.places_congr (honly.channels.1.trans w.endSlot_only.channels.1) (honly.tables.2.trans w.endSlot_only.tables.2) _ _).mpr
  · rw [hpsq, State.endSlot_of_stopping (hstate'.trans hs), State.psq_setPsq, hdone]
  · have hslot : Sequencer.Started w s.psq.record (s.psq.currentIndex + 1) t.psq := by
      rw [hpsq, State.endSlot_of_running (hstate'.trans hs), if_neg (by rw [hdone]; exact hnext), hdone]
      exact ⟨hs, rfl, rfl, w.places_slotRequest _, rfl⟩
    exact ⟨hslot.index, hslot.running, hslot.spacing, hplaces _ _ hslot.places, hslot.slotPoll⟩
  · have hwalk : t.psq = (w.setPsq { s.psq with slotPoll := .none }).endWalk.psq := by
      rw [hpsq, State.endSlot_of_running (hstate'.trans hs), if_pos (by rw [hdone]; exact hlast), hdone]
    refine ⟨fun honce => ?_, fun hcyclic hperiod helapsed => ?_, fun hcyclic hover => ?_⟩
    · rw [hwalk, State.endWalk_of_once (by exact honce), (State.offerPart_onlyReports _ _).field.2]
      rfl
    · rw [hwalk, State.endWalk_of_waiting (by exact hcyclic) (by exact hperiod) (by exact helapsed)]
      rfl
    · obtain ⟨hstarted, helapsed⟩ := State.endWalk_started (s := w.setPsq { s.psq with slotPoll := .none }) hcyclic hover
      rw [← hwalk] at hstarted helapsed
      exact ⟨hstarted.running, hstarted.index, helapsed, hplaces _ _ hstarted.places, hstarted.slotPoll⟩

end Sys2Proof.Machine
end

