-- ==== Sys2Proof/Proofs/ActiveSetChanges.lean ====
section
/-! PROOF. What a change of the active set does (R123, R130, R131, R137): the context, the drive that is told of a new action, and the
ALARM report; and the drive's answer to it (R24, R33). -/

namespace Sys2Proof.Machine

variable {s : State} {c : ChannelNo}

/-! ### The effective action -/

theorem Action.rank_max (n : Nat) (a b : Action) : n ≤ (a.max b).rank ↔ n ≤ a.rank ∨ n ≤ b.rank := by
  unfold Action.max
  split <;> omega

theorem Action.rank_when {n : Nat} (hn : 1 ≤ n) (b : Bool) (a : Action) : n ≤ (Action.when b a).rank ↔ b = true ∧ n ≤ a.rank := by
  cases b
  · simp only [Action.when, Action.rank, Bool.false_eq_true, if_false, false_and, iff_false]; omega
  · simp [Action.when]

/-- An active class maps to an action of at least this rank. -/
theorem effectiveAction_rank {n : Nat} (hn : 1 ≤ n) (e : ChannelEntry) (k : ClassSet) : n ≤ (effectiveAction e k).rank ↔
    (k.trk = true ∧ n ≤ e.actTrack.rank) ∨ ((k.high = true ∨ k.low = true) ∧ n ≤ e.actLimit.rank) ∨
      (k.noresp = true ∧ n ≤ e.actNoresp.rank) ∨ (k.silence = true ∧ n ≤ e.actSilence.rank) := by
  simp only [effectiveAction, Action.rank_max, Action.rank_when hn, Bool.or_eq_true, or_assoc]

theorem Action.rank_three (a : Action) : 3 ≤ a.rank ↔ a = .isolate := by cases a <;> simp [Action.rank]

theorem Action.rank_two (a : Action) : 2 ≤ a.rank ↔ a = .safe ∨ a = .isolate := by cases a <;> simp [Action.rank]

theorem Action.rank_one (a : Action) : 1 ≤ a.rank ↔ a = .hold ∨ a = .safe ∨ a = .isolate := by cases a <;> simp [Action.rank]

theorem mapsTo_isolate_iff (e : ChannelEntry) (k : ClassSet) : e.mapsTo k .isolate ↔ 3 ≤ (effectiveAction e k).rank := by
  simp only [effectiveAction_rank (show 1 ≤ 3 by omega), Action.rank_three, ChannelEntry.mapsTo]

theorem mapsTo_safe_iff (e : ChannelEntry) (k : ClassSet) :
    e.mapsTo k .safe ∨ e.mapsTo k .isolate ↔ 2 ≤ (effectiveAction e k).rank := by
  simp only [effectiveAction_rank (show 1 ≤ 2 by omega), Action.rank_two, ChannelEntry.mapsTo]
  grind

theorem mapsTo_hold_iff (e : ChannelEntry) (k : ClassSet) :
    e.mapsTo k .hold ∨ e.mapsTo k .safe ∨ e.mapsTo k .isolate ↔ 1 ≤ (effectiveAction e k).rank := by
  simp only [effectiveAction_rank (le_refl 1), Action.rank_one, ChannelEntry.mapsTo]
  grind

/-- The effective action is the highest to which an active class maps (R130). -/
theorem effectiveAction_iff (e : ChannelEntry) (k : ClassSet) :
    (effectiveAction e k = .isolate ↔ e.mapsTo k .isolate) ∧
      (effectiveAction e k = .safe ↔ e.mapsTo k .safe ∧ ¬ e.mapsTo k .isolate) ∧
      (effectiveAction e k = .hold ↔ e.mapsTo k .hold ∧ ¬ e.mapsTo k .safe ∧ ¬ e.mapsTo k .isolate) ∧
      (effectiveAction e k = .none ↔ ¬ e.mapsTo k .hold ∧ ¬ e.mapsTo k .safe ∧ ¬ e.mapsTo k .isolate) := by
  have h3 := mapsTo_isolate_iff e k
  have h2 := mapsTo_safe_iff e k
  have h1 := mapsTo_hold_iff e k
  generalize e.mapsTo k .hold = hold at *
  generalize e.mapsTo k .safe = safe at *
  generalize e.mapsTo k .isolate = isolate at *
  cases ha : effectiveAction e k <;> rw [ha] at h1 h2 h3 <;> simp [Action.rank] at h1 h2 h3 ⊢ <;> grind

/-! ### The engine's operations leave the goal -/

theorem State.issueWrite_ch (s : State) (c : ChannelNo) (k : Code) (r : Bool) : (s.issueWrite c k r).ch c =
    { s.ch c with sent := some k, stepTimer := .running (s.entry c).stepLength } := State.ch_modCh_self _ _ _

theorem State.stepTest_goal (s : State) (c : ChannelNo) : ((s.stepTest c).ch c).goal = (s.ch c).goal := by
  unfold State.stepTest
  split
  · rfl
  · split
    · rfl
    · split
      · rw [State.enterSteady, State.ch_modCh_self]
      · split
        · rfl
        · unfold State.issueStep
          split
          · rw [State.issueWrite_ch]
          · rfl

theorem State.stepTest_drive (s : State) (c : ChannelNo) : ((s.stepTest c).ch c).drive = (s.ch c).drive ∨
    ((s.ch c).drive = .moving ∧ ((s.stepTest c).ch c).drive = .steady) := by
  unfold State.stepTest
  split
  · exact Or.inl rfl
  · next hd =>
    split
    · exact Or.inl rfl
    · split
      · exact Or.inr ⟨not_not.mp hd, by rw [State.enterSteady, State.ch_modCh_self]⟩
      · split
        · exact Or.inl rfl
        · unfold State.issueStep
          split
          · rw [State.issueWrite_ch]; exact Or.inl rfl
          · exact Or.inl rfl

/-- A request for a new code sets no more than the sent code of the context (R25, R53). -/
theorem State.requestCode_ch (s : State) (c : ChannelNo) (k : Code) : (s.requestCode c k).ch c =
    if s.oq.hasWrite c = true ∨ s.writeJustGranted c = true then { s.ch c with sent := some k } else s.ch c := by
  unfold State.requestCode State.meetGrant State.coalesce
  by_cases hw : s.oq.hasWrite c = true
  · rw [if_pos hw, if_pos (Or.inl hw), State.ch_modCh_self]
    rfl
  · rw [if_neg hw]
    by_cases hg : s.writeJustGranted c = true
    · rw [if_pos hg, if_pos (Or.inr hg), State.ch_modCh_self]
    · rw [if_neg hg, if_neg (not_or.mpr ⟨hw, hg⟩)]

theorem State.requestCode_keeps (s : State) (c : ChannelNo) (k : Code) :
    ((s.requestCode c k).ch c).goal = (s.ch c).goal ∧ ((s.requestCode c k).ch c).drive = (s.ch c).drive := by
  rw [State.requestCode_ch]
  split <;> exact ⟨rfl, rfl⟩

theorem State.coalesceToGoal_keeps (s : State) (c : ChannelNo) :
    ((s.coalesceToGoal c).ch c).goal = (s.ch c).goal ∧ ((s.coalesceToGoal c).ch c).drive = (s.ch c).drive := by
  unfold State.coalesceToGoal
  split
  · split
    · exact s.requestCode_keeps c _
    · exact ⟨rfl, rfl⟩
  · exact ⟨rfl, rfl⟩

/-- A goal that is set is the goal, and the channel goes on driving. -/
theorem State.setGoal_goal (s : State) (c : ChannelNo) (goal : Option Code) : ((s.setGoal c goal).ch c).goal = goal := by
  unfold State.setGoal
  split
  · next h => exact h.symm
  · rw [State.stepTest_goal, (State.coalesceToGoal_keeps _ c).1, State.ch_modCh_self]

theorem State.setGoal_drive (s : State) (c : ChannelNo) (goal : Option Code) (h : (s.ch c).drive = .moving ∨ (s.ch c).drive = .steady) :
    ((s.setGoal c goal).ch c).drive = .moving ∨ ((s.setGoal c goal).ch c).drive = .steady := by
  unfold State.setGoal
  split
  · exact h
  · have hmoving : (((s.modCh c fun x =>
        { x with goal := goal, drive := if x.drive = .steady then .moving else x.drive }).coalesceToGoal c).ch c).drive = .moving := by
      rw [(State.coalesceToGoal_keeps _ c).2, State.ch_modCh_self]
      rcases h with h | h <;> simp [h]
    rcases State.stepTest_drive ((s.modCh c fun x =>
        { x with goal := goal, drive := if x.drive = .steady then .moving else x.drive }).coalesceToGoal c) c with h | h
    · exact Or.inl (h.trans hmoving)
    · exact Or.inr h.2

/-! ### The drive is told of a new action -/

/-- The drive states that a change of the effective action does not reach (R24, R33). -/
def DriveState.untold (d : DriveState) : Prop := d = .off ∨ d = .stopping ∨ d = .isolating ∨ d = .isolated

theorem State.actionChanged_of_untold (h : (s.ch c).drive.untold) (a : Action) : s.actionChanged c a = s := by
  unfold State.actionChanged
  rcases h with h | h | h | h <;> rw [h]

theorem State.actionChanged_isolate (h : (s.ch c).drive = .moving ∨ (s.ch c).drive = .steady ∨ (s.ch c).drive = .releasing) :
    s.actionChanged c .isolate = s.beginIsolation c := by
  unfold State.actionChanged
  rcases h with h | h | h <;> rw [h] <;> rfl

theorem State.actionChanged_of_releasing (h : (s.ch c).drive = .releasing) {a : Action} (ha : a ≠ .isolate) : s.actionChanged c a = s := by
  unfold State.actionChanged
  rw [h]
  exact if_neg ha

theorem State.actionChanged_of_driving (h : (s.ch c).drive = .moving ∨ (s.ch c).drive = .steady) {a : Action} (ha : a ≠ .isolate) :
    s.actionChanged c a = s.setGoal c (s.goalUnder c a) := by
  unfold State.actionChanged
  rcases h with h | h <;> rw [h] <;> exact if_neg ha

theorem State.beginIsolation_eq (h : s.oq.hasIsolate c = false) : s.beginIsolation c = { s with
    ctx := s.ctx.set c.val { s.ch c with drive := .isolating }
    oq := { isolates := s.oq.isolates ++ [c], writes := s.oq.writes.filter fun w => !w.isOf c } } := by
  unfold State.beginIsolation State.placeIsolate OutputQueue.placeIsolate
  rw [h]
  rfl

theorem State.goalUnder_eq (s : State) (c : ChannelNo) (a : Action) : s.goalUnder c a = (match a with
    | .none => (s.ch c).target
    | .hold => (s.ch c).sent
    | .safe => some (s.entry c).safeCode
    | .isolate => (s.ch c).goal) := by
  cases a <;> rfl

/-- Telling the drive of a new action leaves the reports. -/
theorem State.recompute_reports (s : State) (c : ChannelNo) : (s.recompute c).clp = s.clp ∧ (s.recompute c).rq = s.rq := by
  unfold State.recompute
  dsimp only
  split
  · exact ⟨rfl, rfl⟩
  · obtain ⟨hclp, hrq⟩ := (State.Drives.actionChanged (s.modCh c fun x =>
      { x with action := effectiveAction (s.entry c) (s.ch c).active }) c (effectiveAction (s.entry c) (s.ch c).active)).reports
    exact ⟨hclp.trans (State.clp_modCh _ _ _), hrq.trans (State.rq_modCh _ _ _)⟩

theorem State.recompute_entry (s : State) (c d : ChannelNo) : (s.recompute c).entry d = s.entry d := by
  unfold State.recompute
  dsimp only
  split
  · rfl
  · exact ((State.Drives.actionChanged _ c _).frame.entry d).trans (State.entry_modCh _ _ _ _)

/-- Settles O59: the drive by its state and the action, the action by the active classes, and the report by the mask. -/
theorem actionChangeReachesTheDrive : Obligations.ActionChangeReachesTheDrive := by
  refine ⟨fun c a s => ⟨fun h => ?_, fun ha h hi => ?_, fun ha h => State.actionChanged_of_releasing h ha, fun ha h => ?_⟩,
    effectiveAction_iff, fun c s => ⟨fun h => if_pos h, fun a ha hne => ?_⟩, fun c new x s u hlaw hx hu => ?_⟩
  · exact State.actionChanged_of_untold (by unfold DriveState.untold; tauto) a
  · subst ha
    rw [State.actionChanged_isolate h, State.beginIsolation_eq hi]
  · rw [State.actionChanged_of_driving h ha, State.setGoal_goal]
    exact (State.goalUnder_eq _ _ _).trans (by cases a <;> rfl)
  · subst ha
    exact if_neg hne
  · have hset : s.modCh c (ChannelCtx.withActive new) = { s with ctx := s.ctx.set c.val x } := by rw [hx]; rfl
    rw [← hset] at hu
    obtain ⟨hclp, hrq⟩ := (s.modCh c (ChannelCtx.withActive new)).recompute_reports c
    rw [← hu, State.clp_modCh] at hclp
    rw [← hu, State.rq_modCh] at hrq
    have hentry : u.entry c = s.entry c := by rw [hu, State.recompute_entry, State.entry_modCh]
    have hoffer := State.offerAlarm_of_law (hlaw.congr (congrArg LinkPort.tx hclp) hrq) c (u.ch c).active (u.ch c).latched (u.ch c).action
    refine ⟨fun h => if_pos h, fun hne htouches => ?_, fun hne htouches => ?_⟩
    · refine (if_neg hne).trans ?_
      rw [← hu, hentry]
      exact if_neg (by rw [htouches]; decide)
    · refine (if_neg hne).trans ?_
      rw [← hu, hentry, ← hrq]
      exact (if_pos htouches).trans hoffer

/-! ### A change of the active set, seen from its outcome -/

/-- The part when the active set has changed and the drive has been told, before an ALARM is offered. -/
def State.activated (s : State) (c : ChannelNo) (active : ClassSet) : State :=
  if effectiveAction (s.entry c) active = (s.ch c).action then s.modCh c (ChannelCtx.activeSet (s.entry c) active)
  else (s.modCh c (ChannelCtx.activeSet (s.entry c) active)).actionChanged c (effectiveAction (s.entry c) active)

theorem State.setActive_of_ne {active : ClassSet} (h : active ≠ (s.ch c).active) : s.setActive c active =
    if (s.ch c).active.touches active (s.entry c).alarmMask then
      (s.activated c active).offerAlarm c ((s.activated c active).ch c).active ((s.activated c active).ch c).latched
        ((s.activated c active).ch c).action
    else s.activated c active := by
  rw [State.setActive_eq, if_neg h]
  rfl

theorem State.setActive_onlyReports {active : ClassSet} (h : active ≠ (s.ch c).active) :
    (s.activated c active).OnlyReports (s.setActive c active) := by
  rw [State.setActive_of_ne h]
  split
  · exact State.offerAlarm_onlyReports _ _ _ _ _
  · exact .refl _

theorem State.activated_drives (s : State) (c : ChannelNo) (active : ClassSet) :
    State.Drives c (s.modCh c (ChannelCtx.activeSet (s.entry c) active)) (s.activated c active) := by
  unfold State.activated
  split
  · exact .refl _ _
  · exact .actionChanged _ _ _

/-- The ALARM report of a change (R137). -/
theorem State.setActive_outgoing (hl : s.TransmitterLaw) (c : ChannelNo) (active : ClassSet) :
    (s.setActive c active).outgoing = s.clp.tx.toList ++
      (if (s.ch c).active.touches active (s.entry c).alarmMask then
        alarmPlaced s.rq c ((s.setActive c active).ch c).active ((s.setActive c active).ch c).latched ((s.setActive c active).ch c).action
      else s.rq) := by
  by_cases h : active = (s.ch c).active
  · rw [h, State.setActive_self, ClassSet.touches_self]
    rfl
  · obtain ⟨hclp, hrq⟩ := (s.activated_drives c active).reports
    rw [State.clp_modCh] at hclp
    rw [State.rq_modCh] at hrq
    rw [(State.setActive_onlyReports h).ch, State.setActive_of_ne h]
    split
    · rw [State.offerAlarm_outgoing (hl.congr (congrArg LinkPort.tx hclp) hrq), hclp, hrq]
    · rw [State.outgoing, hclp, hrq]

/-- The transmitter and the queue after a change that offers no ALARM. -/
theorem State.setActive_unreported {active : ClassSet} (h : (s.ch c).active.touches active (s.entry c).alarmMask = false) :
    (s.setActive c active).clp = s.clp ∧ (s.setActive c active).rq = s.rq := by
  by_cases he : active = (s.ch c).active
  · rw [he, State.setActive_self]; exact ⟨rfl, rfl⟩
  · obtain ⟨hclp, hrq⟩ := (s.activated_drives c active).reports
    rw [State.setActive_of_ne he, if_neg (by rw [h]; decide)]
    exact ⟨hclp.trans (State.clp_modCh _ _ _), hrq.trans (State.rq_modCh _ _ _)⟩

theorem ChannelCtx.withActive_self (x : ChannelCtx) : x.withActive x.active = x := by
  unfold ChannelCtx.withActive
  rw [ClassSet.union_minus_self]

/-- A change that leaves the effective action is not told to the drive (R131). -/
theorem State.setActive_stays {active : ClassSet} (h : effectiveAction (s.entry c) active = (s.ch c).action) :
    (s.setActive c active).ch c = (s.ch c).withActive active ∧ (s.setActive c active).oq = s.oq := by
  by_cases he : active = (s.ch c).active
  · rw [he, State.setActive_self, ChannelCtx.withActive_self]; exact ⟨rfl, rfl⟩
  · have hact : s.activated c active = s.modCh c (ChannelCtx.activeSet (s.entry c) active) := if_pos h
    rw [(State.setActive_onlyReports he).ch, (State.setActive_onlyReports he).channels.2, hact, State.ch_modCh_self, State.oq_modCh,
      ChannelCtx.activeSet, h]
    exact ⟨rfl, rfl⟩

/-- A change in a drive state that no action reaches. -/
theorem State.setActive_untold (hd : (s.ch c).drive.untold) (active : ClassSet) :
    (s.setActive c active).ch c = (if active = (s.ch c).active then s.ch c else (s.ch c).activeSet (s.entry c) active) ∧
      (s.setActive c active).oq = s.oq := by
  split
  · next he => rw [he, State.setActive_self]; exact ⟨rfl, rfl⟩
  · next he =>
    have hset : (s.modCh c (ChannelCtx.activeSet (s.entry c) active)).ch c = (s.ch c).activeSet (s.entry c) active :=
      State.ch_modCh_self _ _ _
    have hact : s.activated c active = s.modCh c (ChannelCtx.activeSet (s.entry c) active) := by
      unfold State.activated
      rw [State.actionChanged_of_untold (by rw [hset]; exact hd), ite_self]
    rw [(State.setActive_onlyReports he).ch, (State.setActive_onlyReports he).channels.2, hact, hset, State.oq_modCh]
    exact ⟨rfl, rfl⟩

/-- A change that brings a new action is told to the drive. -/
theorem State.setActive_told {active : ClassSet} (he : active ≠ (s.ch c).active)
    (h : effectiveAction (s.entry c) active ≠ (s.ch c).action) :
    (s.setActive c active).ch c =
        ((s.modCh c (ChannelCtx.activeSet (s.entry c) active)).actionChanged c (effectiveAction (s.entry c) active)).ch c ∧
      (s.setActive c active).oq =
        ((s.modCh c (ChannelCtx.activeSet (s.entry c) active)).actionChanged c (effectiveAction (s.entry c) active)).oq := by
  have hact : s.activated c active = _ := if_neg h
  rw [(State.setActive_onlyReports he).ch, (State.setActive_onlyReports he).channels.2, hact]
  exact ⟨rfl, rfl⟩

/-- The context after a change, but for the drive record (R123, R131). -/
theorem State.setActive_context (s : State) (c : ChannelNo) (active : ClassSet) :
    ((if active = (s.ch c).active then s.ch c else (s.ch c).activeSet (s.entry c) active)).Moves ((s.setActive c active).ch c) := by
  split
  · next he => rw [he, State.setActive_self]; exact .refl _
  · next he =>
    have := (s.activated_drives c active).moves
    rw [State.ch_modCh_self] at this
    rw [(State.setActive_onlyReports he).ch]
    exact this

theorem State.setActive_latched (s : State) (c : ChannelNo) (active : ClassSet) :
    ((s.setActive c active).ch c).latched = (s.ch c).latched.union (active.minus (s.ch c).active) := by
  rw [(s.setActive_context c active).1]
  split
  · next he => rw [he, ClassSet.union_minus_self]
  · rfl

/-- The effective action after a change, in a channel whose action was that of its classes (R130). -/
theorem State.setActive_action (ha : (s.ch c).action = effectiveAction (s.entry c) (s.ch c).active) (active : ClassSet) :
    ((s.setActive c active).ch c).action = effectiveAction (s.entry c) active := by
  rw [(s.setActive_context c active).1]
  split
  · next he => rw [he]; exact ha
  · rfl

end Sys2Proof.Machine
end

