-- ==== Sys2Proof/Proofs/Completions.lean ====
section
/-! PROOF. The completion of a transaction (R76, R77): which event ends it in which state, what its node is credited with (R102 to R104),
and what a stale one leaves untouched (R75). -/

namespace Sys2Proof.Machine

variable {s t u : State} {x : Transaction} {i : Instr} {r : FieldResult}

/-! ### The event that ends a transaction -/

/-- The command ends the transaction with this result, in a state that differs from `s` in the pins and the latches alone. -/
structure State.Ends (s : State) (i : Instr) (x : Transaction) (r : FieldResult) (u : State) : Prop where
  exec : exec i s = (u.complete x r).done
  same : u = { s with fbc := u.fbc, mgx := { s.mgx with latches := u.mgx.latches } }
  passOver : u.fbc.passOver = s.fbc.passOver

theorem State.Ends.ch (h : s.Ends i x r u) (c : ChannelNo) : u.ch c = s.ch c := by rw [h.same]; rfl
theorem State.Ends.entry (h : s.Ends i x r u) (c : ChannelNo) : u.entry c = s.entry c := by rw [h.same]; rfl
theorem State.Ends.node (h : s.Ends i x r u) (n : Node) : u.node n = s.node n := by rw [h.same]; rfl
theorem State.Ends.oq (h : s.Ends i x r u) : u.oq = s.oq := by rw [h.same]
theorem State.Ends.psq (h : s.Ends i x r u) : u.psq = s.psq := by rw [h.same]
theorem State.Ends.clp (h : s.Ends i x r u) : u.clp = s.clp := by rw [h.same]
theorem State.Ends.rq (h : s.Ends i x r u) : u.rq = s.rq := by rw [h.same]
theorem State.Ends.config (h : s.Ends i x r u) : u.mgx.config = s.mgx.config := by rw [h.same]
theorem State.Ends.slewBypass (h : s.Ends i x r u) : u.mgx.slewBypass = s.mgx.slewBypass := by rw [h.same]
theorem State.Ends.law (h : s.Ends i x r u) (hl : s.TransmitterLaw) : u.TransmitterLaw :=
  hl.congr (by rw [h.clp]) h.rq

theorem State.ends_fbsyReleased (h : s.fbc.state = .awaitRelease x) : s.Ends .fbsyReleased x .ok (s.setFbsy false) where
  exec := by
    show execFbsyReleased s = _
    simp only [execFbsyReleased, State.fbc_setFbc, h]
    rfl
  same := rfl
  passOver := rfl

theorem State.ends_busyTimeout (h : s.fbc.state = .awaitBusy x ∨ s.fbc.state = .awaitRelease x) :
    ∃ r, s.Ends .busyTimeoutExpiry x r s ∧ (r = .noNode ∨ r = .stuck) := by
  rcases h with h | h
  · refine ⟨.noNode, ⟨?_, rfl, rfl⟩, Or.inl rfl⟩
    show execBusyTimeoutExpiry s = _
    simp only [execBusyTimeoutExpiry, h]
  · refine ⟨.stuck, ⟨?_, rfl, rfl⟩, Or.inr rfl⟩
    show execBusyTimeoutExpiry s = _
    simp only [execBusyTimeoutExpiry, h]

theorem State.ends_heldTimeout (h : s.fbc.state = .held x) :
    s.Ends .heldTimeout x .busHeld (s.latch fun l => { l with busHeld := true }) where
  exec := by
    show execHeldTimeout s = _
    simp only [execHeldTimeout, h]
  same := rfl
  passOver := rfl

theorem State.ends_responseTimeout (h : s.fbc.state = .awaitReply x) : s.Ends .responseTimeoutExpiry x .noReply s where
  exec := by
    show execResponseTimeoutExpiry s = _
    simp only [execResponseTimeoutExpiry, h]
  same := rfl
  passOver := rfl

theorem State.ends_reading {rd : Reading} (h : s.fbc.state = .awaitReply x) (hf : s.fbc.frx = .taking ∨ rd.idleBefore = true)
    (hm : x.matchesReading rd = true) : s.Ends (.readingReceived rd) x (readingResult rd) (s.setFrx .discarding) where
  exec := by
    have h' : (s.setFrx .discarding).fbc.state = .awaitReply x := h
    rw [exec_readingReceived hf]
    simp only [State.takeReading, h', hm, if_true]
  same := rfl
  passOver := rfl

/-- A handshake that fails ends its transaction with one of three failures (R70, R72). -/
theorem State.ends_of_handshakeFails (h : s.handshakeFails i x) : ∃ r u, s.Ends i x r u ∧ r.success = false := by
  rcases h with ⟨rfl, h⟩ | ⟨rfl, h⟩
  · obtain ⟨r, hr, hfail⟩ := State.ends_busyTimeout h
    exact ⟨r, s, hr, by rcases hfail with rfl | rfl <;> rfl⟩
  · exact ⟨_, _, State.ends_heldTimeout h, rfl⟩

theorem readingResult_success (rd : Reading) : (readingResult rd).success = !rd.measureFail := by
  unfold readingResult
  cases rd.measureFail <;> rfl

theorem readingResult_of_ok {rd : Reading} (h : rd.measureFail = false) : readingResult rd = .value rd.value := by
  rw [readingResult, h]; rfl

/-! ### After the completion -/

/-- The event that completes a transaction, for what it leaves in the channels, the queue and the field bus. -/
theorem State.Ends.next (h : s.Ends i x r u) : ∃ t, Machine.exec i s = .next t ∧ (u.complete x r).OnlyReports t ∧
    t.outgoing = (u.complete x r).outgoing :=
  ⟨_, h.exec, State.beginTransmission_onlyReports _, State.beginTransmission_outgoing _⟩

/-- The end of a slot leaves the latch of R70. -/
theorem State.pollEnded_busHeld (s : State) : s.pollEnded.mgx.latches.busHeld = s.mgx.latches.busHeld := by
  have hwalk : ∀ v : State, v.endWalk.mgx.latches.busHeld = v.mgx.latches.busHeld := fun v => by
    unfold State.endWalk
    split
    · rw [(State.offerPart_onlyReports _ _).units.2.2.1]; rfl
    · split
      · rfl
      · split
        · rw [show ∀ w : State, w.startCycle.mgx = w.mgx from fun _ => rfl, (State.offerPart_onlyReports _ _).units.2.2.1]; rfl
        · rfl
  unfold State.pollEnded State.endSlotIfDue State.endSlot
  split
  · dsimp only
    split
    · split
      · exact hwalk _
      · rfl
    all_goals rfl
  · rfl

theorem State.complete_busHeld (s : State) (x : Transaction) :
    (s.complete x .busHeld).mgx.latches.busHeld = s.mgx.latches.busHeld := by
  have htold : (s.told x .busHeld).mgx = s.mgx := by
    unfold State.told State.tellOwners
    split
    · rfl
    · cases x.job with
      | write c code rc =>
        have hreach : ∀ v : State, (v.reachOff c).mgx = v.mgx := fun v =>
          (v.reachOff_onlyReports c).units.2.2.1.trans (State.mgx_modCh v c fun _ => .reset)
        dsimp only
        unfold State.takeWrite
        split
        · rfl
        · split
          · exact (hreach (s.enterGap.rollBack c)).trans (State.mgx_modCh s.enterGap c _)
          · exact ((State.norespResult_onlyChannel _ c false).units.2.2.1).trans (State.Drives.writeFailed _ c rc).frame.units.2.2.1
      | isolate c =>
        dsimp only
        unfold State.takeIsolate
        split
        · rfl
        · exact ((State.norespResult_onlyChannel _ c false).units.2.2.1).trans (State.Drives.isolateResult _ c false).frame.units.2.2.1
      | poll c =>
        dsimp only
        unfold State.takePoll
        split
        · rfl
        · exact (State.Drives.stepTest _ c).frame.units.2.2.1.trans (State.norespResult_onlyChannel _ c false).units.2.2.1
      | zero => rfl
  have hcredit : ((s.told x .busHeld).creditNode x.node false).mgx = s.mgx := by
    rw [(State.creditNode_only _ _ _).units.2.2.1, State.mgx_modNode, htold]
  rw [State.complete_eq]
  unfold State.tellSequencer
  cases x.job with
  | write | isolate => exact congrArg (·.latches.busHeld) hcredit
  | poll | zero => exact (State.pollEnded_busHeld _).trans (congrArg (·.latches.busHeld) hcredit)

theorem nextNodeFaults_val (f : Fin 4) : (nextNodeFaults f).val = Nat.min 3 (f.val + 1) ∧ (nextNodeFaults f = 3 ↔ 2 ≤ f.val) := by
  revert f; decide

/-- The part of the node table that the owners of a transaction may have changed: the zero correction of an OK ZERO (R104). -/
theorem State.told_node (s : State) (x : Transaction) (r : FieldResult) (m : Node) : (s.told x r).node m =
    if m = x.node ∧ x.job = .zero ∧ x.stale = false then
      (match r with
      | .value raw => (s.node m).zeroed raw
      | .ok | .noNode | .stuck | .busHeld | .noReply => s.node m)
    else s.node m := by
  have hsame : x.job ≠ .zero ∨ x.stale = true → (s.told x r).node m = s.node m := fun hj =>
    congrArg (fun v : Vector NodeRecord 30 => v[m.val]) (s.told_nt hj r)
  by_cases hz : x.job = .zero
  · cases hs : x.stale with
    | true => rw [hsame (Or.inr hs), if_neg (by simp)]
    | false =>
      rw [State.told_zero s hz hs r]
      cases r with
      | value raw =>
        simp only [State.node_modNode, hz, and_true]
        split
        · next hm => subst hm; rfl
        · rfl
      | ok | noNode | stuck | busHeld | noReply => simp; rfl
  · rw [hsame (Or.inl hz), if_neg fun h => hz h.2.1]

theorem NodeRecord.zeroed_keeps (n : NodeRecord) (raw : Code) :
    (n.zeroed raw).expected = n.expected ∧ (n.zeroed raw).answerState = n.answerState ∧ (n.zeroed raw).nodeFaults = n.nodeFaults := by
  unfold NodeRecord.zeroed
  dsimp only
  split <;> exact ⟨rfl, rfl, rfl⟩

/-- The owners leave of a node all but its zero correction. -/
theorem State.told_node_keeps (s : State) (x : Transaction) (r : FieldResult) (m : Node) :
    ((s.told x r).node m).expected = (s.node m).expected ∧ ((s.told x r).node m).answerState = (s.node m).answerState ∧
      ((s.told x r).node m).nodeFaults = (s.node m).nodeFaults := by
  rw [State.told_node]
  split
  · cases r with
    | value raw => exact NodeRecord.zeroed_keeps _ raw
    | ok | noNode | stuck | busHeld | noReply => exact ⟨rfl, rfl, rfl⟩
  · exact ⟨rfl, rfl, rfl⟩

/-- The five ways in which a transaction ends, by the event. -/
theorem State.ends_of {success : Bool}
    (h : (i = .fbsyReleased ∧ s.fbc.state = .awaitRelease x ∧ success = true) ∨
     (i = .busyTimeoutExpiry ∧ (s.fbc.state = .awaitBusy x ∨ s.fbc.state = .awaitRelease x) ∧ success = false) ∨
     (i = .heldTimeout ∧ s.fbc.state = .held x ∧ success = false) ∨
     (i = .responseTimeoutExpiry ∧ s.fbc.state = .awaitReply x ∧ success = false) ∨
     (∃ r, i = .readingReceived r ∧ s.fbc.state = .awaitReply x ∧ (s.fbc.frx = .taking ∨ r.idleBefore = true) ∧
       x.matchesReading r = true ∧ success = !r.measureFail)) :
    ∃ r u, s.Ends i x r u ∧ r.success = success ∧ (i = .heldTimeout → r = .busHeld ∧ u.mgx.latches.busHeld = true) ∧
      ∀ rd, i = .readingReceived rd → success = true → r = .value rd.value := by
  rcases h with ⟨rfl, h, rfl⟩ | ⟨rfl, h, rfl⟩ | ⟨rfl, h, rfl⟩ | ⟨rfl, h, rfl⟩ | ⟨rd, rfl, h, hf, hm, rfl⟩
  · exact ⟨_, _, State.ends_fbsyReleased h, rfl, fun h => (by cases h), fun _ h => by cases h⟩
  · obtain ⟨r, hr, hfail⟩ := State.ends_busyTimeout h
    exact ⟨r, s, hr, by rcases hfail with rfl | rfl <;> rfl, fun h => (by cases h), fun _ h => by cases h⟩
  · exact ⟨_, _, State.ends_heldTimeout h, rfl, fun _ => ⟨rfl, rfl⟩, fun _ h => by cases h⟩
  · exact ⟨_, _, State.ends_responseTimeout h, rfl, fun h => (by cases h), fun _ h => by cases h⟩
  · refine ⟨_, _, State.ends_reading h hf hm, readingResult_success rd, fun h => (by cases h), fun rd' h hok => ?_⟩
    cases h
    exact readingResult_of_ok (by simpa using hok)

theorem State.OnlyReports.node (h : s.OnlyReports t) (n : Node) : t.node n = s.node n :=
  congrArg (fun v : Vector NodeRecord 30 => v[n.val]) h.tables.2

/-- Settles O45: the owners change a zero correction at most, then the node is credited. -/
theorem everyCompletionIsCreditedToItsNode : Obligations.EveryCompletionIsCreditedToItsNode := by
  intro i x success s h
  obtain ⟨r, u, hends, hr, hheld, hreading⟩ := State.ends_of h
  obtain ⟨t, ht, honly, -⟩ := hends.next
  obtain ⟨hexpected, hanswer, hfaults⟩ := u.told_node_keeps x r x.node
  rw [hends.node] at hexpected hanswer hfaults
  have hnode : t.node x.node =
      if success then ((u.told x r).node x.node).success else ((u.told x r).node x.node).failure := by
    rw [honly.node, State.complete_node, if_pos rfl, hr]
  have hzero := u.told_node x r x.node
  rw [hends.node] at hzero
  refine ⟨t, ht, ?_, fun hi => ?_, fun hs => ?_, fun hs => ?_, ?_, fun rd hi hs hj hstale => ?_, fun n hn => ?_⟩
  · rw [honly.field.1, State.complete_fbc, hends.config]
  · obtain ⟨rfl, hlatched⟩ := hheld hi
    rw [honly.units.2.2.1, State.complete_busHeld, hlatched]
  · rw [hnode, hs]
    exact ⟨rfl, rfl⟩
  · have hkeep : (u.told x r).node x.node = s.node x.node := by
      rw [hzero]
      rw [hs] at hr
      split
      · cases r with
        | value raw | ok => cases hr
        | noNode | stuck | busHeld | noReply => rfl
      · rfl
    obtain ⟨hval, hthree⟩ := nextNodeFaults_val (s.node x.node).nodeFaults
    rw [hnode, hs, hkeep]
    exact ⟨hval, if_congr hthree rfl rfl, rfl, rfl⟩
  · rw [hnode, ← hexpected]
    cases success <;> rfl
  · rw [hreading rd hi hs, if_pos ⟨rfl, hj, hstale⟩] at hzero
    rw [hnode, hs]
    show if _ then (((u.told x r).node x.node).zeroState = _ ∧ ((u.told x r).node x.node).zeroCorr = _) else
      (((u.told x r).node x.node).zeroState = _ ∧ ((u.told x r).node x.node).zeroCorr = _)
    rw [hreading rd hi hs, hzero]
    split
    · next hrange => simp only [NodeRecord.zeroed, if_pos hrange, and_self]
    · next hrange => simp only [NodeRecord.zeroed, if_neg hrange, and_self]
  · rw [honly.node, State.complete_node, if_neg hn, State.told_node, if_neg fun hz => hn hz.1, hends.node]

/-! ### A stale transaction -/

theorem State.told_of_stale (h : x.stale = true) (r : FieldResult) : s.told x r = s.enterGap := if_pos h

theorem answerEvent_success (n : Node) (r : NodeRecord) : answerEvent n r.answerState r.success.answerState =
    if r.answerState = .silent then some (.nodeBack n) else none := by
  unfold NodeRecord.success
  cases r.answerState <;> rfl

theorem answerEvent_failure (n : Node) (r : NodeRecord) : answerEvent n r.answerState r.failure.answerState =
    if r.answerState = .answering ∧ 2 ≤ r.nodeFaults.val then some (.nodeLost n) else none := by
  obtain ⟨-, hthree⟩ := nextNodeFaults_val r.nodeFaults
  unfold NodeRecord.failure
  dsimp only
  rw [if_congr hthree rfl rfl]
  cases r.answerState with
  | answering => by_cases h : 2 ≤ r.nodeFaults.val <;> simp [h, answerEvent]
  | unknown | silent => by_cases h : 2 ≤ r.nodeFaults.val <;> simp [h, answerEvent]

/-- A PART report that waits at the head of an idle transmitter could begin before an offer (R178); here none does. -/
def State.noPartBegins (s : State) : Prop := ¬ (s.clp.tx = none ∧ (s.rq.head?.any Report.isPart) = true)

theorem State.TransmitterLaw.noPartBegins (hl : s.TransmitterLaw) : s.noPartBegins := by
  rintro ⟨htx, hhead⟩
  rw [hl htx] at hhead
  cases hhead

/-- The part event of the credit (R103). -/
theorem State.creditNode_outgoing (hl : s.noPartBegins) (n : Node) (success : Bool) : (s.creditNode n success).outgoing =
    s.clp.tx.toList ++
      (if success = true ∧ (s.node n).answerState = .silent then partPlaced s.rq (.nodeBack n)
       else if success = false ∧ (s.node n).answerState = .answering ∧ 2 ≤ (s.node n).nodeFaults.val
         then partPlaced s.rq (.nodeLost n)
       else s.rq) := by
  have hplain : ∀ f, (s.modNode n f).outgoing = s.clp.tx.toList ++ s.rq := fun f => by
    rw [State.outgoing, State.clp_modNode, State.rq_modNode]
  have hoffer : ∀ f e, ((s.modNode n f).offerPart e).outgoing = s.clp.tx.toList ++ partPlaced s.rq e := fun f e => by
    have hmeets : (s.modNode n f).meetTransmission Report.isPart = s.modNode n f :=
      if_neg (by rw [State.clp_modNode, State.rq_modNode]; exact hl)
    unfold State.offerPart
    rw [hmeets, State.outgoing, State.clp_setRq, State.rq_setRq, State.clp_modNode, State.rq_modNode]
  unfold State.creditNode
  dsimp only
  rw [State.node_modNode_self]
  cases success with
  | true =>
    rw [if_pos rfl, answerEvent_success]
    by_cases h : (s.node n).answerState = .silent
    · rw [if_pos h, if_pos ⟨rfl, h⟩]
      exact hoffer _ _
    · rw [if_neg h, if_neg fun h' => h h'.2, if_neg fun h' => by cases h'.1]
      exact hplain _
  | false =>
    rw [if_neg (by decide), answerEvent_failure, if_neg (c := false = true ∧ _) fun h' => by cases h'.1]
    by_cases h : (s.node n).answerState = .answering ∧ 2 ≤ (s.node n).nodeFaults.val
    · rw [if_pos h, if_pos ⟨rfl, h⟩]
      exact hoffer _ _
    · rw [if_neg h, if_neg fun h' => h h'.2]
      exact hplain _

/-- A stale WRITE or ISOLATE credits its node and nothing else (R75, R76). -/
theorem State.complete_stale_output (hx : x.stale = true) (hj : (∃ c code rc, x.job = .write c code rc) ∨ ∃ c, x.job = .isolate c)
    (r : FieldResult) : s.complete x r = s.enterGap.creditNode x.node r.success := by
  rw [State.complete_eq, State.told_of_stale hx]
  rcases hj with ⟨c, code, rc, hj⟩ | ⟨c, hj⟩ <;> rw [hj] <;> rfl

/-- Such a completion, where neither the configuration nor a latch has moved. -/
theorem State.Ends.stale_output (h : s.Ends i x r u) (hmgx : u.mgx = s.mgx) (hl : s.TransmitterLaw) (hx : x.stale = true)
    (hj : (∃ c code rc, x.job = .write c code rc) ∨ ∃ c, x.job = .isolate c) :
    ∃ t, Machine.exec i s = .next t ∧ t.fbc.state = .gap s.mgx.config.fieldGap.val ∧ t.fbc.passOver = s.fbc.passOver ∧
      t.outgoing = s.clp.tx.toList ++
        (if r.success = true ∧ (s.node x.node).answerState = .silent then partPlaced s.rq (.nodeBack x.node)
         else if r.success = false ∧ (s.node x.node).answerState = .answering ∧ 2 ≤ (s.node x.node).nodeFaults.val
           then partPlaced s.rq (.nodeLost x.node)
         else s.rq) ∧
      s.OnlyReports { t with nt := s.nt, fbc := s.fbc } := by
  have hu : u = { s with fbc := u.fbc } := h.same.trans (by rw [hmgx])
  obtain ⟨t, ht, honly, hout⟩ := h.next
  rw [State.complete_stale_output hx hj] at honly hout
  have hall := (State.creditNode_only u.enterGap x.node r.success).trans honly
  rw [State.creditNode_outgoing (s := u.enterGap) (State.TransmitterLaw.noPartBegins ((h.law hl).congr rfl rfl))] at hout
  obtain ⟨hlink, ⟨hct, -⟩, hchannels, ⟨hfbc, hpsq⟩, hunits, hpending, hsph⟩ := hall
  refine ⟨t, ht, ?_, ?_, ?_, ?_⟩
  · rw [hfbc, State.fbc_modNode, hu]
    rfl
  · rw [hfbc, State.fbc_modNode, ← h.passOver]
    rfl
  · rw [hout, hu]
    rfl
  · rw [hu] at hlink hct hchannels hpsq hunits hpending hsph
    exact ⟨hlink, ⟨hct, rfl⟩, hchannels, ⟨rfl, hpsq⟩, hunits, hpending, hsph⟩

theorem State.Ends.stale (h : s.Ends i x r u) (hx : x.stale = true) :
    ∃ t, Machine.exec i s = .next t ∧ t.ctx = s.ctx ∧ t.oq = s.oq ∧ t.ct = s.ct ∧ t.act = s.act ∧ t.pru = s.pru ∧ t.pst = s.pst ∧
      t.fbc.state = .gap s.mgx.config.fieldGap.val ∧ (t.node x.node).zeroState = (s.node x.node).zeroState ∧
      (t.node x.node).zeroCorr = (s.node x.node).zeroCorr ∧ ∀ n, n ≠ x.node → t.node n = s.node n := by
  obtain ⟨t, ht, honly, -⟩ := h.next
  have hcredit := State.creditNode_only (u.told x r) x.node r.success
  have hseq := State.tellSequencer_only ((u.told x r).creditNode x.node r.success) x.job
  rw [← State.complete_eq] at hseq
  have hnode := State.complete_node u x r
  have hfbc := State.complete_fbc u x r
  rw [State.told_of_stale hx] at hcredit hseq hnode
  have hgap : ∀ m, u.enterGap.node m = s.node m := h.node
  obtain ⟨hctx, hct, hact, hpru, hpst⟩ : u.ctx = s.ctx ∧ u.ct = s.ct ∧ u.act = s.act ∧ u.pru = s.pru ∧ u.pst = s.pst := by
    rw [h.same]
    exact ⟨rfl, rfl, rfl, rfl, rfl⟩
  refine ⟨t, ht, ?_, ?_, ?_, ?_, ?_, ?_, ?_, ?_, ?_, fun n hn => ?_⟩
  · rw [honly.channels.1, hseq.channels.1, hcredit.channels.1, State.ctx_modNode]
    exact hctx
  · rw [honly.channels.2, hseq.channels.2, hcredit.channels.2, State.oq_modNode]
    exact h.oq
  · rw [honly.tables.1, hseq.tables.1, hcredit.tables.1, State.ct_modNode]
    exact hct
  · rw [honly.units.1, hseq.units.1, hcredit.units.1, State.act_modNode]
    exact hact
  · rw [honly.units.2.1, hseq.units.2.1, hcredit.units.2.1, State.pru_modNode]
    exact hpru
  · rw [honly.units.2.2.2, hseq.units.2.2.1, hcredit.units.2.2.2, State.pst_modNode]
    exact hpst
  · rw [honly.field.1, hfbc, h.config]
  · rw [honly.node, hnode, if_pos rfl, hgap]
    cases r.success <;> rfl
  · rw [honly.node, hnode, if_pos rfl, hgap]
    cases r.success <;> rfl
  · rw [honly.node, hnode, if_neg hn, hgap]

/-- Settles O46: a stale result passes its owners by. -/
theorem staleResultReachesTheNodeTableOnly : Obligations.StaleResultReachesTheNodeTableOnly := by
  refine ⟨fun i x success s hl hx hj h => ?_, fun i x s hx h => ?_⟩
  · rcases h with ⟨rfl, h, rfl⟩ | ⟨rfl, h, rfl⟩
    · exact (State.ends_fbsyReleased h).stale_output rfl hl hx hj
    · obtain ⟨r, hr, hfail⟩ := State.ends_busyTimeout h
      have hsuccess : r.success = false := by rcases hfail with rfl | rfl <;> rfl
      exact hsuccess ▸ hr.stale_output rfl hl hx hj
  · rcases h with ⟨rfl, h⟩ | ⟨rfl, h⟩ | ⟨rfl, h⟩ | ⟨rfl, h⟩ | ⟨rd, rfl, h, hf, hm⟩
    · exact (State.ends_fbsyReleased h).stale hx
    · obtain ⟨r, hr, -⟩ := State.ends_busyTimeout h
      exact hr.stale hx
    · exact (State.ends_heldTimeout h).stale hx
    · exact (State.ends_responseTimeout h).stale hx
    · exact (State.ends_reading h hf hm).stale hx

end Sys2Proof.Machine
end

