-- ==== Sys2Proof/Proofs/OutputResults.lean ====
section
/-! PROOF. The results of WRITE and ISOLATE transactions in the channels (R31 to R33, R40, R107, R120, R121). -/

namespace Sys2Proof.Machine

variable {s t u g : State} {x : Transaction} {i : Instr} {r : FieldResult} {c : ChannelNo}

/-! ### The owners of a transaction -/

/-- The state in which the owners take the result: the bus is in GAP, and the channels are as before the event. -/
structure State.InGap (s g : State) : Prop where
  ch : ∀ d, g.ch d = s.ch d
  entry : ∀ d, g.entry d = s.entry d
  node : ∀ n, g.node n = s.node n
  oq : g.oq = s.oq
  psq : g.psq = s.psq
  record : g.fbc.state.record? = none
  slewBypass : g.mgx.slewBypass = s.mgx.slewBypass
  tx : g.clp = s.clp
  rq : g.rq = s.rq

theorem State.Ends.inGap (h : s.Ends i x r u) : s.InGap u.enterGap where
  ch := h.ch
  entry := h.entry
  node := h.node
  oq := h.oq
  psq := h.psq
  record := rfl
  slewBypass := h.slewBypass
  tx := h.clp
  rq := h.rq

/-- The end of a transaction that is not stale, for its channel: the owner takes the result in GAP. -/
theorem State.Ends.owner (h : s.Ends i x r u) (hs : x.stale = false) (hc : x.job.channel? = some c) :
    ∃ t, Machine.exec i s = .next t ∧ t.ch c = (u.enterGap.tellOwners x r).ch c ∧ t.oq = (u.enterGap.tellOwners x r).oq ∧
      ∀ d, d ≠ c → t.ch d = s.ch d := by
  obtain ⟨t, ht, honly, -⟩ := h.next
  have htold : u.told x r = u.enterGap.tellOwners x r := if_neg (by rw [hs]; decide)
  refine ⟨t, ht, ?_, ?_, fun d hd => ?_⟩
  · rw [honly.ch, State.complete_ch, htold]
  · rw [honly.channels.2, State.complete_oq, htold]
  · rw [honly.ch, State.complete_ch, htold]
    rcases State.tellOwners_only (s := u.enterGap) rfl x r with ⟨c', hc', hresult⟩ | ⟨hzero, -⟩
    · obtain rfl : c = c' := Option.some.inj (hc.symm.trans hc')
      exact (hresult.others d hd).trans (h.ch d)
    · rw [hzero] at hc
      cases hc

theorem State.InGap.noWork (h : s.InGap g) (hq : s.oq.hasEntry c = false) : g.hasWork c = false := by
  rw [State.hasWork, h.oq, hq, State.writeInFlight, State.isolateInFlight, h.record]
  rfl

/-! ### The NORESP accounting -/

/-- A success with NORESP not active leaves the active set (R121). -/
theorem State.norespSuccess_quiet (h : (s.ch c).active.noresp = false) :
    s.norespSuccess c = s.modCh c fun y => { y with norespFaults := 0 } := by
  have hsame : { (s.ch c).active with noresp := false } = ((s.modCh c fun y => { y with norespFaults := 0 }).ch c).active := by
    rw [State.ch_modCh_self, ← h]
  exact if_pos hsame

theorem effectiveAction_noresp {e : ChannelEntry} (h : e.actNoresp = .none) (k : ClassSet) (b : Bool) :
    effectiveAction e { k with noresp := b } = effectiveAction e k := by
  have hwhen : ∀ b', Action.when b' e.actNoresp = .none := fun b' => by rw [h]; cases b' <;> rfl
  simp only [effectiveAction, hwhen]

theorem norespFailureActive_eq (e : ChannelEntry) (y : ChannelCtx) :
    norespFailureActive e y =
      { y.active with noresp := y.active.noresp || decide (e.norespLimit.val + 1 ≤ y.norespFaults + 1) } := by
  unfold norespFailureActive nextNorespFaults
  by_cases h : e.norespLimit.val + 1 ≤ y.norespFaults + 1
  · rw [if_pos (Nat.min_eq_right h), decide_eq_true h, Bool.or_true]
  · rw [if_neg fun hm : Nat.min _ _ = _ => h (by rw [← hm]; exact Nat.min_le_left _ _), decide_eq_false h, Bool.or_false]

theorem norespFailureActive_noresp (e : ChannelEntry) (y : ChannelCtx) : (norespFailureActive e y).noresp = true ↔
    y.active.noresp = true ∨ e.norespLimit.val + 1 ≤ y.norespFaults + 1 := by
  rw [norespFailureActive_eq, Bool.or_eq_true, decide_eq_true_iff]

/-- A failure whose class maps to no action (R120). -/
theorem State.norespFailure_quiet (hn : (s.entry c).actNoresp = .none)
    (ha : (s.ch c).action = effectiveAction (s.entry c) (s.ch c).active) :
    (s.norespFailure c).ch c = ({ s.ch c with norespFaults := nextNorespFaults (s.entry c) (s.ch c).norespFaults }).withActive
        (norespFailureActive (s.entry c) (s.ch c)) ∧ (s.norespFailure c).oq = s.oq := by
  unfold State.norespFailure
  have hkeep : effectiveAction (s.entry c) (norespFailureActive (s.entry c) (s.ch c)) = (s.ch c).action := by
    rw [norespFailureActive_eq, effectiveAction_noresp hn, ha]
  obtain ⟨hch, hoq⟩ := State.setActive_stays (c := c) (active := norespFailureActive (s.entry c) (s.ch c))
    (s := s.modCh c fun y => { y with norespFaults := nextNorespFaults (s.entry c) y.norespFaults })
    (by rw [State.entry_modCh, State.ch_modCh_self]; exact hkeep)
  rw [State.ch_modCh_self] at hch
  exact ⟨hch, hoq.trans (State.oq_modCh _ _ _)⟩

/-- The fields that the NORESP accounting leaves in a drive state that no action reaches, and in which it leaves the queue. -/
def ChannelCtx.sameDrive (y z : ChannelCtx) : Prop :=
  z.drive = y.drive ∧ z.goal = y.goal ∧ z.sent = y.sent ∧ z.applied = y.applied ∧ z.stepTimer = y.stepTimer

theorem State.setActive_sameDrive (hd : (s.ch c).drive.untold) (active : ClassSet) :
    (s.ch c).sameDrive ((s.setActive c active).ch c) ∧ ((s.setActive c active).ch c).norespFaults = (s.ch c).norespFaults ∧
      ((s.setActive c active).ch c).active = active ∧ (s.setActive c active).oq = s.oq := by
  obtain ⟨hch, hoq⟩ := State.setActive_untold hd active
  rw [hch]
  split
  · next he => exact ⟨⟨rfl, rfl, rfl, rfl, rfl⟩, rfl, he.symm, hoq⟩
  · exact ⟨⟨rfl, rfl, rfl, rfl, rfl⟩, rfl, rfl, hoq⟩

/-- The NORESP accounting in a drive state that no action reaches. -/
theorem State.norespResult_untold (hd : (s.ch c).drive.untold) (success : Bool) :
    (s.ch c).sameDrive ((s.norespResult c success).ch c) ∧
      ((s.norespResult c success).ch c).norespFaults =
        (if success then 0 else nextNorespFaults (s.entry c) (s.ch c).norespFaults) ∧
      (success = true → ((s.norespResult c success).ch c).active.noresp = false) ∧ (s.norespResult c success).oq = s.oq := by
  have key : ∀ (f : ChannelCtx → ChannelCtx) (active : ClassSet), (s.ch c).sameDrive (f (s.ch c)) →
      (s.ch c).sameDrive (((s.modCh c f).setActive c active).ch c) ∧
        (((s.modCh c f).setActive c active).ch c).norespFaults = (f (s.ch c)).norespFaults ∧
        (((s.modCh c f).setActive c active).ch c).active = active ∧ ((s.modCh c f).setActive c active).oq = s.oq := by
    rintro f active ⟨h1, h2, h3, h4, h5⟩
    have hset := State.setActive_sameDrive (s := s.modCh c f) (c := c) (by rw [State.ch_modCh_self, h1]; exact hd) active
    rw [State.ch_modCh_self, State.oq_modCh] at hset
    obtain ⟨⟨k1, k2, k3, k4, k5⟩, hrest⟩ := hset
    exact ⟨⟨k1.trans h1, k2.trans h2, k3.trans h3, k4.trans h4, k5.trans h5⟩, hrest⟩
  unfold State.norespResult
  cases success with
  | true =>
    obtain ⟨hsame, hfaults, hactive, hoq⟩ :=
      key (fun y => { y with norespFaults := 0 }) { (s.ch c).active with noresp := false } ⟨rfl, rfl, rfl, rfl, rfl⟩
    rw [if_pos rfl]
    exact ⟨hsame, hfaults, fun _ => congrArg ClassSet.noresp hactive, hoq⟩
  | false =>
    obtain ⟨hsame, hfaults, -, hoq⟩ :=
      key (fun y => { y with norespFaults := nextNorespFaults (s.entry c) y.norespFaults })
        (norespFailureActive (s.entry c) (s.ch c)) ⟨rfl, rfl, rfl, rfl, rfl⟩
    exact ⟨hsame, hfaults, fun h => (by cases h), hoq⟩

/-! ### The step test -/

/-- A WRITE placed for the engine without a queued entry of the channel is new at the tail (R47). -/
theorem State.issueWrite_oq (hq : s.oq.hasEntry c = false) (k : Code) (rc : Bool) :
    (s.issueWrite c k rc).oq = { s.oq with writes := s.oq.writes ++ [⟨c, k, rc⟩] } := by
  obtain ⟨hi, hw⟩ := (s.oq.hasEntry_eq_false c).mp hq
  unfold State.issueWrite State.placeWrite
  rw [State.oq_modCh, State.oq_setOq, OutputQueue.placeWrite_of_noIsolate hi, if_neg (by simp [hw])]

theorem State.hasWork_modCh (s : State) (c d : ChannelNo) (f : ChannelCtx → ChannelCtx) : (s.modCh c f).hasWork d = s.hasWork d := by
  unfold State.hasWork State.writeInFlight State.isolateInFlight
  rw [State.oq_modCh, State.fbc_modCh]

/-- The step test that takes a step (R27, R28). -/
theorem State.stepTest_step {k goal : Code} (hd : (s.ch c).drive = .moving) (hw : s.hasWork c = false) (hg : (s.ch c).atGoal = false)
    (ht : (s.ch c).stepTimer.isRunning = false) (hk : (s.ch c).sent = some k) (hgoal : (s.ch c).goal = some goal) :
    s.stepTest c = s.issueWrite c (stepCode (s.entry c) s.mgx.slewBypass k goal) false := by
  unfold State.stepTest State.issueStep
  rw [if_neg (by simp [hd]), if_neg (by simp [hw]), if_neg (by simp [hg]), if_neg (by simp [ht]), hk, hgoal]

/-- The sent code rolled back (R32). -/
def ChannelCtx.rolledBack (e : ChannelEntry) (y : ChannelCtx) : ChannelCtx := { y with sent := some (y.applied.getD e.safeCode) }

theorem State.rollBack_eq (s : State) (c : ChannelNo) : s.rollBack c = s.modCh c (ChannelCtx.rolledBack (s.entry c)) := rfl

/-- With the sent code rolled back, the output is at goal when the applied code is present and is the goal (R26). -/
theorem ChannelCtx.rolledBack_atGoal (e : ChannelEntry) (y : ChannelCtx) :
    (y.rolledBack e).atGoal = true ↔ y.applied.isSome = true ∧ y.goal = y.applied := by
  unfold ChannelCtx.atGoal ChannelCtx.rolledBack
  dsimp only
  cases y.applied with
  | none => simp
  | some k =>
    simp only [Option.isSome_some, Option.getD_some, beq_self_eq_true, Bool.true_and, beq_iff_eq, true_and]
    exact eq_comm

/-- The step test of a channel in MOVING whose step timer runs brings it to STEADY just when it is at goal (R26). -/
theorem ChannelCtx.tested_drive {e : ChannelEntry} {y : ChannelCtx} (hd : y.drive = .moving) :
    (y.tested e).drive = .steady ↔ y.atGoal = true := by
  unfold ChannelCtx.tested
  split
  · next hg => exact iff_of_true rfl hg
  · next hg => exact iff_of_false (by rw [hd]; decide) hg

/-! ### The result of a WRITE -/

theorem State.isLastWrite_eq_false (h : (s.ch c).drive ≠ .stopping ∨ s.oq.hasEntry c = true) : s.isLastWrite c = false := by
  unfold State.isLastWrite
  rcases h with h | h
  · rw [beq_eq_false_iff_ne.mpr h, Bool.false_and]
  · rw [h, Bool.not_true, Bool.and_false]

theorem State.takeWrite_ok (hoff : (s.ch c).drive ≠ .off) (hl : s.isLastWrite c = false) (k : Code) (rc : Bool) :
    s.takeWrite c k rc true = (s.writeOk c k rc).norespSuccess c := by
  unfold State.takeWrite
  rw [if_neg hoff, if_neg (by rw [hl]; decide)]
  rfl

theorem State.takeWrite_failed (hoff : (s.ch c).drive ≠ .off) (hl : s.isLastWrite c = false) (k : Code) (rc : Bool) :
    s.takeWrite c k rc false = (s.writeFailed c rc).norespFailure c := by
  unfold State.takeWrite
  rw [if_neg hoff, if_neg (by rw [hl]; decide)]
  rfl

/-- The applied code taken from the frame (R31). -/
def ChannelCtx.wrote (k : Code) (y : ChannelCtx) : ChannelCtx := { y with applied := some k }

theorem State.setApplied_eq (s : State) (c : ChannelNo) (k : Code) : s.setApplied c k = s.modCh c (ChannelCtx.wrote k) := rfl

theorem State.wrote_drive (s : State) (c : ChannelNo) (k : Code) : ((s.modCh c (ChannelCtx.wrote k)).ch c).drive = (s.ch c).drive := by
  rw [State.ch_modCh_self]; rfl

theorem State.rolledBack_drive (s : State) (c : ChannelNo) :
    ((s.modCh c (ChannelCtx.rolledBack (s.entry c))).ch c).drive = (s.ch c).drive := by
  rw [State.ch_modCh_self]; rfl

theorem State.writeOk_of_moving (hd : (s.ch c).drive = .moving) (k : Code) (rc : Bool) :
    s.writeOk c k rc = (s.modCh c (ChannelCtx.wrote k)).stepTest c := by
  unfold State.writeOk
  dsimp only
  rw [State.setApplied_eq, State.wrote_drive, hd]

theorem State.writeFailed_of_moving (hd : (s.ch c).drive = .moving) (rc : Bool) :
    s.writeFailed c rc = (s.modCh c (ChannelCtx.rolledBack (s.entry c))).stepTest c := by
  unfold State.writeFailed
  dsimp only
  rw [State.rollBack_eq, State.rolledBack_drive, hd]

theorem State.writeOk_reconnected (hd : (s.ch c).drive = .releasing) (k : Code) :
    s.writeOk c k true = (s.modCh c (ChannelCtx.wrote k)).enterMoving c := by
  unfold State.writeOk
  dsimp only
  rw [State.setApplied_eq, State.wrote_drive, hd]
  rfl

theorem State.writeFailed_reconnecting (hd : (s.ch c).drive = .releasing) :
    s.writeFailed c true = (s.modCh c (ChannelCtx.rolledBack (s.entry c))).startStepTimer c := by
  unfold State.writeFailed
  dsimp only
  rw [State.rollBack_eq, State.rolledBack_drive, hd]
  rfl

theorem State.writeOk_untold (hd : (s.ch c).drive.untold) (k : Code) (rc : Bool) :
    s.writeOk c k rc = s.modCh c (ChannelCtx.wrote k) := by
  unfold State.writeOk
  dsimp only
  rw [State.setApplied_eq, State.wrote_drive]
  rcases hd with h | h | h | h <;> rw [h]

theorem State.writeFailed_untold (hd : (s.ch c).drive.untold) (rc : Bool) :
    s.writeFailed c rc = s.modCh c (ChannelCtx.rolledBack (s.entry c)) := by
  unfold State.writeFailed
  dsimp only
  rw [State.rollBack_eq, State.rolledBack_drive]
  rcases hd with h | h | h | h <;> rw [h]

/-! ### The results of WRITEs in the four drive states -/

theorem State.tellOwners_write {code : Code} {rc : Bool} (hj : x.job = .write c code rc) (r : FieldResult) :
    g.tellOwners x r = g.takeWrite c code rc r.success := by
  unfold State.tellOwners
  rw [hj]

theorem State.complete_write {code : Code} {rc : Bool} (hj : x.job = .write c code rc) (hs : x.stale = false) (r : FieldResult) :
    s.complete x r = (s.enterGap.takeWrite c code rc r.success).creditNode x.node r.success := by
  have htold : s.told x r = s.enterGap.tellOwners x r := if_neg (by rw [hs]; decide)
  rw [State.complete_eq, htold, State.tellOwners_write hj, hj]
  rfl

theorem State.creditNode_success_quiet {n : Node} (h : (s.node n).answerState ≠ .silent) :
    s.creditNode n true = s.modNode n NodeRecord.success := by
  unfold State.creditNode
  dsimp only
  rw [if_pos rfl, State.node_modNode_self, answerEvent_success, if_neg h]

/-- The channel that a WRITE brings to its goal (R26, R31). -/
def ChannelCtx.arrived (e : ChannelEntry) (k : Code) (y : ChannelCtx) : ChannelCtx :=
  { y with applied := some k, drive := .steady, settleLeft := e.settleCount, norespFaults := 0 }

theorem State.takeWrite_arrives {k : Code} (hd : (g.ch c).drive = .moving) (hw : g.hasWork c = false) (hk : (g.ch c).sent = some k)
    (hgoal : (g.ch c).goal = some k) (hn : (g.ch c).active.noresp = false) (rc : Bool) :
    g.takeWrite c k rc true = g.modCh c (ChannelCtx.arrived (g.entry c) k) := by
  have hgoal' : ((g.modCh c (ChannelCtx.wrote k)).ch c).atGoal = true := by
    rw [State.ch_modCh_self]
    simp [ChannelCtx.atGoal, ChannelCtx.wrote, hk, hgoal]
  have htest : (g.modCh c (ChannelCtx.wrote k)).stepTest c = (g.modCh c (ChannelCtx.wrote k)).enterSteady c := by
    unfold State.stepTest
    rw [if_neg (by rw [State.ch_modCh_self]; exact not_not.mpr hd), if_neg (by rw [State.hasWork_modCh, hw]; decide), if_pos hgoal']
  rw [State.takeWrite_ok (by rw [hd]; decide) (State.isLastWrite_eq_false (Or.inl (by rw [hd]; decide))), State.writeOk_of_moving hd,
    htest, State.enterSteady, State.entry_modCh, State.modCh_modCh, State.norespSuccess_quiet, State.modCh_modCh]
  · rfl
  · rw [State.ch_modCh_self]
    exact hn

/-- The channel that a WRITE leaves short of its goal (R31). -/
def ChannelCtx.onTheWay (k : Code) (y : ChannelCtx) : ChannelCtx := { y with applied := some k, norespFaults := 0 }

theorem State.takeWrite_goesOn {code k goal : Code} (hd : (g.ch c).drive = .moving) (hq : g.oq.hasEntry c = false)
    (hw : g.hasWork c = false) (hk : (g.ch c).sent = some k) (hgoal : (g.ch c).goal = some goal) (hne : ¬ (k = code ∧ goal = code))
    (hn : (g.ch c).active.noresp = false) (rc : Bool) :
    ((g.ch c).stepTimer.isRunning = true → g.takeWrite c code rc true = g.modCh c (ChannelCtx.onTheWay code)) ∧
      ((g.ch c).stepTimer.isRunning = false →
        (g.takeWrite c code rc true).ch c = { g.ch c with
          applied := some code, norespFaults := 0, sent := some (stepCode (g.entry c) g.mgx.slewBypass k goal)
          stepTimer := .running ((g.entry c).slewInterval.val * 1000) } ∧
        (g.takeWrite c code rc true).oq =
          { g.oq with writes := g.oq.writes ++ [⟨c, stepCode (g.entry c) g.mgx.slewBypass k goal, false⟩] }) := by
  have hch : (g.modCh c (ChannelCtx.wrote code)).ch c = (g.ch c).wrote code := State.ch_modCh_self _ _ _
  have hat : ((g.ch c).wrote code).atGoal = false := by
    simp only [ChannelCtx.atGoal, ChannelCtx.wrote, hk, hgoal, Option.isSome_some, Bool.true_and, Bool.and_eq_false_iff, beq_eq_false_iff_ne,
      ne_eq, Option.some.injEq]
    grind
  have hw' : (g.modCh c (ChannelCtx.wrote code)).hasWork c = false := (g.hasWork_modCh c c _).trans hw
  have htake : g.takeWrite c code rc true = ((g.modCh c (ChannelCtx.wrote code)).stepTest c).norespSuccess c := by
    rw [State.takeWrite_ok (by rw [hd]; decide) (State.isLastWrite_eq_false (Or.inl (by rw [hd]; decide))), State.writeOk_of_moving hd]
  rw [htake]
  refine ⟨fun ht => ?_, fun ht => ?_⟩
  · rw [State.stepTest_of_waiting (by rw [hch]; exact hd) hw' (by rw [hch]; exact ht), State.modCh_modCh,
      State.norespSuccess_quiet, State.modCh_modCh]
    · refine State.modCh_congr ?_
      simp only [ChannelCtx.tested, hat]
      rfl
    · rw [State.ch_modCh_self]
      simp only [ChannelCtx.tested, hat]
      exact hn
  · rw [State.stepTest_step (by rw [hch]; exact hd) hw' (by rw [hch]; exact hat) (by rw [hch]; exact ht) (by rw [hch]; exact hk)
      (by rw [hch]; exact hgoal), State.norespSuccess_quiet, State.ch_modCh_self, State.oq_modCh, State.issueWrite_ch,
      State.issueWrite_oq (by rw [State.oq_modCh]; exact hq), hch, State.oq_modCh, State.entry_modCh, State.mgx_modCh]
    · exact ⟨rfl, rfl⟩
    · rw [State.issueWrite_ch, hch]
      exact hn

/-- A failed WRITE of a channel in MOVING whose step timer runs (R26, R32, R120). -/
theorem State.takeWrite_fails (hd : (g.ch c).drive = .moving) (hw : g.hasWork c = false)
    (ht : (g.ch c).stepTimer.isRunning = true) (hn : (g.entry c).actNoresp = .none)
    (ha : (g.ch c).action = effectiveAction (g.entry c) (g.ch c).active) (code : Code) (rc : Bool) :
    (g.takeWrite c code rc false).ch c =
        ({ ((g.ch c).rolledBack (g.entry c)).tested (g.entry c) with
          norespFaults := nextNorespFaults (g.entry c) (g.ch c).norespFaults }).withActive (norespFailureActive (g.entry c) (g.ch c)) ∧
      (g.takeWrite c code rc false).oq = g.oq := by
  have hch : (g.modCh c (ChannelCtx.rolledBack (g.entry c))).ch c = (g.ch c).rolledBack (g.entry c) := State.ch_modCh_self _ _ _
  have htested := ((g.ch c).rolledBack (g.entry c)).tested_eq (g.entry c)
  have hquiet := State.norespFailure_quiet (s := g.modCh c fun y => (y.rolledBack (g.entry c)).tested (g.entry c)) (c := c)
    (by rw [State.entry_modCh]; exact hn) (by rw [State.entry_modCh, State.ch_modCh_self, htested]; exact ha)
  rw [State.ch_modCh_self, State.oq_modCh, State.entry_modCh] at hquiet
  rw [State.takeWrite_failed (by rw [hd]; decide) (State.isLastWrite_eq_false (Or.inl (by rw [hd]; decide))),
    State.writeFailed_of_moving hd, State.stepTest_of_waiting (by rw [hch]; exact hd) ((g.hasWork_modCh c c _).trans hw) (by rw [hch]; exact ht),
    State.modCh_modCh, State.entry_modCh]
  refine ⟨hquiet.1.trans ?_, hquiet.2⟩
  rw [htested]
  rfl

/-- The context that enters MOVING after the reconnecting write: the goal is that of the action (R24, R44). -/
def ChannelCtx.reconnected (goal : Option Code) (k : Code) (y : ChannelCtx) : ChannelCtx :=
  { y with applied := some k, goal := goal, drive := .moving }

/-- The reconnecting write succeeds while the step timer runs (R31, R44). -/
theorem State.takeWrite_reconnected (hd : (g.ch c).drive = .releasing) (hw : g.hasWork c = false)
    (ht : (g.ch c).stepTimer.isRunning = true) (hn : (g.ch c).active.noresp = false) (k : Code) :
    g.takeWrite c k true true = g.modCh c fun y =>
      { (y.reconnected (g.goalUnder c (g.ch c).action) k).tested (g.entry c) with norespFaults := 0 } := by
  have henter : (g.modCh c (ChannelCtx.wrote k)).enterMoving c =
      (g.modCh c (ChannelCtx.reconnected (g.goalUnder c (g.ch c).action) k)).stepTest c := by
    unfold State.enterMoving
    rw [State.modCh_modCh]
    refine congrArg (State.stepTest · c) (State.modCh_congr ?_)
    simp only [State.goalUnder_eq, State.entry_modCh, State.ch_modCh_self]
    rfl
  have hch : (g.modCh c (ChannelCtx.reconnected (g.goalUnder c (g.ch c).action) k)).ch c =
    (g.ch c).reconnected (g.goalUnder c (g.ch c).action) k := State.ch_modCh_self _ _ _
  rw [State.takeWrite_ok (by rw [hd]; decide) (State.isLastWrite_eq_false (Or.inl (by rw [hd]; decide))),
    State.writeOk_reconnected hd, henter, State.stepTest_of_waiting (by rw [hch]; rfl) ((g.hasWork_modCh c c _).trans hw)
      (by rw [hch]; exact ht), State.modCh_modCh, State.entry_modCh, State.norespSuccess_quiet, State.modCh_modCh]
  rw [State.ch_modCh_self, ChannelCtx.tested_eq]
  exact hn

/-- The reconnecting write fails (R32, R44). -/
theorem State.takeWrite_unreconnected (hd : (g.ch c).drive = .releasing) (hn : (g.entry c).actNoresp = .none)
    (ha : (g.ch c).action = effectiveAction (g.entry c) (g.ch c).active) (code : Code) :
    (g.takeWrite c code true false).ch c =
        ({ (g.ch c).rolledBack (g.entry c) with
          stepTimer := .running ((g.entry c).slewInterval.val * 1000)
          norespFaults := nextNorespFaults (g.entry c) (g.ch c).norespFaults }).withActive (norespFailureActive (g.entry c) (g.ch c)) ∧
      (g.takeWrite c code true false).oq = g.oq := by
  have hquiet := State.norespFailure_quiet (c := c)
    (s := g.modCh c fun y => { y.rolledBack (g.entry c) with stepTimer := .running (g.entry c).stepLength })
    (by rw [State.entry_modCh]; exact hn) (by rw [State.entry_modCh, State.ch_modCh_self]; exact ha)
  rw [State.ch_modCh_self, State.oq_modCh, State.entry_modCh] at hquiet
  rw [State.takeWrite_failed (by rw [hd]; decide) (State.isLastWrite_eq_false (Or.inl (by rw [hd]; decide))),
    State.writeFailed_reconnecting hd, State.startStepTimer, State.modCh_modCh, State.entry_modCh]
  exact hquiet

/-- A WRITE result in a drive state that no action reaches, and that is not the last (R31, R32, R40). -/
theorem State.takeWrite_untold (hd : (g.ch c).drive.untold) (hoff : (g.ch c).drive ≠ .off) (hl : g.isLastWrite c = false)
    (code : Code) (rc success : Bool) :
    let y := (g.takeWrite c code rc success).ch c
    y.drive = (g.ch c).drive ∧ y.goal = (g.ch c).goal ∧
      y.applied = (if success then some code else (g.ch c).applied) ∧
      y.sent = (if success then (g.ch c).sent else some ((g.ch c).applied.getD (g.entry c).safeCode)) ∧
      y.norespFaults = (if success then 0 else nextNorespFaults (g.entry c) (g.ch c).norespFaults) ∧
      (g.takeWrite c code rc success).oq = g.oq := by
  have hresult : ∀ f : ChannelCtx → ChannelCtx, (f (g.ch c)).drive = (g.ch c).drive →
      (f (g.ch c)).norespFaults = (g.ch c).norespFaults → ∀ ok : Bool,
      (f (g.ch c)).sameDrive (((g.modCh c f).norespResult c ok).ch c) ∧
        (((g.modCh c f).norespResult c ok).ch c).norespFaults = (if ok then 0 else nextNorespFaults (g.entry c) (g.ch c).norespFaults) ∧
        ((g.modCh c f).norespResult c ok).oq = g.oq := by
    intro f hf hfaults ok
    have h := State.norespResult_untold (s := g.modCh c f) (c := c) (by rw [State.ch_modCh_self, hf]; exact hd) ok
    rw [State.ch_modCh_self, State.entry_modCh, State.oq_modCh, hfaults] at h
    exact ⟨h.1, h.2.1, h.2.2.2⟩
  cases success with
  | true =>
    obtain ⟨⟨hdrive, hgoal, hsent, happlied, -⟩, hfaults, hoq⟩ := hresult (ChannelCtx.wrote code) rfl rfl true
    rw [State.takeWrite_ok hoff hl, State.writeOk_untold hd]
    exact ⟨hdrive, hgoal, happlied, hsent, hfaults, hoq⟩
  | false =>
    obtain ⟨⟨hdrive, hgoal, hsent, happlied, -⟩, hfaults, hoq⟩ := hresult (ChannelCtx.rolledBack (g.entry c)) rfl rfl false
    rw [State.takeWrite_failed hoff hl, State.writeFailed_untold hd]
    exact ⟨hdrive, hgoal, happlied, hsent, hfaults, hoq⟩

/-- A WRITE that ends by a handshake, with this result, for its channel. -/
theorem State.Ends.write {code : Code} {rc : Bool} (h : s.Ends i x r u) (hj : x.job = .write c code rc) (hs : x.stale = false) :
    ∃ t, Machine.exec i s = .next t ∧ t.ch c = (u.enterGap.takeWrite c code rc r.success).ch c ∧
      t.oq = (u.enterGap.takeWrite c code rc r.success).oq ∧ ∀ d, d ≠ c → t.ch d = s.ch d := by
  rw [← State.tellOwners_write hj]
  exact h.owner hs (by rw [hj]; rfl)

theorem State.InGap.isLastWrite_eq_false (hg : s.InGap g) (h : (s.ch c).drive ≠ .stopping ∨ s.oq.hasEntry c = true) :
    g.isLastWrite c = false :=
  State.isLastWrite_eq_false (by rw [hg.ch, hg.oq]; exact h)

/-- Settles O47: the engine takes the result, then the NORESP accounting. -/
theorem writeResultsMoveTheCodes : Obligations.WriteResultsMoveTheCodes := by
  refine ⟨fun x c code rc s hl h hj hs hd hq hsent hgoal hn hsilent => ?_,
    fun x c code k goal step rc s h hj hs hd hq hsent hgoal hne hn hstep => ?_,
    fun i x c code rc s h hj hs hd hq ht hn ha => ?_,
    fun x c code goal s h hj hs hd hq hsent ht hn hgoal => ?_,
    fun i x c code s h hj hs hd hn ha => ?_,
    fun i x c code rc success s hj hs hd h => ?_⟩
  · have hends := State.ends_fbsyReleased h
    have hg := hends.inGap
    have htake := State.takeWrite_arrives (g := (s.setFbsy false).enterGap) (c := c) (by rw [hg.ch]; exact hd) (hg.noWork hq)
      (by rw [hg.ch]; exact hsent) (by rw [hg.ch]; exact hgoal) (by rw [hg.ch]; exact hn) rc
    rw [hends.exec, State.complete_write hj hs, show FieldResult.ok.success = true from rfl, htake]
    rw [State.creditNode_success_quiet (by rw [State.node_modCh, hg.node]; exact hsilent), State.done_of_law]
    · rfl
    · exact hl.congr rfl rfl
  · have hends := State.ends_fbsyReleased h
    have hg := hends.inGap
    obtain ⟨t, ht, hch, hoq, hothers⟩ := hends.write hj hs
    have htake := State.takeWrite_goesOn (g := (s.setFbsy false).enterGap) (c := c) (by rw [hg.ch]; exact hd) (by rw [hg.oq]; exact hq) (hg.noWork hq)
      (by rw [hg.ch]; exact hsent) (by rw [hg.ch]; exact hgoal) hne (by rw [hg.ch]; exact hn) rc
    rw [hg.ch, hg.oq, hg.entry, hg.slewBypass] at htake
    refine ⟨t, ht, fun htimer => ?_, fun htimer => ?_, hothers⟩
    · have htake := htake.1 htimer
      rw [hch, hoq, show FieldResult.ok.success = true from rfl, htake, State.ch_modCh_self, State.oq_modCh, hg.ch, hg.oq]
      exact ⟨rfl, rfl⟩
    · subst hstep
      exact ⟨hch.trans (htake.2 htimer).1, hoq.trans (htake.2 htimer).2⟩
  · obtain ⟨r, u, hends, hfail⟩ := State.ends_of_handshakeFails h
    have hg := hends.inGap
    obtain ⟨t, ht', hch, hoq, hothers⟩ := hends.write hj hs
    have htake := State.takeWrite_fails (g := u.enterGap) (c := c) (by rw [hg.ch]; exact hd) (hg.noWork hq) (by rw [hg.ch]; exact ht)
      (by rw [hg.entry]; exact hn) (by rw [hg.ch, hg.entry]; exact ha) code rc
    rw [hg.ch, hg.oq, hg.entry, ← hfail, ← hch, ← hoq, ChannelCtx.tested_eq] at htake
    obtain ⟨hch, hoq⟩ := htake
    have hsteady := (ChannelCtx.tested_drive (e := s.entry c) (y := (s.ch c).rolledBack (s.entry c)) hd).trans
      (ChannelCtx.rolledBack_atGoal _ _)
    exact ⟨t, ht', by rw [hch]; rfl, by rw [hch]; rfl, by rw [hch]; rfl, by rw [hch]; exact hsteady, by rw [hch]; rfl,
      by rw [hch]; exact norespFailureActive_noresp _ _, hoq, hothers⟩
  · have hends := State.ends_fbsyReleased h
    have hg := hends.inGap
    obtain ⟨t, ht', hch, hoq, hothers⟩ := hends.write hj hs
    have htake := State.takeWrite_reconnected (g := (s.setFbsy false).enterGap) (c := c) (by rw [hg.ch]; exact hd) (hg.noWork hq) (by rw [hg.ch]; exact ht)
      (by rw [hg.ch]; exact hn) code
    rw [show FieldResult.ok.success = true from rfl, htake, State.ch_modCh_self, hg.ch, hg.entry] at hch
    have hgoal' : (s.setFbsy false).enterGap.goalUnder c (s.ch c).action = goal := by
      refine (State.goalUnder_eq _ _ _).trans ?_
      rw [hgoal]
      cases (s.ch c).action <;> simp only [hg.ch, hg.entry, hsent]
    have hat : ((s.ch c).reconnected goal code).atGoal = true ↔ goal = some code := by
      simp only [ChannelCtx.atGoal, ChannelCtx.reconnected, hsent, Option.isSome_some, beq_self_eq_true, Bool.true_and, beq_iff_eq]
      exact eq_comm
    rw [hgoal'] at hch
    refine ⟨t, ht', fun hgoal => ?_, fun hgoal => ?_, ?_, hothers⟩
    · rw [hch, ChannelCtx.tested, if_pos (hat.mpr hgoal)]
      rfl
    · rw [hch, ChannelCtx.tested, if_neg fun h => hgoal (hat.mp h)]
      rfl
    · rw [hoq, show FieldResult.ok.success = true from rfl, htake, State.oq_modCh, hg.oq]
  · obtain ⟨r, u, hends, hfail⟩ := State.ends_of_handshakeFails h
    have hg := hends.inGap
    obtain ⟨t, ht', hch, hoq, hothers⟩ := hends.write hj hs
    have htake := State.takeWrite_unreconnected (g := u.enterGap) (c := c) (by rw [hg.ch]; exact hd)
      (by rw [hg.entry]; exact hn) (by rw [hg.ch, hg.entry]; exact ha) code
    rw [hg.ch, hg.oq, hg.entry, ← hfail, ← hch, ← hoq] at htake
    obtain ⟨hch, hoq⟩ := htake
    exact ⟨t, ht', hch ▸ hd, by rw [hch]; rfl, by rw [hch]; rfl, by rw [hch]; rfl, by rw [hch]; rfl, by rw [hch]; rfl, hoq, hothers⟩
  · obtain ⟨r, u, hends, hr⟩ : ∃ r u, s.Ends i x r u ∧ r.success = success := by
      rcases h with ⟨rfl, h, rfl⟩ | ⟨h, rfl⟩
      · exact ⟨_, _, State.ends_fbsyReleased h, rfl⟩
      · exact State.ends_of_handshakeFails h
    have hg := hends.inGap
    obtain ⟨t, ht, hch, hoq, hothers⟩ := hends.write hj hs
    have hlast : u.enterGap.isLastWrite c = false := hg.isLastWrite_eq_false (hd.imp (fun hi => by rw [hi]; decide) And.right)
    have huntold : (s.ch c).drive.untold ∧ (s.ch c).drive ≠ .off := by
      rcases hd with hi | ⟨hstop, -⟩
      · exact hi ▸ ⟨Or.inr (Or.inr (Or.inl rfl)), by decide⟩
      · exact hstop ▸ ⟨Or.inr (Or.inl rfl), by decide⟩
    have htake := State.takeWrite_untold (g := u.enterGap) (c := c) (by rw [hg.ch]; exact huntold.1) (by rw [hg.ch]; exact huntold.2)
      hlast code rc success
    rw [hg.ch, hg.oq, hg.entry, ← hr, ← hch, ← hoq, hr] at htake
    obtain ⟨hdrive, hgoal, happlied, hsent, hfaults, hoq⟩ := htake
    exact ⟨t, ht, hdrive, hgoal, happlied, hsent, hfaults, hoq, hothers⟩

/-! ### The last write -/

theorem State.takeWrite_last (hd : (g.ch c).drive = .stopping) (hq : g.oq.hasEntry c = false) (code : Code) (rc success : Bool) :
    ∃ f, g.takeWrite c code rc success = (g.modCh c f).reachOff c ∧ (f (g.ch c)).active = (g.ch c).active := by
  have hlast : g.isLastWrite c = true := by
    rw [State.isLastWrite, hd, hq]
    rfl
  have htake : g.takeWrite c code rc success = (if success then g.setApplied c code else g.rollBack c).reachOff c := by
    unfold State.takeWrite
    rw [if_neg (by rw [hd]; decide), if_pos hlast]
  cases success with
  | true => exact ⟨ChannelCtx.wrote code, htake, rfl⟩
  | false => exact ⟨ChannelCtx.rolledBack (g.entry c), htake, rfl⟩

/-- The reports that an arrival at OFF leaves (R41). -/
def State.offReports (s : State) (c : ChannelNo) : List Report :=
  if ((s.ch c).active.inter (s.entry c).alarmMask).nonempty then alarmPlaced s.rq c .empty .empty .none else s.rq

theorem State.reachOff_of_law (hl : s.TransmitterLaw) (c : ChannelNo) : s.reachOff c = (s.atOff c).setRq (s.offReports c) := by
  unfold State.reachOff State.offReports
  dsimp only
  split
  · exact State.offerAlarm_of_law (s := s.atOff c) (hl.congr rfl rfl) c .empty .empty .none
  · rfl

/-- The ALARM of an arrival at OFF is no PART report, so a part event after it meets no beginning transmission. -/
theorem State.reachOff_noPartBegins (hl : s.TransmitterLaw) (c : ChannelNo) : (s.reachOff c).noPartBegins := by
  rw [State.reachOff_of_law hl]
  rintro ⟨htx, hhead⟩
  have hrq : s.rq = [] := hl htx
  unfold State.offReports at hhead
  rw [State.rq_setRq, hrq] at hhead
  split at hhead <;> cases hhead

/-- The last WRITE of a channel in STOPPING (R40, R41, R76). -/
theorem State.Ends.lastWrite {code : Code} {rc : Bool} (h : s.Ends i x r u) (hl : s.TransmitterLaw) (hj : x.job = .write c code rc)
    (hs : x.stale = false) (hd : (s.ch c).drive = .stopping) (hq : s.oq.hasEntry c = false) :
    ∃ t, Machine.exec i s = .next t ∧ t.ch c = .reset ∧ t.oq = s.oq ∧ (∀ d, d ≠ c → t.ch d = s.ch d) ∧ s.psq.marked c t.psq ∧
      t.outgoing = s.clp.tx.toList ++
        (if r.success = true ∧ (s.node x.node).answerState = .silent then partPlaced (s.offReports c) (.nodeBack x.node)
         else if r.success = false ∧ (s.node x.node).answerState = .answering ∧ 2 ≤ (s.node x.node).nodeFaults.val
           then partPlaced (s.offReports c) (.nodeLost x.node)
         else s.offReports c) := by
  have hg := h.inGap
  obtain ⟨f, htake, hactive⟩ := State.takeWrite_last (g := u.enterGap) (c := c) (by rw [hg.ch]; exact hd) (by rw [hg.oq]; exact hq)
    code rc r.success
  have hlaw : (u.enterGap.modCh c f).TransmitterLaw := (h.law hl).congr rfl rfl
  have hreports : (u.enterGap.modCh c f).offReports c = s.offReports c := by
    unfold State.offReports
    rw [State.ch_modCh_self, hactive, State.entry_modCh, State.rq_modCh, hg.ch, hg.entry, hg.rq]
  have hcredit := State.creditNode_outgoing (State.reachOff_noPartBegins hlaw c) x.node r.success
  have hnode : ∀ n, ((u.enterGap.modCh c f).reachOff c).node n = s.node n := fun n => by
    rw [State.reachOff_of_law hlaw]
    exact hg.node n
  rw [hnode, State.reachOff_of_law hlaw, hreports] at hcredit
  obtain ⟨t, ht, hch, hoq, hothers⟩ := h.write hj hs
  rw [htake, State.reachOff_of_law hlaw] at hch hoq
  refine ⟨t, ht, hch.trans (State.atOff_ch _ c), hoq.trans ((State.atOff_oq _ c).trans hg.oq), hothers, ?_, ?_⟩
  all_goals
    obtain ⟨t', ht', honly, hout⟩ := h.next
    obtain rfl : t = t' := Host.Outcome.next.inj (ht.symm.trans ht')
    rw [State.complete_write hj hs, htake, State.reachOff_of_law hlaw, hreports] at honly hout
  · rw [honly.field.2, (State.creditNode_only _ _ _).field.2, State.psq_modNode, State.psq_setRq, ← hg.psq]
    exact State.atOff_psq (u.enterGap.modCh c f) c
  · rw [hout, hcredit, State.rq_setRq]
    exact congrArg (fun p : LinkPort => p.tx.toList ++ _) hg.tx

/-! ### The result of an ISOLATE -/

theorem State.takeIsolate_isolating (hd : (g.ch c).drive = .isolating) (success : Bool) : g.takeIsolate c success =
    (if success then g.modCh c fun y => { y with drive := .isolated } else g.placeIsolate c).norespResult c success := by
  unfold State.takeIsolate State.isolateResult
  rw [if_neg (by rw [hd]; decide), if_pos hd]

theorem State.placeIsolate_oq (hq : g.oq.hasEntry c = false) :
    (g.placeIsolate c).oq = { g.oq with isolates := g.oq.isolates ++ [c] } := by
  obtain ⟨hi, hw⟩ := (g.oq.hasEntry_eq_false c).mp hq
  have hall : ∀ w ∈ g.oq.writes, (!w.isOf c) = true := by simpa [OutputQueue.hasWrite] using hw
  show g.oq.placeIsolate c = _
  rw [OutputQueue.placeIsolate, hi, List.filter_eq_self.mpr hall]
  rfl

theorem State.Ends.isolate (h : s.Ends i x r u) (hj : x.job = .isolate c) (hs : x.stale = false) :
    ∃ t, Machine.exec i s = .next t ∧ t.ch c = (u.enterGap.takeIsolate c r.success).ch c ∧
      t.oq = (u.enterGap.takeIsolate c r.success).oq ∧ ∀ d, d ≠ c → t.ch d = s.ch d := by
  have htell : u.enterGap.tellOwners x r = u.enterGap.takeIsolate c r.success := by
    unfold State.tellOwners
    rw [hj]
  rw [← htell]
  exact h.owner hs (by rw [hj]; rfl)

/-- Settles O48: arrival at OFF before the credit, and the drive record of an isolation with the NORESP accounting. -/
theorem lastWriteAndIsolateResults : Obligations.LastWriteAndIsolateResults := by
  refine ⟨fun i x c code rc success rq s hl hj hs hd hq h hrq => ?_, fun x c s hj hs hd hq => ⟨fun h => ?_, fun i h => ?_⟩⟩
  · subst hrq
    rcases h with ⟨rfl, h, rfl⟩ | ⟨h, rfl⟩
    · exact (State.ends_fbsyReleased h).lastWrite hl hj hs hd hq
    · obtain ⟨r, u, hends, hr⟩ := State.ends_of_handshakeFails h
      exact hr ▸ hends.lastWrite hl hj hs hd hq
  · have hends := State.ends_fbsyReleased h
    have hg := hends.inGap
    obtain ⟨t, ht, hch, hoq, hothers⟩ := hends.isolate hj hs
    have hresult := State.norespResult_untold (c := c) (s := (s.setFbsy false).enterGap.modCh c fun y => { y with drive := .isolated })
      (by rw [State.ch_modCh_self]; exact Or.inr (Or.inr (Or.inr rfl))) true
    have htake := State.takeIsolate_isolating (g := (s.setFbsy false).enterGap) (c := c) (by rw [hg.ch]; exact hd) true
    rw [if_pos rfl] at htake
    rw [State.ch_modCh_self, State.oq_modCh, hg.ch, hg.oq, ← htake] at hresult
    obtain ⟨⟨hdrive, hgoal, hsent, happlied, -⟩, hfaults, hnoresp, hsame⟩ := hresult
    rw [show FieldResult.ok.success = true from rfl] at hch hoq
    exact ⟨t, ht, hch ▸ hdrive, hoq.trans hsame, hch ▸ hfaults, hch ▸ hnoresp rfl, hch ▸ hgoal, hch ▸ hsent, hch ▸ happlied, hothers⟩
  · obtain ⟨r, u, hends, hr⟩ := State.ends_of_handshakeFails h
    have hg := hends.inGap
    obtain ⟨t, ht, hch, hoq, hothers⟩ := hends.isolate hj hs
    have hplace : (u.enterGap.placeIsolate c).ch c = s.ch c := hg.ch c
    have hresult := State.norespResult_untold (c := c) (s := u.enterGap.placeIsolate c)
      (by rw [hplace, hd]; exact Or.inr (Or.inr (Or.inl rfl))) false
    have htake := State.takeIsolate_isolating (g := u.enterGap) (c := c) (by rw [hg.ch]; exact hd) false
    rw [if_neg (by decide)] at htake
    have hqueue := State.placeIsolate_oq (g := u.enterGap) (c := c) (by rw [hg.oq]; exact hq)
    have hentry : (u.enterGap.placeIsolate c).entry c = s.entry c := hg.entry c
    rw [hg.oq] at hqueue
    rw [hplace, hentry, hqueue, ← htake] at hresult
    rw [hr] at hch hoq
    obtain ⟨⟨hdrive, hgoal, hsent, happlied, -⟩, hfaults, -, hsame⟩ := hresult
    exact ⟨t, ht, hch ▸ hdrive.trans hd, hoq.trans hsame, hch ▸ hfaults, hch ▸ hgoal, hch ▸ hsent, hch ▸ happlied, hothers⟩

end Sys2Proof.Machine
end

