-- ==== Sys2Proof/Proofs/PollResults.lean ====
section
/-! PROOF. The results of POLL transactions in the channels (R107 to R121, R126, R127). -/

namespace Sys2Proof.Machine

variable {s t u g v w : State} {x : Transaction} {i : Instr} {r : FieldResult} {c : ChannelNo}

/-! ### The READBACK reports among the outgoing -/

theorem readbacks_append (a b : List Report) : readbacks (a ++ b) = readbacks a ++ readbacks b := List.filter_append ..

theorem readbacks_map {f : Report → Report} (h : ∀ q, readbacks [f q] = readbacks [q]) (l : List Report) :
    readbacks (l.map f) = readbacks l := by
  induction l with
  | nil => rfl
  | cons q l ih =>
    rw [List.map_cons, ← List.singleton_append, readbacks_append, h, ih, ← readbacks_append]
    rfl

theorem readbacks_alarmPlaced (rq : List Report) (c : ChannelNo) (active latched : ClassSet) (a : Action) :
    readbacks (alarmPlaced rq c active latched a) = readbacks rq := by
  unfold alarmPlaced
  split
  · refine readbacks_map (fun q => ?_) rq
    cases q with
    | alarm d =>
      unfold Report.rewriteAlarm
      dsimp only
      split <;> rfl
    | readback | part | response => rfl
  · rw [readbacks_append]
    exact List.append_nil _

theorem readbacks_partPlaced (rq : List Report) (e : PartEvent) : readbacks (partPlaced rq e) = readbacks rq := by
  unfold partPlaced
  split
  · refine readbacks_map (fun q => ?_) rq
    cases q <;> rfl
  · rw [readbacks_append]
    exact List.append_nil _

/-- From `s` to `t` no READBACK has been placed, and no READBACK has been refused. -/
structure State.KeepsReadbacks (s t : State) : Prop where
  placed : readbacks t.outgoing = readbacks s.outgoing
  suppressed : t.mgx.latches.reportsSuppressed = s.mgx.latches.reportsSuppressed

theorem State.KeepsReadbacks.refl (s : State) : s.KeepsReadbacks s := ⟨rfl, rfl⟩

theorem State.KeepsReadbacks.trans (h : s.KeepsReadbacks t) (k : t.KeepsReadbacks u) : s.KeepsReadbacks u :=
  ⟨k.placed.trans h.placed, k.suppressed.trans h.suppressed⟩

theorem State.KeepsReadbacks.of_same (hclp : t.clp = s.clp) (hrq : t.rq = s.rq)
    (hlatch : t.mgx.latches.reportsSuppressed = s.mgx.latches.reportsSuppressed) : s.KeepsReadbacks t :=
  ⟨by rw [State.outgoing, hclp, hrq]; rfl, hlatch⟩

theorem State.KeepsReadbacks.after (h : t.KeepsReadbacks u) (hclp : t.clp = s.clp) (hrq : t.rq = s.rq)
    (hlatch : t.mgx.latches.reportsSuppressed = s.mgx.latches.reportsSuppressed) : s.KeepsReadbacks u :=
  (State.KeepsReadbacks.of_same hclp hrq hlatch).trans h

theorem State.beginTransmission_keepsReadbacks (s : State) : s.KeepsReadbacks s.beginTransmission :=
  ⟨congrArg readbacks s.beginTransmission_outgoing, by rw [s.beginTransmission_onlyReports.units.2.2.1]⟩

theorem State.meetTransmission_keepsReadbacks (s : State) (f : Report → Bool) : s.KeepsReadbacks (s.meetTransmission f) := by
  rcases s.meetTransmission_cases f with h | h | h <;> rw [h]
  · exact .refl s
  · exact s.beginTransmission_keepsReadbacks.trans (.of_same rfl rfl rfl)
  · exact .of_same rfl rfl rfl

theorem State.setRq_keepsReadbacks {rq : List Report} (h : readbacks rq = readbacks s.rq) : s.KeepsReadbacks (s.setRq rq) :=
  ⟨by rw [State.outgoing, State.rq_setRq, readbacks_append, h, ← readbacks_append]; rfl, rfl⟩

theorem State.offerAlarm_keepsReadbacks (s : State) (c : ChannelNo) (active latched : ClassSet) (a : Action) :
    s.KeepsReadbacks (s.offerAlarm c active latched a) :=
  (s.meetTransmission_keepsReadbacks _).trans (State.setRq_keepsReadbacks (readbacks_alarmPlaced _ _ _ _ _))

theorem State.offerPart_keepsReadbacks (s : State) (e : PartEvent) : s.KeepsReadbacks (s.offerPart e) :=
  (s.meetTransmission_keepsReadbacks _).trans (State.setRq_keepsReadbacks (readbacks_partPlaced _ _))

theorem State.Drives.keepsReadbacks (h : State.Drives c s t) : s.KeepsReadbacks t :=
  .of_same h.reports.1 h.reports.2 (by rw [h.frame.units.2.2.1])

theorem State.modCh_keepsReadbacks (s : State) (c : ChannelNo) (f : ChannelCtx → ChannelCtx) : s.KeepsReadbacks (s.modCh c f) :=
  .of_same rfl rfl rfl

theorem State.setActive_keepsReadbacks (s : State) (c : ChannelNo) (active : ClassSet) : s.KeepsReadbacks (s.setActive c active) := by
  by_cases h : active = (s.ch c).active
  · rw [h, State.setActive_self]
    exact .refl s
  · rw [State.setActive_of_ne h]
    have hactivated := (s.modCh_keepsReadbacks c (ChannelCtx.activeSet (s.entry c) active)).trans (s.activated_drives c active).keepsReadbacks
    split
    · exact hactivated.trans (State.offerAlarm_keepsReadbacks _ _ _ _ _)
    · exact hactivated

theorem State.norespResult_keepsReadbacks (s : State) (c : ChannelNo) (success : Bool) : s.KeepsReadbacks (s.norespResult c success) := by
  unfold State.norespResult
  split
  · exact (s.modCh_keepsReadbacks c _).trans (State.setActive_keepsReadbacks _ c _)
  · exact (s.modCh_keepsReadbacks c _).trans (State.setActive_keepsReadbacks _ c _)

theorem State.creditNode_keepsReadbacks (s : State) (n : Node) (success : Bool) : s.KeepsReadbacks (s.creditNode n success) := by
  unfold State.creditNode
  dsimp only
  split
  · exact (State.offerPart_keepsReadbacks _ _).after rfl rfl rfl
  · exact .of_same rfl rfl rfl

theorem State.startCycle_keepsReadbacks (s : State) : s.KeepsReadbacks s.startCycle := .of_same rfl rfl rfl

theorem State.endWalk_keepsReadbacks (s : State) : s.KeepsReadbacks s.endWalk := by
  unfold State.endWalk
  split
  · exact (State.offerPart_keepsReadbacks _ _).after rfl rfl rfl
  · split
    · exact s.startCycle_keepsReadbacks
    · split
      · exact ((State.offerPart_keepsReadbacks _ _).trans (State.startCycle_keepsReadbacks _)).after rfl rfl rfl
      · exact .of_same rfl rfl rfl

theorem State.pollEnded_keepsReadbacks (s : State) : s.KeepsReadbacks s.pollEnded := by
  unfold State.pollEnded State.endSlotIfDue State.endSlot
  split
  · dsimp only
    split
    · split
      · exact (State.endWalk_keepsReadbacks _).after rfl rfl rfl
      · exact .of_same rfl rfl rfl
    all_goals exact .of_same rfl rfl rfl
  · exact .of_same rfl rfl rfl

/-- A POLL of a channel that ends, for that channel and the READBACK reports. -/
theorem State.Ends.poll (h : s.Ends i x r u) (hj : x.job = .poll c) (hs : x.stale = false) :
    ∃ t, Machine.exec i s = .next t ∧ t.ch c = (u.enterGap.takePoll c x.node r).ch c ∧
      t.oq = (u.enterGap.takePoll c x.node r).oq ∧ (∀ d, d ≠ c → t.ch d = s.ch d) ∧ (u.enterGap.takePoll c x.node r).KeepsReadbacks t := by
  have htell : u.enterGap.tellOwners x r = u.enterGap.takePoll c x.node r := by
    unfold State.tellOwners
    rw [hj]
  have htold : u.told x r = u.enterGap.takePoll c x.node r := (if_neg (by rw [hs]; decide)).trans htell
  obtain ⟨t, ht, hch, hoq, hothers⟩ := h.owner hs (c := c) (by rw [hj]; rfl)
  rw [htell] at hch hoq
  refine ⟨t, ht, hch, hoq, hothers, ?_⟩
  obtain rfl : t = (u.complete x r).beginTransmission := Host.Outcome.next.inj (ht.symm.trans h.exec)
  rw [State.complete_eq, htold, hj]
  exact ((State.creditNode_keepsReadbacks _ _ _).trans (State.pollEnded_keepsReadbacks _)).trans (State.beginTransmission_keepsReadbacks _)

/-! ### The classes after an evaluated reading -/

theorem distance_eq_codesApart (a b : Code) : distance a b = codesApart a b := by
  unfold distance codesApart
  split <;> omega

theorem nextValueFaults_reaches (e : ChannelEntry) (f : Nat) (k : ClassSet) :
    nextValueFaults e f k = e.faultLimit.val + 1 ↔ k.nonempty = true ∧ e.faultLimit.val ≤ f := by
  unfold nextValueFaults
  cases k.nonempty with
  | true =>
    show min (f + 1) (e.faultLimit.val + 1) = _ ↔ _
    simp only [true_and]
    omega
  | false => simp

theorem highClears_of_highHolds {e : ChannelEntry} {value : Code} (h : highHolds e value = true) : highClears e value = false := by
  simp only [highHolds, highClears, decide_eq_true_iff, decide_eq_false_iff_not] at h ⊢
  omega

theorem lowClears_of_lowHolds {e : ChannelEntry} {value : Code} (h : lowHolds e value = true) : lowClears e value = false := by
  simp only [lowHolds, lowClears, decide_eq_true_iff, decide_eq_false_iff_not] at h ⊢
  have := e.limitLo.isLt
  show ¬ min 65535 _ ≤ _
  omega

theorem trkClears_of_trkHolds {e : ChannelEntry} {applied : Option Code} {value : Code} (h : trkHolds e applied value = true) :
    trkClears e applied value = false := by
  cases applied with
  | none => rfl
  | some a =>
    simp only [trkHolds, trkClears, decide_eq_true_iff, decide_eq_false_iff_not] at h ⊢
    omega

/-- A class whose condition holds joins when the counter stands at its limit; one whose clearing bound is met leaves (R116, R117). -/
def classAfter (reached holds clears before : Bool) : Bool := if holds then reached || before else before && !clears

theorem classAfter_eq {reached any holds clears : Bool} (hclear : holds = true → clears = false) (hany : holds = true → any = true)
    (before : Bool) : ((if any = true ∧ reached = true then before || holds else before) && !clears) =
      classAfter reached holds clears before := by
  unfold classAfter
  cases holds with
  | true => rw [hclear rfl, hany rfl]; cases reached <;> simp
  | false => simp

/-- The active set after an evaluated reading, class by class. -/
theorem evaluatedActive_eq (e : ChannelEntry) (x : ChannelCtx) (value : Code) (k : ClassSet) :
    evaluatedActive e x value k = { k with
      trk := classAfter (decide (e.faultLimit.val ≤ x.valueFaults)) (conditions e x value).trk (clearings e x value).trk k.trk
      high := classAfter (decide (e.faultLimit.val ≤ x.valueFaults)) (highHolds e value) (highClears e value) k.high
      low := classAfter (decide (e.faultLimit.val ≤ x.valueFaults)) (lowHolds e value) (lowClears e value) k.low } := by
  have htrk : (conditions e x value).trk = true → (clearings e x value).trk = false := fun h => by
    have := (Bool.and_eq_true_iff.mp h).2
    simp only [clearings, trkClears_of_trkHolds this, Bool.and_false]
  have hany : ∀ b, b = (conditions e x value).trk ∨ b = highHolds e value ∨ b = lowHolds e value → b = true →
      (conditions e x value).nonempty = true := by
    rintro b hb rfl
    simp only [ClassSet.nonempty, Bool.or_eq_true]
    rcases hb with hb | hb | hb
    · exact Or.inl (Or.inl (Or.inl (Or.inl hb.symm)))
    · exact Or.inl (Or.inl (Or.inl (Or.inr hb.symm)))
    · exact Or.inl (Or.inl (Or.inr hb.symm))
  rw [← classAfter_eq htrk (hany _ (Or.inl rfl)), ← classAfter_eq highClears_of_highHolds (hany _ (Or.inr (Or.inl rfl))),
    ← classAfter_eq lowClears_of_lowHolds (hany _ (Or.inr (Or.inr rfl)))]
  unfold evaluatedActive
  simp only [nextValueFaults_reaches, decide_eq_true_iff]
  split
  · simp [ClassSet.minus, ClassSet.union, conditions, clearings]
  · simp [ClassSet.minus, clearings]

/-! ### A reading is taken -/

/-- The channel when its reading has been taken and ACT has been told, before the report (R107). -/
def State.readingTaken (s : State) (c : ChannelNo) (value : Code) : State :=
  (s.modCh c (ChannelCtx.afterReading (s.entry c) value)).setActive c (activeAfterReading (s.entry c) (s.ch c) value)

/-- A READBACK is offered if it is due (R126). -/
def State.readingReported (s : State) (c : ChannelNo) (value : Code) (due : Bool) : State :=
  if due then s.offerReadback c value else s

theorem State.takePoll_value (h : (g.ch c).drive ≠ .off) (n : Node) (raw value : Code) (hvalue : value = readingValue (g.ch c) (g.node n) raw) :
    g.takePoll c n (.value raw) = ((g.readingTaken c value).readingReported c value
      ((g.ch c).drive.reportsReadings && readbackDue (g.entry c) (g.ch c) value)).stepTest c := by
  subst hvalue
  exact if_neg h

/-- The context with a reading taken and the active set after it. -/
def ChannelCtx.readingTaken (e : ChannelEntry) (value : Code) (y : ChannelCtx) : ChannelCtx :=
  let active := activeAfterReading e y value
  if active = y.active then y.afterReading e value else (y.afterReading e value).activeSet e active

theorem ChannelCtx.afterReading_keeps (e : ChannelEntry) (value : Code) (y : ChannelCtx) :
    y.afterReading e value = { y with
      injectLeft := decr y.injectLeft, lastReading := some value, norespFaults := 0
      valueFaults := (y.afterReading e value).valueFaults, settleLeft := (y.afterReading e value).settleLeft } := by
  unfold ChannelCtx.afterReading
  dsimp only
  split <;> rfl

/-- The context when a reading has been taken, but for the drive record. -/
theorem State.readingTaken_moves (s : State) (c : ChannelNo) (value : Code) :
    ((s.ch c).readingTaken (s.entry c) value).Moves ((s.readingTaken c value).ch c) := by
  have h := (s.modCh c (ChannelCtx.afterReading (s.entry c) value)).setActive_context c (activeAfterReading (s.entry c) (s.ch c) value)
  have hactive : ((s.ch c).afterReading (s.entry c) value).active = (s.ch c).active := by rw [ChannelCtx.afterReading_keeps]
  rw [State.ch_modCh_self, State.entry_modCh, hactive] at h
  exact h

theorem ChannelCtx.readingTaken_active (e : ChannelEntry) (value : Code) (y : ChannelCtx) :
    (y.readingTaken e value).active = activeAfterReading e y value := by
  unfold ChannelCtx.readingTaken
  dsimp only
  split
  · next h => rw [ChannelCtx.afterReading_keeps, h]
  · rfl

theorem State.readingTaken_active (s : State) (c : ChannelNo) (value : Code) :
    ((s.readingTaken c value).ch c).active = activeAfterReading (s.entry c) (s.ch c) value := by
  rw [(s.readingTaken_moves c value).1, ← ChannelCtx.readingTaken_active]

theorem State.readingTaken_keepsReadbacks (s : State) (c : ChannelNo) (value : Code) : s.KeepsReadbacks (s.readingTaken c value) :=
  (s.modCh_keepsReadbacks c _).trans (State.setActive_keepsReadbacks _ _ _)

theorem State.readingReported_ch (s : State) (c : ChannelNo) (value : Code) (due : Bool) :
    (s.readingReported c value due).ch c =
      { s.ch c with lastReported := ((s.readingReported c value due).ch c).lastReported } := by
  unfold State.readingReported State.offerReadback
  split
  · split
    · rw [State.ch_modCh_self]; rfl
    · rfl
  · rfl

theorem State.readingReported_frame (s : State) (c : ChannelNo) (value : Code) (due : Bool) :
    (s.readingReported c value due).oq = s.oq ∧ (s.readingReported c value due).fbc = s.fbc ∧
      (s.readingReported c value due).ct = s.ct := by
  unfold State.readingReported State.offerReadback
  split
  · split <;> exact ⟨rfl, rfl, rfl⟩
  · exact ⟨rfl, rfl, rfl⟩

/-! ### The report of a reading -/

theorem readbackDue_iff (e : ChannelEntry) (y : ChannelCtx) (value : Code) :
    readbackDue e y value = true ↔ readbackOffered e y value := by
  unfold readbackDue readbackOffered
  cases e.reportMode with
  | off => simp
  | every => simp
  | delta =>
    cases y.lastReported with
    | none => simp
    | some last => simp [distance_eq_codesApart]

theorem alarmPlaced_length (rq : List Report) (c : ChannelNo) (active latched : ClassSet) (a : Action) :
    (alarmPlaced rq c active latched a).length = if rq.any (Report.isAlarmOf c) = false then rq.length + 1 else rq.length := by
  unfold alarmPlaced
  cases rq.any (Report.isAlarmOf c) <;> simp

/-- The queue as a change of the active set leaves it (R137, R176). -/
theorem State.setActive_occupancy (hl : s.TransmitterLaw) (c : ChannelNo) (active : ClassSet) :
    (s.setActive c active).rq.length = s.occupancyAfterAlarm c active := by
  unfold State.occupancyAfterAlarm
  by_cases h : active = (s.ch c).active
  · rw [h, State.setActive_self, ClassSet.touches_self]
    rfl
  · obtain ⟨hclp, hrq⟩ := (s.activated_drives c active).reports
    rw [State.clp_modCh] at hclp
    rw [State.rq_modCh] at hrq
    rw [State.setActive_of_ne h]
    cases ht : (s.ch c).active.touches active (s.entry c).alarmMask with
    | true =>
      rw [if_pos rfl, State.offerAlarm_of_law (hl.congr (congrArg LinkPort.tx hclp) hrq), State.rq_setRq, alarmPlaced_length, hrq]
      simp
    | false =>
      rw [if_neg (by decide), hrq]
      simp

theorem State.setActive_mgx (s : State) (c : ChannelNo) (active : ClassSet) : (s.setActive c active).mgx = s.mgx :=
  (State.setActive_onlyChannel s c active).units.2.2.1

/-- The report of an evaluated reading, from the state before the event to one that differs from the report's in the drive record and
in reports of other kinds (R126, R127, R175). -/
theorem State.offersReadback_of {value : Code} (hl : g.TransmitterLaw) (hreports : (g.ch c).drive.reportsReadings = true)
    (hmoves : (((g.readingTaken c value).readingReported c value
      ((g.ch c).drive.reportsReadings && readbackDue (g.entry c) (g.ch c) value)).ch c).Moves (t.ch c))
    (hkeeps : ((g.readingTaken c value).readingReported c value
      ((g.ch c).drive.reportsReadings && readbackDue (g.entry c) (g.ch c) value)).KeepsReadbacks t) :
    State.OffersReadback c value ((g.readingTaken c value).ch c).drive g t := by
  rw [hreports, Bool.true_and] at hmoves hkeeps
  have htaken := g.readingTaken_moves c value
  have hold : ((g.ch c).readingTaken (g.entry c) value).clamped = (g.ch c).clamped ∧
      ((g.ch c).readingTaken (g.entry c) value).lastReported = (g.ch c).lastReported := by
    unfold ChannelCtx.readingTaken
    rw [ChannelCtx.afterReading_keeps]
    dsimp only
    split <;> exact ⟨rfl, rfl⟩
  have hclamped : ((g.readingTaken c value).ch c).clamped = (g.ch c).clamped := by rw [htaken.1, ← hold.1]
  have hlast : ((g.readingTaken c value).ch c).lastReported = (g.ch c).lastReported := by rw [htaken.1, ← hold.2]
  have hactive : (t.ch c).active = activeAfterReading (g.entry c) (g.ch c) value := by
    rw [hmoves.1, State.readingReported_ch, ← g.readingTaken_active]
  have haction : (t.ch c).action = ((g.readingTaken c value).ch c).action := by
    rw [hmoves.1, State.readingReported_ch]
  have hreported : (t.ch c).lastReported =
      (((g.readingTaken c value).readingReported c value (readbackDue (g.entry c) (g.ch c) value)).ch c).lastReported := by rw [hmoves.1]
  have hoccupancy : (g.readingTaken c value).rq.length = g.occupancyAfterAlarm c (t.ch c).active := by
    have h := State.setActive_occupancy (s := g.modCh c (ChannelCtx.afterReading (g.entry c) value)) (hl.congr rfl rfl) c
      (activeAfterReading (g.entry c) (g.ch c) value)
    unfold State.occupancyAfterAlarm at h ⊢
    rw [State.ch_modCh_self, ChannelCtx.afterReading_keeps] at h
    rw [hactive]
    exact h
  have hmgx : (g.readingTaken c value).mgx = g.mgx := State.setActive_mgx _ _ _
  have hadmits : (g.readingTaken c value).admitsReadback = decide (g.occupancyAfterAlarm c (t.ch c).active < g.mgx.config.highWater.val) := by
    rw [State.admitsReadback, hoccupancy, hmgx]
  have hkept := g.readingTaken_keepsReadbacks c value
  refine ⟨fun hdue hroom => ?_, fun hdue hfull => ?_, fun hdue => ?_⟩
  · have hdue' := (readbackDue_iff _ _ _).mpr hdue
    have hplaced : (g.readingTaken c value).readingReported c value (readbackDue (g.entry c) (g.ch c) value) =
        ((g.readingTaken c value).placeReport (.readback c value ((g.readingTaken c value).ch c).clamped
          ((g.readingTaken c value).ch c).drive ((g.readingTaken c value).ch c).action)).modCh c fun y => { y with lastReported := some value } := by
      unfold State.readingReported State.offerReadback
      rw [hdue', hadmits, decide_eq_true hroom]
      rfl
    rw [hplaced] at hreported hkeeps
    rw [State.ch_modCh_self] at hreported
    refine ⟨hreported, hkeeps.suppressed.trans hkept.suppressed, hkeeps.placed.trans ?_⟩
    rw [haction, ← hclamped, ← hkept.placed, State.outgoing, State.outgoing, State.clp_modCh, State.rq_modCh]
    simp only [State.placeReport, State.rq_setRq, State.clp_setRq, readbacks_append, List.append_assoc]
    rfl
  · have hdue' := (readbackDue_iff _ _ _).mpr hdue
    have hrefused : (g.readingTaken c value).readingReported c value (readbackDue (g.entry c) (g.ch c) value) =
        (g.readingTaken c value).latch fun l => { l with reportsSuppressed := true } := by
      unfold State.readingReported State.offerReadback
      rw [hdue', hadmits, decide_eq_false (by omega)]
      rfl
    rw [hrefused] at hreported hkeeps
    exact ⟨hreported.trans hlast, hkeeps.suppressed, hkeeps.placed.trans hkept.placed⟩
  · have hdue' : readbackDue (g.entry c) (g.ch c) value = false := by
      rw [← Bool.not_eq_true, readbackDue_iff]
      exact hdue
    rw [hdue'] at hreported hkeeps
    exact ⟨hreported.trans hlast, hkeeps.suppressed.trans hkept.suppressed, hkeeps.placed.trans hkept.placed⟩

/-! ### A second step test -/

/-- A step test would not bring the channel to STEADY (R26). -/
def State.stepTested (s : State) (c : ChannelNo) : Prop :=
  (s.ch c).drive ≠ .moving ∨ s.hasWork c = true ∨ (s.ch c).atGoal = false

theorem State.stepTested.drive (h : s.stepTested c) : ((s.stepTest c).ch c).drive = (s.ch c).drive := by
  unfold State.stepTest
  split
  · rfl
  · next hd =>
    split
    · rfl
    · next hw =>
      have hg : ¬ (s.ch c).atGoal = true := by
        rcases h with h | h | h
        · exact absurd h hd
        · exact absurd h hw
        · rw [h]; decide
      rw [if_neg hg]
      split
      · rfl
      · unfold State.issueStep
        split
        · rw [State.issueWrite_ch]
        · rfl

/-- A step test leaves the channel so. -/
theorem State.stepTest_stepTested (s : State) (c : ChannelNo) : (s.stepTest c).stepTested c := by
  unfold State.stepTest
  split
  · next hd => exact Or.inl hd
  · split
    · next hw => exact Or.inr (Or.inl hw)
    · next hw =>
      split
      · exact Or.inl (by rw [State.enterSteady, State.ch_modCh_self]; exact (by decide : DriveState.steady ≠ .moving))
      · next hg =>
        rw [Bool.not_eq_true] at hg
        split
        · exact Or.inr (Or.inr hg)
        · unfold State.issueStep
          split
          · next k goal _ _ =>
            have hq : s.oq.hasEntry c = false := by
              simp only [State.hasWork, Bool.or_eq_true, not_or, Bool.not_eq_true] at hw
              exact hw.1.1
            refine Or.inr (Or.inl ?_)
            simp [State.hasWork, State.issueWrite_oq hq, OutputQueue.hasEntry, OutputQueue.hasWrite, WriteEntry.isOf]
          · exact Or.inr (Or.inr hg)

theorem State.stepTested.congr (h : s.stepTested c) (hch : (t.ch c).drive = (s.ch c).drive ∧ (t.ch c).atGoal = (s.ch c).atGoal)
    (hoq : t.oq = s.oq) (hfbc : t.fbc = s.fbc) : t.stepTested c := by
  unfold State.stepTested State.hasWork State.writeInFlight State.isolateInFlight at *
  rw [hch.1, hch.2, hoq, hfbc]
  exact h

theorem State.setGoal_stepTested (h : (s.ch c).drive = .steady) (goal : Option Code) : (s.setGoal c goal).stepTested c := by
  unfold State.setGoal
  split
  · exact Or.inl (by rw [h]; decide)
  · exact State.stepTest_stepTested _ c

/-- The settle count that a step test leaves, where it brings no channel to STEADY (R26). -/
theorem State.stepTest_settleLeft (s : State) (c : ChannelNo) :
    ((s.stepTest c).ch c).settleLeft = (s.ch c).settleLeft ∨
      ((s.ch c).drive = .moving ∧ ((s.stepTest c).ch c).drive = .steady) := by
  unfold State.stepTest
  split
  · exact Or.inl rfl
  · next hd =>
    split
    · exact Or.inl rfl
    · split
      · exact Or.inr ⟨not_not.mp hd, by rw [State.enterSteady, State.ch_modCh_self]⟩
      · split
        · exact Or.inl rfl
        · unfold State.issueStep
          split
          · rw [State.issueWrite_ch]; exact Or.inl rfl
          · exact Or.inl rfl

theorem State.coalesceToGoal_settleLeft (s : State) (c : ChannelNo) : ((s.coalesceToGoal c).ch c).settleLeft = (s.ch c).settleLeft := by
  unfold State.coalesceToGoal
  split
  · split
    · rw [State.requestCode_ch]
      split <;> rfl
    · rfl
  · rfl

/-- A channel in STEADY keeps its settle count under a new goal, unless that brings it to STEADY again (R24, R26). -/
theorem State.setGoal_settleLeft (s : State) (c : ChannelNo) (goal : Option Code) :
    ((s.setGoal c goal).ch c).settleLeft = (s.ch c).settleLeft ∨
      (goal ≠ (s.ch c).goal ∧ ((s.setGoal c goal).ch c).drive = .steady) := by
  unfold State.setGoal
  split
  · exact Or.inl rfl
  · next hne =>
    refine (State.stepTest_settleLeft _ c).imp (fun h => ?_) fun h => ⟨hne, h.2⟩
    rw [h, State.coalesceToGoal_settleLeft, State.ch_modCh_self]

/-! ### A change of the active set in STEADY -/

theorem OutputQueue.placeIsolate_has (q : OutputQueue) (c : ChannelNo) :
    (q.placeIsolate c).hasIsolate c = true ∧ (q.placeIsolate c).hasWrite c = false := by
  unfold OutputQueue.placeIsolate OutputQueue.hasIsolate OutputQueue.hasWrite
  refine ⟨?_, by simp⟩
  dsimp only
  split
  · next h => exact h
  · simp

theorem State.beginIsolation_ch (s : State) (c : ChannelNo) : (s.beginIsolation c).ch c = { s.ch c with drive := .isolating } :=
  State.ch_modCh_self _ _ _

theorem State.setActive_steady (hd : (s.ch c).drive = .steady) (ha : (s.ch c).action = effectiveAction (s.entry c) (s.ch c).active)
    (active : ClassSet) :
    let y := (s.setActive c active).ch c
    (s.setActive c active).stepTested c ∧ (y.drive ≠ .steady ∨ y.goal = (s.ch c).goal → y.settleLeft = (s.ch c).settleLeft) ∧
      (y.action = (s.ch c).action →
        y.drive = .steady ∧ y.goal = (s.ch c).goal ∧ y.sent = (s.ch c).sent ∧ (s.setActive c active).oq = s.oq) ∧
      (y.action ≠ (s.ch c).action → y.action = .isolate → y.drive = .isolating ∧ y.goal = (s.ch c).goal ∧
        (s.setActive c active).oq.hasIsolate c = true ∧ (s.setActive c active).oq.hasWrite c = false) ∧
      (y.action ≠ (s.ch c).action → y.action ≠ .isolate → y.goal = s.goalUnder c y.action) := by
  have haction := State.setActive_action ha active
  dsimp only
  by_cases h : effectiveAction (s.entry c) active = (s.ch c).action
  · obtain ⟨hch, hoq⟩ := State.setActive_stays h
    rw [haction]
    refine ⟨Or.inl ?_, fun _ => by rw [hch]; rfl, fun _ => ?_, fun hne => absurd h hne, fun hne => absurd h hne⟩
    · rw [hch]
      exact (by rw [hd]; decide : (s.ch c).drive ≠ .moving)
    · rw [hch]
      exact ⟨hd, rfl, rfl, hoq⟩
  · have hne : active ≠ (s.ch c).active := fun he => h (by rw [he, ha])
    obtain ⟨hch, hoq⟩ := State.setActive_told hne h
    have hset : (s.modCh c (ChannelCtx.activeSet (s.entry c) active)).ch c = (s.ch c).activeSet (s.entry c) active :=
      State.ch_modCh_self _ _ _
    have hsteady : ((s.modCh c (ChannelCtx.activeSet (s.entry c) active)).ch c).drive = .steady := by rw [hset]; exact hd
    rw [haction]
    by_cases hiso : effectiveAction (s.entry c) active = .isolate
    · have hbegun := State.actionChanged_isolate (Or.inr (Or.inl hsteady))
      rw [hiso, hbegun, State.beginIsolation_ch, hset] at hch
      rw [hiso, hbegun, State.beginIsolation, State.oq_modCh] at hoq
      refine ⟨Or.inl (by rw [hch]; exact (by decide : DriveState.isolating ≠ .moving)), fun _ => ?_, fun he => absurd he h, fun _ _ => ?_,
        fun _ hni => absurd hiso hni⟩
      · rw [hch]
        rfl
      · rw [hch, hoq]
        exact ⟨rfl, rfl, OutputQueue.placeIsolate_has _ c⟩
    · rw [State.actionChanged_of_driving (Or.inr hsteady) hiso] at hch hoq
      have honly := State.setActive_onlyReports (s := s) (c := c) hne
      have hact : s.activated c active = _ := if_neg h
      rw [hact, State.actionChanged_of_driving (Or.inr hsteady) hiso] at honly
      have hgoal : (s.modCh c (ChannelCtx.activeSet (s.entry c) active)).goalUnder c (effectiveAction (s.entry c) active) =
          s.goalUnder c (effectiveAction (s.entry c) active) := by
        simp only [State.goalUnder_eq, hset, State.entry_modCh]
        rfl
      refine ⟨?_, fun hs => ?_, fun he => absurd he h, fun _ hi => absurd hi hiso, fun _ _ => ?_⟩
      · exact (State.setGoal_stepTested hsteady _).congr ⟨by rw [hch], by rw [hch]⟩ honly.channels.2 honly.field.1
      · rw [hch] at hs ⊢
        rw [hgoal] at hs ⊢
        rw [State.setGoal_goal] at hs
        rcases State.setGoal_settleLeft (s.modCh c (ChannelCtx.activeSet (s.entry c) active)) c
          (s.goalUnder c (effectiveAction (s.entry c) active)) with hk | ⟨hk, hdrive⟩
        · rw [hk, hset]
          rfl
        · rw [hset] at hk
          rcases hs with hs | hs
          · exact absurd hdrive hs
          · exact absurd hs hk
      · rw [hch, State.setGoal_goal, hgoal]

/-! ### The POLL of a channel succeeds -/

/-- The part when the owners take a reading: the bus is in GAP. -/
def State.atReading (s : State) : State := (s.setFrx .discarding).enterGap

theorem State.atReading_ch (s : State) (c : ChannelNo) : s.atReading.ch c = s.ch c := rfl

theorem State.atReading_entry (s : State) (c : ChannelNo) : s.atReading.entry c = s.entry c := rfl

/-- The part when they have taken it, before the step test that a completion calls for (R107, R111). -/
def State.monitored (s : State) (c : ChannelNo) (value : Code) : State :=
  (s.atReading.readingTaken c value).readingReported c value
    ((s.ch c).drive.reportsReadings && readbackDue (s.entry c) (s.ch c) value)

theorem State.exec_pollReading {rd : Reading} {value : Code} (h : s.fbc.state = .awaitReply x)
    (hf : s.fbc.frx = .taking ∨ rd.idleBefore = true) (hj : x.job = .poll c) (hs : x.stale = false) (hm : x.matchesReading rd = true)
    (hok : rd.measureFail = false) (hd : (s.ch c).drive ≠ .off) (hvalue : value = readingValue (s.ch c) (s.node x.node) rd.value) :
    ∃ t, exec (.readingReceived rd) s = .next t ∧ t.ch c = ((s.monitored c value).stepTest c).ch c ∧
      t.oq = ((s.monitored c value).stepTest c).oq ∧ (∀ d, d ≠ c → t.ch d = s.ch d) ∧
      ((s.monitored c value).stepTest c).KeepsReadbacks t := by
  have hends := State.ends_reading h hf hm
  rw [readingResult_of_ok hok] at hends
  have htake : s.atReading.takePoll c x.node (.value rd.value) = (s.monitored c value).stepTest c := by
    rw [State.takePoll_value (value := value) (by rw [s.atReading_ch]; exact hd) _ _ (by rw [s.atReading_ch]; exact hvalue),
      s.atReading_ch, s.atReading_entry, State.monitored]
  rw [← htake]
  exact hends.poll hj hs

/-- The context after the completion, but for the drive record and the report. -/
theorem State.monitored_moves {value : Code} {y : ChannelCtx} (h : ((s.monitored c value).ch c).Moves y) :
    y = { (s.ch c).readingTaken (s.entry c) value with
      drive := y.drive, goal := y.goal, sent := y.sent, stepTimer := y.stepTimer, settleLeft := y.settleLeft
      lastReported := y.lastReported } := by
  have htaken := (s.atReading.readingTaken_moves c value).1
  obtain ⟨h, -⟩ := h
  unfold State.monitored at h
  rw [State.readingReported_ch, htaken, s.atReading_ch, s.atReading_entry] at h
  rw [h]

theorem ChannelCtx.readingTaken_eq (e : ChannelEntry) (value : Code) (y : ChannelCtx) : y.readingTaken e value =
    { y.afterReading e value with
      active := activeAfterReading e y value, latched := y.latched.union ((activeAfterReading e y value).minus y.active)
      action := if activeAfterReading e y value = y.active then y.action else effectiveAction e (activeAfterReading e y value) } := by
  unfold ChannelCtx.readingTaken
  rw [ChannelCtx.afterReading_keeps]
  dsimp only
  split
  · next h => rw [h, ClassSet.union_minus_self]
  · rfl

/-- What the completion leaves of the context: the counts, the reading and the active set (R107 to R121). -/
theorem State.monitored_context {value : Code} {y : ChannelCtx} (h : ((s.monitored c value).ch c).Moves y) :
    y.lastReading = some value ∧ y.injectLeft = decr (s.ch c).injectLeft ∧ y.norespFaults = 0 ∧
      y.valueFaults = ((s.ch c).afterReading (s.entry c) value).valueFaults ∧
      y.active = activeAfterReading (s.entry c) (s.ch c) value ∧ y.latched = (s.ch c).latched.union (y.active.minus (s.ch c).active) ∧
      ((s.ch c).action = effectiveAction (s.entry c) (s.ch c).active → y.action = effectiveAction (s.entry c) y.active) := by
  rw [State.monitored_moves h, ChannelCtx.readingTaken_eq, ChannelCtx.afterReading_keeps]
  refine ⟨rfl, rfl, rfl, rfl, rfl, rfl, fun ha => ?_⟩
  dsimp only
  split
  · next he => rw [he, ha]
  · rfl

theorem State.monitored_stepTest_moves (s : State) (c : ChannelNo) (value : Code) :
    ((s.monitored c value).ch c).Moves (((s.monitored c value).stepTest c).ch c) := (State.Drives.stepTest _ c).moves

theorem State.monitored_ch (s : State) (c : ChannelNo) (value : Code) : (s.monitored c value).ch c =
    { (s.atReading.readingTaken c value).ch c with lastReported := ((s.monitored c value).ch c).lastReported } :=
  State.readingReported_ch _ _ _ _

theorem State.monitored_drive (s : State) (c : ChannelNo) (value : Code) :
    ((s.monitored c value).ch c).drive = ((s.atReading.readingTaken c value).ch c).drive := by
  rw [State.monitored, State.readingReported_ch]

theorem State.stepTest_of_not_moving (h : (s.ch c).drive ≠ .moving) : s.stepTest c = s := if_pos h

/-- Where the change of the active set has left nothing to test, the completion's step test leaves the drive record. -/
theorem State.monitored_settled {value : Code} (hv : (s.atReading.readingTaken c value).stepTested c) :
    let y := ((s.monitored c value).stepTest c).ch c
    let z := (s.atReading.readingTaken c value).ch c
    y.drive = z.drive ∧ y.goal = z.goal ∧ y.settleLeft = z.settleLeft ∧ y.action = z.action ∧
      (z.drive ≠ .moving → y.sent = z.sent ∧ ((s.monitored c value).stepTest c).oq = (s.atReading.readingTaken c value).oq) := by
  dsimp only
  have hch := s.monitored_ch c value
  obtain ⟨hoq, hfbc, -⟩ := (s.atReading.readingTaken c value).readingReported_frame c value
    ((s.ch c).drive.reportsReadings && readbackDue (s.entry c) (s.ch c) value)
  have htested : (s.monitored c value).stepTested c :=
    hv.congr ⟨(congrArg ChannelCtx.drive hch).trans rfl, (congrArg ChannelCtx.atGoal hch).trans rfl⟩ hoq hfbc
  have hdrive := htested.drive
  refine ⟨hdrive.trans (s.monitored_drive c value), ?_, ?_, ?_, fun hd => ?_⟩
  · rw [State.stepTest_goal]
    exact (congrArg ChannelCtx.goal hch).trans rfl
  · rcases State.stepTest_settleLeft (s.monitored c value) c with h | ⟨hm, hs⟩
    · exact h.trans ((congrArg ChannelCtx.settleLeft hch).trans rfl)
    · rw [hdrive, hm] at hs
      cases hs
  · rw [(s.monitored_stepTest_moves c value).1]
    exact (congrArg ChannelCtx.action hch).trans rfl
  · rw [State.stepTest_of_not_moving (by rw [s.monitored_drive]; exact hd)]
    exact ⟨(congrArg ChannelCtx.sent hch).trans rfl, hoq⟩

/-- The READBACK of an evaluated reading, from the state before the event. -/
theorem State.monitored_offers {value : Code} (hl : s.TransmitterLaw) (hreports : (s.ch c).drive.reportsReadings = true)
    (hch : t.ch c = ((s.monitored c value).stepTest c).ch c) (hkeeps : ((s.monitored c value).stepTest c).KeepsReadbacks t) :
    State.OffersReadback c value ((s.atReading.readingTaken c value).ch c).drive s t := by
  have hmoves := s.monitored_stepTest_moves c value
  have hall := (State.Drives.stepTest (s.monitored c value) c).keepsReadbacks.trans hkeeps
  rw [← hch] at hmoves
  obtain ⟨hadmitted, hrefused, hnot⟩ := State.offersReadback_of (g := s.atReading) (hl.congr rfl rfl) hreports hmoves hall
  exact ⟨hadmitted, hrefused, hnot⟩

/-! ### The value classes after a reading in MOVING or STEADY -/

theorem not_clears (a b : Nat) : (!decide (a ≤ b)) = decide (b < a) := by
  simp only [← decide_not, Nat.not_le]

theorem activeAfterReading_of_evaluates {e : ChannelEntry} {y : ChannelCtx} (h : y.drive.evaluates = true) (value : Code) :
    activeAfterReading e y value = { y.active with
      trk := classAfter (decide (e.faultLimit.val ≤ y.valueFaults)) (conditions e y value).trk (clearings e y value).trk y.active.trk
      high := classAfter (decide (e.faultLimit.val ≤ y.valueFaults)) (highHolds e value) (highClears e value) y.active.high
      low := classAfter (decide (e.faultLimit.val ≤ y.valueFaults)) (lowHolds e value) (lowClears e value) y.active.low
      noresp := false } := by
  unfold activeAfterReading
  rw [if_pos h, evaluatedActive_eq]

/-- HIGH and LOW, as the statements read them. -/
theorem classAfter_high (e : ChannelEntry) (value : Code) (reached before : Bool) :
    classAfter reached (highHolds e value) (highClears e value) before =
      if decide (e.limitHi.toNat < value.toNat) then reached || before
      else before && decide (e.limitHi.toNat - e.hysteresis.val < value.toNat) := by
  rw [classAfter, highClears, not_clears]
  rfl

theorem classAfter_low (e : ChannelEntry) (value : Code) (reached before : Bool) :
    classAfter reached (lowHolds e value) (lowClears e value) before =
      if decide (value.toNat < e.limitLo.toNat) then reached || before
      else before && decide (value.toNat < Nat.min 65535 (e.limitLo.toNat + e.hysteresis.val)) := by
  rw [classAfter, lowClears, not_clears]
  rfl

theorem classAfter_suppressed (reached before : Bool) : classAfter reached false false before = before := by
  simp [classAfter]

theorem trkSuppressed_of_moving {y : ChannelCtx} (h : y.drive = .moving) : trkSuppressed y = true := by
  rw [trkSuppressed, h]
  rfl

theorem trkSuppressed_of_steady {y : ChannelCtx} (h : y.drive = .steady) : trkSuppressed y = false ↔ y.settleLeft = 0 := by
  rw [trkSuppressed, h]
  simp

theorem conditions_trk_of_steady {y : ChannelCtx} (h : y.drive = .steady) (e : ChannelEntry) (value : Code) :
    (conditions e y value).trk = true ↔ y.settleLeft = 0 ∧ ∃ a, y.applied = some a ∧ e.window.val < codesApart value a := by
  simp only [conditions, Bool.and_eq_true, Bool.not_eq_true', trkSuppressed_of_steady h]
  refine and_congr_right fun _ => ?_
  cases y.applied with
  | none => simp [trkHolds]
  | some a => simp [trkHolds, distance_eq_codesApart]

theorem conditions_trk_of_suppressed {y : ChannelCtx} (h : trkSuppressed y ≠ false) (e : ChannelEntry) (value : Code) :
    (conditions e y value).trk = false := by
  simp only [conditions, Bool.ne_false_iff.mp h, Bool.not_true, Bool.false_and]

theorem clearings_trk_of_suppressed {y : ChannelCtx} (h : trkSuppressed y ≠ false) (e : ChannelEntry) (value : Code) :
    (clearings e y value).trk = false := by
  simp only [clearings, Bool.ne_false_iff.mp h, Bool.not_true, Bool.false_and]

theorem clearings_trk_of_applied {y : ChannelCtx} {a : Code} (h : trkSuppressed y = false) (ha : y.applied = some a) (e : ChannelEntry)
    (value : Code) : (clearings e y value).trk = decide (codesApart value a ≤ e.window.val - e.hysteresis.val) := by
  simp only [clearings, trkClears, h, ha, Bool.not_false, Bool.true_and, distance_eq_codesApart]

theorem ChannelCtx.afterReading_of_evaluates {e : ChannelEntry} {y : ChannelCtx} (h : y.drive.evaluates = true) (value : Code) :
    (y.afterReading e value).valueFaults = nextValueFaults e y.valueFaults (conditions e y value) ∧
      (y.afterReading e value).settleLeft = if y.drive = .steady then decr y.settleLeft else y.settleLeft := by
  unfold ChannelCtx.afterReading
  dsimp only
  rw [if_pos (by exact h)]
  exact ⟨rfl, rfl⟩

theorem conditions_nonempty (e : ChannelEntry) (y : ChannelCtx) (value : Code) : (conditions e y value).nonempty =
    (decide (value.toNat < e.limitLo.toNat) || decide (e.limitHi.toNat < value.toNat) || (conditions e y value).trk) := by
  simp only [ClassSet.nonempty, conditions, highHolds, lowHolds]
  cases decide (value.toNat < e.limitLo.toNat) <;> cases decide (e.limitHi.toNat < value.toNat) <;> simp

/-- The change of the active set that a reading in STEADY brings, and the drive's answer to it (R24, R33, R131). -/
theorem State.readingTaken_steady (hd : (s.ch c).drive = .steady)
    (ha : (s.ch c).action = effectiveAction (s.entry c) (s.ch c).active) (value : Code) :
    let v := s.atReading.readingTaken c value
    let y := v.ch c
    v.stepTested c ∧ (y.drive ≠ .steady ∨ y.goal = (s.ch c).goal → y.settleLeft = decr (s.ch c).settleLeft) ∧
      (y.action = (s.ch c).action → y.drive = .steady ∧ y.goal = (s.ch c).goal ∧ y.sent = (s.ch c).sent ∧ v.oq = s.oq) ∧
      (y.action ≠ (s.ch c).action → y.action = .isolate → y.drive = .isolating ∧ y.goal = (s.ch c).goal ∧
        v.oq.hasIsolate c = true ∧ v.oq.hasWrite c = false) ∧
      (y.action ≠ (s.ch c).action → y.action ≠ .isolate → y.goal = s.goalUnder c y.action) := by
  obtain ⟨-, hsettle⟩ := ChannelCtx.afterReading_of_evaluates (e := s.entry c) (y := s.ch c) (by rw [hd]; rfl) value
  rw [if_pos hd] at hsettle
  have hafter : (s.atReading.modCh c (ChannelCtx.afterReading (s.entry c) value)).ch c = (s.ch c).afterReading (s.entry c) value :=
    State.ch_modCh_self _ _ _
  have hkeeps := (s.ch c).afterReading_keeps (s.entry c) value
  generalize (s.ch c).afterReading (s.entry c) value = z at hsettle hafter hkeeps
  have hv := State.setActive_steady (s := s.atReading.modCh c (ChannelCtx.afterReading (s.entry c) value)) (c := c)
    (by rw [hafter, hkeeps]; exact hd) (by rw [hafter, hkeeps]; exact ha) (activeAfterReading (s.entry c) (s.ch c) value)
  have hgoal : ∀ a, (s.atReading.modCh c (ChannelCtx.afterReading (s.entry c) value)).goalUnder c a = s.goalUnder c a := fun a => by
    rw [State.goalUnder_eq, State.goalUnder_eq, hafter, hkeeps]
    rfl
  have hoq : (s.atReading.modCh c (ChannelCtx.afterReading (s.entry c) value)).oq = s.oq := rfl
  simp only [hgoal, hoq, hafter, hsettle] at hv
  rw [hkeeps] at hv
  exact hv

/-- Settles O50: the reading, the classes, the action, then the report. -/
theorem readingOfASteadyChannelIsEvaluated : Obligations.ReadingOfASteadyChannelIsEvaluated := by
  intro x c r value low high trk s hl h hf hj hs hm hok hd hvalue hlow hhigh htrk ha
  subst hlow hhigh
  have hev : (s.ch c).drive.evaluates = true := by rw [hd]; rfl
  obtain ⟨t, ht, hch, hoq, hothers, hkeeps⟩ := State.exec_pollReading h hf hj hs hm hok (by rw [hd]; decide) hvalue
  have hmoves := s.monitored_stepTest_moves c value
  rw [← hch] at hmoves
  obtain ⟨hreading, hinject, hnoresp, hfaults, hactive, hlatched, haction⟩ := State.monitored_context hmoves
  obtain ⟨hnext, -⟩ := ChannelCtx.afterReading_of_evaluates (e := s.entry c) hev value
  have htrk' : (conditions (s.entry c) (s.ch c) value).trk = trk :=
    Bool.eq_iff_iff.mpr ((conditions_trk_of_steady hd _ _).trans htrk.symm)
  rw [activeAfterReading_of_evaluates hev, htrk', classAfter_high, classAfter_low] at hactive
  obtain ⟨htested, hsettle, hsame, hisolates, htold⟩ := State.readingTaken_steady hd ha value
  obtain ⟨hdrive, hgoal, hleft, hact, hsent⟩ := State.monitored_settled htested
  have hoffers := State.monitored_offers hl (by rw [hd]; rfl) hch hkeeps
  rw [← hch] at hdrive hgoal hleft hact hsent
  rw [← hoq] at hsent
  rw [← hdrive] at hoffers hsettle hsame hisolates hsent
  rw [← hgoal] at hsettle hsame hisolates htold
  rw [← hact] at hsame hisolates htold
  rw [← hleft] at hsettle
  refine ⟨t, ht, hreading, congrArg Fin.val hinject, hnoresp, by rw [hactive], by rw [hactive], ?_, by rw [hactive], by rw [hactive],
    fun hset => ?_, fun a hset happlied => ?_, hlatched, haction ha, fun hk => congrArg Fin.val (hsettle hk), fun hk => ?_, fun hk hi => ?_,
    fun hk hi => ?_, hoffers, hothers⟩
  · rw [hfaults, hnext, nextValueFaults, conditions_nonempty, htrk']
  · rw [hactive]
    show classAfter _ trk (clearings _ _ _).trk _ = _
    rw [← htrk', conditions_trk_of_suppressed fun h => hset ((trkSuppressed_of_steady hd).mp h),
      clearings_trk_of_suppressed fun h => hset ((trkSuppressed_of_steady hd).mp h), classAfter_suppressed]
  · rw [hactive]
    show classAfter _ trk (clearings _ _ _).trk _ = _
    rw [clearings_trk_of_applied ((trkSuppressed_of_steady hd).mpr hset) happlied, classAfter, not_clears]
  · obtain ⟨hsteady, hgoal, hsent', hoq'⟩ := hsame hk
    obtain ⟨hsent, hoq''⟩ := hsent (by rw [hsteady]; decide)
    exact ⟨hsteady, hgoal, hsent.trans hsent', hoq''.trans hoq'⟩
  · obtain ⟨hiso, hgoal, hhas, hno⟩ := hisolates hk hi
    obtain ⟨-, hoq''⟩ := hsent (by rw [hiso]; decide)
    rw [hoq'']
    exact ⟨hiso, hgoal, hhas, hno⟩
  · refine (htold hk hi).trans ((State.goalUnder_eq _ _ _).trans ?_)
    cases (t.ch c).action <;> rfl

/-! ### Readings outside STEADY, and polls that fail -/

theorem mem_readbacks {value : Code} {k : Bool} {d : DriveState} {a : Action} {l : List Report} :
    Report.readback c value k d a ∈ readbacks l ↔ Report.readback c value k d a ∈ l := by
  simp [readbacks]

theorem State.KeepsReadbacks.mem (h : s.KeepsReadbacks t) (v : Code) (k : Bool) (d : DriveState) (a : Action)
    (hm : Report.readback c v k d a ∈ t.outgoing) : Report.readback c v k d a ∈ s.outgoing := by
  rw [← mem_readbacks, h.placed, mem_readbacks] at hm
  exact hm

/-- A reading that is not evaluated, where no class leaves and no substitution is pending (R111). -/
theorem State.readingTaken_unevaluated (hev : (s.ch c).drive.evaluates = false) (hn : (s.ch c).active.noresp = false)
    (hi : (s.ch c).injectLeft = 0) (value : Code) : s.atReading.readingTaken c value =
      s.atReading.modCh c fun y => { y with lastReading := some value, norespFaults := 0 } := by
  have hev' : ¬ (s.ch c).drive.evaluates = true := by rw [hev]; decide
  have hactive : activeAfterReading (s.entry c) (s.ch c) value = (s.ch c).active := by
    unfold activeAfterReading
    rw [if_neg hev', ← hn]
  have hinject : decr (s.ch c).injectLeft = (s.ch c).injectLeft := by rw [hi]; rfl
  have hafter : (s.ch c).afterReading (s.entry c) value = { s.ch c with lastReading := some value, norespFaults := 0 } := by
    unfold ChannelCtx.afterReading
    dsimp only
    rw [if_neg (by exact hev'), ChannelCtx.tookReading, hinject]
  have hset : (s.atReading.modCh c (ChannelCtx.afterReading (s.entry c) value)).ch c =
      { s.ch c with lastReading := some value, norespFaults := 0 } := (State.ch_modCh_self _ _ _).trans hafter
  unfold State.readingTaken
  rw [s.atReading_entry, s.atReading_ch, hactive]
  refine (if_pos (congrArg ChannelCtx.active hset).symm).trans (State.modCh_congr hafter)

/-- The readings in ISOLATING, ISOLATED and RELEASING are reported and not evaluated (R111, R126, R127). -/
theorem State.reading_unevaluated {rd : Reading} {value : Code} {due : Prop} (hl : s.TransmitterLaw) (h : s.fbc.state = .awaitReply x)
    (hf : s.fbc.frx = .taking ∨ rd.idleBefore = true) (hj : x.job = .poll c) (hs : x.stale = false) (hm : x.matchesReading rd = true)
    (hok : rd.measureFail = false) (hd : (s.ch c).drive = .isolating ∨ (s.ch c).drive = .isolated ∨ (s.ch c).drive = .releasing)
    (hi : (s.ch c).injectLeft = 0) (hn : (s.ch c).active.noresp = false) (hvalue : value = correctedReading (s.node x.node) rd.value)
    (hdue : due ↔ readbackOffered (s.entry c) (s.ch c) value) :
    ∃ t, exec (.readingReceived rd) s = .next t ∧
      (due → s.rq.length < s.mgx.config.highWater.val →
        t.ch c = { s.ch c with lastReading := some value, norespFaults := 0, lastReported := some value } ∧
        Report.readback c value (s.ch c).clamped (s.ch c).drive (s.ch c).action ∈ t.outgoing ∧
        t.mgx.latches.reportsSuppressed = s.mgx.latches.reportsSuppressed) ∧
      (due → s.mgx.config.highWater.val ≤ s.rq.length →
        t.ch c = { s.ch c with lastReading := some value, norespFaults := 0 } ∧ t.mgx.latches.reportsSuppressed = true) ∧
      (¬ due → t.ch c = { s.ch c with lastReading := some value, norespFaults := 0 } ∧
        (∀ v k d a, Report.readback c v k d a ∈ t.outgoing → Report.readback c v k d a ∈ s.outgoing) ∧
        t.mgx.latches.reportsSuppressed = s.mgx.latches.reportsSuppressed) ∧
      ∀ d, d ≠ c → t.ch d = s.ch d := by
  obtain ⟨hev, hreports, hnm, hoff⟩ : (s.ch c).drive.evaluates = false ∧ (s.ch c).drive.reportsReadings = true ∧
      (s.ch c).drive ≠ .moving ∧ (s.ch c).drive ≠ .off := by
    rcases hd with h | h | h <;> rw [h] <;> decide
  obtain ⟨t, ht, hch, -, hothers, hkeeps⟩ := State.exec_pollReading h hf hj hs hm hok hoff (value := value)
    (hvalue.trans (if_pos hi).symm)
  have hoffers := State.monitored_offers hl hreports hch hkeeps
  have hmch := s.monitored_ch c value
  rw [State.readingTaken_unevaluated hev hn hi, State.ch_modCh_self, s.atReading_ch] at hoffers hmch
  rw [State.stepTest_of_not_moving (by rw [hmch]; exact hnm)] at hch
  have hshape : t.ch c = { s.ch c with lastReading := some value, norespFaults := 0, lastReported := (t.ch c).lastReported } := by
    rw [hch]
    exact hmch
  have hoccupancy : s.occupancyAfterAlarm c (t.ch c).active = s.rq.length := by
    rw [hshape, State.occupancyAfterAlarm]
    dsimp only
    rw [ClassSet.touches_self]
    simp
  refine ⟨t, ht, fun h hroom => ?_, fun h hfull => ?_, fun h => ?_, hothers⟩
  · obtain ⟨hlast, hlatch, hplaced⟩ := hoffers.admitted (hdue.mp h) (hoccupancy.symm ▸ hroom)
    rw [hlast] at hshape
    refine ⟨hshape, ?_, hlatch⟩
    rw [← mem_readbacks, hplaced, hshape]
    exact List.mem_append_right _ (List.mem_singleton.mpr rfl)
  · obtain ⟨hlast, hlatch, -⟩ := hoffers.refused (hdue.mp h) (hoccupancy.symm ▸ hfull)
    rw [hlast] at hshape
    exact ⟨hshape, hlatch⟩
  · obtain ⟨hlast, hlatch, hplaced⟩ := hoffers.notDue fun hk => h (hdue.mpr hk)
    rw [hlast] at hshape
    exact ⟨hshape, (State.KeepsReadbacks.mk hplaced hlatch).mem, hlatch⟩

/-- A reading in STOPPING is taken and not reported (R111). -/
theorem State.reading_stopping {rd : Reading} (h : s.fbc.state = .awaitReply x)
    (hf : s.fbc.frx = .taking ∨ rd.idleBefore = true) (hj : x.job = .poll c) (hs : x.stale = false) (hm : x.matchesReading rd = true)
    (hok : rd.measureFail = false) (hd : (s.ch c).drive = .stopping) (hi : (s.ch c).injectLeft = 0) (hn : (s.ch c).active.noresp = false) :
    ∃ t, exec (.readingReceived rd) s = .next t ∧
      t.ch c = { s.ch c with lastReading := some (correctedReading (s.node x.node) rd.value), norespFaults := 0 } ∧
      (∀ v k d a, Report.readback c v k d a ∈ t.outgoing → Report.readback c v k d a ∈ s.outgoing) ∧
      ∀ d, d ≠ c → t.ch d = s.ch d := by
  obtain ⟨t, ht, hch, -, hothers, hkeeps⟩ := State.exec_pollReading h hf hj hs hm hok (by rw [hd]; decide)
    (value := correctedReading (s.node x.node) rd.value) (if_pos hi).symm
  have hplain : s.monitored c (correctedReading (s.node x.node) rd.value) =
      s.atReading.readingTaken c (correctedReading (s.node x.node) rd.value) := by
    unfold State.monitored
    rw [hd]
    rfl
  have hkept := s.atReading.readingTaken_keepsReadbacks c (correctedReading (s.node x.node) rd.value)
  have htaken := State.readingTaken_unevaluated (by rw [hd]; rfl) hn hi (correctedReading (s.node x.node) rd.value)
  rw [hplain, State.stepTest_of_not_moving] at hch hkeeps
  · refine ⟨t, ht, ?_, (hkept.after rfl rfl rfl |>.trans hkeeps).mem, hothers⟩
    rw [hch, htaken, State.ch_modCh_self, s.atReading_ch]
  all_goals
    rw [htaken, State.ch_modCh_self, s.atReading_ch, hd]
    decide

/-- A change of the active set leaves the settle count of a channel that it does not bring to STEADY (R24, R26). -/
theorem State.setActive_settleLeft (s : State) (c : ChannelNo) (active : ClassSet) :
    ((s.setActive c active).ch c).settleLeft = (s.ch c).settleLeft ∨ ((s.setActive c active).ch c).drive = .steady := by
  by_cases hne : active = (s.ch c).active
  · rw [hne, State.setActive_self]
    exact Or.inl rfl
  · by_cases h : effectiveAction (s.entry c) active = (s.ch c).action
    · rw [(State.setActive_stays h).1]
      exact Or.inl rfl
    · have hset : (s.modCh c (ChannelCtx.activeSet (s.entry c) active)).ch c = (s.ch c).activeSet (s.entry c) active :=
        State.ch_modCh_self _ _ _
      rw [(State.setActive_told hne h).1]
      generalize s.modCh c (ChannelCtx.activeSet (s.entry c) active) = v at hset ⊢
      have hgoal := State.setGoal_settleLeft v c (v.goalUnder c (effectiveAction (s.entry c) active))
      have hleft : (v.ch c).settleLeft = (s.ch c).settleLeft := by rw [hset]; rfl
      unfold State.actionChanged
      split
      case h_1 | h_2 =>
        split
        · rw [State.beginIsolation_ch]
          exact Or.inl hleft
        · exact hgoal.imp (·.trans hleft) And.right
      case h_3 =>
        split
        · rw [State.beginIsolation_ch]
          exact Or.inl hleft
        · exact Or.inl hleft
      all_goals exact Or.inl hleft

/-- A POLL that fails ends with a failure, and is counted (R70, R73, R120). -/
theorem State.ends_of_pollFails (h : s.pollFails i x) : ∃ r u, s.Ends i x r u ∧ r.success = false := by
  rcases h with ⟨rfl, h⟩ | ⟨rfl, h⟩ | ⟨rd, rfl, h, hf, hm, hfail⟩
  · exact ⟨_, _, State.ends_responseTimeout h, rfl⟩
  · exact ⟨_, _, State.ends_heldTimeout h, rfl⟩
  · exact ⟨_, _, State.ends_reading h hf hm, by rw [readingResult_success, hfail]; rfl⟩

theorem State.takePoll_failed (hd : (g.ch c).drive ≠ .off) (hr : r.success = false) (n : Node) :
    g.takePoll c n r = (g.norespFailure c).stepTest c := by
  refine (if_neg hd).trans (congrArg (State.stepTest · c) ?_)
  cases r with
  | value raw | ok => cases hr
  | noNode | stuck | busHeld | noReply => rfl

/-- The context after a counted failure, but for the drive record (R120). -/
theorem State.norespFailure_context (s : State) (c : ChannelNo) {y : ChannelCtx} (h : ((s.norespFailure c).ch c).Moves y) :
    y.norespFaults = nextNorespFaults (s.entry c) (s.ch c).norespFaults ∧ y.lastReading = (s.ch c).lastReading ∧
      y.injectLeft = (s.ch c).injectLeft ∧ y.valueFaults = (s.ch c).valueFaults ∧ y.active = norespFailureActive (s.entry c) (s.ch c) := by
  have hset := (s.modCh c fun y => { y with norespFaults := nextNorespFaults (s.entry c) y.norespFaults }).setActive_context c
    (norespFailureActive (s.entry c) (s.ch c))
  rw [State.ch_modCh_self] at hset
  obtain ⟨hset, -⟩ := hset
  obtain ⟨h, -⟩ := h
  unfold State.norespFailure at h
  dsimp only at h
  rw [hset] at h
  rw [h]
  split
  · next he => exact ⟨rfl, rfl, rfl, rfl, he.symm⟩
  · exact ⟨rfl, rfl, rfl, rfl, rfl⟩

theorem State.exec_pollFails (h : s.pollFails i x) (hj : x.job = .poll c) (hs : x.stale = false) (hd : (s.ch c).drive ≠ .off) :
    ∃ t, exec i s = .next t ∧
      (t.ch c).norespFaults = Nat.min ((s.ch c).norespFaults + 1) ((s.entry c).norespLimit.val + 1) ∧
      (t.ch c).lastReading = (s.ch c).lastReading ∧ (t.ch c).injectLeft = (s.ch c).injectLeft ∧
      (t.ch c).valueFaults = (s.ch c).valueFaults ∧ (t.ch c).active.trk = (s.ch c).active.trk ∧
      (t.ch c).active.high = (s.ch c).active.high ∧ (t.ch c).active.low = (s.ch c).active.low ∧
      (t.ch c).active.noresp =
        ((s.ch c).active.noresp || decide ((s.entry c).norespLimit.val + 1 ≤ (s.ch c).norespFaults + 1)) ∧
      ∀ d, d ≠ c → t.ch d = s.ch d := by
  obtain ⟨r, u, hends, hr⟩ := State.ends_of_pollFails h
  have hg := hends.inGap
  obtain ⟨t, ht, hch, -, hothers, -⟩ := hends.poll hj hs
  rw [State.takePoll_failed (by rw [hg.ch]; exact hd) hr] at hch
  obtain ⟨hfaults, hreading, hinject, hvalue, hactive⟩ :=
    u.enterGap.norespFailure_context c (hch ▸ (State.Drives.stepTest (u.enterGap.norespFailure c) c).moves)
  rw [hg.ch, hg.entry] at hfaults hactive
  rw [hg.ch] at hreading hinject hvalue
  rw [norespFailureActive_eq] at hactive
  exact ⟨t, ht, hfaults, hreading, hinject, hvalue, by rw [hactive], by rw [hactive], by rw [hactive], by rw [hactive], hothers⟩

theorem conditions_nonempty_of_moving {y : ChannelCtx} (h : y.drive = .moving) (e : ChannelEntry) (value : Code) :
    (conditions e y value).nonempty = (decide (value.toNat < e.limitLo.toNat) || decide (e.limitHi.toNat < value.toNat)) := by
  rw [conditions_nonempty, conditions_trk_of_suppressed (by rw [trkSuppressed_of_moving h]; decide), Bool.or_false]

/-- The settle count of a channel in MOVING after a reading, unless that brings the channel to STEADY (R26, R114). -/
theorem State.monitored_settleLeft_of_moving (hd : (s.ch c).drive = .moving) (value : Code)
    (hne : (((s.monitored c value).stepTest c).ch c).drive ≠ .steady) :
    (((s.monitored c value).stepTest c).ch c).settleLeft = (s.ch c).settleLeft := by
  obtain ⟨-, hsettle⟩ := ChannelCtx.afterReading_of_evaluates (e := s.entry c) (y := s.ch c) (by rw [hd]; rfl) value
  rw [if_neg (by rw [hd]; decide)] at hsettle
  have hset := (s.atReading.modCh c (ChannelCtx.afterReading (s.entry c) value)).setActive_settleLeft c
    (activeAfterReading (s.entry c) (s.ch c) value)
  rw [State.ch_modCh_self, s.atReading_ch, hsettle] at hset
  have hch := s.monitored_ch c value
  have htested := State.stepTest_settleLeft (s.monitored c value) c
  rcases htested with htested | ⟨-, hsteady⟩
  · rw [htested, hch]
    rcases hset with hset | hsteady
    · exact hset
    · have hdrive : ((s.monitored c value).ch c).drive = .steady := (s.monitored_drive c value).trans hsteady
      rw [State.stepTest_of_not_moving (by rw [hdrive]; decide)] at hne
      exact absurd hdrive hne
  · exact absurd hsteady hne

/-- Settles O51: readings that are not evaluated, polls that fail, readings in MOVING, and readings in STOPPING. -/
theorem pollResultsOutsideSteady : Obligations.PollResultsOutsideSteady := by
  refine ⟨fun x c r value due s hl h hf hj hs hm hok hd hi hn hvalue hdue =>
      State.reading_unevaluated hl h hf hj hs hm hok hd hi hn hvalue hdue,
    fun i x c s h hj hs hd => State.exec_pollFails h hj hs hd,
    fun x c r value low high s hl h hf hj hs hm hok hd hi hvalue hlow hhigh => ?_,
    fun x c r s _ h hf hj hs hm hok hd hi hn => State.reading_stopping h hf hj hs hm hok hd hi hn⟩
  subst hlow hhigh
  have hev : (s.ch c).drive.evaluates = true := by rw [hd]; rfl
  obtain ⟨t, ht, hch, -, hothers, hkeeps⟩ := State.exec_pollReading h hf hj hs hm hok (by rw [hd]; decide) (value := value)
    (hvalue.trans (if_pos hi).symm)
  have hmoves := s.monitored_stepTest_moves c value
  rw [← hch] at hmoves
  obtain ⟨hreading, -, hnoresp, hfaults, hactive, hlatched, -⟩ := State.monitored_context hmoves
  obtain ⟨hnext, -⟩ := ChannelCtx.afterReading_of_evaluates (e := s.entry c) hev value
  have hsup : trkSuppressed (s.ch c) ≠ false := by rw [trkSuppressed_of_moving hd]; decide
  rw [activeAfterReading_of_evaluates hev, conditions_trk_of_suppressed hsup, clearings_trk_of_suppressed hsup, classAfter_suppressed,
    classAfter_high, classAfter_low] at hactive
  have hoffers := State.monitored_offers hl (by rw [hd]; rfl) hch hkeeps
  have hdrive := State.stepTest_drive (s.monitored c value) c
  rw [← hch, s.monitored_drive] at hdrive
  refine ⟨t, ht, hreading, hnoresp, by rw [hactive], ?_, by rw [hactive], by rw [hactive], by rw [hactive], by rw [hactive], hlatched,
    fun hne => ?_, ?_, hothers⟩
  · rw [hfaults, hnext, nextValueFaults, conditions_nonempty_of_moving hd]
  · rw [hch] at hne ⊢
    exact State.monitored_settleLeft_of_moving hd value hne
  · rcases hdrive with hdrive | ⟨hmoving, hsteady⟩
    · exact Or.inl (hdrive ▸ hoffers)
    · exact Or.inr ⟨hsteady, hmoving ▸ hoffers⟩

end Sys2Proof.Machine
end

