-- ==== Sys2Proof/Proofs/Silence.lean ====
section
/-! PROOF. The silence record (R36, R141 to R144): SILENCE joins a channel that is enabled, it joins the channels that are not OFF when
the silence timer expires, and it leaves every channel when the silence ends. -/

namespace Sys2Proof.Machine

variable {s t u v : State} {c : ChannelNo}

/-! ### Enabling a channel while the part is silent -/

/-- SILENCE alone is active. -/
def ClassSet.onlySilence : ClassSet := ⟨false, false, false, false, true⟩

theorem effectiveAction_onlySilence (e : ChannelEntry) : effectiveAction e .onlySilence = e.actSilence := by
  unfold effectiveAction ClassSet.onlySilence
  cases e.actSilence <;> rfl

theorem ClassSet.touches_onlySilence (mask : ClassSet) : ClassSet.empty.touches .onlySilence mask = mask.silence := by
  simp [ClassSet.touches, ClassSet.empty, ClassSet.onlySilence, ClassSet.minus, ClassSet.union, ClassSet.inter, ClassSet.nonempty]

theorem ChannelCtx.enabled_silenced (e : ChannelEntry) : (ChannelCtx.enabled e).activeSet e .onlySilence =
    { ChannelCtx.enabled e with active := .onlySilence, latched := .onlySilence, action := e.actSilence } := by
  rw [ChannelCtx.activeSet, effectiveAction_onlySilence]
  rfl

/-- A channel just enabled stands at its goal whatever the action: the goal, the target and the sent code are all the safe code. -/
theorem State.silenced_driving (hx : s.ch c = .enabled (s.entry c)) (h : (s.entry c).actSilence ≠ .isolate) :
    (s.setActive c .onlySilence).ch c = (ChannelCtx.enabled (s.entry c)).activeSet (s.entry c) .onlySilence ∧
      (s.setActive c .onlySilence).oq = s.oq := by
  have heff := effectiveAction_onlySilence (s.entry c)
  have haction : (s.ch c).action = .none := by rw [hx]; rfl
  by_cases hnone : (s.entry c).actSilence = .none
  · obtain ⟨hch, hoq⟩ := State.setActive_stays (s := s) (c := c) (active := .onlySilence) (by rw [heff, hnone, haction])
    refine ⟨?_, hoq⟩
    rw [hch, hx, ChannelCtx.activeSet, heff, hnone]
    rfl
  · have hne : ClassSet.onlySilence ≠ (s.ch c).active := by rw [hx]; exact (by decide : ClassSet.onlySilence ≠ .empty)
    obtain ⟨hch, hoq⟩ := State.setActive_told hne (by rw [heff, haction]; exact hnone)
    have hset : (s.modCh c (ChannelCtx.activeSet (s.entry c) .onlySilence)).ch c =
        (ChannelCtx.enabled (s.entry c)).activeSet (s.entry c) .onlySilence := by rw [State.ch_modCh_self, hx]
    have hgoal : ∀ a, a ≠ .isolate → (s.modCh c (ChannelCtx.activeSet (s.entry c) .onlySilence)).goalUnder c a =
        ((s.modCh c (ChannelCtx.activeSet (s.entry c) .onlySilence)).ch c).goal := fun a ha => by
      rw [State.goalUnder_eq, hset, State.entry_modCh]
      cases a with
      | none | hold | safe => rfl
      | isolate => exact absurd rfl ha
    rw [heff, State.actionChanged_of_driving (Or.inl (by rw [hset]; rfl)) h, hgoal _ h, State.setGoal, if_pos rfl] at hch hoq
    exact ⟨hch.trans hset, hoq.trans (State.oq_modCh _ _ _)⟩

/-- SILENCE mapped to ISOLATE isolates it at once, and displaces the WRITE of the enable (R49). -/
theorem State.silenced_isolating {q : OutputQueue} {k : Code} {rc : Bool} (hx : s.ch c = .enabled (s.entry c))
    (h : (s.entry c).actSilence = .isolate) (hq : q.hasEntry c = false) (hoq : s.oq = { q with writes := q.writes ++ [⟨c, k, rc⟩] }) :
    (s.setActive c .onlySilence).ch c =
        { (ChannelCtx.enabled (s.entry c)).activeSet (s.entry c) .onlySilence with drive := .isolating } ∧
      (s.setActive c .onlySilence).oq = { isolates := q.isolates ++ [c], writes := q.writes } := by
  have heff := effectiveAction_onlySilence (s.entry c)
  have hne : ClassSet.onlySilence ≠ (s.ch c).active := by rw [hx]; exact (by decide : ClassSet.onlySilence ≠ .empty)
  obtain ⟨hch, hoq'⟩ := State.setActive_told hne (by rw [heff, h, hx]; exact (by decide : Action.isolate ≠ .none))
  have hset : (s.modCh c (ChannelCtx.activeSet (s.entry c) .onlySilence)).ch c =
      (ChannelCtx.enabled (s.entry c)).activeSet (s.entry c) .onlySilence := by rw [State.ch_modCh_self, hx]
  obtain ⟨hi, hw⟩ := (q.hasEntry_eq_false c).mp hq
  have hall : ∀ w ∈ q.writes, (!w.isOf c) = true := by simpa [OutputQueue.hasWrite] using hw
  have hi' : s.oq.hasIsolate c = false := by rw [hoq]; exact hi
  rw [heff, h, State.actionChanged_isolate (Or.inl (by rw [hset]; rfl))] at hch hoq'
  rw [State.beginIsolation_ch, hset] at hch
  refine ⟨hch, hoq'.trans ?_⟩
  rw [State.beginIsolation_eq (by rw [State.oq_modCh]; exact hi'), State.oq_modCh, hoq, List.filter_append, List.filter_eq_self.mpr hall]
  simp [WriteEntry.isOf]

/-- Settles O29: the enable, then SILENCE joins. -/
theorem enableChannelWhileSilent : Obligations.EnableChannelWhileSilent := by
  intro tag channel c rest s hlaw htakes hc hx hq hfree hexp hsilent
  have hnone := State.enableRefusal_of_free (c := c) (by rw [hx]; rfl) (State.mappingConflict_eq_false hfree) hexp
  have hstart := State.startDriving_eq (s := s.withFrames rest) (c := c) hx hq
  have honly := (s.withFrames rest).startDriving_onlyChannel c
  have hch : ((s.withFrames rest).startDriving c).ch c = .enabled (s.entry c) := by
    rw [hstart]
    exact State.ch_modCh_self (s.withFrames rest) c fun _ => .enabled (s.entry c)
  have hentry : ((s.withFrames rest).startDriving c).entry c = s.entry c := honly.entry c
  have hoq : ((s.withFrames rest).startDriving c).oq = { s.oq with writes := s.oq.writes ++ [⟨c, (s.entry c).safeCode, true⟩] } := by
    rw [hstart]; rfl
  have henable : (s.withFrames rest).enable c = ((s.withFrames rest).startDriving c).setActive c .onlySilence := by
    refine (if_pos (by rw [honly.units.1]; exact hsilent)).trans ?_
    rw [hch]
    rfl
  have hout := State.setActive_outgoing (s := (s.withFrames rest).startDriving c) (by rw [hstart]; exact hlaw) c .onlySilence
  have hreports : ((s.withFrames rest).startDriving c).clp = s.clp ∧ ((s.withFrames rest).startDriving c).rq = s.rq := by
    rw [hstart]; exact ⟨rfl, rfl⟩
  generalize (s.withFrames rest).startDriving c = d at *
  have htouch : (d.ch c).active.touches .onlySilence (d.entry c).alarmMask = (s.entry c).alarmMask.silence := by
    rw [hch, hentry]
    exact ClassSet.touches_onlySilence _
  rw [htouch, hreports.1, hreports.2] at hout
  obtain ⟨t, ht, hreplies, houtgoing⟩ : ∃ t, exec (.enableChannel tag channel) s = .next t ∧ (d.setActive c .onlySilence).OnlyReports t ∧
      t.outgoing = (d.setActive c .onlySilence).outgoing ++ [answer tag 0x05 .ok []] :=
    ⟨_, (exec_enableChannel_accepted htakes hc hnone).trans (by rw [henable]), State.respond_onlyReports _ _ _ _ _,
      State.respond_outgoing _ _ _ _ _⟩
  have hwhole := (honly.trans (d.setActive_onlyChannel c .onlySilence)).trans (hreplies.onlyChannel c)
  by_cases hiso : (s.entry c).actSilence = .isolate
  · obtain ⟨hctx, hqueue⟩ := State.silenced_isolating (by rw [hentry]; exact hch) (by rw [hentry]; exact hiso) hq hoq
    rw [hentry, ChannelCtx.enabled_silenced] at hctx
    rw [hctx] at hout
    refine ⟨t, ht, ?_⟩
    rw [houtgoing, hout, hreplies.ch, hctx, hreplies.channels.2]
    exact ⟨rfl, rfl, rfl, rfl, rfl, rfl, rfl, fun _ => ⟨rfl, hqueue⟩, fun h => absurd hiso h, rfl, hwhole⟩
  · obtain ⟨hctx, hqueue⟩ := State.silenced_driving (by rw [hentry]; exact hch) (by rw [hentry]; exact hiso)
    rw [hentry, ChannelCtx.enabled_silenced] at hctx
    rw [hctx] at hout
    refine ⟨t, ht, ?_⟩
    rw [houtgoing, hout, hreplies.ch, hctx, hreplies.channels.2]
    exact ⟨rfl, rfl, rfl, rfl, rfl, rfl, rfl, fun h => absurd h hiso, fun _ => ⟨rfl, hqueue.trans hoq⟩, rfl, hwhole⟩

/-! ### A change made on every channel -/

/-- Nothing differs but the contexts of the channels, the output queue and the free values used. -/
def State.OnlyChannels (s t : State) : Prop := t = { s with ctx := t.ctx, oq := t.oq, freeCount := t.freeCount }

theorem State.OnlyChannels.trans (h : s.OnlyChannels t) (k : t.OnlyChannels u) : s.OnlyChannels u := by
  unfold State.OnlyChannels at *
  rw [k, h]

theorem State.OnlyChannel.onlyChannels (h : State.OnlyChannel c s t) (hclp : t.clp = s.clp) (hrq : t.rq = s.rq) : s.OnlyChannels t := by
  obtain ⟨-, -, -, -, ⟨hct, hnt⟩, ⟨hfbc, hpsq⟩, ⟨hact, hpru, hmgx, hpst⟩, hpending, hsph⟩ := h
  unfold State.OnlyChannels
  rw [← hct, ← hnt, ← hfbc, ← hpsq, ← hact, ← hpru, ← hmgx, ← hpst, ← hpending, ← hsph, ← hclp, ← hrq]

theorem foldl_onlyChannels {f : State → ChannelNo → State} {ct : Vector ChannelEntry 24}
    (hf : ∀ (v : State) c, v.ct = ct → v.OnlyChannels (f v c)) (l : List ChannelNo) (hs : s.ct = ct) : s.OnlyChannels (l.foldl f s) := by
  induction l generalizing s with
  | nil => rfl
  | cons c l ih =>
    have hone := hf s c hs
    exact hone.trans (ih (by rw [hone]; exact hs))

/-- A change of SILENCE under a mask without SILENCE offers no ALARM (R137). -/
theorem ClassSet.touches_silence (k mask : ClassSet) (b : Bool) (h : mask.silence = false) :
    k.touches { k with silence := b } mask = false := by
  simp [ClassSet.touches, ClassSet.minus, ClassSet.union, ClassSet.inter, ClassSet.nonempty, h]

theorem State.setSilence_onlyChannels (s : State) (c : ChannelNo) (b : Bool) (h : (s.entry c).alarmMask.silence = false) :
    s.OnlyChannels (s.setActive c { (s.ch c).active with silence := b }) := by
  obtain ⟨hclp, hrq⟩ := State.setActive_unreported (ClassSet.touches_silence (s.ch c).active _ b h)
  exact (s.setActive_onlyChannel c _).onlyChannels hclp hrq

/-! ### The silence begins -/

theorem State.setActive_active (s : State) (c : ChannelNo) (active : ClassSet) : ((s.setActive c active).ch c).active = active := by
  rw [(s.setActive_context c active).1]
  split
  · next he => exact he.symm
  · rfl

/-- The answer of a channel in MOVING or STEADY to a new action (R24, R33). -/
theorem State.setActive_driving (hd : (s.ch c).drive = .moving ∨ (s.ch c).drive = .steady)
    (ha : (s.ch c).action = effectiveAction (s.entry c) (s.ch c).active) {active : ClassSet}
    (hne : ((s.setActive c active).ch c).action ≠ (s.ch c).action) :
    (((s.setActive c active).ch c).drive = .isolating ↔ ((s.setActive c active).ch c).action = .isolate) ∧
      ((s.setActive c active).ch c).goal = s.goalUnder c ((s.setActive c active).ch c).action := by
  rw [State.setActive_action ha] at hne ⊢
  have hchange : active ≠ (s.ch c).active := fun he => hne (by rw [he, ha])
  have hset : (s.modCh c (ChannelCtx.activeSet (s.entry c) active)).ch c = (s.ch c).activeSet (s.entry c) active :=
    State.ch_modCh_self _ _ _
  have hdrive : ((s.modCh c (ChannelCtx.activeSet (s.entry c) active)).ch c).drive = .moving ∨
      ((s.modCh c (ChannelCtx.activeSet (s.entry c) active)).ch c).drive = .steady := by rw [hset]; exact hd
  rw [(State.setActive_told hchange hne).1]
  by_cases hiso : effectiveAction (s.entry c) active = .isolate
  · rw [hiso, State.actionChanged_isolate (hdrive.imp_right Or.inl), State.beginIsolation_ch, hset]
    exact ⟨iff_of_true rfl rfl, rfl⟩
  · rw [State.actionChanged_of_driving hdrive hiso, State.setGoal_goal]
    refine ⟨iff_of_false (fun h => ?_) hiso, ?_⟩
    · rcases State.setGoal_drive _ c ((s.modCh c (ChannelCtx.activeSet (s.entry c) active)).goalUnder c
        (effectiveAction (s.entry c) active)) hdrive with h' | h' <;> rw [h'] at h <;> cases h
    · simp only [State.goalUnder_eq, hset, State.entry_modCh]
      rfl

theorem State.silenceJoins_of_on (h : (s.ch c).drive ≠ .off) :
    s.silenceJoins c = s.setActive c { (s.ch c).active with silence := true } := if_neg h

theorem State.silenceJoins_onlyChannels (h : (s.entry c).alarmMask.silence = false) : s.OnlyChannels (s.silenceJoins c) := by
  unfold State.silenceJoins
  split
  · rfl
  · exact s.setSilence_onlyChannels c true h

/-- A change of SILENCE in a channel whose action is that of its classes. -/
theorem State.silenced (ha : (s.ch c).action = effectiveAction (s.entry c) (s.ch c).active) (b : Bool) :
    let y := (s.setActive c { (s.ch c).active with silence := b }).ch c
    y.active = { (s.ch c).active with silence := b } ∧
      y.latched.silence = ((s.ch c).latched.silence || (b && !(s.ch c).active.silence)) ∧
      y.action = effectiveAction (s.entry c) y.active ∧
      (y.action = (s.ch c).action → y.drive = (s.ch c).drive ∧ y.goal = (s.ch c).goal ∧ y.sent = (s.ch c).sent) ∧
      (y.action ≠ (s.ch c).action → (s.ch c).drive = .moving ∨ (s.ch c).drive = .steady →
        (y.drive = .isolating ↔ y.action = .isolate) ∧ y.goal = s.goalUnder c y.action) := by
  have hactive := s.setActive_active c { (s.ch c).active with silence := b }
  have haction := State.setActive_action ha { (s.ch c).active with silence := b }
  refine ⟨hactive, by rw [State.setActive_latched]; rfl, by rw [haction, hactive], fun hsame => ?_,
    fun hne hd => State.setActive_driving hd ha hne⟩
  obtain ⟨hch, -⟩ := State.setActive_stays (haction.symm.trans hsame)
  rw [hch]
  exact ⟨rfl, rfl, rfl⟩

/-- Settles O57: SILENCE joins the channels one by one, then the part event is offered. -/
theorem silenceTimerExpirySilencesThePart : Obligations.SilenceTimerExpirySilencesThePart := by
  intro s hlaw hquiet htimer haction hmask
  have hdue : (s.act.timer.isRunning && s.act.state == .quiet) = true := by rw [htimer, hquiet]; rfl
  have hexec : exec .silenceTimerExpiry s = s.silenceBegins.done := by
    show s.event _ State.silenceBegins = _
    rw [hdue]
    rfl
  have hall : ∀ v : State, v.ct = s.ct → ∀ c, (v.entry c).alarmMask.silence = false := fun v hv c => by
    rw [State.entry, hv]
    exact hmask c
  have hfold := foldl_onlyChannels (s := s.setAct ⟨.silent, .expired⟩) (f := State.silenceJoins)
    (fun v c hv => State.silenceJoins_onlyChannels (hall v hv c)) channelsAscending rfl
  obtain ⟨-, -, -, hch⟩ := foldl_onlyChannel State.silenceJoins_onlyChannel channelsAscending_nodup (s.setAct ⟨.silent, .expired⟩)
  unfold State.silenceBegins at hexec
  generalize channelsAscending.foldl State.silenceJoins (s.setAct ⟨.silent, .expired⟩) = v at hexec hfold hch
  obtain ⟨t, ht, honly, hout⟩ := State.offerPart_done (s := v) (hlaw.congr (by rw [hfold]; rfl) (by rw [hfold]; rfl)) .silenceOn
  have hper : ∀ c, ∃ w : State, w.ch c = s.ch c ∧ w.entry c = s.entry c ∧ t.ch c = (w.silenceJoins c).ch c := fun c => by
    obtain ⟨w, hw, hct, hvc⟩ := (hch c).2 (mem_channelsAscending c)
    exact ⟨w, hw, by rw [State.entry, hct]; rfl, by rw [honly.ch, hvc]⟩
  refine ⟨t, hexec.trans ht, ?_, fun c hoff => ?_, fun c hon => ?_, ?_, ?_⟩
  · rw [honly.units.1, hfold]
    rfl
  · obtain ⟨w, hw, -, htc⟩ := hper c
    rw [htc, State.silenceJoins, if_pos (by rw [hw]; exact hoff), hw]
  · obtain ⟨w, hw, hwe, htc⟩ := hper c
    have ha := haction c
    rw [← hw] at hon
    rw [State.silenceJoins_of_on hon] at htc
    rw [← hw, ← hwe] at ha ⊢
    rw [htc]
    exact w.silenced ha true
  · rw [hout, hfold]
    rfl
  · obtain ⟨hlink, htables, -, hfield, hunits, hwaiting, hpairs⟩ := honly
    rw [hfold] at hlink htables hfield hunits hwaiting hpairs
    exact ⟨hlink, htables, ⟨rfl, rfl⟩, hfield, ⟨rfl, hunits.2⟩, hwaiting, hpairs⟩

/-! ### The silence ends -/

theorem ClassSet.minus_without (k : ClassSet) : ClassSet.minus { k with silence := false } k = .empty := by
  simp [ClassSet.minus, ClassSet.empty]

theorem ClassSet.union_empty (k : ClassSet) : k.union .empty = k := by
  simp [ClassSet.union, ClassSet.empty]

/-- SILENCE leaves every channel, then the part event is offered. -/
theorem State.silenceEnds_eq (hmask : ∀ c, (s.entry c).alarmMask.silence = false) : ∃ v, s.silenceEnds = v.offerPart .silenceOff ∧
    (s.setAct ⟨.quiet, s.silenceStart⟩).OnlyChannels v ∧ ∀ c, (v.ch c).active = { (s.ch c).active with silence := false } ∧
      (v.ch c).latched = (s.ch c).latched ∧ ((s.ch c).action = effectiveAction (s.entry c) (s.ch c).active →
        (v.ch c).action = effectiveAction (s.entry c) (v.ch c).active) := by
  have hall : ∀ v : State, v.ct = s.ct → ∀ c, (v.entry c).alarmMask.silence = false := fun v hv c => by
    rw [State.entry, hv]
    exact hmask c
  refine ⟨_, rfl, foldl_onlyChannels (fun v c hv => v.setSilence_onlyChannels c false (hall v hv c)) channelsAscending rfl, fun c => ?_⟩
  obtain ⟨-, -, -, hch⟩ := foldl_onlyChannel (f := State.silenceLeaves) (fun v c => v.setActive_onlyChannel c _) channelsAscending_nodup
    (s.setAct ⟨.quiet, s.silenceStart⟩)
  obtain ⟨w, hw, hct, hvc⟩ := (hch c).2 (mem_channelsAscending c)
  have hwe : w.entry c = s.entry c := by rw [State.entry, hct]; rfl
  rw [State.ch_setAct] at hw
  rw [← hw, ← hwe, hvc, State.silenceLeaves]
  have hactive := w.setActive_active c { (w.ch c).active with silence := false }
  refine ⟨hactive, ?_, fun ha => ?_⟩
  · rw [State.setActive_latched, ClassSet.minus_without, ClassSet.union_empty]
  · rw [State.setActive_action ha, hactive]

/-- A setpoint frame of one pair, taken in RUN with nothing waiting. -/
theorem exec_setpointFrame_one {p : SetpointPair} (hsph : s.sph = []) (hrx : s.clp.rx ≠ .hunt) (hrun : s.mgx.mode = .run) :
    exec (.setpointFrame [p]) s = ((s.rxReady.setpointNotice.takePair p).setSph []).done := by
  have hdue : (s.clp.rx.takesFrames && (Instr.setpointFrame [p]).wf) = true := by
    rw [RxState.takesFrames_of_ne hrx]
    rfl
  have htake : s.rxReady.takeSetpoints [p] = (s.rxReady.setpointNotice.takePair p).setSph [] := by
    have hrun' : s.rxReady.mgx.mode = .run := hrun
    have hsph' : s.rxReady.sph = [] := hsph
    unfold State.takeSetpoints
    rw [hrun', hsph']
    exact State.applyPairs_whole _ fun q hq => by cases hq
  show s.event _ (fun s => s.rxReady.takeSetpoints [p]) = _
  rw [hdue]
  exact congrArg State.done htake

/-- A part config write that ends the silence (R144). -/
theorem exec_writeEntryPart_ends {tag : Byte} {record : List Byte} {rest : List (List Byte)} {p : PartConfig}
    (htakes : s.Takes (.writeEntryPart tag 0 record) rest) (hsaving : s.pst.state.isSaving = false) (hp : partConfigOf? record = some p)
    (hzero : p.silenceTimeout = 0) (hold : s.mgx.config.silenceTimeout ≠ 0) (hsilent : s.act.state = .silent) :
    exec (.writeEntryPart tag 0 record) s =
      .next (((s.withFrames rest).setMgx { (s.withFrames rest).mgx with config := p }).silenceEnds.respondThen tag cmdWriteEntry .ok []
        ((s.withFrames rest).rateAtEnd p.linkRate)).beginTransmission := by
  have hwrite : (s.withFrames rest).writeConfig p =
      ((s.withFrames rest).setMgx { (s.withFrames rest).mgx with config := p }).silenceEnds := by
    have hne : ¬ p.silenceTimeout = (s.withFrames rest).mgx.config.silenceTimeout := fun h => hold (by rw [← hzero, h]; rfl)
    have hsilent' : (s.withFrames rest).act.state = .silent := hsilent
    unfold State.writeConfig
    dsimp only
    rw [if_neg hne, State.silenceTimeoutWritten, State.act_setMgx, hsilent']
    exact if_pos hzero
  show execWriteEntryPart tag 0 record s = _
  unfold execWriteEntryPart
  rw [State.takeCommand_of_takes htakes]
  simp only [ne_eq, not_true_eq_false, if_false, State.withFrames_pst, hsaving, Bool.false_eq_true, hp, hwrite]

/-- Settles O58: the end of the silence, with a frame's discarded pair after it, and within a part config write. -/
theorem silenceEndsOnEveryChannel : Obligations.SilenceEndsOnEveryChannel := by
  refine ⟨fun p s hlaw hsph hrx hrun hsilent hchannel hmask haction => ?_,
    fun tag record rest s hlaw hlen htakes hsaving hvalid hbyte hold hsilent hpending hmask => ?_⟩
  · obtain ⟨v, hends, hv, hch⟩ := State.silenceEnds_eq (s := s.rxReady) hmask
    have hnotice : s.rxReady.setpointNotice = s.rxReady.silenceEnds := by
      have hsilent' : s.rxReady.act.state = .silent := hsilent
      rw [State.setpointNotice, hsilent']
    have hpair : ∀ w : State, w.takePair p = w.latchDiscard p.channel := fun w => by
      rw [State.takePair, channelOf?_eq_none hchannel]
    have hlaw' : v.TransmitterLaw := hlaw.congr (by rw [hv]; rfl) (by rw [hv]; rfl)
    have hstart := State.silenceStart_run (s := s.rxReady) hrun
    rw [exec_setpointFrame_one hsph hrx hrun, hnotice, hends, hpair, State.offerPart_of_law hlaw']
    refine ⟨_, rfl, ?_, fun c => ?_, ?_, ?_⟩
    · rw [(State.beginTransmission_onlyReports _).units.1]
      show v.act = _
      rw [hv, State.act_setAct, hstart]
      rfl
    · rw [(State.beginTransmission_onlyReports _).ch]
      obtain ⟨hactive, hlatched, hact⟩ := hch c
      exact ⟨hactive, hlatched, hact (haction c)⟩
    · rw [(State.beginTransmission_onlyReports _).units.2.2.1]
      rfl
    · rw [State.beginTransmission_outgoing]
      show v.clp.tx.toList ++ partPlaced v.rq .silenceOff = _
      rw [hv]
      rfl
  · obtain ⟨p, hbytes, hp⟩ := partConfigOf?_eq_some hlen hvalid
    rw [← hbytes, byteAt_silenceTimeout] at hbyte
    have hzero : p.silenceTimeout = 0 := Fin.ext hbyte
    have hmask' : ∀ c, (((s.withFrames rest).setMgx { (s.withFrames rest).mgx with config := p }).entry c).alarmMask.silence = false := hmask
    obtain ⟨v, hends, hv, hch⟩ := State.silenceEnds_eq hmask'
    have hlaw' : v.TransmitterLaw := hlaw.congr (by rw [hv]; rfl) (by rw [hv]; rfl)
    have hstart := State.silenceStart_run (s := (s.withFrames rest).setMgx { (s.withFrames rest).mgx with config := p }) htakes.run
    have hend := State.rateAtEnd_eq (s := s.withFrames rest) hpending p.linkRate
    refine ⟨p, _, hbytes, exec_writeEntryPart_ends htakes hsaving hp hzero hold hsilent, ?_, ?_, fun c => ?_, ?_⟩
    all_goals rw [hends, State.offerPart_of_law hlaw', hend]
    · rw [(State.beginTransmission_onlyReports _).units.1]
      show v.act = _
      rw [hv, State.act_setAct, hstart]
      exact congrArg _ (if_pos hzero)
    · rw [(State.beginTransmission_onlyReports _).units.2.2.1]
      show v.mgx = _
      rw [hv]
      rfl
    · rw [(State.beginTransmission_onlyReports _).ch]
      obtain ⟨hactive, hlatched, -⟩ := hch c
      exact ⟨hactive, hlatched⟩
    · rw [State.beginTransmission_outgoing]
      show v.clp.tx.toList ++ (partPlaced v.rq .silenceOff ++ [_]) = _
      rw [hv, ← List.append_assoc]
      rfl

end Sys2Proof.Machine
end

