-- ==== Sys2Proof/Proofs/TargetChanges.lean ====
section
/-! PROOF. A target that is set, and what its engine does (R14, R15, R23 to R28, R48, R53). -/

namespace Sys2Proof.Machine

variable {s t u v : State} {c : ChannelNo} {k : Code}

/-! ### A new goal for a driving channel -/

/-- The context with a new goal, in MOVING (R25). -/
def ChannelCtx.aimedAt (k : Code) (y : ChannelCtx) : ChannelCtx := { y with goal := some k, drive := .moving }

theorem State.setGoal_same (h : (s.ch c).goal = some k) : s.setGoal c (some k) = s := if_pos h.symm

theorem State.setGoal_of_ne (hd : (s.ch c).drive = .moving ∨ (s.ch c).drive = .steady) (hne : (s.ch c).goal ≠ some k) :
    s.setGoal c (some k) = ((s.modCh c (ChannelCtx.aimedAt k)).coalesceToGoal c).stepTest c := by
  refine (if_neg (Ne.symm hne)).trans ?_
  refine congrArg (fun v : State => (v.coalesceToGoal c).stepTest c) (State.modCh_congr ?_)
  rcases hd with hd | hd <;> simp [hd, ChannelCtx.aimedAt]

theorem State.aimedAt_ch (s : State) (c : ChannelNo) (k : Code) :
    (s.modCh c (ChannelCtx.aimedAt k)).ch c = (s.ch c).aimedAt k := State.ch_modCh_self _ _ _

/-- The steps of a channel go straight to the goal (R25, R27). -/
theorem State.unslewed_iff (s : State) (c : ChannelNo) :
    s.unslewed c = true ↔ (s.entry c).slewStep = 0 ∨ s.mgx.slewBypass = true := by
  simp [State.unslewed]

theorem State.coalesceToGoal_aimedAt (s : State) (c : ChannelNo) (k : Code) :
    (s.modCh c (ChannelCtx.aimedAt k)).coalesceToGoal c =
      if s.unslewed c then (s.modCh c (ChannelCtx.aimedAt k)).requestCode c k else s.modCh c (ChannelCtx.aimedAt k) := by
  have hgoal : ((s.modCh c (ChannelCtx.aimedAt k)).ch c).goal = some k := by rw [s.aimedAt_ch]; rfl
  have hunslewed : (s.modCh c (ChannelCtx.aimedAt k)).unslewed c = s.unslewed c := by
    unfold State.unslewed
    rw [State.entry_modCh, State.mgx_modCh]
  unfold State.coalesceToGoal
  rw [hgoal, ← hunslewed]

theorem State.stepTest_of_work (h : s.hasWork c = true) : s.stepTest c = s := by
  unfold State.stepTest
  by_cases hd : (s.ch c).drive ≠ .moving
  · rw [if_pos hd]
  · rw [if_neg hd, if_pos h]

theorem State.stepTest_atGoal (hd : (s.ch c).drive = .moving) (hw : s.hasWork c = false) (hg : (s.ch c).atGoal = true) :
    s.stepTest c = s.enterSteady c := by
  unfold State.stepTest
  rw [if_neg (not_not.mpr hd), if_neg (by rw [hw]; decide), if_pos hg]

theorem State.hasWork_of_hasWrite (h : s.oq.hasWrite c = true) : s.hasWork c = true := by
  simp [State.hasWork, OutputQueue.hasEntry, h]

/-- The writes of the queue with the code of one channel's replaced (R48). -/
def OutputQueue.recoded (q : OutputQueue) (c : ChannelNo) (k : Code) : OutputQueue :=
  { q with writes := q.writes.map fun w => if w.channel = c then { w with code := k } else w }

theorem OutputQueue.placeWrite_recoded {q : OutputQueue} (hi : q.hasIsolate c = false) (hw : q.hasWrite c = true) (k : Code) :
    q.placeWrite c k false = q.recoded c k := by
  rw [OutputQueue.placeWrite_of_noIsolate hi, if_pos hw, OutputQueue.recoded]
  refine congrArg (fun ws => { q with writes := ws }) (List.map_congr_left fun w _ => ?_)
  split
  · next h => rw [← h, Bool.or_false]
  · rfl

theorem OutputQueue.recoded_hasWrite {q : OutputQueue} (hw : q.hasWrite c = true) (k : Code) : (q.recoded c k).hasWrite c = true := by
  rw [OutputQueue.hasWrite_iff] at hw ⊢
  obtain ⟨w, hmem, hch⟩ := hw
  exact ⟨_, List.mem_map_of_mem hmem, by rw [if_pos hch]; exact hch⟩

theorem State.requestCode_queued (hi : s.oq.hasIsolate c = false) (hw : s.oq.hasWrite c = true) (k : Code) :
    s.requestCode c k = (s.setOq (s.oq.recoded c k)).modCh c fun y => { y with sent := some k } := by
  unfold State.requestCode State.coalesce State.placeWrite
  rw [if_pos hw, OutputQueue.placeWrite_recoded hi hw]

/-- A new goal while a WRITE is queued (R25, R48). -/
theorem State.setGoal_queued (hd : (s.ch c).drive = .moving ∨ (s.ch c).drive = .steady) (hne : (s.ch c).goal ≠ some k)
    (hi : s.oq.hasIsolate c = false) (hw : s.oq.hasWrite c = true) : s.setGoal c (some k) =
      if s.unslewed c then (s.setOq (s.oq.recoded c k)).modCh c fun y => { y.aimedAt k with sent := some k }
      else s.modCh c (ChannelCtx.aimedAt k) := by
  rw [State.setGoal_of_ne hd hne, State.coalesceToGoal_aimedAt, State.requestCode_queued (by rw [State.oq_modCh]; exact hi)
    (by rw [State.oq_modCh]; exact hw)]
  split
  · rw [State.oq_modCh, State.stepTest_of_work (State.hasWork_of_hasWrite (by rw [State.oq_modCh]; exact OutputQueue.recoded_hasWrite hw k))]
    exact State.modCh_modCh (s.setOq (s.oq.recoded c k)) c _ _
  · exact State.stepTest_of_work (State.hasWork_of_hasWrite (by rw [State.oq_modCh]; exact hw))

theorem State.writeJustGranted_modCh (s : State) (c d : ChannelNo) (f : ChannelCtx → ChannelCtx) :
    (s.modCh c f).writeJustGranted d = s.writeJustGranted d := by
  unfold State.writeJustGranted
  rw [State.fbc_modCh]

theorem State.requestCode_unqueued (hw : s.oq.hasWrite c = false) (k : Code) : s.requestCode c k =
    if s.writeJustGranted c then s.modCh c fun y => { y with sent := some k } else s := by
  unfold State.requestCode State.meetGrant
  rw [if_neg (by rw [hw]; decide)]

/-- A new goal while a transaction of the channel is in flight and nothing is queued (R25, R53). -/
theorem State.setGoal_inFlight (hd : (s.ch c).drive = .moving ∨ (s.ch c).drive = .steady) (hne : (s.ch c).goal ≠ some k)
    (hq : s.oq.hasEntry c = false) (hwork : s.hasWork c = true) : s.setGoal c (some k) =
      if s.unslewed c = true ∧ s.writeJustGranted c = true then s.modCh c fun y => { y.aimedAt k with sent := some k }
      else s.modCh c (ChannelCtx.aimedAt k) := by
  have hw := ((s.oq.hasEntry_eq_false c).mp hq).2
  have hworks : ∀ f, ((s.modCh c f).hasWork c) = true := fun f => (s.hasWork_modCh c c f).trans hwork
  rw [State.setGoal_of_ne hd hne, State.coalesceToGoal_aimedAt, State.requestCode_unqueued (by rw [State.oq_modCh]; exact hw),
    State.writeJustGranted_modCh, State.modCh_modCh]
  by_cases hu : s.unslewed c = true
  · by_cases hg : s.writeJustGranted c = true
    · rw [if_pos hu, if_pos hg, if_pos ⟨hu, hg⟩, State.stepTest_of_work (hworks _)]
    · rw [if_pos hu, if_neg hg, if_neg fun h => hg h.2, State.stepTest_of_work (hworks _)]
  · rw [if_neg hu, if_neg fun h => hu h.1, State.stepTest_of_work (hworks _)]

theorem State.writeJustGranted_of_noWork (h : s.hasWork c = false) : s.writeJustGranted c = false := by
  have hflight : s.writeInFlight c = false := by
    simp only [State.hasWork, Bool.or_eq_false_iff] at h
    exact h.1.2
  unfold State.writeInFlight at hflight
  unfold State.writeJustGranted
  cases hf : s.fbc.state with
  | held x | sending x =>
    rw [hf] at hflight
    exact hflight
  | idle | gap | awaitBusy | awaitRelease | awaitReply => rfl

/-- A new goal for a channel without work: the step test follows (R25, R26). -/
theorem State.setGoal_free (hd : (s.ch c).drive = .moving ∨ (s.ch c).drive = .steady) (hne : (s.ch c).goal ≠ some k)
    (hwork : s.hasWork c = false) : s.setGoal c (some k) = (s.modCh c (ChannelCtx.aimedAt k)).stepTest c := by
  have hw : s.oq.hasWrite c = false := by
    simp only [State.hasWork, OutputQueue.hasEntry, Bool.or_eq_false_iff] at hwork
    exact hwork.1.1.2
  rw [State.setGoal_of_ne hd hne, State.coalesceToGoal_aimedAt, State.requestCode_unqueued (by rw [State.oq_modCh]; exact hw),
    State.writeJustGranted_modCh, State.writeJustGranted_of_noWork hwork, if_neg (c := false = true) (by decide), ite_self]

/-! ### A target that is set -/

/-- The context with a calibrated target (R14). -/
def ChannelCtx.targeted (e : ChannelEntry) (data : Code) (takes : Bool) (y : ChannelCtx) : ChannelCtx :=
  { y with target := some (calibrate e data).1, clamped := (calibrate e data).2, presetTaken := y.presetTaken || takes }

theorem State.applySetpoint_eq (s : State) (c : ChannelNo) (data : Code) (takes : Bool) :
    s.applySetpoint c data takes = (s.modCh c (ChannelCtx.targeted (s.entry c) data takes)).targetNotice c := rfl

/-- The drive is told of a new target: a driving channel with action NONE takes it for its goal (R23). -/
theorem State.targetNotice_driving (hd : (s.ch c).drive = .moving ∨ (s.ch c).drive = .steady) (ha : (s.ch c).action = .none) :
    s.targetNotice c = s.setGoal c (s.ch c).target := by
  unfold State.targetNotice
  rcases hd with hd | hd <;> rw [hd] <;> exact if_pos ha

theorem State.targetNotice_other
    (h : (s.ch c).action ≠ .none ∨ ((s.ch c).drive ≠ .moving ∧ (s.ch c).drive ≠ .steady)) : s.targetNotice c = s := by
  unfold State.targetNotice
  cases hd : (s.ch c).drive with
  | moving =>
    rcases h with h | ⟨h, -⟩
    · exact if_neg h
    · exact absurd hd h
  | steady =>
    rcases h with h | ⟨-, h⟩
    · exact if_neg h
    · exact absurd hd h
  | off | stopping | isolating | isolated | releasing => rfl

/-- A channel that takes a target without acting on it (R23, R24). -/
theorem State.applySetpoint_other
    (h : (s.ch c).action ≠ .none ∨ ((s.ch c).drive ≠ .moving ∧ (s.ch c).drive ≠ .steady)) (data : Code) (takes : Bool) :
    s.applySetpoint c data takes = s.modCh c (ChannelCtx.targeted (s.entry c) data takes) := by
  rw [State.applySetpoint_eq, State.targetNotice_other (by rw [State.ch_modCh_self]; exact h)]

/-- A driving channel with action NONE takes the target for its goal. -/
theorem State.applySetpoint_driving (ha : (s.ch c).action = .none) (hd : (s.ch c).drive = .moving ∨ (s.ch c).drive = .steady)
    (data : Code) (takes : Bool) : s.applySetpoint c data takes =
      (s.modCh c (ChannelCtx.targeted (s.entry c) data takes)).setGoal c (some (calibrate (s.entry c) data).1) := by
  rw [State.applySetpoint_eq, State.targetNotice_driving (by rw [State.ch_modCh_self]; exact hd) (by rw [State.ch_modCh_self]; exact ha),
    State.ch_modCh_self]
  rfl

/-! ### The writes of one channel -/

theorem OutputQueue.recoded_writesOf (q : OutputQueue) (c : ChannelNo) (k : Code) :
    (q.recoded c k).writesOf c = (q.writesOf c).map fun w => { w with code := k } := by
  have hof : ∀ w : WriteEntry, (if w.channel = c then { w with code := k } else w).isOf c = w.isOf c := fun w => by split <;> rfl
  unfold OutputQueue.recoded OutputQueue.writesOf
  rw [List.filter_map]
  refine (List.map_congr_left fun w hw => if_pos ?_).trans (congrArg _ (List.filter_congr fun w _ => hof w))
  have := (List.mem_filter.mp hw).2
  simp only [Function.comp, hof] at this
  simpa [WriteEntry.isOf] using this

theorem OutputQueue.writesOf_eq_nil (q : OutputQueue) (c : ChannelNo) : q.writesOf c = [] ↔ q.hasWrite c = false := by
  simp [OutputQueue.writesOf, OutputQueue.hasWrite, List.filter_eq_nil_iff]

theorem State.hasEntry_of_noWork (h : s.hasWork c = false) : s.oq.hasEntry c = false := by
  simp only [State.hasWork, Bool.or_eq_false_iff] at h
  exact h.1.1

theorem OutputQueue.writesOf_of_noEntry {q : OutputQueue} (h : q.hasEntry c = false) : q.writesOf c = [] :=
  (q.writesOf_eq_nil c).mpr ((q.hasEntry_eq_false c).mp h).2

theorem OutputQueue.writesOf_snoc {q : OutputQueue} (h : q.hasEntry c = false) (k : Code) (rc : Bool) :
    OutputQueue.writesOf { q with writes := q.writes ++ [⟨c, k, rc⟩] } c = [⟨c, k, rc⟩] := by
  have := OutputQueue.writesOf_of_noEntry h
  simp only [OutputQueue.writesOf] at this ⊢
  rw [List.filter_append, this]
  simp [WriteEntry.isOf]

theorem State.not_unslewed (h1 : (s.entry c).slewStep ≠ 0) (h2 : s.mgx.slewBypass = false) : ¬ s.unslewed c = true := by
  rw [State.unslewed_iff, h2]
  exact fun h => h.elim h1 (by decide)

theorem ChannelCtx.aimed_atGoal {y : ChannelCtx} {k goal : Code} (hsent : y.sent = some k) (hnot : ¬ (y.applied = some k ∧ k = goal)) :
    (y.aimedAt goal).atGoal = false := by
  rw [← Bool.not_eq_true]
  intro h
  simp only [ChannelCtx.atGoal, ChannelCtx.aimedAt, hsent, Bool.and_eq_true, beq_iff_eq, Option.some.injEq] at h
  exact hnot ⟨h.1.2, h.2⟩

/-- The engine's answer to a target that is set (R23 to R28, R48, R53). -/
theorem State.applySetpoint_targetTaken (s : State) (c : ChannelNo) (data : Code) (takes : Bool) :
    State.TargetTaken c (calibrate (s.entry c) data).1 s (s.applySetpoint c data takes) := by
  have hch : (s.modCh c (ChannelCtx.targeted (s.entry c) data takes)).ch c = (s.ch c).targeted (s.entry c) data takes :=
    State.ch_modCh_self _ _ _
  have hmoves : ((s.ch c).targeted (s.entry c) data takes).Moves ((s.applySetpoint c data takes).ch c) :=
    hch ▸ (State.Drives.targetNotice (s.modCh c (ChannelCtx.targeted (s.entry c) data takes)) c).moves
  have hdriving := fun ha hd => State.applySetpoint_driving (s := s) (c := c) ha hd data takes
  have hother := fun h => State.applySetpoint_other (s := s) (c := c) h data takes
  have hunslewed : (s.modCh c (ChannelCtx.targeted (s.entry c) data takes)).unslewed c = s.unslewed c := by
    unfold State.unslewed
    rw [State.entry_modCh, State.mgx_modCh]
  have hgranted := s.writeJustGranted_modCh c c (ChannelCtx.targeted (s.entry c) data takes)
  have hworks := s.hasWork_modCh c c (ChannelCtx.targeted (s.entry c) data takes)
  have hoq := s.oq_modCh c (ChannelCtx.targeted (s.entry c) data takes)
  have hentry := s.entry_modCh c (ChannelCtx.targeted (s.entry c) data takes) c
  have hmgx := s.mgx_modCh c (ChannelCtx.targeted (s.entry c) data takes)
  generalize s.applySetpoint c data takes = t at hmoves hdriving hother ⊢
  generalize s.modCh c (ChannelCtx.targeted (s.entry c) data takes) = m at hch hdriving hother hunslewed hgranted hworks hoq hentry hmgx
  have hmd : ∀ d, (s.ch c).drive = d → (m.ch c).drive = d := fun d h => by rw [hch]; exact h
  have hmg : ∀ k, (s.ch c).goal ≠ k → (m.ch c).goal ≠ k := fun d h => by rw [hch]; exact h
  refine ⟨by rw [hmoves.1]; rfl, fun h => ?_, fun ha hd => by rw [hdriving ha hd, State.setGoal_goal], fun ha hd hne hi hw => ?_,
    fun ha hd hne hq hwork => ?_, fun ha hd hne hwork hsent happ => ?_, fun k ha hd hne hwork hsent hnot ht => ?_,
    fun k step ha hd hne hwork hsent hnot ht hstep => ?_⟩
  · have hsame : t = m := by
      by_cases ha : (s.ch c).action = .none
      · by_cases hd : (s.ch c).drive = .moving ∨ (s.ch c).drive = .steady
        · rcases h with h | h | h
          · exact absurd ha h
          · exact absurd hd (not_or.mpr h)
          · rw [hdriving ha hd, State.setGoal_same (by rw [hch]; exact h)]
        · exact hother (Or.inr (not_or.mp hd))
      · exact hother (Or.inl ha)
    rw [State.driveStays, hsame, hch, hoq]
    exact ⟨rfl, rfl, rfl, rfl, rfl⟩
  · rw [hdriving ha hd, State.setGoal_queued (hd.imp (hmd _) (hmd _)) (hmg _ hne) (by rw [hoq]; exact hi) (by rw [hoq]; exact hw),
      hunslewed, hoq]
    by_cases hu : s.unslewed c = true
    · rw [if_pos hu, State.ch_modCh_self, State.ch_setOq, hch, State.oq_modCh, State.oq_setOq]
      exact ⟨rfl, rfl, fun _ => ⟨rfl, OutputQueue.recoded_writesOf _ _ _⟩, fun h1 h2 => absurd hu (State.not_unslewed h1 h2)⟩
    · rw [if_neg hu, State.aimedAt_ch, hch, State.oq_modCh, hoq]
      exact ⟨rfl, rfl, fun h => absurd ((s.unslewed_iff c).mpr h) hu, fun _ _ => ⟨rfl, rfl⟩⟩
  · rw [hdriving ha hd, State.setGoal_inFlight (hd.imp (hmd _) (hmd _)) (hmg _ hne) (by rw [hoq]; exact hq) (hworks.trans hwork),
      hunslewed, hgranted]
    simp only [State.unslewed_iff]
    split
    · rw [State.ch_modCh_self, hch, State.oq_modCh, hoq]
      exact ⟨rfl, rfl, OutputQueue.writesOf_of_noEntry hq, rfl⟩
    · rw [State.aimedAt_ch, hch, State.oq_modCh, hoq]
      exact ⟨rfl, rfl, OutputQueue.writesOf_of_noEntry hq, rfl⟩
  all_goals
    have hq := State.hasEntry_of_noWork hwork
    have hwork' := (m.hasWork_modCh c c (ChannelCtx.aimedAt (calibrate (s.entry c) data).1)).trans (hworks.trans hwork)
    have haimed := m.aimedAt_ch c (calibrate (s.entry c) data).1
    rw [hch] at haimed
    rw [hdriving ha hd, State.setGoal_free (hd.imp (hmd _) (hmd _)) (hmg _ hne) (hworks.trans hwork)]
  · have hat : ((m.modCh c (ChannelCtx.aimedAt (calibrate (s.entry c) data).1)).ch c).atGoal = true := by
      rw [haimed]
      simp [ChannelCtx.atGoal, ChannelCtx.aimedAt, ChannelCtx.targeted, hsent, happ]
    rw [State.stepTest_atGoal (by rw [haimed]; rfl) hwork' hat, State.enterSteady, State.ch_modCh_self, haimed, State.oq_modCh, State.oq_modCh,
      hoq, State.entry_modCh, hentry]
    exact ⟨rfl, rfl, hsent, OutputQueue.writesOf_of_noEntry hq⟩
  · have hat := ChannelCtx.aimed_atGoal (y := m.ch c) (by rw [hch]; exact hsent) (by rw [hch]; exact hnot)
    rw [State.stepTest_of_waiting (by rw [haimed]; rfl) hwork' (by rw [haimed]; exact ht), State.ch_modCh_self, m.aimedAt_ch,
      ChannelCtx.tested, if_neg (by rw [hat]; decide), hch, State.oq_modCh, State.oq_modCh, hoq]
    exact ⟨rfl, hsent, rfl, OutputQueue.writesOf_of_noEntry hq⟩
  · have hat := ChannelCtx.aimed_atGoal (y := m.ch c) (by rw [hch]; exact hsent) (by rw [hch]; exact hnot)
    subst hstep
    rw [State.stepTest_step (by rw [haimed]; rfl) hwork' (by rw [m.aimedAt_ch]; exact hat) (by rw [haimed]; exact ht)
      (by rw [haimed]; exact hsent) (by rw [haimed]; rfl), State.issueWrite_ch, State.issueWrite_oq (by rw [State.oq_modCh, hoq]; exact hq),
      haimed, State.oq_modCh, hoq, State.entry_modCh, hentry, State.mgx_modCh, hmgx]
    exact ⟨rfl, rfl, rfl, OutputQueue.writesOf_snoc hq _ _⟩

end Sys2Proof.Machine
end

