-- ==== Sys2Proof/Proofs/SetpointFrames.lean ====
section
/-! PROOF. A setpoint frame of one pair, taken in RUN (R10 to R14, R141): a pair that is discarded, and what one that is applied makes of
its channel. -/

namespace Sys2Proof.Machine

variable {s t u v : State} {c : ChannelNo} {p : SetpointPair}

/-! ### A frame in QUIET -/

/-- The part when a frame has been accepted in RUN and QUIET: the receiver is ready and the silence timer starts again (R141). -/
def State.frameAccepted (s : State) : State := s.rxReady.setAct ⟨.quiet, s.silenceStart⟩

theorem State.setSph_nil (h : s.sph = []) : s.setSph [] = s := by
  unfold State.setSph
  rw [← h]

theorem exec_setpointFrame_quiet (hsph : s.sph = []) (hrx : s.clp.rx ≠ .hunt) (hrun : s.mgx.mode = .run) (hquiet : s.act.state = .quiet)
    (p : SetpointPair) : exec (.setpointFrame [p]) s = ((s.frameAccepted.takePair p).setSph []).done := by
  have hnotice : s.rxReady.setpointNotice = s.frameAccepted := by
    have hquiet' : s.rxReady.act.state = .quiet := hquiet
    rw [State.setpointNotice, hquiet']
    rfl
  rw [exec_setpointFrame_one hsph hrx hrun, hnotice]

theorem DriveState.takesSetpoints_eq_false {d : DriveState} : d.takesSetpoints = false ↔ d = .off ∨ d = .stopping := by
  cases d <;> simp [DriveState.takesSetpoints]

theorem State.takePair_discarded (h : 24 ≤ p.channel.toNat ∨ ∃ c : ChannelNo, p.channel.toNat = c.val ∧ (s.ch c).drive.takesSetpoints = false) :
    s.takePair p = s.latchDiscard p.channel := by
  unfold State.takePair
  rcases h with h | ⟨c, hc, hd⟩
  · rw [channelOf?_eq_none h]
  · rw [channelOf?_eq_some hc]
    exact if_neg (by rw [hd]; decide)

theorem State.takePair_applied (hc : p.channel.toNat = c.val) (hd : (s.ch c).drive.takesSetpoints = true) :
    s.takePair p = s.applySetpoint c p.data (s.pru.state == .applying) := by
  unfold State.takePair
  rw [channelOf?_eq_some hc]
  exact if_pos hd

/-- Settles O17: a frame discarded whole during LOADING, and a pair discarded for its channel. -/
theorem discardedSetpointsAreLatched : Obligations.DiscardedSetpointsAreLatched := by
  refine ⟨fun pairs s hlaw hone height hrx hmode => ?_, fun p s hlaw hsph hrx hrun hquiet h => ?_⟩
  · obtain ⟨p, rest, rfl⟩ : ∃ p rest, pairs = p :: rest := by
      cases pairs with
      | nil => exact absurd hone (by decide)
      | cons p rest => exact ⟨p, rest, rfl⟩
    have hdue : (s.clp.rx.takesFrames && (Instr.setpointFrame (p :: rest)).wf) = true := by
      rw [RxState.takesFrames_of_ne hrx, Bool.true_and]
      exact decide_eq_true height
    have htake : s.rxReady.takeSetpoints (p :: rest) = s.rxReady.latchDiscard 255 := by
      have hmode' : s.rxReady.mgx.mode = .loading := hmode
      rw [State.takeSetpoints, hmode']
    show s.event _ (fun s => s.rxReady.takeSetpoints (p :: rest)) = _
    rw [hdue]
    refine (congrArg State.done htake).trans (State.done_of_law ?_)
    exact hlaw.congr rfl rfl
  · have hdiscard := State.takePair_discarded (s := s.frameAccepted)
      (h.imp_right fun ⟨c, hc, hd⟩ => ⟨c, hc, DriveState.takesSetpoints_eq_false.mpr hd⟩)
    have hstart := State.silenceStart_run hrun
    rw [exec_setpointFrame_quiet hsph hrx hrun hquiet, hdiscard, State.setSph_nil (by exact hsph), State.done_of_law (by exact hlaw.congr rfl rfl),
      ← hstart]
    rfl

/-! ### A pair that is applied -/

/-- The part after a pair is applied, before the end of its frame. -/
def State.pairApplied (s : State) (c : ChannelNo) (data : Code) : State :=
  s.frameAccepted.applySetpoint c data (s.pru.state == .applying)

/-- A frame of one pair that is applied: only its channel, the receiver and the silence timer differ (R10 to R14, R141). -/
theorem exec_setpointFrame_applied (hlaw : s.TransmitterLaw) (hsph : s.sph = []) (hrx : s.clp.rx ≠ .hunt) (hrun : s.mgx.mode = .run)
    (hquiet : s.act.state = .quiet) (hc : p.channel.toNat = c.val) (hd : (s.ch c).drive.takesSetpoints = true) :
    exec (.setpointFrame [p]) s = .next ((s.pairApplied c p.data).setSph []) ∧
      ((s.pairApplied c p.data).setSph []).clp = s.rxReady.clp ∧ ((s.pairApplied c p.data).setSph []).rq = s.rq ∧
      ((s.pairApplied c p.data).setSph []).fbc = s.fbc ∧
      State.OnlyChannel c s { (s.pairApplied c p.data).setSph [] with
        clp := { ((s.pairApplied c p.data).setSph []).clp with rx := s.clp.rx }, act := s.act } := by
  have hdrives := State.Drives.targetNotice
    (s.frameAccepted.modCh c (ChannelCtx.targeted (s.entry c) p.data (s.pru.state == .applying))) c
  have hclp : (s.pairApplied c p.data).clp = s.rxReady.clp := hdrives.reports.1.trans (State.clp_modCh _ _ _)
  have hrq : (s.pairApplied c p.data).rq = s.rq := hdrives.reports.2.trans (State.rq_modCh _ _ _)
  have honly : State.OnlyChannel c s.frameAccepted (s.pairApplied c p.data) := (State.onlyChannel_modCh _ c _).trans hdrives.frame
  refine ⟨?_, hclp, hrq, honly.field.1, ?_⟩
  · rw [exec_setpointFrame_quiet hsph hrx hrun hquiet, State.takePair_applied (s := s.frameAccepted) hc hd]
    have htx : (s.pairApplied c p.data).clp.tx = s.clp.tx := by rw [hclp]; rfl
    exact State.done_of_law (hlaw.congr htx hrq)
  · obtain ⟨hothers, hisolates, hwrites, hlink, htables, hfield, hunits, hwaiting, hpairs⟩ := honly
    exact ⟨hothers, hisolates, hwrites, ⟨rfl, hlink.2⟩, htables, hfield, ⟨rfl, hunits.2⟩, hwaiting, hsph.symm⟩

/-- The channel as its engine finds it (R14). -/
def State.pairTargeted (s : State) (c : ChannelNo) (data : Code) : State :=
  s.frameAccepted.modCh c (ChannelCtx.targeted (s.entry c) data (s.pru.state == .applying))

theorem State.pairTargeted_ch (s : State) (c : ChannelNo) (data : Code) :
    (s.pairTargeted c data).ch c = (s.ch c).targeted (s.entry c) data (s.pru.state == .applying) := State.ch_modCh_self _ _ _

theorem State.pairApplied_driving (ha : (s.ch c).action = .none) (hd : (s.ch c).drive = .moving ∨ (s.ch c).drive = .steady) (data : Code) :
    s.pairApplied c data = (s.pairTargeted c data).setGoal c (some (calibrate (s.entry c) data).1) :=
  State.applySetpoint_driving (s := s.frameAccepted) ha hd data _

theorem State.pairTargeted_hasWork (s : State) (c : ChannelNo) (data : Code) : (s.pairTargeted c data).hasWork c = s.hasWork c :=
  State.hasWork_modCh s.frameAccepted c c _

theorem State.pairTargeted_entry (s : State) (c : ChannelNo) (data : Code) : (s.pairTargeted c data).entry c = s.entry c := rfl

theorem State.pairTargeted_oq (s : State) (c : ChannelNo) (data : Code) : (s.pairTargeted c data).oq = s.oq := rfl

theorem State.pairTargeted_mgx (s : State) (c : ChannelNo) (data : Code) : (s.pairTargeted c data).mgx = s.mgx := rfl

theorem State.pairTargeted_unslewed (s : State) (c : ChannelNo) (data : Code) : (s.pairTargeted c data).unslewed c = s.unslewed c := rfl

theorem State.pairTargeted_writeJustGranted (s : State) (c : ChannelNo) (data : Code) :
    (s.pairTargeted c data).writeJustGranted c = s.writeJustGranted c := rfl

/-- A steady channel with nothing to do that gets a new goal takes its first step (R25 to R28). -/
theorem State.pairApplied_steps {k : Code} {data : Code} (ha : (s.ch c).action = .none)
    (hd : (s.ch c).drive = .moving ∨ (s.ch c).drive = .steady) (ht : (s.ch c).stepTimer.isRunning = false) (hw : s.hasWork c = false)
    (hsent : (s.ch c).sent = some k) (hg : (s.ch c).goal ≠ some (calibrate (s.entry c) data).1) (hk : (calibrate (s.entry c) data).1 ≠ k) :
    s.pairApplied c data = ((s.pairTargeted c data).modCh c (ChannelCtx.aimedAt (calibrate (s.entry c) data).1)).issueWrite c
      (stepCode (s.entry c) s.mgx.slewBypass k (calibrate (s.entry c) data).1) false := by
  have hch := s.pairTargeted_ch c data
  have hwork := (s.pairTargeted_hasWork c data).trans hw
  have haimed := (s.pairTargeted c data).aimedAt_ch c (calibrate (s.entry c) data).1
  have hat := ChannelCtx.aimed_atGoal (y := (s.pairTargeted c data).ch c) (goal := (calibrate (s.entry c) data).1) (by rw [hch]; exact hsent)
    fun h => hk h.2.symm
  rw [State.pairApplied_driving ha hd, State.setGoal_free (by rw [hch]; exact hd) (by rw [hch]; exact hg) hwork,
    State.stepTest_step (by rw [haimed]; rfl) ((State.hasWork_modCh _ _ _ _).trans hwork) (by rw [haimed]; exact hat)
      (by rw [haimed, hch]; exact ht) (by rw [haimed, hch]; exact hsent) (by rw [haimed]; rfl)]
  rfl

/-- Settles O18: the target, and the first step towards it. -/
theorem appliedPairMovesASteadyChannel : Obligations.AppliedPairMovesASteadyChannel := by
  intro p c s g k hlaw hsph hrx hrun hquiet hc hd ha ht hw hgoal hsent
  obtain ⟨hexec, hclp, hrq, -, honly⟩ := exec_setpointFrame_applied (p := p) hlaw hsph hrx hrun hquiet hc (by rw [hd]; rfl)
  have hch := s.pairTargeted_ch c p.data
  have hmoves : ((s.ch c).targeted (s.entry c) p.data (s.pru.state == .applying)).Moves ((s.pairApplied c p.data).ch c) := by
    rw [← hch]
    exact (State.Drives.targetNotice _ c).moves
  refine ⟨_, hexec, ?_, ?_, ?_, fun hsame => ?_, fun hg hk => ?_, hrq, by rw [hclp]; rfl, honly⟩
  · exact congrArg ChannelCtx.target hmoves.1
  · exact congrArg ChannelCtx.clamped hmoves.1
  · exact congrArg ChannelCtx.presetTaken hmoves.1
  · have hsetGoal : s.pairApplied c p.data = s.pairTargeted c p.data := by
      rw [State.pairApplied_driving ha (Or.inr hd), State.setGoal_same (by rw [hch, hsame]; exact hgoal)]
    show ((s.pairApplied c p.data).ch c).drive = _ ∧ ((s.pairApplied c p.data).ch c).goal = _ ∧ (s.pairApplied c p.data).oq = _
    rw [hsetGoal, hch]
    exact ⟨hd, hgoal, rfl⟩
  · have hstep := State.pairApplied_steps (data := p.data) ha (Or.inr hd) ht hw hsent
      (fun h => hg (Option.some.inj (h.symm.trans hgoal))) hk
    show ((s.pairApplied c p.data).ch c).drive = _ ∧ ((s.pairApplied c p.data).ch c).goal = _ ∧ ((s.pairApplied c p.data).ch c).sent = _ ∧
      ((s.pairApplied c p.data).ch c).stepTimer = _ ∧ (s.pairApplied c p.data).oq = _
    rw [hstep, State.issueWrite_ch, State.issueWrite_oq (by exact State.hasEntry_of_noWork hw), State.aimedAt_ch, hch]
    exact ⟨rfl, rfl, rfl, rfl, rfl⟩

end Sys2Proof.Machine
end

