-- ==== Sys2Proof/Proofs/PairsInOrder.lean ====
section
/-! PROOF. The pairs of a setpoint frame one by one (R10, R14, R18): applying a pair neither reads nor writes the link, the reports, the
silence record and the pairs that wait, so a frame is the sequence of its pairs. -/

namespace Sys2Proof.Machine

variable {s t u v : State} {c : ChannelNo} {p q : SetpointPair}

/-! ### What applying a pair does not see -/

/-- What a pair neither reads nor writes. -/
structure Beside where
  clp : LinkPort
  act : SilenceRecord
  rq : List Report
  sph : List SetpointPair

/-- The part with other values there. -/
def State.beside (s : State) (b : Beside) : State := { s with clp := b.clp, act := b.act, rq := b.rq, sph := b.sph }

theorem State.beside_modCh (s : State) (b : Beside) (c : ChannelNo) (f : ChannelCtx → ChannelCtx) :
    (s.beside b).modCh c f = (s.modCh c f).beside b := rfl

theorem State.beside_ite (x : Prop) [Decidable x] (s t : State) (b : Beside) :
    (if x then s.beside b else t.beside b) = (if x then s else t).beside b := by split <;> rfl

theorem State.beside_issueWrite (s : State) (b : Beside) (c : ChannelNo) (k : Code) (r : Bool) :
    (s.beside b).issueWrite c k r = (s.issueWrite c k r).beside b := rfl

theorem State.beside_requestCode (s : State) (b : Beside) (c : ChannelNo) (k : Code) :
    (s.beside b).requestCode c k = (s.requestCode c k).beside b := by
  show (if s.oq.hasWrite c then (s.coalesce c k).beside b else
    if s.writeJustGranted c then (s.modCh c fun x => { x with sent := some k }).beside b else s.beside b) = _
  rw [State.beside_ite, State.beside_ite]
  rfl

theorem State.beside_coalesceToGoal (s : State) (b : Beside) (c : ChannelNo) :
    (s.beside b).coalesceToGoal c = (s.coalesceToGoal c).beside b := by
  unfold State.coalesceToGoal
  show (match (s.ch c).goal with | some code => _ | none => _) = _
  cases (s.ch c).goal with
  | none => rfl
  | some k =>
    dsimp only
    rw [State.beside_requestCode, ← State.beside_ite]
    rfl

theorem State.beside_stepTest (s : State) (b : Beside) (c : ChannelNo) : (s.beside b).stepTest c = (s.stepTest c).beside b := by
  have hissue : (s.beside b).issueStep c = (s.issueStep c).beside b := by
    unfold State.issueStep
    show (match (s.ch c).sent, (s.ch c).goal with | some current, some goal => _ | _, _ => _) = _
    cases (s.ch c).sent with
    | none => rfl
    | some k => cases (s.ch c).goal <;> rfl
  show (if (s.ch c).drive ≠ .moving then s.beside b else if s.hasWork c then s.beside b else
    if (s.ch c).atGoal then (s.enterSteady c).beside b else if (s.ch c).stepTimer.isRunning then s.beside b else (s.beside b).issueStep c) = _
  rw [hissue, State.beside_ite, State.beside_ite, State.beside_ite, State.beside_ite]
  rfl

theorem State.beside_setGoal (s : State) (b : Beside) (c : ChannelNo) (goal : Option Code) :
    (s.beside b).setGoal c goal = (s.setGoal c goal).beside b := by
  unfold State.setGoal
  rw [State.beside_modCh, State.beside_coalesceToGoal, State.beside_stepTest, ← State.beside_ite]
  rfl

theorem State.beside_takePair (s : State) (b : Beside) (p : SetpointPair) : (s.beside b).takePair p = (s.takePair p).beside b := by
  have happly : ∀ c takes, (s.beside b).applySetpoint c p.data takes = (s.applySetpoint c p.data takes).beside b := fun c takes => by
    have hnotice : ∀ v : State, (v.beside b).targetNotice c = (v.targetNotice c).beside b := fun v => by
      by_cases h : (v.ch c).action = .none ∧ ((v.ch c).drive = .moving ∨ (v.ch c).drive = .steady)
      · rw [State.targetNotice_driving (s := v.beside b) h.2 h.1, State.targetNotice_driving h.2 h.1]
        exact State.beside_setGoal v b c _
      · have hother := (not_and_or.mp h).imp_right not_or.mp
        rw [State.targetNotice_other (s := v.beside b) hother, State.targetNotice_other hother]
    rw [State.applySetpoint_eq, State.beside_modCh, hnotice]
    rfl
  unfold State.takePair
  cases channelOf? p.channel with
  | none => rfl
  | some c =>
    dsimp only
    rw [happly, ← State.beside_ite]
    rfl

theorem State.beside_takePairs (l : List SetpointPair) (s : State) (b : Beside) :
    l.foldl State.takePair (s.beside b) = (l.foldl State.takePair s).beside b := by
  induction l generalizing s with
  | nil => rfl
  | cons p l ih => rw [List.foldl_cons, State.beside_takePair, ih, List.foldl_cons]

/-- An operation that neither reads nor writes there. -/
def Unseeing (f : State → State) : Prop := ∀ (s : State) (b : Beside), f (s.beside b) = (f s).beside b

theorem Unseeing.untouched {f : State → State} (hf : Unseeing f) (s : State) :
    (f s).clp = s.clp ∧ (f s).act = s.act ∧ (f s).rq = s.rq ∧ (f s).sph = s.sph := by
  have h : f s = (f s).beside ⟨s.clp, s.act, s.rq, s.sph⟩ := hf s ⟨s.clp, s.act, s.rq, s.sph⟩
  rw [h]
  exact ⟨rfl, rfl, rfl, rfl⟩

theorem Unseeing.setSph {f : State → State} (hf : Unseeing f) (s : State) (l : List SetpointPair) : f (s.setSph l) = (f s).setSph l := by
  obtain ⟨hclp, hact, hrq, -⟩ := hf.untouched s
  refine (hf s ⟨s.clp, s.act, s.rq, l⟩).trans ?_
  rw [State.beside, ← hclp, ← hact, ← hrq]
  rfl

theorem Unseeing.setAct {f : State → State} (hf : Unseeing f) (s : State) (a : SilenceRecord) : f (s.setAct a) = (f s).setAct a := by
  obtain ⟨hclp, -, hrq, hsph⟩ := hf.untouched s
  refine (hf s ⟨s.clp, a, s.rq, s.sph⟩).trans ?_
  rw [State.beside, ← hclp, ← hrq, ← hsph]
  rfl

theorem Unseeing.setRx {f : State → State} (hf : Unseeing f) (s : State) (x : RxState) :
    f (s.setClp { s.clp with rx := x }) = (f s).setClp { (f s).clp with rx := x } := by
  obtain ⟨hclp, hact, hrq, hsph⟩ := hf.untouched s
  refine (hf s ⟨{ s.clp with rx := x }, s.act, s.rq, s.sph⟩).trans ?_
  rw [State.beside, ← hclp, ← hact, ← hrq, ← hsph]
  rfl

theorem Unseeing.beginTransmission {f : State → State} (hf : Unseeing f) (s : State) :
    f s.beginTransmission = (f s).beginTransmission := by
  obtain ⟨hclp, hact, hrq, hsph⟩ := hf.untouched s
  unfold State.beginTransmission
  rw [hclp, hrq]
  cases htx : s.clp.tx with
  | some r => rfl
  | none =>
    cases hr : s.rq with
    | nil => rfl
    | cons r rest =>
      refine (hf s ⟨{ s.clp with tx := some r }, s.act, rest, s.sph⟩).trans ?_
      rw [State.beside, ← hact, ← hsph]

theorem Unseeing.takePair (p : SetpointPair) : Unseeing fun s => s.takePair p := fun s b => s.beside_takePair b p

theorem Unseeing.takePairs (l : List SetpointPair) : Unseeing fun s => l.foldl State.takePair s := fun s b => State.beside_takePairs l s b

/-! ### The silence ends beside the pairs that wait -/

theorem State.setSph_ite (x : Prop) [Decidable x] (s t : State) (l : List SetpointPair) :
    (if x then s.setSph l else t.setSph l) = (if x then s else t).setSph l := by split <;> rfl

theorem State.beginTransmission_setSph (s : State) (l : List SetpointPair) :
    (s.setSph l).beginTransmission = s.beginTransmission.setSph l := by
  unfold State.beginTransmission
  rw [State.clp_setSph, State.rq_setSph]
  split <;> rfl

theorem State.meetTransmission_setSph (s : State) (f : Report → Bool) (l : List SetpointPair) :
    (s.setSph l).meetTransmission f = (s.meetTransmission f).setSph l := by
  show (if s.clp.tx = none ∧ (s.rq.head?.any f) = true then
    (if Config.transmissionBeganFirst s.freeCount then (s.setSph l).beginTransmission else s.setSph l).setFreeCount (s.freeCount + 1)
    else s.setSph l) = _
  rw [State.beginTransmission_setSph, State.setSph_ite]
  unfold State.meetTransmission
  split <;> rfl

theorem State.offerAlarm_setSph (s : State) (c : ChannelNo) (active latched : ClassSet) (a : Action) (l : List SetpointPair) :
    (s.setSph l).offerAlarm c active latched a = (s.offerAlarm c active latched a).setSph l := by
  unfold State.offerAlarm
  dsimp only
  rw [State.meetTransmission_setSph]
  rfl

theorem State.offerPart_setSph (s : State) (e : PartEvent) (l : List SetpointPair) :
    (s.setSph l).offerPart e = (s.offerPart e).setSph l := by
  unfold State.offerPart
  dsimp only
  rw [State.meetTransmission_setSph]
  rfl

theorem Unseeing.setGoal (c : ChannelNo) (goal : Option Code) : Unseeing fun s => s.setGoal c goal :=
  fun s b => s.beside_setGoal b c goal

theorem State.actionChanged_setSph (s : State) (c : ChannelNo) (a : Action) (l : List SetpointPair) :
    (s.setSph l).actionChanged c a = (s.actionChanged c a).setSph l := by
  have hgoal : ∀ goal, (s.setSph l).setGoal c goal = (s.setGoal c goal).setSph l := fun goal => (Unseeing.setGoal c goal).setSph s l
  have hbegin : (s.setSph l).beginIsolation c = (s.beginIsolation c).setSph l := rfl
  have hunder : (s.setSph l).goalUnder c a = s.goalUnder c a := by cases a <;> rfl
  unfold State.actionChanged
  rw [hgoal, hbegin, hunder, State.ch_setSph]
  cases (s.ch c).drive with
  | moving | steady | releasing => exact State.setSph_ite _ _ _ _
  | off | stopping | isolating | isolated => rfl

theorem State.setActive_setSph (s : State) (c : ChannelNo) (active : ClassSet) (l : List SetpointPair) :
    (s.setSph l).setActive c active = (s.setActive c active).setSph l := by
  by_cases h : active = (s.ch c).active
  · rw [h, State.setActive_self]
    exact State.setActive_self (s.setSph l) c
  · have hact : (s.setSph l).activated c active = (s.activated c active).setSph l := by
      show (if effectiveAction (s.entry c) active = (s.ch c).action then _ else
        ((s.modCh c (ChannelCtx.activeSet (s.entry c) active)).setSph l).actionChanged c _) = _
      rw [State.actionChanged_setSph]
      exact State.setSph_ite (effectiveAction (s.entry c) active = (s.ch c).action)
        (s.modCh c (ChannelCtx.activeSet (s.entry c) active)) _ l
    rw [State.setActive_of_ne (s := s.setSph l) h, State.setActive_of_ne h, hact, State.offerAlarm_setSph]
    exact State.setSph_ite _ _ _ _

theorem State.setpointNotice_setSph (s : State) (l : List SetpointPair) : (s.setSph l).setpointNotice = s.setpointNotice.setSph l := by
  have hleaves : ∀ (cs : List ChannelNo) (v : State), cs.foldl State.silenceLeaves (v.setSph l) = (cs.foldl State.silenceLeaves v).setSph l := by
    intro cs
    induction cs with
    | nil => exact fun _ => rfl
    | cons c cs ih => exact fun v => (congrArg (cs.foldl State.silenceLeaves) (v.setActive_setSph c _ l)).trans (ih _)
  have hends : (s.setSph l).silenceEnds = s.silenceEnds.setSph l := by
    unfold State.silenceEnds
    rw [← State.offerPart_setSph, ← hleaves]
    rfl
  unfold State.setpointNotice
  rw [hends, State.act_setSph]
  cases s.act.state <;> rfl

/-! ### A frame is the sequence of its pairs -/

theorem State.takePair_mgx (s : State) (p : SetpointPair) :
    (s.takePair p).mgx.mode = s.mgx.mode ∧ (s.takePair p).mgx.config = s.mgx.config := by
  unfold State.takePair
  split
  · exact ⟨rfl, rfl⟩
  · split
    · next c _ _ =>
      rw [State.applySetpoint_eq, (State.Drives.targetNotice _ c).frame.units.2.2.1]
      exact ⟨rfl, rfl⟩
    · exact ⟨rfl, rfl⟩

theorem State.takePairs_mgx (l : List SetpointPair) (s : State) :
    (l.foldl State.takePair s).mgx.mode = s.mgx.mode ∧ (l.foldl State.takePair s).mgx.config = s.mgx.config :=
  foldl_kept (P := fun v : State => v.mgx.mode = s.mgx.mode ∧ v.mgx.config = s.mgx.config)
    (fun v p h => ⟨(v.takePair_mgx p).1.trans h.1, (v.takePair_mgx p).2.trans h.2⟩) _ ⟨rfl, rfl⟩

/-- The notice of a frame leaves the part in QUIET with the silence timer started (R141, R143). -/
theorem State.setpointNotice_frame (s : State) : s.setpointNotice.act = ⟨.quiet, s.silenceStart⟩ ∧
    s.setpointNotice.clp.rx = s.clp.rx ∧ s.setpointNotice.mgx = s.mgx := by
  unfold State.setpointNotice
  split
  · exact ⟨rfl, rfl, rfl⟩
  · have hleaves := foldl_kept (f := State.silenceLeaves)
      (P := fun v : State => v.act = ⟨.quiet, s.silenceStart⟩ ∧ v.clp.rx = s.clp.rx ∧ v.mgx = s.mgx)
      (fun v c h => by
        have honly := v.setActive_onlyChannel c { (v.ch c).active with silence := false }
        exact ⟨honly.units.1.trans h.1, honly.link.1.trans h.2.1, honly.units.2.2.1.trans h.2.2⟩)
      channelsAscending (a := s.setAct ⟨.quiet, s.silenceStart⟩) ⟨rfl, rfl, rfl⟩
    have hoffer := State.offerPart_onlyReports (channelsAscending.foldl State.silenceLeaves (s.setAct ⟨.quiet, s.silenceStart⟩)) .silenceOff
    exact ⟨hoffer.units.1.trans hleaves.1, hoffer.link.1.trans hleaves.2.1, hoffer.units.2.2.1.trans hleaves.2.2⟩

theorem State.applyPairs_setSph (s : State) (l : List SetpointPair) (q : SetpointPair) (rest : List SetpointPair) :
    (s.setSph l).applyPairs (q :: rest) = s.applyPairs (q :: rest) := by
  unfold State.applyPairs
  dsimp only
  rw [(Unseeing.takePairs _).setSph s l, State.setSph_setSph]

theorem State.applyPairs_beginTransmission (s : State) (q : SetpointPair) (rest : List SetpointPair) :
    s.beginTransmission.applyPairs (q :: rest) = (s.applyPairs (q :: rest)).beginTransmission := by
  unfold State.applyPairs
  dsimp only
  rw [(Unseeing.takePairs _).beginTransmission s, State.beginTransmission_setSph]

theorem State.beginTransmission_twice (s : State) : s.beginTransmission.beginTransmission = s.beginTransmission :=
  State.beginTransmission_of_law (State.beginTransmission_law s)

theorem State.rxReady_self (h : s.clp.rx = .ready) : s.rxReady = s := by
  rw [State.rxReady, ← h]
  rfl

/-- The state with the pairs that wait applied and the frame's notice given. -/
def State.frameNoticed (s : State) : State := (s.sph.foldl State.takePair s.rxReady).setpointNotice

theorem State.takeSetpoints_run (h : s.mgx.mode = .run) (pairs : List SetpointPair) :
    s.rxReady.takeSetpoints pairs = s.frameNoticed.applyPairs pairs := by
  have h' : s.rxReady.mgx.mode = .run := h
  rw [State.takeSetpoints, h']
  rfl

theorem exec_setpointFrame_cons (hrx : s.clp.rx ≠ .hunt) (p : SetpointPair) {rest : List SetpointPair} (hlen : rest.length ≤ 7) :
    exec (.setpointFrame (p :: rest)) s = (s.rxReady.takeSetpoints (p :: rest)).done := by
  have hdue : (s.clp.rx.takesFrames && (Instr.setpointFrame (p :: rest)).wf) = true := by
    rw [RxState.takesFrames_of_ne hrx, Bool.true_and]
    exact decide_eq_true (Nat.succ_le_succ hlen)
  show s.event _ (fun s => s.rxReady.takeSetpoints (p :: rest)) = _
  rw [hdue]
  rfl

theorem exec_setpointFrame_nil (h : s.sph ≠ []) : exec (.setpointFrame []) s = (s.applyPairs s.sph).done := by
  have hdue : (!s.sph.isEmpty) = true := by
    cases hs : s.sph with
    | nil => exact absurd hs h
    | cons => rfl
  show s.event _ (fun s => s.applyPairs s.sph) = _
  rw [hdue]
  rfl

/-- The notice of a second frame finds the first one's. -/
theorem State.frameNoticed_again (hsph : s.sph = []) (hrx : s.clp.rx = .ready) (hact : s.act = ⟨.quiet, s.silenceStart⟩) :
    s.frameNoticed = s := by
  rw [State.frameNoticed, hsph, State.rxReady_self hrx]
  show s.setpointNotice = s
  rw [State.setpointNotice, hact]
  show s.setAct _ = s
  rw [State.setAct, ← hact]

/-- The part after a frame of one pair, taken in RUN. -/
def State.afterPair (s : State) (p : SetpointPair) : State := ((s.frameNoticed.takePair p).setSph []).beginTransmission

theorem State.afterPair_eq (hrun : s.mgx.mode = .run) (p : SetpointPair) :
    (s.rxReady.takeSetpoints [p]).beginTransmission = s.afterPair p := by
  rw [State.takeSetpoints_run hrun, State.applyPairs_whole _ fun q hq => by cases hq]
  rfl

/-- What a second frame finds of the first one. -/
theorem State.afterPair_frame (s : State) (p : SetpointPair) : (s.afterPair p).clp.rx = .ready ∧
    (s.afterPair p).mgx.mode = s.mgx.mode ∧ (s.afterPair p).sph = [] ∧ (s.afterPair p).act = ⟨.quiet, (s.afterPair p).silenceStart⟩ := by
  obtain ⟨hact, hrx, hmgx⟩ := State.setpointNotice_frame (s.sph.foldl State.takePair s.rxReady)
  obtain ⟨hclp, -, -, -⟩ := (Unseeing.takePairs s.sph).untouched s.rxReady
  obtain ⟨hmode, hconfig⟩ := State.takePairs_mgx s.sph s.rxReady
  obtain ⟨hpclp, hpact, -, -⟩ := (Unseeing.takePair p).untouched s.frameNoticed
  obtain ⟨hpmode, hpconfig⟩ := s.frameNoticed.takePair_mgx p
  have hbegin : ((s.frameNoticed.takePair p).setSph []).OnlyReports (s.afterPair p) := State.beginTransmission_onlyReports _
  have hmode' : (s.afterPair p).mgx.mode = s.mgx.mode := by
    rw [hbegin.units.2.2.1]
    exact hpmode.trans ((congrArg Executor.mode hmgx).trans hmode)
  have hconfig' : (s.afterPair p).mgx.config = s.mgx.config := by
    rw [hbegin.units.2.2.1]
    exact hpconfig.trans ((congrArg Executor.config hmgx).trans hconfig)
  have hstart : (s.sph.foldl State.takePair s.rxReady).silenceStart = (s.afterPair p).silenceStart := by
    unfold State.silenceStart
    rw [hmode', hconfig', hmode, hconfig]
    rfl
  refine ⟨?_, hmode', hbegin.pairs, ?_⟩
  · rw [hbegin.link.1]
    exact (congrArg LinkPort.rx hpclp).trans (hrx.trans (congrArg LinkPort.rx hclp))
  · rw [hbegin.units.1, ← hstart]
    exact hpact.trans hact

theorem Unseeing.latchDiscard (channel : Byte) : Unseeing fun s => s.latchDiscard channel := fun _ _ => rfl

/-- The first pair of a frame whose second does not wait (R10, R18). -/
theorem exec_setpointFrame_next {rest : List SetpointPair} (hrx : s.clp.rx ≠ .hunt) (hlen : rest.length ≤ 6) (hq : q.waits = false) :
    ∃ t, exec (.setpointFrame [p]) s = .next t ∧ exec (.setpointFrame (p :: q :: rest)) s = exec (.setpointFrame (q :: rest)) t := by
  refine ⟨_, exec_setpointFrame_cons hrx p (Nat.zero_le 7), ?_⟩
  rw [exec_setpointFrame_cons (rest := q :: rest) hrx p (Nat.succ_le_succ hlen)]
  cases hmode : s.mgx.mode with
  | run =>
    obtain ⟨hready, hmode', hsph, hact⟩ := s.afterPair_frame p
    rw [State.afterPair_eq hmode, exec_setpointFrame_cons (by rw [hready]; decide) q (Nat.le_succ_of_le hlen),
      State.takeSetpoints_run hmode, State.takeSetpoints_run (hmode'.trans hmode), State.frameNoticed_again hsph hready hact,
      State.applyPairs_goes_on _ _ _ hq, State.afterPair, State.applyPairs_beginTransmission, State.applyPairs_setSph]
    exact congrArg Host.Outcome.next (State.beginTransmission_twice _).symm
  | loading =>
    have htake : ∀ (v : State) (l : List SetpointPair), v.mgx.mode = .loading → v.rxReady.takeSetpoints l = v.rxReady.latchDiscard 255 :=
      fun v l hv => by
        have hv' : v.rxReady.mgx.mode = .loading := hv
        rw [State.takeSetpoints, hv']
    have hbegin := (s.rxReady.latchDiscard 255).beginTransmission_onlyReports
    have hready : (s.rxReady.latchDiscard 255).beginTransmission.clp.rx = .ready := hbegin.link.1
    have hmode' : (s.rxReady.latchDiscard 255).beginTransmission.mgx.mode = .loading := by
      rw [hbegin.units.2.2.1]
      exact hmode
    rw [htake s _ hmode, htake s _ hmode, exec_setpointFrame_cons (by rw [hready]; decide) q (Nat.le_succ_of_le hlen), htake _ _ hmode',
      State.rxReady_self hready, (Unseeing.latchDiscard 255).beginTransmission]
    exact congrArg Host.Outcome.next (State.beginTransmission_twice _).symm

/-- The first pair of a frame whose second waits (R18). -/
theorem exec_setpointFrame_waits {rest : List SetpointPair} (hrx : s.clp.rx ≠ .hunt) (hrun : s.mgx.mode = .run) (hlen : rest.length ≤ 6)
    (hq : q.waits = true) : ∃ t, exec (.setpointFrame [p]) s = .next t ∧
      exec (.setpointFrame (p :: q :: rest)) s = .next { t with sph := q :: rest } := by
  refine ⟨_, exec_setpointFrame_cons hrx p (Nat.zero_le 7), ?_⟩
  rw [exec_setpointFrame_cons (rest := q :: rest) hrx p (Nat.succ_le_succ hlen), State.takeSetpoints_run hrun, State.applyPairs_waits _ _ _ hq,
    State.afterPair_eq hrun, State.afterPair]
  refine congrArg Host.Outcome.next ?_
  rw [State.beginTransmission_setSph, State.beginTransmission_setSph]
  rfl

/-- A transmission begins beside another receiver state, silence record and list of waiting pairs. -/
theorem State.beginTransmission_beside (s : State) (x : RxState) (a : SilenceRecord) (l : List SetpointPair) :
    (s.beside ⟨{ s.clp with rx := x }, a, s.rq, l⟩).beginTransmission =
      s.beginTransmission.beside ⟨{ s.beginTransmission.clp with rx := x }, a, s.beginTransmission.rq, l⟩ := by
  by_cases htx : s.clp.tx = none
  · rw [State.beginTransmission_of_idle htx, State.beginTransmission_of_idle (by exact htx)]
    rfl
  · rw [State.beginTransmission_of_law (s := s) fun h => absurd h htx]
    exact State.beginTransmission_of_law fun h => absurd h htx

/-- The last pair that waits (R18): it needs neither a receiver nor a frame's notice. -/
theorem exec_setpointFrame_waiting (hrun : s.mgx.mode = .run) (hquiet : s.act.state = .quiet) (hsph : s.sph = [p]) :
    ∃ t, exec (.setpointFrame [p]) { s with sph := [], clp := { s.clp with rx := .ready } } = .next t ∧
      exec (.setpointFrame []) s = .next { t with act := s.act, clp := { t.clp with rx := s.clp.rx } } := by
  obtain ⟨hclp, hact, hrq, -⟩ := (Unseeing.takePair p).untouched s
  have hfirst := exec_setpointFrame_quiet (s := { s with sph := [], clp := { s.clp with rx := .ready } }) rfl
    (by exact (by decide : RxState.ready ≠ .hunt)) hrun hquiet p
  have hone : s.applyPairs [p] = (s.takePair p).setSph [] := State.applyPairs_whole _ fun q hq => by cases hq
  refine ⟨_, hfirst, ?_⟩
  rw [exec_setpointFrame_nil (by rw [hsph]; exact List.cons_ne_nil _ _), hsph, hone]
  refine congrArg Host.Outcome.next ?_
  have hbeside : (s.frameAccepted.setSph []).takePair p =
      (s.takePair p).beside ⟨{ (s.takePair p).clp with rx := .ready }, ⟨.quiet, s.silenceStart⟩, (s.takePair p).rq, []⟩ := by
    rw [hclp, hrq]
    exact s.beside_takePair ⟨{ s.clp with rx := .ready }, ⟨.quiet, s.silenceStart⟩, s.rq, []⟩ p
  have hbegin := ((s.takePair p).setSph []).beginTransmission_onlyReports
  show ((s.takePair p).setSph []).beginTransmission = State.beside (((s.frameAccepted.setSph []).takePair p).setSph []).beginTransmission
    ⟨{ (((s.frameAccepted.setSph []).takePair p).setSph []).beginTransmission.clp with rx := s.clp.rx }, s.act,
      (((s.frameAccepted.setSph []).takePair p).setSph []).beginTransmission.rq,
      (((s.frameAccepted.setSph []).takePair p).setSph []).beginTransmission.sph⟩
  have hsecond : (((s.frameAccepted.setSph []).takePair p).setSph []).beginTransmission =
      ((s.takePair p).setSph []).beginTransmission.beside
        ⟨{ ((s.takePair p).setSph []).beginTransmission.clp with rx := .ready }, ⟨.quiet, s.silenceStart⟩,
          ((s.takePair p).setSph []).beginTransmission.rq, []⟩ := by
    rw [hbeside]
    exact State.beginTransmission_beside ((s.takePair p).setSph []) .ready ⟨.quiet, s.silenceStart⟩ []
  have hrx : ((s.takePair p).setSph []).beginTransmission.clp.rx = s.clp.rx := hbegin.link.1.trans (congrArg LinkPort.rx hclp)
  have hact' : ((s.takePair p).setSph []).beginTransmission.act = s.act := hbegin.units.1.trans hact
  have hsph' : ((s.takePair p).setSph []).beginTransmission.sph = [] := hbegin.pairs
  rw [hsecond]
  generalize ((s.takePair p).setSph []).beginTransmission = w at hrx hact' hsph'
  show w = w.beside ⟨{ w.clp with rx := s.clp.rx }, s.act, w.rq, []⟩
  rw [← hrx, ← hact', ← hsph']
  rfl

/-- The pairs that wait, one after another (R18). -/
theorem exec_setpointFrame_waitingRest (p q : SetpointPair) (rest : List SetpointPair) (s : State) :
    ∃ t, exec (.setpointFrame []) { s with sph := [p] } = .next t ∧
      exec (.setpointFrame []) { s with sph := p :: q :: rest } =
        if q.waits then .next { t with sph := q :: rest } else exec (.setpointFrame []) { t with sph := q :: rest } := by
  have hone : (s.setSph [p]).applyPairs [p] = (s.takePair p).setSph [] := by
    rw [State.applyPairs_setSph]
    exact State.applyPairs_whole _ fun q hq => by cases hq
  refine ⟨((s.takePair p).setSph []).beginTransmission, ?_, ?_⟩
  · exact (exec_setpointFrame_nil (s := s.setSph [p]) (List.cons_ne_nil _ _)).trans (congrArg State.done hone)
  · refine (exec_setpointFrame_nil (s := s.setSph (p :: q :: rest)) (List.cons_ne_nil _ _)).trans ?_
    show ((s.setSph (p :: q :: rest)).applyPairs (p :: q :: rest)).done = _
    rw [State.applyPairs_setSph]
    cases hq : q.waits with
    | true =>
      rw [State.applyPairs_waits _ _ _ hq, if_pos rfl]
      refine congrArg Host.Outcome.next ?_
      rw [State.beginTransmission_setSph, State.beginTransmission_setSph]
      rfl
    | false =>
      rw [State.applyPairs_goes_on _ _ _ hq, if_neg (by decide)]
      refine Eq.trans ?_ (exec_setpointFrame_nil (s := ((s.takePair p).setSph []).beginTransmission.setSph (q :: rest))
        (List.cons_ne_nil _ _)).symm
      show _ = ((((s.takePair p).setSph []).beginTransmission.setSph (q :: rest)).applyPairs (q :: rest)).done
      rw [State.applyPairs_setSph, State.applyPairs_beginTransmission, State.applyPairs_setSph]
      exact congrArg Host.Outcome.next (State.beginTransmission_twice _).symm

/-- What waits of an earlier frame comes before a new frame (R18). -/
theorem exec_setpointFrame_afterWaiting {pairs : List SetpointPair} (hlaw : s.TransmitterLaw) (hrx : s.clp.rx ≠ .hunt)
    (hrun : s.mgx.mode = .run) (hone : 1 ≤ pairs.length) (hlen : pairs.length ≤ 8) :
    ∃ t, exec (.setpointFrame []) { s with sph := s.sph.map fun q => { q with waits := false } } = .next t ∧
      exec (.setpointFrame pairs) s = exec (.setpointFrame pairs) t := by
  obtain ⟨p, rest, rfl⟩ := List.exists_cons_of_length_pos hone
  obtain ⟨hclp, -, hrq, -⟩ := (Unseeing.takePairs s.sph).untouched s
  obtain ⟨hmode, -⟩ := State.takePairs_mgx s.sph s
  refine ⟨(s.sph.foldl State.takePair s).setSph [], ?_, ?_⟩
  · have hlaw' : ((s.sph.foldl State.takePair s).setSph []).TransmitterLaw := hlaw.congr (congrArg LinkPort.tx hclp) hrq
    cases hl : s.sph with
    | nil => rfl
    | cons q l =>
      rw [hl] at hlaw'
      rw [← State.done_of_law hlaw']
      have hwhole : s.applyPairs (({ q with waits := false } : SetpointPair) :: l.map fun q => { q with waits := false }) =
          ((q :: l).foldl State.takePair s).setSph [] := by
        rw [State.applyPairs_whole _ fun q' hq' => by obtain ⟨q, -, rfl⟩ := List.mem_map.mp hq'; rfl, List.foldl_cons, List.foldl_map]
        rfl
      rw [← hwhole, List.map_cons]
      refine (exec_setpointFrame_nil (List.cons_ne_nil _ _)).trans (congrArg State.done ?_)
      exact s.applyPairs_setSph _ _ _
  · have hready : (s.sph.foldl State.takePair s.rxReady) = (s.sph.foldl State.takePair s).rxReady := (Unseeing.takePairs s.sph).setRx s .ready
    rw [exec_setpointFrame_cons hrx p (Nat.le_of_succ_le_succ hlen),
      exec_setpointFrame_cons (s := (s.sph.foldl State.takePair s).setSph []) (by rw [State.clp_setSph, hclp]; exact hrx) p
        (Nat.le_of_succ_le_succ hlen), State.takeSetpoints_run hrun, State.takeSetpoints_run (by exact hmode.trans hrun), State.frameNoticed, hready]
    show _ = ((((s.sph.foldl State.takePair s).rxReady.setSph []).setpointNotice).applyPairs (p :: rest)).done
    rw [State.setpointNotice_setSph, State.applyPairs_setSph]

/-! ### What the pair of a frame does to a channel -/

theorem ChannelCtx.aimedAt_of_moving {y : ChannelCtx} (h : y.drive = .moving) (k : Code) : y.aimedAt k = { y with goal := some k } := by
  rw [ChannelCtx.aimedAt, ← h]

/-- The outgoing reports of a frame that places none. -/
theorem State.outgoing_of_same (htx : t.clp.tx = s.clp.tx) (hrq : t.rq = s.rq) : t.outgoing = s.outgoing := by
  rw [State.outgoing, htx, hrq]
  rfl

/-- A pair that meets a queued WRITE in MOVING (R25, R48). -/
theorem exec_setpointFrame_queued {g code : Code} {y : ChannelCtx} (hlaw : s.TransmitterLaw) (hsph : s.sph = []) (hrx : s.clp.rx ≠ .hunt)
    (hrun : s.mgx.mode = .run) (hquiet : s.act.state = .quiet) (hc : p.channel.toNat = c.val) (hd : (s.ch c).drive = .moving)
    (ha : (s.ch c).action = .none) (hw : s.oq.hasWrite c = true) (hi : s.oq.hasIsolate c = false) (hg : (s.ch c).goal = some g)
    (hcode : code = (calibrate (s.entry c) p.data).1) (hy : y = (s.ch c).targeted (s.entry c) p.data (s.pru.state == .applying)) :
    ∃ t, exec (.setpointFrame [p]) s = .next t ∧ (code = g → t.ch c = y ∧ t.oq = s.oq) ∧
      (code ≠ g → (s.entry c).slewStep ≠ 0 → s.mgx.slewBypass = false → t.ch c = { y with goal := some code } ∧ t.oq = s.oq) ∧
      (code ≠ g → (s.entry c).slewStep = 0 ∨ s.mgx.slewBypass = true →
        t.ch c = { y with goal := some code, sent := some code } ∧ t.oq = s.oq.recoded c code) ∧
      t.outgoing = s.outgoing ∧ State.OnlyChannel c s { t with clp := { t.clp with rx := s.clp.rx }, act := s.act } := by
  obtain ⟨hexec, hclp, hrq, -, honly⟩ := exec_setpointFrame_applied (p := p) hlaw hsph hrx hrun hquiet hc (by rw [hd]; rfl)
  have hch := s.pairTargeted_ch c p.data
  subst hcode
  rw [← hy] at hch
  have hgoal : y.goal = some g := by rw [hy]; exact hg
  have hmoving : y.drive = .moving := by rw [hy]; exact hd
  have hdriving := State.pairApplied_driving (s := s) (c := c) ha (Or.inl hd) p.data
  have hset := fun hne => State.setGoal_queued (s := s.pairTargeted c p.data) (c := c) (k := (calibrate (s.entry c) p.data).1)
    (Or.inl (by rw [hch]; exact hmoving)) (by rw [hch, hgoal]; exact hne) hi hw
  refine ⟨_, hexec, fun heq => ?_, fun hne h1 h2 => ?_, fun hne hun => ?_, State.outgoing_of_same (by rw [hclp]; rfl) hrq, honly⟩
  all_goals
    show (s.pairApplied c p.data).ch c = _ ∧ (s.pairApplied c p.data).oq = _
    rw [hdriving]
  · rw [State.setGoal_same (by rw [hch, hgoal, heq]), hch]
    exact ⟨rfl, rfl⟩
  · rw [hset fun h => hne (Option.some.inj h).symm, s.pairTargeted_unslewed, if_neg (State.not_unslewed h1 h2), State.aimedAt_ch, hch,
      ChannelCtx.aimedAt_of_moving hmoving]
    exact ⟨rfl, rfl⟩
  · rw [hset fun h => hne (Option.some.inj h).symm, s.pairTargeted_unslewed, if_pos ((s.unslewed_iff c).mpr hun), State.ch_modCh_self,
      State.ch_setOq, hch, ChannelCtx.aimedAt_of_moving hmoving]
    exact ⟨rfl, rfl⟩

/-- A pair that meets a WRITE in flight in MOVING (R25, R53). -/
theorem exec_setpointFrame_inFlight {code : Code} {y : ChannelCtx} (hlaw : s.TransmitterLaw) (hsph : s.sph = []) (hrx : s.clp.rx ≠ .hunt)
    (hrun : s.mgx.mode = .run) (hquiet : s.act.state = .quiet) (hc : p.channel.toNat = c.val) (hd : (s.ch c).drive = .moving)
    (ha : (s.ch c).action = .none) (hq : s.oq.hasEntry c = false) (hflight : s.writeInFlight c = true)
    (hcode : code = (calibrate (s.entry c) p.data).1)
    (hy : y = { (s.ch c).targeted (s.entry c) p.data (s.pru.state == .applying) with goal := some code }) :
    ∃ t, exec (.setpointFrame [p]) s = .next t ∧ t.oq = s.oq ∧ t.fbc = s.fbc ∧
      t.ch c = (if (s.ch c).goal ≠ some code ∧ ((s.entry c).slewStep = 0 ∨ s.mgx.slewBypass = true) ∧ s.writeJustGranted c = true
        then { y with sent := some code } else y) ∧
      t.outgoing = s.outgoing ∧ State.OnlyChannel c s { t with clp := { t.clp with rx := s.clp.rx }, act := s.act } := by
  obtain ⟨hexec, hclp, hrq, hfbc, honly⟩ := exec_setpointFrame_applied (p := p) hlaw hsph hrx hrun hquiet hc (by rw [hd]; rfl)
  have hch := s.pairTargeted_ch c p.data
  subst hcode
  have hmoving : ((s.ch c).targeted (s.entry c) p.data (s.pru.state == .applying)).drive = .moving := hd
  have hdriving := State.pairApplied_driving (s := s) (c := c) ha (Or.inl hd) p.data
  have hwork : s.hasWork c = true := by rw [State.hasWork, hflight, Bool.or_true, Bool.true_or]
  have hboth : (s.pairApplied c p.data).ch c =
      (if (s.ch c).goal ≠ some (calibrate (s.entry c) p.data).1 ∧ ((s.entry c).slewStep = 0 ∨ s.mgx.slewBypass = true) ∧
        s.writeJustGranted c = true then { y with sent := some (calibrate (s.entry c) p.data).1 } else y) ∧
      (s.pairApplied c p.data).oq = s.oq := by
    rw [hdriving]
    by_cases heq : (s.ch c).goal = some (calibrate (s.entry c) p.data).1
    · rw [State.setGoal_same (by rw [hch]; exact heq), hch, if_neg fun h => h.1 heq, hy, ← heq]
      exact ⟨rfl, rfl⟩
    · rw [State.setGoal_inFlight (s := s.pairTargeted c p.data) (Or.inl (by rw [hch]; exact hmoving)) (by rw [hch]; exact heq) hq ((s.pairTargeted_hasWork c _).trans hwork),
        s.pairTargeted_unslewed, s.pairTargeted_writeJustGranted]
      simp only [State.unslewed_iff, ne_eq, heq, not_false_eq_true, true_and]
      split
      · rw [State.ch_modCh_self, hch, ChannelCtx.aimedAt_of_moving hmoving, hy]
        exact ⟨rfl, rfl⟩
      · rw [State.aimedAt_ch, hch, ChannelCtx.aimedAt_of_moving hmoving, hy]
        exact ⟨rfl, rfl⟩
  exact ⟨_, hexec, hboth.2, hfbc, hboth.1, State.outgoing_of_same (by rw [hclp]; rfl) hrq, honly⟩

/-- Settles O60: a frame is the sequence of its pairs, and a pair's effect by the channel's state. -/
theorem setpointFrameAppliesItsPairsInOrder : Obligations.SetpointFrameAppliesItsPairsInOrder := by
  refine ⟨fun p q rest s hrx hlen hq => exec_setpointFrame_next hrx hlen hq,
    ⟨fun p q rest s hrx hrun hlen hq => exec_setpointFrame_waits hrx hrun hlen hq,
      fun p s hrun hquiet hsph => exec_setpointFrame_waiting hrun hquiet hsph, exec_setpointFrame_waitingRest,
      fun pairs s hlaw hrx hrun hone hlen => exec_setpointFrame_afterWaiting hlaw hrx hrun hone hlen⟩,
    fun p c s g code x hlaw hsph hrx hrun hquiet hc hd ha hw hi hg hcode hx =>
      exec_setpointFrame_queued hlaw hsph hrx hrun hquiet hc hd ha hw hi hg hcode (by rw [hx, ChannelCtx.targeted, ← hcode]),
    fun p c s hlaw hsph hrx hrun hquiet hc h => ?_,
    fun p c s code x hlaw hsph hrx hrun hquiet hc hd ha hq hflight hcode hx =>
      exec_setpointFrame_inFlight hlaw hsph hrx hrun hquiet hc hd ha hq hflight hcode (by rw [hx, ChannelCtx.targeted, ← hcode])⟩
  have htakes : (s.ch c).drive.takesSetpoints = true := by
    rcases h with ⟨h | h, -⟩ | h | h | h <;> rw [h] <;> rfl
  have hother : (s.ch c).action ≠ .none ∨ ((s.ch c).drive ≠ .moving ∧ (s.ch c).drive ≠ .steady) := by
    rcases h with ⟨-, h⟩ | h | h | h
    · exact Or.inl h
    all_goals exact Or.inr (by rw [h]; decide)
  obtain ⟨hexec, hclp, hrq, -, honly⟩ := exec_setpointFrame_applied (p := p) hlaw hsph hrx hrun hquiet hc htakes
  have happlied : s.pairApplied c p.data = s.pairTargeted c p.data := State.applySetpoint_other (s := s.frameAccepted) hother _ _
  refine ⟨_, hexec, ?_, ?_, State.outgoing_of_same (by rw [hclp]; rfl) hrq, honly⟩
  · show (s.pairApplied c p.data).ch c = _
    rw [happlied]
    exact s.pairTargeted_ch c p.data
  · show (s.pairApplied c p.data).oq = _
    rw [happlied]
    rfl

end Sys2Proof.Machine
end

