-- ==== Sys2Proof/Proofs/StepTimers.lean ====
section
/-! PROOF. The expiry of a channel's step timer (R29). -/

namespace Sys2Proof.Machine

variable {s t u v : State} {c : ChannelNo} {k : Code}

/-- A WRITE issued for a channel without a queued entry is appended (R27). -/
theorem State.issueWrite_of_noEntry (hq : s.oq.hasEntry c = false) (k : Code) (rc : Bool) : s.issueWrite c k rc =
    (s.setOq { s.oq with writes := s.oq.writes ++ [⟨c, k, rc⟩] }).modCh c fun y =>
      { y with sent := some k, stepTimer := .running (s.entry c).stepLength } :=
  congrArg (fun q => (s.setOq q).modCh c fun y => { y with sent := some k, stepTimer := .running (s.entry c).stepLength })
    (s.issueWrite_oq hq k rc)

/-- The context whose step timer has expired. -/
def ChannelCtx.stepExpired (y : ChannelCtx) : ChannelCtx := { y with stepTimer := .expired }

theorem State.stepExpired_ch (s : State) (c : ChannelNo) : (s.modCh c ChannelCtx.stepExpired).ch c = (s.ch c).stepExpired :=
  State.ch_modCh_self _ _ _

theorem State.issueWrite_stepExpired (hq : s.oq.hasEntry c = false) (k : Code) (rc : Bool) :
    (s.modCh c ChannelCtx.stepExpired).issueWrite c k rc = { s with
      ctx := s.ctx.set c.val { s.ch c with sent := some k, stepTimer := .running ((s.entry c).slewInterval.val * 1000) }
      oq := { s.oq with writes := s.oq.writes ++ [⟨c, k, rc⟩] } } := by
  rw [State.issueWrite_of_noEntry (by rw [State.oq_modCh]; exact hq)]
  exact State.modCh_modCh (s.setOq { s.oq with writes := s.oq.writes ++ [⟨c, k, rc⟩] }) c ChannelCtx.stepExpired _

theorem State.stepTimerExpired_moving (hd : (s.ch c).drive = .moving) :
    s.stepTimerExpired c = (s.modCh c ChannelCtx.stepExpired).stepTest c := by
  have hdrive : ((s.modCh c ChannelCtx.stepExpired).ch c).drive = .moving := by rw [s.stepExpired_ch]; exact hd
  unfold State.stepTimerExpired
  rw [show (s.modCh c fun x => { x with stepTimer := .expired }) = s.modCh c ChannelCtx.stepExpired from rfl]
  dsimp only
  rw [hdrive]

theorem State.stepTimerExpired_releasing (hd : (s.ch c).drive = .releasing) : s.stepTimerExpired c =
    if s.hasWork c then s.modCh c ChannelCtx.stepExpired else (s.modCh c ChannelCtx.stepExpired).issueReconnect c := by
  have hdrive : ((s.modCh c ChannelCtx.stepExpired).ch c).drive = .releasing := by rw [s.stepExpired_ch]; exact hd
  unfold State.stepTimerExpired
  rw [show (s.modCh c fun x => { x with stepTimer := .expired }) = s.modCh c ChannelCtx.stepExpired from rfl]
  dsimp only
  rw [hdrive]
  exact congrArg (fun b : Bool => if b then s.modCh c ChannelCtx.stepExpired else (s.modCh c ChannelCtx.stepExpired).issueReconnect c)
    (s.hasWork_modCh c c ChannelCtx.stepExpired)

/-- No step is due: the output rests, leaves or is isolated, or the channel's work goes on. -/
theorem State.stepTimerExpired_quiet (h : ((s.ch c).drive ≠ .moving ∧ (s.ch c).drive ≠ .releasing) ∨ s.hasWork c = true) :
    s.stepTimerExpired c = s.modCh c ChannelCtx.stepExpired := by
  by_cases hm : (s.ch c).drive = .moving
  · have hwork := h.resolve_left fun hn => hn.1 hm
    rw [State.stepTimerExpired_moving hm, State.stepTest_of_work ((s.hasWork_modCh c c _).trans hwork)]
  by_cases hr : (s.ch c).drive = .releasing
  · rw [State.stepTimerExpired_releasing hr, if_pos (h.resolve_left fun hn => hn.2 hr)]
  · have hdrive : ((s.modCh c ChannelCtx.stepExpired).ch c).drive = (s.ch c).drive := by rw [s.stepExpired_ch]; rfl
    unfold State.stepTimerExpired
    rw [show (s.modCh c fun x => { x with stepTimer := .expired }) = s.modCh c ChannelCtx.stepExpired from rfl]
    dsimp only
    cases hd : (s.ch c).drive with
    | moving => exact absurd hd hm
    | releasing => exact absurd hd hr
    | off | steady | stopping | isolating | isolated => rw [hdrive, hd]

/-- The step of a MOVING channel whose timer has expired (R26, R27). -/
theorem State.stepTimerExpired_step {goal : Code} (hd : (s.ch c).drive = .moving) (hw : s.hasWork c = false)
    (hk : (s.ch c).sent = some k) (hg : (s.ch c).goal = some goal) (hnot : ¬ ((s.ch c).applied = some k ∧ k = goal)) :
    s.stepTimerExpired c =
      (s.modCh c ChannelCtx.stepExpired).issueWrite c (stepCode (s.entry c) s.mgx.slewBypass k goal) false := by
  have hat : (s.ch c).stepExpired.atGoal = false := by
    rw [← Bool.not_eq_true]
    intro h
    simp only [ChannelCtx.atGoal, ChannelCtx.stepExpired, hk, hg, Bool.and_eq_true, beq_iff_eq, Option.some.injEq] at h
    exact hnot ⟨h.1.2, h.2⟩
  rw [State.stepTimerExpired_moving hd, State.stepTest_step (by rw [s.stepExpired_ch]; exact hd) ((s.hasWork_modCh c c _).trans hw)
    (by rw [s.stepExpired_ch]; exact hat) (by rw [s.stepExpired_ch]; rfl) (by rw [s.stepExpired_ch]; exact hk)
    (by rw [s.stepExpired_ch]; exact hg), State.entry_modCh, State.mgx_modCh]

theorem State.issueReconnect_stepExpired (s : State) (c : ChannelNo) : (s.modCh c ChannelCtx.stepExpired).issueReconnect c =
    (s.modCh c ChannelCtx.stepExpired).issueWrite c ((s.ch c).applied.getD (s.entry c).safeCode) true := by
  unfold State.issueReconnect State.rollbackCode
  rw [s.stepExpired_ch]
  rfl

theorem exec_stepTimerExpiry (hlaw : s.TransmitterLaw) (ht : (s.ch c).stepTimer.isRunning = true) :
    exec (.stepTimerExpiry c) s = .next (s.stepTimerExpired c) := by
  have hnext : (s.stepTimerExpired c).TransmitterLaw :=
    hlaw.congr (congrArg LinkPort.tx (State.Drives.stepTimerExpired s c).reports.1) (State.Drives.stepTimerExpired s c).reports.2
  show s.event (s.ch c).stepTimer.isRunning (fun s => s.stepTimerExpired c) = _
  rw [ht]
  exact State.event_of_law hnext

/-- Settles O55: the step in MOVING, the reconnecting write again in RELEASING, and nothing but the timer otherwise. -/
theorem stepTimerExpiryActsByState : Obligations.StepTimerExpiryActsByState := by
  intro c s hlaw ht
  rw [exec_stepTimerExpiry hlaw ht]
  refine ⟨fun k g hd hw hk hg hnot => ?_, fun hd hw => ?_, fun h => ?_⟩
  · rw [State.stepTimerExpired_step hd hw hk hg hnot, State.issueWrite_stepExpired (State.hasEntry_of_noWork hw)]
  · rw [State.stepTimerExpired_releasing hd, if_neg (by rw [hw]; decide), s.issueReconnect_stepExpired,
      State.issueWrite_stepExpired (State.hasEntry_of_noWork hw)]
  · have hquiet : ((s.ch c).drive ≠ .moving ∧ (s.ch c).drive ≠ .releasing) ∨ s.hasWork c = true := by
      rcases h with h | h | h | h | h
      · exact Or.inl (by rw [h]; decide)
      · exact Or.inl (by rw [h]; decide)
      · exact Or.inl (by rw [h]; decide)
      · exact Or.inl (by rw [h]; decide)
      · exact Or.inr h
    rw [State.stepTimerExpired_quiet hquiet]
    rfl

end Sys2Proof.Machine
end

