-- ==== Sys2Proof/Proofs/SlewBypass.lean ====
section
/-! PROOF. SLEW_BYPASS: the WRITE of every MOVING channel is given its goal (R30, R53). -/

namespace Sys2Proof.Machine

variable {s t u v : State} {c : ChannelNo} {k : Code} {l : List ChannelNo}

/-- A channel's entry, if it has one, is an ISOLATE or a WRITE, not both: what R48 needs of the queue. -/
def OutputQueue.Apart (q : OutputQueue) : Prop := ∀ c, q.hasWrite c = true → q.hasIsolate c = false

theorem State.OutputQueueLaw.apart (h : s.OutputQueueLaw) : s.oq.Apart := by
  intro c hw
  rw [← Bool.not_eq_true]
  intro hi
  obtain ⟨w, hmem, hch⟩ := (s.oq.hasWrite_iff c).mp hw
  exact List.disjoint_of_nodup_append h ((s.oq.hasIsolate_iff c).mp hi) (List.mem_map.mpr ⟨w, hmem, hch⟩)

/-- A queued WRITE when the channels of `l` are bypassed. -/
def State.bypassedWrite (s : State) (l : List ChannelNo) (w : WriteEntry) : WriteEntry :=
  if w.channel ∈ l ∧ (s.ch w.channel).drive = .moving then { w with code := (s.ch w.channel).goal.getD 0 } else w

/-- A channel's context when the channels of `l` are bypassed. -/
def State.bypassedCh (s : State) (l : List ChannelNo) (c : ChannelNo) : ChannelCtx :=
  if c ∈ l ∧ (s.ch c).drive = .moving ∧ (s.oq.hasWrite c = true ∨ s.writeJustGranted c = true)
  then { s.ch c with sent := (s.ch c).goal } else s.ch c

/-- What the bypass of the channels of `l` does. -/
structure State.Bypassed (l : List ChannelNo) (s t : State) : Prop where
  isolates : t.oq.isolates = s.oq.isolates
  writes : t.oq.writes = s.oq.writes.map (s.bypassedWrite l)
  contexts : ∀ c, t.ch c = s.bypassedCh l c
  rest : { t with ctx := s.ctx, oq := s.oq } = s

theorem State.bypassedWrite_channel (s : State) (l : List ChannelNo) (w : WriteEntry) : (s.bypassedWrite l w).channel = w.channel := by
  unfold State.bypassedWrite
  split <;> rfl

theorem State.bypassedCh_of_notMem (h : c ∉ l) : s.bypassedCh l c = s.ch c := if_neg fun hc => h hc.1

theorem State.bypassedCh_keeps (s : State) (l : List ChannelNo) (c : ChannelNo) :
    (s.bypassedCh l c).drive = (s.ch c).drive ∧ (s.bypassedCh l c).goal = (s.ch c).goal := by
  unfold State.bypassedCh
  split <;> exact ⟨rfl, rfl⟩

theorem State.Bypassed.hasWrite (h : State.Bypassed l s t) (c : ChannelNo) : t.oq.hasWrite c = s.oq.hasWrite c := by
  unfold OutputQueue.hasWrite
  rw [h.writes, List.any_map]
  exact congrArg s.oq.writes.any (funext fun w => by simp [WriteEntry.isOf, State.bypassedWrite_channel])

theorem State.Bypassed.apart (h : State.Bypassed l s t) (hs : s.oq.Apart) : t.oq.Apart := by
  intro c hw
  have hi := hs c (h.hasWrite c ▸ hw)
  unfold OutputQueue.hasIsolate at hi ⊢
  rw [h.isolates, hi]

theorem State.Bypassed.granted (h : State.Bypassed l s t) (c : ChannelNo) : t.writeJustGranted c = s.writeJustGranted c :=
  (congrArg (fun v : State => v.writeJustGranted c) h.rest : { t with ctx := s.ctx, oq := s.oq }.writeJustGranted c = _)

theorem State.Bypassed.nil (s : State) : State.Bypassed [] s s where
  isolates := rfl
  writes := by
    rw [show s.bypassedWrite [] = id from funext fun w => if_neg fun h => absurd h.1 List.not_mem_nil, List.map_id]
  contexts _ := (State.bypassedCh_of_notMem List.not_mem_nil).symm
  rest := rfl

/-- First one channel, then others. -/
theorem State.Bypassed.cons (h : State.Bypassed [c] s u) (h' : State.Bypassed l u t) (hc : c ∉ l) : State.Bypassed (c :: l) s t where
  isolates := h'.isolates.trans h.isolates
  writes := by
    rw [h'.writes, h.writes, List.map_map]
    refine List.map_congr_left fun w _ => ?_
    obtain ⟨hdrive, hgoal⟩ := s.bypassedCh_keeps [c] w.channel
    rw [Function.comp, State.bypassedWrite, State.bypassedWrite_channel, h.contexts, hdrive, hgoal]
    unfold State.bypassedWrite
    by_cases hm : (s.ch w.channel).drive = .moving
    · by_cases hw : w.channel = c
      · rw [if_neg fun h => hc (hw ▸ h.1), if_pos ⟨by rw [hw]; exact List.mem_singleton_self c, hm⟩,
          if_pos ⟨by rw [hw]; exact List.mem_cons_self, hm⟩]
      · rw [if_neg (c := w.channel ∈ [c] ∧ _) fun h => hw (List.mem_singleton.mp h.1)]
        simp only [List.mem_cons, hw, false_or]
    · rw [if_neg fun h => hm h.2, if_neg fun h => hm h.2, if_neg fun h => hm h.2]
  contexts d := by
    rw [h'.contexts]
    obtain ⟨hdrive, hgoal⟩ := s.bypassedCh_keeps [c] d
    by_cases hd : d = c
    · rw [State.bypassedCh_of_notMem (hd ▸ hc), h.contexts, hd]
      simp only [State.bypassedCh, List.mem_cons, true_or]
    · have hsame : u.ch d = s.ch d := by rw [h.contexts, State.bypassedCh_of_notMem (by rw [List.mem_singleton]; exact hd)]
      simp only [State.bypassedCh, List.mem_cons, hd, false_or, hsame, h.hasWrite, h.granted]
  rest := (congrArg (fun v : State => { v with ctx := s.ctx, oq := s.oq }) h'.rest : { t with ctx := s.ctx, oq := s.oq } = _).trans h.rest

theorem OutputQueue.recoded_of_noWrite {q : OutputQueue} (h : q.hasWrite c = false) (k : Code) : (q.recoded c k).writes = q.writes := by
  refine (List.map_congr_left fun w hw => if_neg fun hch => ?_).trans (List.map_id _)
  have := (q.hasWrite_iff c).mpr ⟨w, hw, hch⟩
  rw [h] at this
  exact absurd this (by decide)

theorem State.bypassChannel_of_still (h : (s.ch c).drive ≠ .moving) : s.bypassChannel c = s := by
  unfold State.bypassChannel
  cases hg : (s.ch c).goal with
  | none => rfl
  | some k => exact if_neg h

theorem State.bypassChannel_of_moving (hd : (s.ch c).drive = .moving) (hg : (s.ch c).goal = some k) :
    s.bypassChannel c = s.requestCode c k := by
  unfold State.bypassChannel
  rw [hg]
  exact if_pos hd

theorem State.bypassedWrite_singleton (hd : (s.ch c).drive = .moving) (hg : (s.ch c).goal = some k) (w : WriteEntry) :
    s.bypassedWrite [c] w = if w.channel = c then { w with code := k } else w := by
  unfold State.bypassedWrite
  by_cases hw : w.channel = c
  · rw [if_pos hw, if_pos ⟨by rw [hw]; exact List.mem_singleton_self c, by rw [hw]; exact hd⟩, hw, hg]
    rfl
  · rw [if_neg hw, if_neg fun h => hw (List.mem_singleton.mp h.1)]

/-- One channel (R30). -/
theorem State.bypassChannel_bypassed (hq : s.oq.Apart) (hgoal : (s.ch c).drive = .moving → (s.ch c).goal.isSome = true) :
    State.Bypassed [c] s (s.bypassChannel c) := by
  by_cases hd : (s.ch c).drive = .moving
  · obtain ⟨k, hg⟩ := Option.isSome_iff_exists.mp (hgoal hd)
    have hmem : ∀ d, d ∈ [c] ↔ d = c := fun d => List.mem_singleton
    rw [State.bypassChannel_of_moving hd hg]
    by_cases hw : s.oq.hasWrite c = true
    · rw [State.requestCode_queued (hq c hw) hw]
      refine ⟨rfl, List.map_congr_left fun w _ => (State.bypassedWrite_singleton hd hg w).symm, fun d => ?_, rfl⟩
      rw [State.ch_modCh, State.bypassedCh]
      by_cases h : d = c
      · rw [if_pos h, h, if_pos ⟨(hmem c).mpr rfl, hd, Or.inl hw⟩, ← hg]
        rfl
      · rw [if_neg h, if_neg fun hc => h ((hmem d).mp hc.1)]
        rfl
    · rw [Bool.not_eq_true] at hw
      have hwrites : s.oq.writes = s.oq.writes.map (s.bypassedWrite [c]) :=
        (OutputQueue.recoded_of_noWrite hw k).symm.trans (List.map_congr_left fun w _ => (State.bypassedWrite_singleton hd hg w).symm)
      rw [State.requestCode_unqueued hw]
      by_cases hj : s.writeJustGranted c = true
      · rw [if_pos hj]
        refine ⟨rfl, hwrites, fun d => ?_, rfl⟩
        rw [State.ch_modCh, State.bypassedCh]
        by_cases h : d = c
        · rw [if_pos h, h, if_pos ⟨(hmem c).mpr rfl, hd, Or.inr hj⟩, ← hg]
        · rw [if_neg h, if_neg fun hc => h ((hmem d).mp hc.1)]
      · rw [if_neg hj]
        refine ⟨rfl, hwrites, fun d => (if_neg fun h => ?_).symm, rfl⟩
        rw [(hmem d).mp h.1, hw] at h
        exact hj (h.2.2.resolve_left (by decide))
  · rw [State.bypassChannel_of_still hd]
    have hnot : ∀ d, ¬ (d ∈ [c] ∧ (s.ch d).drive = .moving) := fun d h => hd (List.mem_singleton.mp h.1 ▸ h.2)
    refine ⟨rfl, ?_, fun d => (if_neg fun h => hnot d ⟨h.1, h.2.1⟩).symm, rfl⟩
    rw [show s.bypassedWrite [c] = id from funext fun w => if_neg (hnot w.channel), List.map_id]

/-- The channels of a list, in its order (R30). -/
theorem foldl_bypassChannel : ∀ {l : List ChannelNo} {s : State}, l.Nodup → s.oq.Apart →
    (∀ c, (s.ch c).drive = .moving → (s.ch c).goal.isSome = true) → State.Bypassed l s (l.foldl State.bypassChannel s)
  | [], s, _, _, _ => .nil s
  | c :: l, s, hl, hq, hgoal => by
    have hfirst := State.bypassChannel_bypassed hq (hgoal c)
    refine hfirst.cons (foldl_bypassChannel (List.nodup_cons.mp hl).2 (hfirst.apart hq) fun d => ?_) (List.nodup_cons.mp hl).1
    rw [hfirst.contexts, (s.bypassedCh_keeps [c] d).1, (s.bypassedCh_keeps [c] d).2]
    exact hgoal d

/-- The state with the slew bypass set to `on`. -/
def State.withBypass (s : State) (on : Bool) : State := s.setMgx { s.mgx with slewBypass := on }

theorem State.setBypass_same {on : Bool} (h : s.mgx.slewBypass = on) : s.setBypass on = s := if_pos h

theorem State.setBypass_off (s : State) : s.setBypass false = s.withBypass false := by
  by_cases h : s.mgx.slewBypass = false
  · rw [State.setBypass_same h, State.withBypass, ← h]
    rfl
  · exact (if_neg h).trans rfl

theorem State.setBypass_on (h : s.mgx.slewBypass = false) :
    s.setBypass true = channelsAscending.foldl State.bypassChannel (s.withBypass true) :=
  (if_neg (by rw [h]; decide)).trans (if_pos rfl)

theorem State.OnlyReports.besideDrives (h : s.OnlyReports t) (ctx : Vector ChannelCtx 24) (q : OutputQueue) (m : Executor) :
    State.OnlyReports { s with ctx := ctx, oq := q, mgx := m } { t with ctx := ctx, oq := q, mgx := m } where
  link := h.link
  tables := h.tables
  channels := ⟨rfl, rfl⟩
  field := h.field
  units := ⟨h.units.1, h.units.2.1, rfl, h.units.2.2.2⟩
  waiting := h.waiting
  pairs := h.pairs

/-- Settles O34: off clears the setting; on gives each queued or just granted WRITE of a MOVING channel its goal. -/
theorem slewBypassCoalescesQueuedSteps : Obligations.SlewBypassCoalescesQueuedSteps := by
  intro tag rest s hlaw
  refine ⟨fun htakes => ?_, fun htakes hon => ?_, fun htakes hoff hq hgoal => ?_⟩
  · show execSlewBypassOff tag s = _
    exact State.takeCommand_respond_of (u := (s.withFrames rest).withBypass false) htakes hlaw
      (congrArg (fun v : State => v.respond tag cmdSlewBypass .ok []) (State.setBypass_off _)) rfl rfl
  · show execSlewBypassOn tag s = _
    exact State.takeCommand_respond htakes hlaw
      (congrArg (fun v : State => v.respond tag cmdSlewBypass .ok []) (State.setBypass_same (by exact hon)))
  · have hall : State.Bypassed channelsAscending ((s.withFrames rest).withBypass true) ((s.withFrames rest).setBypass true) := by
      rw [State.setBypass_on (by exact hoff)]
      exact foldl_bypassChannel channelsAscending_nodup hq.apart hgoal
    have hexec : exec (.slewBypassOn tag) s =
        .next (((s.withFrames rest).setBypass true).respond tag cmdSlewBypass .ok []).beginTransmission := by
      show execSlewBypassOn tag s = _
      exact State.takeCommand_of_takes htakes fun s => (s.setBypass true).respond tag cmdSlewBypass .ok []
    generalize (s.withFrames rest).setBypass true = u at hall hexec
    obtain ⟨hisolates, hwrites, hcontexts, hrest⟩ := hall
    have hreports := u.respond_onlyReports tag cmdSlewBypass .ok []
    have hmgx : u.mgx = { s.mgx with queue := rest, slewBypass := true } := (congrArg State.mgx hrest :)
    have hout : u.outgoing = s.outgoing := (congrArg State.outgoing hrest :)
    refine ⟨_, hexec, hreports.units.2.2.1.trans hmgx, ?_, ?_, fun c => ?_, ?_, ?_⟩
    · rw [hreports.channels.2, hisolates]
      rfl
    · rw [hreports.channels.2, hwrites]
      refine List.map_congr_left fun w _ => ?_
      simp only [State.bypassedWrite, mem_channelsAscending, true_and]
      rfl
    · rw [hreports.ch, hcontexts]
      simp only [State.bypassedCh, mem_channelsAscending, true_and]
      rfl
    · rw [u.respond_outgoing, hout]
      rfl
    · have hbeside := hreports.besideDrives s.ctx s.oq (s.withFrames rest).mgx
      rw [show { u with ctx := s.ctx, oq := s.oq, mgx := (s.withFrames rest).mgx } = s.withFrames rest from
        congrArg (fun v : State => { v with mgx := (s.withFrames rest).mgx }) hrest] at hbeside
      exact hbeside

end Sys2Proof.Machine
end

