-- ==== Sys2Proof/Proofs/FlushedChannels.lean ====
section
/-! PROOF. The channels of a flush, one after the other (R57, R58). -/

namespace Sys2Proof.Machine

variable {s t u v : State} {c d : ChannelNo} {k : Code} {l : List ChannelNo}

/-! ### The marks and the reports of the channels that stop -/

/-- The channel waits for its last WRITE (R39). -/
def State.stops (s : State) (c : ChannelNo) : Bool := (s.ch c).drive == .stopping

/-- A class of the alarm mask is active: an arrival at OFF offers an ALARM (R41). -/
def State.maskedActive (s : State) (c : ChannelNo) : Bool := ((s.ch c).active.inter (s.entry c).alarmMask).nonempty

/-- With the transmitter idle, no waiting report is an ALARM of a channel of `l`: no offer for one meets a transmission (R178). -/
def State.alarmsClear (l : List ChannelNo) (s : State) : Prop :=
  s.clp.tx = none → ∀ r ∈ s.rq, ∀ c ∈ l, Report.isAlarmOf c r = false

theorem State.TransmitterLaw.alarmsClear (h : s.TransmitterLaw) (l : List ChannelNo) : s.alarmsClear l := by
  intro htx r hr
  rw [h htx] at hr
  exact absurd hr List.not_mem_nil

theorem mem_alarmPlaced {rq : List Report} {r : Report} {active latched : ClassSet} {a : Action}
    (h : r ∈ alarmPlaced rq c active latched a) (hne : d ≠ c) (hrq : ∀ x ∈ rq, x.isAlarmOf d = false) : r.isAlarmOf d = false := by
  unfold alarmPlaced at h
  split at h
  · obtain ⟨x, hx, hr⟩ := List.mem_map.mp h
    rw [← hr, (x.rewriteAlarm_kinds c d active latched a).1]
    exact hrq x hx
  · rcases List.mem_append.mp h with h | h
    · exact hrq r h
    · rw [List.mem_singleton.mp h]
      exact beq_eq_false_iff_ne.mpr (Ne.symm hne)

theorem State.meetTransmission_of_clear (h : s.alarmsClear [c]) : s.meetTransmission (Report.isAlarmOf c) = s := by
  refine if_neg fun hm => ?_
  obtain ⟨htx, hhead⟩ := hm
  cases hq : s.rq with
  | nil =>
    rw [hq] at hhead
    exact Bool.false_ne_true hhead
  | cons r rest =>
    rw [hq] at hhead
    have := h htx r (by rw [hq]; exact List.mem_cons_self) c List.mem_cons_self
    rw [List.head?_cons, Option.any_some, this] at hhead
    exact absurd hhead (by decide)

/-- An arrival at OFF whose offer meets no transmission (R41). -/
theorem State.reachOff_of_clear (h : s.alarmsClear [c]) : s.reachOff c = (s.atOff c).setRq (s.offReports c) := by
  unfold State.reachOff State.offReports
  dsimp only
  split
  · exact congrArg (fun v : State => v.setRq (alarmPlaced v.rq c .empty .empty .none))
      (State.meetTransmission_of_clear (s := s.atOff c) (by exact h))
  · rfl

/-- The marks of several arrivals at OFF on the transaction in flight (R75). -/
theorem Transaction.foldl_markStale (x : Transaction) (l : List ChannelNo) :
    (l.foldl (fun x c => Transaction.markStale c x) x).job = x.job ∧
      ((l.foldl (fun x c => Transaction.markStale c x) x).stale = true ↔ x.stale = true ∨ ∃ c ∈ l, x.job.channel? = some c) := by
  induction l generalizing x with
  | nil => simp
  | cons c l ih =>
    obtain ⟨h1, h2⟩ := ih (x.markStale c)
    refine ⟨h1.trans (Transaction.markStale_job c x), h2.trans ?_⟩
    rw [Transaction.markStale_job, Transaction.markStale_stale, Bool.or_eq_true, decide_eq_true_eq, or_assoc]
    simp only [List.mem_cons, exists_eq_or_imp]

/-- The marks of several arrivals at OFF on a waiting POLL (R92). -/
theorem PollRequest.foldl_markStale (d : ChannelNo) (m : Bool) (l : List ChannelNo) :
    l.foldl (fun p c => PollRequest.markStale c p) (.poll d m) = .poll d (m || decide (d ∈ l)) := by
  induction l generalizing m with
  | nil => simp
  | cons c l ih =>
    refine (ih (m || d == c)).trans (congrArg _ ?_)
    simp only [List.mem_cons, Bool.decide_or, Bool.or_assoc, beq_eq_decide]

theorem PollRequest.foldl_markStale_zero (n : Node) (l : List ChannelNo) :
    l.foldl (fun p c => PollRequest.markStale c p) (.zero n) = .zero n := by
  induction l with
  | nil => rfl
  | cons c l ih => exact ih

/-- The sequencer with its waiting poll changed. -/
def Sequencer.mapSlot (f : PollRequest → PollRequest) (q : Sequencer) : Sequencer := { q with pollSlot := q.pollSlot.map f }

theorem Sequencer.mapSlot_mapSlot (f g : PollRequest → PollRequest) (q : Sequencer) :
    (q.mapSlot f).mapSlot g = q.mapSlot fun p => g (f p) :=
  congrArg (fun x => { q with pollSlot := x }) (Option.map_map ..)

/-! ### One channel -/

/-- What the flush of one channel leaves of the others. -/
structure State.FlushedOne (c : ChannelNo) (s u : State) : Prop where
  channels : ∀ d, d ≠ c → u.ch d = s.ch d
  isolates : u.oq.isolates = s.oq.isolates
  writes : ∃ ws, u.oq.writes = s.oq.writes ++ ws ∧ (ws.map (·.channel)).Sublist [c]
  record : u.fbc.state.record? = s.fbc.state.record?.map fun x => if s.stops c then Transaction.markStale c x else x
  psq : u.psq = s.psq.mapSlot fun p => if s.stops c then PollRequest.markStale c p else p
  reports : u.rq = if s.stops c && s.maskedActive c then alarmPlaced s.rq c .empty .empty .none else s.rq
  rest : { u with ctx := s.ctx, oq := s.oq, fbc := s.fbc, psq := s.psq, rq := s.rq } = s

/-- A channel that does not stop leaves the field unit, the sequencer and the reports. -/
theorem State.FlushedOne.of_going {q : OutputQueue} {x : Vector ChannelCtx 24} (hd : (s.ch c).drive ≠ .stopping)
    (hch : ∀ d, d ≠ c → ({ s with ctx := x, oq := q } : State).ch d = s.ch d) (hi : q.isolates = s.oq.isolates)
    (hw : ∃ ws, q.writes = s.oq.writes ++ ws ∧ (ws.map (·.channel)).Sublist [c]) :
    State.FlushedOne c s { s with ctx := x, oq := q } := by
  have hstops : s.stops c = false := beq_eq_false_iff_ne.mpr hd
  refine ⟨hch, hi, hw, ?_, ?_, ?_, rfl⟩
  · simp [hstops]
  · simp [hstops, Sequencer.mapSlot]
  · simp [hstops]

theorem State.writes_snoc_nil (q : OutputQueue) (c : ChannelNo) :
    ∃ ws, q.writes = q.writes ++ ws ∧ (ws.map (·.channel)).Sublist [c] :=
  ⟨[], (List.append_nil _).symm, List.nil_sublist _⟩

/-- What a step test can do. -/
theorem State.stepTest_cases (s : State) (c : ChannelNo) : s.stepTest c = s ∨ s.stepTest c = s.enterSteady c ∨
    (s.hasWork c = false ∧ ∃ k, s.stepTest c = s.issueWrite c k false) := by
  unfold State.stepTest
  by_cases hd : (s.ch c).drive ≠ .moving
  · rw [if_pos hd]
    exact Or.inl rfl
  by_cases hw : s.hasWork c = true
  · rw [if_neg hd, if_pos hw]
    exact Or.inl rfl
  by_cases hg : (s.ch c).atGoal = true
  · rw [if_neg hd, if_neg hw, if_pos hg]
    exact Or.inr (Or.inl rfl)
  by_cases ht : (s.ch c).stepTimer.isRunning = true
  · rw [if_neg hd, if_neg hw, if_neg hg, if_pos ht]
    exact Or.inl rfl
  · rw [if_neg hd, if_neg hw, if_neg hg, if_neg ht]
    unfold State.issueStep
    cases (s.ch c).sent with
    | none => exact Or.inl rfl
    | some k =>
      cases (s.ch c).goal with
      | none => exact Or.inl rfl
      | some g => exact Or.inr (Or.inr ⟨Bool.not_eq_true _ ▸ hw, _, rfl⟩)

theorem State.FlushedOne.modCh (hd : (s.ch c).drive ≠ .stopping) (f : ChannelCtx → ChannelCtx) :
    State.FlushedOne c s (s.modCh c f) :=
  .of_going hd (fun _ h => s.ch_modCh_of_ne h f) rfl (State.writes_snoc_nil _ _)

theorem State.flushedChannel_moving (hd : (s.ch c).drive = .moving) : s.flushedChannel c = (s.rollBack c).stepTest c := by
  unfold State.flushedChannel
  rw [hd]

theorem State.flushedChannel_releasing (hd : (s.ch c).drive = .releasing) :
    s.flushedChannel c = (s.rollBack c).startStepTimer c := by
  unfold State.flushedChannel
  rw [hd]

theorem State.flushedChannel_stopping (hd : (s.ch c).drive = .stopping) : s.flushedChannel c = s.reachOff c := by
  unfold State.flushedChannel
  rw [hd]

theorem State.flushedChannel_other (h : (s.ch c).drive ≠ .moving ∧ (s.ch c).drive ≠ .releasing ∧ (s.ch c).drive ≠ .stopping) :
    s.flushedChannel c = s := by
  obtain ⟨hm, hr, hs⟩ := h
  unfold State.flushedChannel
  cases hd : (s.ch c).drive with
  | moving => exact absurd hd hm
  | releasing => exact absurd hd hr
  | stopping => exact absurd hd hs
  | off | steady | isolating | isolated => rfl

theorem State.flushedOne_moving (hd : (s.ch c).drive = .moving) : State.FlushedOne c s (s.flushedChannel c) := by
  have hgo : (s.ch c).drive ≠ .stopping := by rw [hd]; decide
  rw [State.flushedChannel_moving hd, State.rollBack_eq]
  rcases State.stepTest_cases (s.modCh c (ChannelCtx.rolledBack (s.entry c))) c with h | h | ⟨hw, k, h⟩
  · rw [h]
    exact .modCh hgo _
  · rw [h, State.enterSteady, State.modCh_modCh]
    exact .modCh hgo _
  · have hothers : ∀ d, d ≠ c → ((s.modCh c (ChannelCtx.rolledBack (s.entry c))).issueWrite c k false).ch d = s.ch d := fun d hne =>
      ((State.Drives.issueWrite _ c k false).frame.others d hne).trans (s.ch_modCh_of_ne hne _)
    rw [State.issueWrite_of_noEntry (State.hasEntry_of_noWork hw)] at hothers
    rw [h, State.issueWrite_of_noEntry (State.hasEntry_of_noWork hw)]
    exact .of_going hgo hothers rfl ⟨_, rfl, List.Sublist.refl _⟩

theorem State.flushedOne_stopping (hd : (s.ch c).drive = .stopping) (hclear : s.alarmsClear [c]) :
    State.FlushedOne c s (s.flushedChannel c) := by
  have hstops : s.stops c = true := beq_iff_eq.mpr hd
  rw [State.flushedChannel_stopping hd, State.reachOff_of_clear hclear]
  refine ⟨fun d hne => s.ch_modCh_of_ne hne fun _ => .reset, rfl, State.writes_snoc_nil _ _, ?_, ?_, ?_, rfl⟩
  · simp only [hstops, if_true]
    exact s.atOff_record c
  · simp only [hstops, if_true]
    rfl
  · rw [hstops, Bool.true_and]
    rfl

/-- The flush of one channel. -/
theorem State.flushedChannel_one (s : State) (c : ChannelNo) (hclear : s.alarmsClear [c]) :
    State.FlushedOne c s (s.flushedChannel c) := by
  by_cases hm : (s.ch c).drive = .moving
  · exact State.flushedOne_moving hm
  by_cases hs : (s.ch c).drive = .stopping
  · exact State.flushedOne_stopping hs hclear
  by_cases hr : (s.ch c).drive = .releasing
  · rw [State.flushedChannel_releasing hr, State.rollBack_eq, State.startStepTimer, State.modCh_modCh]
    exact .modCh hs _
  · rw [State.flushedChannel_other ⟨hm, hr, hs⟩]
    exact .of_going hs (fun _ _ => rfl) rfl (State.writes_snoc_nil _ _)

/-! ### One channel as another's flush leaves it -/

/-- All that the flush of channel `c` depends on is in `t` as in `s`. -/
structure State.AsFor (c : ChannelNo) (s t : State) : Prop where
  ch : t.ch c = s.ch c
  entry : t.entry c = s.entry c
  mgx : t.mgx = s.mgx
  work : t.hasWork c = s.hasWork c
  writes : t.oq.writesOf c = s.oq.writesOf c

theorem State.AsFor.refl (c : ChannelNo) (s : State) : State.AsFor c s s := ⟨rfl, rfl, rfl, rfl, rfl⟩

theorem State.AsFor.trans (h : State.AsFor c s t) (h' : State.AsFor c t u) : State.AsFor c s u :=
  ⟨h'.ch.trans h.ch, h'.entry.trans h.entry, h'.mgx.trans h.mgx, h'.work.trans h.work, h'.writes.trans h.writes⟩

/-- The stale marks of one channel leave the others' transactions. -/
theorem State.inFlight_of_marked {b : Bool} (hne : d ≠ c)
    (h : t.fbc.state.record? = s.fbc.state.record?.map fun x => if b then Transaction.markStale c x else x) :
    t.writeInFlight d = s.writeInFlight d ∧ t.isolateInFlight d = s.isolateInFlight d := by
  unfold State.writeInFlight State.isolateInFlight
  rw [h]
  cases s.fbc.state.record? with
  | none => exact ⟨rfl, rfl⟩
  | some x =>
    have hsame : x.job.channel? = some c → x.job.isWriteOf d = false ∧ x.job.isIsolateOf d = false := by
      intro hc
      cases hj : x.job with
      | zero => exact ⟨rfl, rfl⟩
      | write e code rc | isolate e | poll e =>
        rw [hj] at hc
        have hec : e = c := Option.some.inj hc
        simp [FieldJob.isWriteOf, FieldJob.isIsolateOf, hec, Ne.symm hne]
    simp only [Option.map_some, Transaction.markStale]
    by_cases hc : x.job.channel? = some c
    · obtain ⟨hw, hi⟩ := hsame hc
      cases b <;> simp [hc, hw, hi]
    · cases b <;> simp [hc]

theorem OutputQueue.writesOf_append {q : OutputQueue} {ws : List WriteEntry} (hc : c ∉ ws.map (·.channel)) :
    (q.writes ++ ws).filter (WriteEntry.isOf c) = q.writesOf c := by
  have hnone : ws.filter (WriteEntry.isOf c) = [] := by
    refine List.filter_eq_nil_iff.mpr fun w hw he => hc (List.mem_map.mpr ⟨w, hw, ?_⟩)
    simpa [WriteEntry.isOf] using he
  rw [List.filter_append, hnone, List.append_nil]
  rfl

theorem State.FlushedOne.asFor (h : State.FlushedOne c s u) (hne : d ≠ c) : State.AsFor d s u := by
  obtain ⟨ws, hws, hsub⟩ := h.writes
  have hwrites : u.oq.writesOf d = s.oq.writesOf d := by
    rw [OutputQueue.writesOf, hws]
    exact OutputQueue.writesOf_append fun hmem => hne (List.mem_singleton.mp (hsub.subset hmem))
  have hhas : u.oq.hasWrite d = s.oq.hasWrite d := by
    rw [Bool.eq_iff_iff, ← not_iff_not, Bool.not_eq_true, Bool.not_eq_true, ← OutputQueue.writesOf_eq_nil, ← OutputQueue.writesOf_eq_nil,
      hwrites]
  obtain ⟨hw, hi⟩ := State.inFlight_of_marked hne h.record
  refine ⟨h.channels d hne, (congrArg (fun v : State => v.entry d) h.rest :), (congrArg State.mgx h.rest :), ?_, hwrites⟩
  rw [State.hasWork, State.hasWork, hw, hi, OutputQueue.hasEntry, OutputQueue.hasEntry, hhas, OutputQueue.hasIsolate, OutputQueue.hasIsolate,
    h.isolates]

theorem State.FlushedOne.alarmsClear (h : State.FlushedOne c s u) (hc : c ∉ l) (hs : s.alarmsClear (c :: l)) : u.alarmsClear l := by
  intro htx r hr d hd
  have hclp : u.clp.tx = s.clp.tx := (congrArg (fun v : State => v.clp.tx) h.rest :)
  have hold : ∀ x ∈ s.rq, x.isAlarmOf d = false := fun x hx => hs (hclp.symm.trans htx) x hx d (List.mem_cons_of_mem c hd)
  rw [h.reports] at hr
  split at hr
  · exact mem_alarmPlaced hr (fun e => hc (e ▸ hd)) hold
  · exact hold r hr

/-! ### The channels of a list -/

/-- What the flush of the channels of `l`, in its order, does. -/
structure State.Flushed (l : List ChannelNo) (s t : State) : Prop where
  others : ∀ c, c ∉ l → State.AsFor c s t
  acted : ∀ c ∈ l, ∃ v, State.AsFor c s v ∧ t.ch c = (v.flushedChannel c).ch c ∧ t.oq.writesOf c = (v.flushedChannel c).oq.writesOf c
  isolates : t.oq.isolates = s.oq.isolates
  writes : ∃ ws, t.oq.writes = s.oq.writes ++ ws ∧ (ws.map (·.channel)).Sublist l
  record : t.fbc.state.record? = s.fbc.state.record?.map fun x => (l.filter s.stops).foldl (fun x c => Transaction.markStale c x) x
  psq : t.psq = s.psq.mapSlot fun p => (l.filter s.stops).foldl (fun p c => PollRequest.markStale c p) p
  reports : t.rq = (l.filter fun c => s.stops c && s.maskedActive c).foldl (fun q c => alarmPlaced q c .empty .empty .none) s.rq
  rest : { t with ctx := s.ctx, oq := s.oq, fbc := s.fbc, psq := s.psq, rq := s.rq } = s

theorem State.Flushed.nil (s : State) : State.Flushed [] s s where
  others c _ := .refl c s
  acted c hc := absurd hc List.not_mem_nil
  isolates := rfl
  writes := ⟨[], (List.append_nil _).symm, List.Sublist.refl _⟩
  record := by simp
  psq := by simp [Sequencer.mapSlot]
  reports := rfl
  rest := rfl

theorem State.AsFor.stops (h : State.AsFor c s t) : t.stops c = s.stops c := by rw [State.stops, State.stops, h.ch]

theorem State.AsFor.maskedActive (h : State.AsFor c s t) : t.maskedActive c = s.maskedActive c := by
  rw [State.maskedActive, State.maskedActive, h.ch, h.entry]

theorem foldl_filter_cons {α : Type} (f : α → ChannelNo → α) (p : ChannelNo → Bool) (c : ChannelNo) (l : List ChannelNo) (a : α) :
    ((c :: l).filter p).foldl f a = (l.filter p).foldl f (if p c then f a c else a) := by
  rw [List.filter_cons]
  split <;> rfl

/-- First one channel, then others. -/
theorem State.Flushed.cons (h : State.FlushedOne c s (s.flushedChannel c)) (h' : State.Flushed l (s.flushedChannel c) t) (hc : c ∉ l) :
    State.Flushed (c :: l) s t := by
  have hfor : ∀ d ∈ l, State.AsFor d s (s.flushedChannel c) := fun d hd => h.asFor fun e => hc (e ▸ hd)
  have hstops : l.filter (s.flushedChannel c).stops = l.filter s.stops := List.filter_congr fun d hd => (hfor d hd).stops
  have hmasked : (l.filter fun d => (s.flushedChannel c).stops d && (s.flushedChannel c).maskedActive d) =
      l.filter fun d => s.stops d && s.maskedActive d :=
    List.filter_congr fun d hd => by rw [(hfor d hd).stops, (hfor d hd).maskedActive]
  obtain ⟨ws, hws, hsub⟩ := h.writes
  obtain ⟨ws', hws', hsub'⟩ := h'.writes
  refine ⟨fun d hd => ?_, fun d hd => ?_, h'.isolates.trans h.isolates, ⟨ws ++ ws', ?_, ?_⟩, ?_, ?_, ?_, ?_⟩
  · obtain ⟨hdc, hdl⟩ := not_or.mp (mt List.mem_cons.mpr hd)
    exact (h.asFor hdc).trans (h'.others d hdl)
  · rcases List.mem_cons.mp hd with rfl | hdl
    · exact ⟨s, .refl d s, (h'.others d hc).ch, (h'.others d hc).writes⟩
    · obtain ⟨v, hv, hch, hwr⟩ := h'.acted d hdl
      exact ⟨v, (hfor d hdl).trans hv, hch, hwr⟩
  · rw [hws', hws, List.append_assoc]
  · rw [List.map_append]
    exact hsub.append hsub'
  · rw [h'.record, h.record, hstops, Option.map_map]
    exact congrArg (fun f => Option.map f _) (funext fun x => (foldl_filter_cons _ _ _ _ _).symm)
  · rw [h'.psq, h.psq, hstops, Sequencer.mapSlot_mapSlot]
    exact congrArg (fun f => Sequencer.mapSlot f _) (funext fun p => (foldl_filter_cons _ _ _ _ p).symm)
  · rw [h'.reports, h.reports, hmasked]
    exact (foldl_filter_cons (fun q c => alarmPlaced q c .empty .empty .none) (fun d => s.stops d && s.maskedActive d) c l s.rq).symm
  · exact (congrArg (fun v : State => { v with ctx := s.ctx, oq := s.oq, fbc := s.fbc, psq := s.psq, rq := s.rq }) h'.rest :).trans h.rest

/-- The channels of a list, each once. -/
theorem foldl_flushedChannel : ∀ {l : List ChannelNo} {s : State}, l.Nodup → s.alarmsClear l →
    State.Flushed l s (l.foldl State.flushedChannel s)
  | [], s, _, _ => .nil s
  | c :: l, s, hl, hclear => by
    obtain ⟨hc, hl⟩ := List.nodup_cons.mp hl
    have hone := s.flushedChannel_one c fun htx r hr d hd =>
      hclear htx r hr d (List.mem_singleton.mp hd ▸ List.mem_cons_self)
    exact .cons hone (foldl_flushedChannel hl (hone.alarmsClear hc hclear)) hc

end Sys2Proof.Machine
end

