-- ==== Sys2Proof/Proofs/FlushOutput.lean ====
section
/-! PROOF. FLUSH_OUTPUT (R57, R58). -/

namespace Sys2Proof.Machine

variable {s t u v : State} {c d : ChannelNo} {k : Code} {l : List ChannelNo}

/-! ### One channel, by its drive state -/

theorem State.flushed_releasing (hd : (s.ch c).drive = .releasing) :
    (s.flushedChannel c).ch c = { s.ch c with
      sent := some ((s.ch c).applied.getD (s.entry c).safeCode), stepTimer := .running ((s.entry c).slewInterval.val * 1000) } ∧
    (s.flushedChannel c).oq = s.oq := by
  rw [State.flushedChannel_releasing hd, State.rollBack_eq, State.startStepTimer, State.modCh_modCh, State.ch_modCh_self]
  exact ⟨rfl, rfl⟩

theorem State.flushed_stopping (hd : (s.ch c).drive = .stopping) :
    (s.flushedChannel c).ch c = .reset ∧ (s.flushedChannel c).oq = s.oq := by
  have hreports := s.reachOff_onlyReports c
  rw [State.flushedChannel_stopping hd, hreports.ch, hreports.channels.2]
  exact ⟨s.atOff_ch c, rfl⟩

theorem State.rollBack_ch (s : State) (c : ChannelNo) : (s.rollBack c).ch c = (s.ch c).rolledBack (s.entry c) := State.ch_modCh_self _ _ _

theorem State.rollBack_hasWork (s : State) (c d : ChannelNo) : (s.rollBack c).hasWork d = s.hasWork d := s.hasWork_modCh c d _

/-- The channel has other work: an ISOLATE queued, or a transaction in flight (R26). -/
theorem State.flushed_working (hd : (s.ch c).drive = .moving) (hw : s.hasWork c = true) :
    (s.flushedChannel c).ch c = (s.ch c).rolledBack (s.entry c) ∧ (s.flushedChannel c).oq = s.oq := by
  rw [State.flushedChannel_moving hd, State.stepTest_of_work ((s.rollBack_hasWork c c).trans hw), s.rollBack_ch]
  exact ⟨rfl, rfl⟩

theorem State.flushed_atGoal (hd : (s.ch c).drive = .moving) (hw : s.hasWork c = false) (ha : (s.ch c).applied.isSome = true)
    (hg : (s.ch c).goal = (s.ch c).applied) :
    (s.flushedChannel c).ch c = { (s.ch c).rolledBack (s.entry c) with drive := .steady, settleLeft := (s.entry c).settleCount } ∧
      (s.flushedChannel c).oq = s.oq := by
  have hat : ((s.rollBack c).ch c).atGoal = true := by
    rw [s.rollBack_ch]
    exact (ChannelCtx.rolledBack_atGoal _ _).mpr ⟨ha, hg⟩
  rw [State.flushedChannel_moving hd, State.stepTest_atGoal (by rw [s.rollBack_ch]; exact hd) ((s.rollBack_hasWork c c).trans hw) hat,
    State.enterSteady, State.ch_modCh_self, s.rollBack_ch]
  exact ⟨rfl, rfl⟩

theorem State.rollBack_notAtGoal {g : Code} (hg : (s.ch c).goal = some g) (ha : (s.ch c).applied ≠ some g) :
    ((s.rollBack c).ch c).atGoal = false := by
  rw [s.rollBack_ch, ← Bool.not_eq_true, ChannelCtx.rolledBack_atGoal, hg]
  exact fun h => ha h.2.symm

theorem State.flushed_waiting {g : Code} (hd : (s.ch c).drive = .moving) (hw : s.hasWork c = false) (hg : (s.ch c).goal = some g)
    (ha : (s.ch c).applied ≠ some g) (ht : (s.ch c).stepTimer.isRunning = true) :
    (s.flushedChannel c).ch c = (s.ch c).rolledBack (s.entry c) ∧ (s.flushedChannel c).oq = s.oq := by
  have hat := State.rollBack_notAtGoal hg ha
  rw [State.flushedChannel_moving hd, State.stepTest_of_waiting (by rw [s.rollBack_ch]; exact hd) ((s.rollBack_hasWork c c).trans hw)
    (by rw [s.rollBack_ch]; exact ht), State.ch_modCh_self, ChannelCtx.tested, if_neg (by rw [hat]; decide), s.rollBack_ch]
  exact ⟨rfl, rfl⟩

theorem State.flushed_step {g : Code} (hd : (s.ch c).drive = .moving) (hw : s.hasWork c = false) (hg : (s.ch c).goal = some g)
    (ha : (s.ch c).applied ≠ some g) (ht : (s.ch c).stepTimer.isRunning = false)
    (hk : k = stepCode (s.entry c) s.mgx.slewBypass ((s.ch c).applied.getD (s.entry c).safeCode) g) :
    (s.flushedChannel c).ch c = { (s.ch c).rolledBack (s.entry c) with
      sent := some k, stepTimer := .running ((s.entry c).slewInterval.val * 1000) } ∧
    (s.flushedChannel c).oq.writesOf c = [⟨c, k, false⟩] := by
  have hq := State.hasEntry_of_noWork hw
  subst hk
  rw [State.flushedChannel_moving hd, State.stepTest_step (by rw [s.rollBack_ch]; exact hd) ((s.rollBack_hasWork c c).trans hw)
    (State.rollBack_notAtGoal hg ha) (by rw [s.rollBack_ch]; exact ht) (by rw [s.rollBack_ch]; rfl) (by rw [s.rollBack_ch]; exact hg),
    State.issueWrite_ch, State.issueWrite_oq (by exact hq), s.rollBack_ch]
  exact ⟨rfl, OutputQueue.writesOf_snoc hq _ _⟩

/-! ### The whole flush -/

/-- The state with the write section emptied. -/
def State.emptied (s : State) : State := s.setOq { s.oq with writes := [] }

theorem State.emptied_hasWork (s : State) (c : ChannelNo) :
    s.emptied.hasWork c = (s.oq.hasIsolate c || s.writeInFlight c || s.isolateInFlight c) := by
  show (s.oq.hasIsolate c || false || s.writeInFlight c || s.isolateInFlight c) = _
  rw [Bool.or_false]

theorem State.mem_channelsWithWrite (s : State) (c : ChannelNo) : c ∈ s.channelsWithWrite ↔ s.oq.hasWrite c = true := by
  simp [State.channelsWithWrite, mem_channelsAscending]

theorem State.flush_flushed (hlaw : s.TransmitterLaw) : State.Flushed s.channelsWithWrite s.emptied s.flush :=
  foldl_flushedChannel (channelsAscending_nodup.filter _) ((State.TransmitterLaw.congr (t := s.emptied) hlaw rfl rfl).alarmsClear _)

/-- What the flush of a channel gives in every state that agrees for it, it gives in its turn. -/
theorem State.Flushed.of_each {y : ChannelCtx} {ws : List WriteEntry} (h : State.Flushed l s t) (hc : c ∈ l)
    (hv : ∀ v, State.AsFor c s v → (v.flushedChannel c).ch c = y ∧ (v.flushedChannel c).oq.writesOf c = ws) :
    t.ch c = y ∧ t.oq.writesOf c = ws := by
  obtain ⟨v, hfor, hch, hwrites⟩ := h.acted c hc
  exact ⟨hch.trans (hv v hfor).1, hwrites.trans (hv v hfor).2⟩

/-- A flush that places no WRITE for the channel. -/
theorem State.Flushed.of_quiet {y : ChannelCtx} (h : State.Flushed l s.emptied t) (hc : c ∈ l)
    (hv : ∀ v, State.AsFor c s.emptied v → (v.flushedChannel c).ch c = y ∧ (v.flushedChannel c).oq = v.oq) :
    t.oq.hasWrite c = false ∧ t.ch c = y := by
  have heach := h.of_each (y := y) (ws := []) hc fun v hfor => ⟨(hv v hfor).1, by rw [(hv v hfor).2, hfor.writes]; rfl⟩
  exact ⟨(t.oq.writesOf_eq_nil c).mp heach.2, heach.1⟩

theorem channelsAscending_sorted : (channelsAscending.map Fin.val).Pairwise (· < ·) := by decide

/-- The steps issued by a flush stand in ascending order. -/
theorem State.Flushed.writes_sorted (h : State.Flushed s.channelsWithWrite s.emptied t) :
    (t.oq.writes.map fun w => w.channel.val).Pairwise (· < ·) := by
  obtain ⟨ws, hws, hsub⟩ := h.writes
  have hsorted : (ws.map (·.channel)).Sublist channelsAscending := hsub.trans List.filter_sublist
  rw [hws, show s.emptied.oq.writes ++ ws = ws from rfl]
  exact (List.map_map ▸ channelsAscending_sorted.sublist (hsorted.map Fin.val) :)

/-! ### The command -/

/-- The reports of a flush (R41, R58). -/
theorem State.Flushed.outgoing (h : State.Flushed s.channelsWithWrite s.emptied t) : t.outgoing = s.clp.tx.toList ++
    ((List.finRange 24).filter fun c => s.oq.hasWrite c && (s.ch c).drive == .stopping &&
      ((s.ch c).active.inter (s.entry c).alarmMask).nonempty).foldl (fun q c => alarmPlaced q c .empty .empty .none) s.rq := by
  have hclp : t.clp = s.clp := (congrArg State.clp h.rest :)
  rw [State.outgoing, hclp, h.reports, State.channelsWithWrite, List.filter_filter]
  refine congrArg (fun l => s.clp.tx.toList ++ List.foldl (fun q c => alarmPlaced q c .empty .empty .none) s.rq l)
    (List.filter_congr fun c _ => ?_)
  rw [Bool.and_comm, Bool.and_assoc]
  rfl

theorem State.mem_stops (s : State) (c : ChannelNo) :
    c ∈ s.channelsWithWrite.filter s.emptied.stops ↔ s.oq.hasWrite c = true ∧ (s.ch c).drive = .stopping := by
  rw [List.mem_filter, s.mem_channelsWithWrite]
  exact and_congr_right fun _ => beq_iff_eq

/-- The transaction in flight after a flush (R75). -/
theorem State.Flushed.transaction {x : Transaction} (h : State.Flushed s.channelsWithWrite s.emptied t)
    (hx : s.fbc.state.record? = some x) : ∃ y, t.fbc.state.record? = some y ∧ y.job = x.job ∧
      (y.stale = true ↔ x.stale = true ∨ ∃ c, x.job.channel? = some c ∧ s.oq.hasWrite c = true ∧ (s.ch c).drive = .stopping) := by
  obtain ⟨hjob, hstale⟩ := x.foldl_markStale (s.channelsWithWrite.filter s.emptied.stops)
  refine ⟨_, h.record.trans (congrArg _ hx), hjob, hstale.trans (or_congr_right (exists_congr fun c => ?_))⟩
  rw [s.mem_stops, and_comm]

/-- The waiting POLL after a flush (R92). -/
theorem State.Flushed.poll {m : Bool} (h : State.Flushed s.channelsWithWrite s.emptied t) (hp : s.psq.pollSlot = some (.poll c m)) :
    t.psq = { s.psq with pollSlot := some (.poll c (m || (s.oq.hasWrite c && (s.ch c).drive == .stopping))) } := by
  have hmem : decide (c ∈ s.channelsWithWrite.filter s.emptied.stops) = (s.oq.hasWrite c && (s.ch c).drive == .stopping) := by
    rw [Bool.eq_iff_iff, decide_eq_true_eq, s.mem_stops, Bool.and_eq_true, beq_iff_eq]
  rw [h.psq, Sequencer.mapSlot, show s.emptied.psq = s.psq from rfl, hp, Option.map_some, PollRequest.foldl_markStale, hmem]

theorem State.Flushed.noPoll (h : State.Flushed s.channelsWithWrite s.emptied t) (hp : ∀ c m, s.psq.pollSlot ≠ some (.poll c m)) :
    t.psq = s.psq := by
  rw [h.psq, Sequencer.mapSlot, show s.emptied.psq = s.psq from rfl]
  have hslot : s.psq.pollSlot.map (fun p => (s.channelsWithWrite.filter s.emptied.stops).foldl (fun p c => PollRequest.markStale c p) p) =
      s.psq.pollSlot := by
    cases hq : s.psq.pollSlot with
    | none => rfl
    | some p =>
      cases p with
      | poll c m => exact absurd hq (hp c m)
      | zero n => rw [Option.map_some, PollRequest.foldl_markStale_zero]
  rw [hslot]

/-- A MOVING channel after a flush (R26, R32, R58). -/
theorem State.Flushed.moving {x : ChannelCtx} (h : State.Flushed s.channelsWithWrite s.emptied t) (hw : s.oq.hasWrite c = true)
    (hd : (s.ch c).drive = .moving) (hx : x = (s.ch c).rolledBack (s.entry c)) :
    (s.oq.hasIsolate c = true ∨ s.writeInFlight c = true ∨ s.isolateInFlight c = true → t.oq.hasWrite c = false ∧ t.ch c = x) ∧
    (s.oq.hasIsolate c = false → s.writeInFlight c = false → s.isolateInFlight c = false →
      ((s.ch c).applied.isSome = true → (s.ch c).goal = (s.ch c).applied →
        t.oq.hasWrite c = false ∧ t.ch c = { x with drive := .steady, settleLeft := (s.entry c).settleCount }) ∧
      (∀ g, (s.ch c).goal = some g → (s.ch c).applied ≠ some g →
        ((s.ch c).stepTimer.isRunning = true → t.oq.hasWrite c = false ∧ t.ch c = x) ∧
        (∀ step, (s.ch c).stepTimer.isRunning = false →
          step = stepCode (s.entry c) s.mgx.slewBypass ((s.ch c).applied.getD (s.entry c).safeCode) g →
          (∀ w, w ∈ t.oq.writes ∧ w.channel = c ↔ w = ⟨c, step, false⟩) ∧
          t.ch c = { x with sent := some step, stepTimer := .running ((s.entry c).slewInterval.val * 1000) }))) := by
  have hmem := (s.mem_channelsWithWrite c).mpr hw
  have hdrive : ∀ v, State.AsFor c s.emptied v → (v.ch c).drive = .moving := fun v hv => by rw [hv.ch]; exact hd
  have hroll : ∀ v, State.AsFor c s.emptied v → (v.ch c).rolledBack (v.entry c) = x := fun v hv => by rw [hv.ch, hv.entry, hx]; rfl
  refine ⟨fun hwork => h.of_quiet hmem fun v hv => ?_, fun hi hf hif => ?_⟩
  · have hvw : v.hasWork c = true := by
      rw [hv.work, s.emptied_hasWork, Bool.or_eq_true, Bool.or_eq_true, or_assoc]
      exact hwork
    rw [← hroll v hv]
    exact State.flushed_working (hdrive v hv) hvw
  have hvw : ∀ v, State.AsFor c s.emptied v → v.hasWork c = false := fun v hv => by
    rw [hv.work, s.emptied_hasWork, hi, hf, hif]
    rfl
  refine ⟨fun ha hg => h.of_quiet hmem fun v hv => ?_,
    fun g hg ha => ⟨fun ht => h.of_quiet hmem fun v hv => ?_, fun step ht hstep => ?_⟩⟩
  · have := State.flushed_atGoal (hdrive v hv) (hvw v hv) (by rw [hv.ch]; exact ha) (by rw [hv.ch]; exact hg)
    rw [hroll v hv, hv.entry] at this
    exact this
  · rw [← hroll v hv]
    exact State.flushed_waiting (hdrive v hv) (hvw v hv) (by rw [hv.ch]; exact hg) (by rw [hv.ch]; exact ha) (by rw [hv.ch]; exact ht)
  · obtain ⟨hch, hwrites⟩ := h.of_each (y := { x with
        sent := some step, stepTimer := .running ((s.entry c).slewInterval.val * 1000) }) (ws := [⟨c, step, false⟩]) hmem fun v hv => by
      have := State.flushed_step (k := step) (hdrive v hv) (hvw v hv) (by rw [hv.ch]; exact hg) (by rw [hv.ch]; exact ha)
        (by rw [hv.ch]; exact ht) (by rw [hv.ch, hv.entry, hv.mgx]; exact hstep)
      rw [hroll v hv, hv.entry] at this
      exact this
    refine ⟨fun w => ?_, hch⟩
    have hw := List.mem_filter (p := WriteEntry.isOf c) (x := w) (as := t.oq.writes)
    rw [show t.oq.writes.filter (WriteEntry.isOf c) = [⟨c, step, false⟩] from hwrites, List.mem_singleton, WriteEntry.isOf, beq_iff_eq] at hw
    exact hw.symm

theorem exec_flushOutput {tag : Byte} {rest : List (List Byte)} (htakes : s.Takes (.flushOutput tag) rest) :
    exec (.flushOutput tag) s = .next
      ((s.withFrames rest).flush.respond tag cmdFlushOutput .ok [byteOf s.oq.writes.length]).beginTransmission := by
  show execFlushOutput tag s = _
  exact State.takeCommand_of_takes htakes fun s => s.flush.respond tag cmdFlushOutput .ok [byteOf s.oq.writes.length]

/-- A flush that finds nothing (R57). -/
theorem State.flush_of_noWrite (h : s.oq.writes = []) : s.flush = s := by
  have hnone : s.channelsWithWrite = [] :=
    List.filter_eq_nil_iff.mpr fun c _ hc => by
      rw [OutputQueue.hasWrite, h] at hc
      exact Bool.false_ne_true hc
  rw [State.flush, hnone, ← h]
  rfl

/-- A flush that finds one WRITE. -/
theorem State.flush_of_one {w : WriteEntry} (h : s.oq.writes = [w]) (hc : w.channel = c) : s.flush = s.emptied.flushedChannel c := by
  have hone : s.channelsWithWrite = [c] := by
    have hhas : s.oq.hasWrite = fun d => d == c := funext fun d => by
      rw [OutputQueue.hasWrite, h, List.any_cons, List.any_nil, Bool.or_false, WriteEntry.isOf, hc]
      exact Bool.eq_iff_iff.mpr (by rw [beq_iff_eq, beq_iff_eq]; exact eq_comm)
    rw [State.channelsWithWrite, hhas, List.filter_beq, List.count_eq_one_of_mem channelsAscending_nodup (mem_channelsAscending c)]
    rfl
  rw [State.flush, hone]
  rfl

/-- A MOVING channel that waits for its step timer, its WRITE the only one, is all that the flush acts on. -/
theorem State.flush_of_waiting {w : WriteEntry} (h : s.oq.writes = [w]) (hc : w.channel = c) (hi : s.oq.hasIsolate c = false)
    (hd : (s.ch c).drive = .moving) (ht : (s.ch c).stepTimer.isRunning = true) (hr : s.fbc.state.record? = none) :
    s.flush = s.emptied.modCh c fun y => ChannelCtx.tested (s.entry c) (y.rolledBack (s.entry c)) := by
  have hwork : s.emptied.hasWork c = false := by
    rw [s.emptied_hasWork, hi]
    simp [State.writeInFlight, State.isolateInFlight, hr]
  rw [State.flush_of_one h hc, State.flushedChannel_moving (by exact hd), State.stepTest_of_waiting (by rw [State.rollBack_ch]; exact hd)
    ((State.rollBack_hasWork _ _ _).trans hwork) (by rw [State.rollBack_ch]; exact ht), State.rollBack_eq, State.modCh_modCh,
    State.entry_modCh]
  rfl

theorem State.emptied_onlyChannel {w : WriteEntry} (h : s.oq.writes = [w]) (hc : w.channel = c) : State.OnlyChannel c s s.emptied := by
  refine ⟨fun _ _ => rfl, rfl, ?_, ⟨rfl, rfl, rfl⟩, ⟨rfl, rfl⟩, ⟨rfl, rfl⟩, ⟨rfl, rfl, rfl, rfl⟩, rfl, rfl⟩
  rw [h]
  simp [State.emptied, WriteEntry.isOf, hc]

/-- Settles O33: every WRITE is removed, and each of their channels is acted on by its drive state. -/
theorem flushOutputRemovesEveryWrite : Obligations.FlushOutputRemovesEveryWrite := by
  refine ⟨fun tag rest s hlaw htakes => ?_, fun tag rest s hlaw htakes hnone => ?_,
    fun tag c w rest s hlaw htakes hone hc hi hd ht hr => ?_⟩
  · have hflush := (s.withFrames rest).flush_flushed (by exact hlaw)
    have hexec := exec_flushOutput htakes
    generalize (s.withFrames rest).flush = u at hflush hexec
    have hreports := u.respond_onlyReports tag cmdFlushOutput .ok [byteOf s.oq.writes.length]
    have hmem := (s.withFrames rest).mem_channelsWithWrite
    refine ⟨_, hexec, ?_⟩
    simp only [hreports.ch, hreports.channels.2, hreports.field.1, hreports.field.2, hreports.tables.1, hreports.tables.2, hreports.units.1,
      hreports.units.2.1, hreports.units.2.2.1, hreports.units.2.2.2, u.respond_outgoing]
    refine ⟨hflush.isolates, hflush.writes_sorted, fun c hquiet => ?_, fun c hw hd => ?_, fun c hw hd => ?_, fun c x hw hd hx => ?_,
      fun x hx => hflush.transaction hx, fun c m hp => hflush.poll hp, fun hp => hflush.noPoll hp, ?_,
      (congrArg State.ct hflush.rest :), (congrArg State.nt hflush.rest :), (congrArg State.act hflush.rest :),
      (congrArg State.pru hflush.rest :), (congrArg State.pst hflush.rest :), (congrArg State.mgx hflush.rest :)⟩
    · by_cases hw : s.oq.hasWrite c = true
      · have hother := hquiet.resolve_left (by rw [hw]; decide)
        exact (hflush.of_quiet (y := s.ch c) ((hmem c).mpr hw) fun v hv => by
          have hch : v.ch c = s.ch c := hv.ch
          rw [State.flushedChannel_other (by rw [hch]; exact hother)]
          exact ⟨hch, rfl⟩).symm
      · have hfor := hflush.others c (mt (hmem c).mp hw)
        exact ⟨hfor.ch, (u.oq.writesOf_eq_nil c).mp hfor.writes⟩
    · refine hflush.of_quiet ((hmem c).mpr hw) fun v hv => ?_
      have hv' := State.flushed_releasing (s := v) (c := c) (by rw [hv.ch]; exact hd)
      rw [hv.ch, hv.entry] at hv'
      exact hv'
    · exact hflush.of_quiet ((hmem c).mpr hw) fun v hv => State.flushed_stopping (by rw [hv.ch]; exact hd)
    · exact hflush.moving (s := s.withFrames rest) hw hd hx
    · rw [hflush.outgoing]
      rfl
  · show execFlushOutput tag s = _
    refine State.takeCommand_respond htakes hlaw ?_
    rw [State.flush_of_noWrite (by exact hnone), show (s.withFrames rest).oq.writes = [] from hnone]
    rfl
  · have hflush := State.flush_of_waiting (s := s.withFrames rest) hone hc hi hd ht hr
    have hexec := exec_flushOutput htakes
    rw [hone] at hexec
    generalize (s.withFrames rest).flush = u at hflush hexec
    have hreports := u.respond_onlyReports tag cmdFlushOutput .ok [byteOf [w].length]
    have hch := hreports.ch c
    rw [congrArg (State.ch · c) hflush, State.ch_modCh_self] at hch
    have hgoal := ChannelCtx.rolledBack_atGoal (s.entry c) (s.ch c)
    refine ⟨_, hexec, hreports.channels.2.trans (by rw [hflush]; rfl), ?_, ?_, ?_, ?_, ?_, ?_⟩
    · rw [hch, ChannelCtx.tested]
      split <;> rfl
    · rw [hch, ChannelCtx.tested]
      split <;> rfl
    · rw [hch, ChannelCtx.tested]
      split <;> rfl
    · rw [hch]
      exact (ChannelCtx.tested_drive (by exact hd)).trans hgoal
    · rw [State.respond_outgoing, hflush]
      rfl
    · refine State.OnlyChannel.trans ?_ (hreports.onlyChannel c)
      rw [hflush]
      exact (State.emptied_onlyChannel (by exact hone) hc).trans (State.onlyChannel_modCh _ c _)

end Sys2Proof.Machine
end

