-- ==== Sys2Proof/Proofs/PresetEntries.lean ====
section
/-! PROOF. The entries of a preset list, reached one after the other (R151 to R153). -/

namespace Sys2Proof.Machine

variable {s s' t t' u v : State} {c d : ChannelNo} {k : Code} {p : PresetEntry} {a b m : Nat}

/-! ### States alike for a channel's engine -/

/-- All that the engine of channel `c` reads of a state when a target is set is in `t` as in `s`. -/
structure State.DriveAlike (c : ChannelNo) (s t : State) : Prop where
  ch : ∃ taken, t.ch c = { s.ch c with presetTaken := taken }
  entry : t.entry c = s.entry c
  bypass : t.mgx.slewBypass = s.mgx.slewBypass
  work : t.hasWork c = s.hasWork c
  granted : t.writeJustGranted c = s.writeJustGranted c
  isolate : t.oq.hasIsolate c = s.oq.hasIsolate c
  writes : t.oq.writesOf c = s.oq.writesOf c

theorem State.DriveAlike.refl (c : ChannelNo) (s : State) : State.DriveAlike c s s := ⟨⟨_, rfl⟩, rfl, rfl, rfl, rfl, rfl, rfl⟩

theorem State.DriveAlike.trans (h : State.DriveAlike c s t) (h' : State.DriveAlike c t u) : State.DriveAlike c s u := by
  obtain ⟨⟨taken, hch⟩, hentry, hbypass, hwork, hgranted, hisolate, hwrites⟩ := h
  obtain ⟨⟨taken', hch'⟩, hentry', hbypass', hwork', hgranted', hisolate', hwrites'⟩ := h'
  exact ⟨⟨taken', by rw [hch', hch]⟩, hentry'.trans hentry, hbypass'.trans hbypass, hwork'.trans hwork, hgranted'.trans hgranted,
    hisolate'.trans hisolate, hwrites'.trans hwrites⟩

theorem State.DriveAlike.symm (h : State.DriveAlike c s t) : State.DriveAlike c t s := by
  obtain ⟨⟨taken, hch⟩, hentry, hbypass, hwork, hgranted, hisolate, hwrites⟩ := h
  exact ⟨⟨(s.ch c).presetTaken, by rw [hch]⟩, hentry.symm, hbypass.symm, hwork.symm, hgranted.symm, hisolate.symm, hwrites.symm⟩

theorem OutputQueue.hasWrite_congr {q r : OutputQueue} (h : r.writesOf c = q.writesOf c) : r.hasWrite c = q.hasWrite c := by
  rw [Bool.eq_iff_iff, ← not_iff_not, Bool.not_eq_true, Bool.not_eq_true, ← OutputQueue.writesOf_eq_nil, ← OutputQueue.writesOf_eq_nil, h]

/-- The channel's work, read from its entries and the transaction in flight. -/
theorem State.hasWork_congr (hi : t.oq.hasIsolate c = s.oq.hasIsolate c) (hw : t.oq.writesOf c = s.oq.writesOf c) (hf : t.fbc = s.fbc) :
    t.hasWork c = s.hasWork c := by
  unfold State.hasWork OutputQueue.hasEntry State.writeInFlight State.isolateInFlight
  rw [hi, OutputQueue.hasWrite_congr hw, hf]

theorem State.DriveAlike.of_same (hch : ∃ taken, t.ch c = { s.ch c with presetTaken := taken }) (hct : t.ct = s.ct) (hmgx : t.mgx = s.mgx)
    (hf : t.fbc = s.fbc) (hi : t.oq.hasIsolate c = s.oq.hasIsolate c) (hw : t.oq.writesOf c = s.oq.writesOf c) :
    State.DriveAlike c s t where
  ch := hch
  entry := by rw [State.entry, State.entry, hct]
  bypass := by rw [hmgx]
  work := State.hasWork_congr hi hw hf
  granted := by rw [State.writeJustGranted, State.writeJustGranted, hf]
  isolate := hi
  writes := hw

/-- A change of one channel leaves the others' engines what they read. -/
theorem State.OnlyChannel.driveAlike (h : State.OnlyChannel c s t) (hne : d ≠ c) : State.DriveAlike d s t := by
  refine .of_same ⟨_, h.others d hne⟩ h.tables.1 h.units.2.2.1 h.field.1 ?_ ?_
  · have hmem : ∀ q : OutputQueue, q.hasIsolate d = true ↔ d ∈ q.isolates.filter fun x => x != c := fun q => by
      rw [OutputQueue.hasIsolate_iff, List.mem_filter, bne_iff_ne]
      exact (and_iff_left hne).symm
    rw [Bool.eq_iff_iff, hmem, hmem, h.isolates]
  · have hof : ∀ q : OutputQueue, q.writesOf d = (q.writes.filter fun w => !w.isOf c).filter (WriteEntry.isOf d) := fun q => by
      rw [List.filter_filter]
      refine List.filter_congr fun w _ => Bool.eq_iff_iff.mpr ?_
      simp only [WriteEntry.isOf, beq_iff_eq, Bool.and_eq_true, Bool.not_eq_true', beq_eq_false_iff_ne]
      exact ⟨fun e => ⟨e, fun ec => hne (e.symm.trans ec)⟩, And.left⟩
    rw [hof, hof, h.writes]

/-- The engine's answer to a target, read between states alike for it. -/
theorem State.TargetTaken.congr (h : State.TargetTaken c k s t) (hs : State.DriveAlike c s s') (ht : State.DriveAlike c t t') :
    State.TargetTaken c k s' t' := by
  obtain ⟨⟨_, hch⟩, hentry, hbypass, hwork, hgranted, hisolate, hwrites⟩ := hs
  obtain ⟨⟨_, hch'⟩, -, -, -, -, -, hwrites'⟩ := ht
  have hentries : s'.oq.hasEntry c = s.oq.hasEntry c := by
    rw [OutputQueue.hasEntry, OutputQueue.hasEntry, hisolate, OutputQueue.hasWrite_congr hwrites]
  have hhas := OutputQueue.hasWrite_congr hwrites
  obtain ⟨htarget, hstays, hgoal, hqueued, hflight, hat, hwaits, hsteps⟩ := h
  unfold State.driveStays at hstays
  constructor
  · rw [hch']; exact htarget
  · rw [State.driveStays, hch, hch', hwrites', hwrites]; exact hstays
  · rw [hch, hch']; exact hgoal
  · rw [hch, hch', hwrites', hwrites, hentry, hbypass, hisolate, hhas]; exact hqueued
  · rw [hch, hch', hwrites', hentry, hbypass, hentries, hwork, hgranted]; exact hflight
  · rw [hch, hch', hwrites', hentry, hwork]; exact hat
  · rw [hch, hch', hwrites', hwork]; exact hwaits
  · rw [hch, hch', hwrites', hentry, hbypass, hwork]; exact hsteps

/-! ### One entry -/

/-- A channel that an entry would set. -/
def State.presetFree (s : State) (c : ChannelNo) : Bool := (s.ch c).drive.takesSetpoints && !(s.ch c).presetTaken

/-- The part after an entry of the list is reached (R152). -/
def State.reach (s : State) (p : PresetEntry) : State :=
  if p.valid && s.presetFree p.channel then s.applySetpoint p.channel p.data false else s

theorem State.applyOrSkip_eq {i : Fin 64} (h : s.pru.nextIndex.val = i.val) : s.applyOrSkip = s.reach s.pru.list[i.val] := by
  unfold State.applyOrSkip State.reach State.presetFree
  rw [finOf?_eq_some h]
  simp only [Bool.and_assoc]

theorem State.reach_applied (hv : p.valid = true) (hf : s.presetFree p.channel = true) :
    s.reach p = s.applySetpoint p.channel p.data false := if_pos (by rw [hv, hf]; rfl)

theorem State.reach_skipped (h : ¬ (p.valid = true ∧ s.presetFree p.channel = true)) : s.reach p = s :=
  if_neg fun hb => h (Bool.and_eq_true _ _ ▸ hb)

theorem State.applySetpoint_frame (s : State) (c : ChannelNo) (data : Code) (takes : Bool) :
    State.OnlyChannel c s (s.applySetpoint c data takes) ∧
      (s.applySetpoint c data takes).clp = s.clp ∧ (s.applySetpoint c data takes).rq = s.rq := by
  rw [State.applySetpoint_eq]
  have hdrives := State.Drives.targetNotice (s.modCh c (ChannelCtx.targeted (s.entry c) data takes)) c
  exact ⟨(s.onlyChannel_modCh c _).trans hdrives.frame, hdrives.reports⟩

/-- The target, its clamping and the mark of the list after a preset entry (R14, R152). -/
theorem State.applySetpoint_preset (s : State) (c : ChannelNo) (data : Code) :
    ((s.applySetpoint c data false).ch c).target = some (calibrate (s.entry c) data).1 ∧
      ((s.applySetpoint c data false).ch c).clamped = (calibrate (s.entry c) data).2 ∧
      ((s.applySetpoint c data false).ch c).presetTaken = (s.ch c).presetTaken := by
  have hmoves := (State.Drives.targetNotice (s.modCh c (ChannelCtx.targeted (s.entry c) data false)) c).moves.1
  rw [State.ch_modCh_self, ← State.applySetpoint_eq] at hmoves
  rw [hmoves]
  exact ⟨rfl, rfl, Bool.or_false _⟩

theorem State.applySetpoint_takesSetpoints (s : State) (c : ChannelNo) (data : Code) (takes : Bool) :
    ((s.applySetpoint c data takes).ch c).drive.takesSetpoints = (s.ch c).drive.takesSetpoints := by
  by_cases h : (s.ch c).action = .none ∧ ((s.ch c).drive = .moving ∨ (s.ch c).drive = .steady)
  · obtain ⟨ha, hd⟩ := h
    have hmid : ((s.modCh c (ChannelCtx.targeted (s.entry c) data takes)).ch c).drive = (s.ch c).drive := by
      rw [State.ch_modCh_self]
      rfl
    rw [State.applySetpoint_driving ha hd]
    have hleft : (s.ch c).drive.takesSetpoints = true := by rcases hd with hd | hd <;> rw [hd] <;> rfl
    rcases State.setGoal_drive (s.modCh c (ChannelCtx.targeted (s.entry c) data takes)) c (some (calibrate (s.entry c) data).1)
      (by rw [hmid]; exact hd) with h | h <;> rw [h, hleft] <;> rfl
  · rw [State.applySetpoint_other ((not_and_or.mp h).imp id not_or.mp), State.ch_modCh_self]
    rfl

theorem State.applySetpoint_presetFree (s : State) (c d : ChannelNo) (data : Code) :
    (s.applySetpoint c data false).presetFree d = s.presetFree d := by
  unfold State.presetFree
  by_cases h : d = c
  · rw [h, State.applySetpoint_takesSetpoints, (s.applySetpoint_preset c data).2.2]
  · rw [(s.applySetpoint_frame c data false).1.others d h]

theorem State.reach_presetFree (s : State) (p : PresetEntry) (d : ChannelNo) : (s.reach p).presetFree d = s.presetFree d := by
  unfold State.reach
  split
  · exact s.applySetpoint_presetFree _ _ _
  · rfl

theorem State.reach_frame (s : State) (p : PresetEntry) :
    State.OnlyChannel p.channel s (s.reach p) ∧ (s.reach p).clp = s.clp ∧ (s.reach p).rq = s.rq := by
  unfold State.reach
  split
  · exact s.applySetpoint_frame _ _ _
  · exact ⟨.refl _ s, rfl, rfl⟩

/-! ### Several entries -/

/-- No entry of the list with an index from `a` and below `b` would set the channel. -/
def State.noEntryIn (s : State) (a b : Nat) (c : ChannelNo) : Prop :=
  ∀ i : Fin 64, a ≤ i.val → i.val < b → s.pru.list[i.val].valid = true → s.pru.list[i.val].channel ≠ c

/-- From `s` to `t` the entries with the indices from `a` and below `b` have been reached. -/
structure State.Reached (a b : Nat) (s t : State) : Prop where
  list : t.pru.list = s.pru.list
  free : ∀ c, t.presetFree c = s.presetFree c
  idle : ∀ c, s.presetFree c = false ∨ s.noEntryIn a b c → t.ch c = s.ch c ∧ State.DriveAlike c s t
  set : ∀ (i : Fin 64) (p : PresetEntry), a ≤ i.val → i.val < b → s.pru.list[i.val] = p → p.valid = true →
    s.presetFree p.channel = true → s.noEntryIn (i.val + 1) b p.channel →
    (t.ch p.channel).target = some (calibrate (s.entry p.channel) p.data).1 ∧
      (t.ch p.channel).clamped = (calibrate (s.entry p.channel) p.data).2 ∧
      (s.noEntryIn a i.val p.channel → State.TargetTaken p.channel (calibrate (s.entry p.channel) p.data).1 s t)
  taken : ∀ c, (t.ch c).presetTaken = (s.ch c).presetTaken
  frame : s.OnlyReports { t with ctx := s.ctx, oq := s.oq, pru := s.pru }

theorem State.OnlyReports.besidePresets (h : s.OnlyReports t) (ctx : Vector ChannelCtx 24) (q : OutputQueue) (x : PresetUnit) :
    State.OnlyReports { s with ctx := ctx, oq := q, pru := x } { t with ctx := ctx, oq := q, pru := x } where
  link := h.link
  tables := h.tables
  channels := ⟨rfl, rfl⟩
  field := h.field
  units := ⟨h.units.1, rfl, h.units.2.2.1, h.units.2.2.2⟩
  waiting := h.waiting
  pairs := h.pairs

theorem State.noEntryIn_congr (h : t.pru.list = s.pru.list) : t.noEntryIn a b c ↔ s.noEntryIn a b c := by
  unfold State.noEntryIn
  rw [h]

theorem State.noEntryIn.mono {a' b' : Nat} (h : s.noEntryIn a b c) (ha : a ≤ a') (hb : b' ≤ b) : s.noEntryIn a' b' c :=
  fun i h1 h2 => h i (ha.trans h1) (h2.trans_le hb)

/-- First the entries below `m`, then the others. -/
theorem State.Reached.trans (h : State.Reached a m s u) (h' : State.Reached m b u t) (ha : a ≤ m) (hb : m ≤ b) :
    State.Reached a b s t where
  list := h'.list.trans h.list
  free c := (h'.free c).trans (h.free c)
  idle c hc := by
    obtain ⟨hch, halike⟩ := h.idle c (hc.imp_right fun hn => hn.mono le_rfl hb)
    obtain ⟨hch', halike'⟩ := h'.idle c (by
      rw [h.free]
      exact hc.imp_right fun hn => (State.noEntryIn_congr h.list).mpr (hn.mono ha le_rfl))
    exact ⟨hch'.trans hch, halike.trans halike'⟩
  set i p hai hib hp hv hf hlast := by
    by_cases him : i.val < m
    · obtain ⟨htarget, hclamped, htaken⟩ := h.set i p hai him hp hv hf (hlast.mono le_rfl hb)
      obtain ⟨hch, halike⟩ := h'.idle p.channel (Or.inr ((State.noEntryIn_congr h.list).mpr (hlast.mono him le_rfl)))
      rw [hch]
      exact ⟨htarget, hclamped, fun hfirst => (htaken hfirst).congr (.refl _ s) halike⟩
    · have hmi : m ≤ i.val := Nat.le_of_not_lt him
      have hentry : u.entry p.channel = s.entry p.channel := by rw [State.entry, State.entry, (h.frame.tables.1 : u.ct = s.ct)]
      obtain ⟨htarget, hclamped, htaken⟩ := h'.set i p hmi hib (by rw [h.list]; exact hp) hv ((h.free _).trans hf)
        ((State.noEntryIn_congr h.list).mpr hlast)
      rw [hentry] at htarget hclamped htaken
      refine ⟨htarget, hclamped, fun hfirst => ?_⟩
      obtain ⟨hch, halike⟩ := h.idle p.channel (Or.inr (hfirst.mono le_rfl hmi))
      exact (htaken ((State.noEntryIn_congr h.list).mpr (hfirst.mono ha le_rfl))).congr halike.symm (.refl _ t)
  taken c := (h'.taken c).trans (h.taken c)
  frame := h.frame.trans (h'.frame.besidePresets s.ctx s.oq s.pru)

theorem State.DriveAlike.setPru (c : ChannelNo) (s : State) (x : PresetUnit) : State.DriveAlike c (s.setPru x) s :=
  .of_same ⟨_, rfl⟩ rfl rfl rfl rfl rfl

/-- What happens to the reports after the entries is beside the point. -/
theorem State.Reached.reports {x : PresetUnit} (h : State.Reached a b s v) (hx : x.list = s.pru.list) (ht : (v.setPru x).OnlyReports t) :
    State.Reached a b s t := by
  have hctx : ∀ c, t.ch c = v.ch c := ht.ch
  have halike : ∀ c, State.DriveAlike c v t := fun c =>
    .of_same ⟨_, ht.ch c⟩ ht.tables.1 ht.units.2.2.1 ht.field.1 (by rw [ht.channels.2]; rfl) (by rw [ht.channels.2]; rfl)
  refine ⟨by rw [ht.units.2.1]; exact hx, fun c => ?_, fun c hc => ?_, fun i p h1 h2 hp hv hf hlast => ?_, fun c => ?_,
    h.frame.trans (ht.besidePresets s.ctx s.oq s.pru)⟩
  · rw [State.presetFree, hctx]
    exact h.free c
  · rw [hctx]
    exact ⟨(h.idle c hc).1, (h.idle c hc).2.trans (halike c)⟩
  · rw [hctx]
    obtain ⟨htarget, hclamped, htaken⟩ := h.set i p h1 h2 hp hv hf hlast
    exact ⟨htarget, hclamped, fun hfirst => (htaken hfirst).congr (.refl _ s) (halike _)⟩
  · rw [hctx]
    exact h.taken c

/-- The unit's own registers are beside the point, too. -/
theorem State.Reached.of_setPru {x : PresetUnit} (h : State.Reached a b (s.setPru x) t) (hx : x.list = s.pru.list) :
    State.Reached a b s t := by
  have hentries : ∀ a b c, (s.setPru x).noEntryIn a b c ↔ s.noEntryIn a b c := fun _ _ _ => State.noEntryIn_congr hx
  refine ⟨h.list.trans hx, h.free, fun c hc => ?_, fun i p h1 h2 hp hv hf hlast => ?_, h.taken, h.frame.besidePresets s.ctx s.oq s.pru⟩
  · obtain ⟨hch, halike⟩ := h.idle c (hc.imp_right (hentries a b c).mpr)
    exact ⟨hch, (State.DriveAlike.setPru c s x).symm.trans halike⟩
  · obtain ⟨htarget, hclamped, htaken⟩ := h.set i p h1 h2 ((congrArg (fun l : Vector PresetEntry 64 => l[i.val]) hx).trans hp) hv hf
      ((hentries _ _ _).mpr hlast)
    exact ⟨htarget, hclamped, fun hfirst => (htaken ((hentries _ _ _).mpr hfirst)).congr (.setPru _ s x) (.refl _ t)⟩

/-- One entry (R152). -/
theorem State.reached_one {i : Fin 64} (s : State) (x : PresetUnit) (hx : x.list = s.pru.list) :
    State.Reached i.val (i.val + 1) s ((s.reach s.pru.list[i.val]).setPru x) := by
  have hself : ∀ j : Fin 64, i.val ≤ j.val → j.val < i.val + 1 → j.val = i.val := fun j h1 h2 => by omega
  obtain ⟨honly, -⟩ := s.reach_frame s.pru.list[i.val]
  refine ⟨hx, fun c => s.reach_presetFree _ c, fun c hc => ?_, fun j p h1 h2 hp hv hf _ => ?_, fun c => ?_,
    ⟨honly.link, honly.tables, ⟨rfl, rfl⟩, honly.field, ⟨honly.units.1, rfl, honly.units.2.2⟩, honly.waiting, honly.pairs⟩⟩
  · by_cases hsame : c = s.pru.list[i.val].channel
    · have hskip : s.reach s.pru.list[i.val] = s := State.reach_skipped fun hb => by
        rcases hc with hc | hc
        · rw [hsame, hb.2] at hc
          exact Bool.false_ne_true hc.symm
        · exact hc i le_rfl (Nat.lt_succ_self _) hb.1 hsame.symm
      rw [hskip]
      exact ⟨rfl, ⟨_, rfl⟩, rfl, rfl, rfl, rfl, rfl, rfl⟩
    · have halike := honly.driveAlike hsame
      exact ⟨honly.others c hsame, halike.trans ⟨⟨_, rfl⟩, rfl, rfl, rfl, rfl, rfl, rfl⟩⟩
  · obtain rfl : s.pru.list[i.val] = p := by rw [← hp]; simp only [hself j h1 h2]
    rw [State.reach_applied hv hf]
    obtain ⟨htarget, hclamped, -⟩ := s.applySetpoint_preset s.pru.list[i.val].channel s.pru.list[i.val].data
    exact ⟨htarget, hclamped, fun _ => (s.applySetpoint_targetTaken _ _ false).congr (.refl _ s)
      ⟨⟨_, rfl⟩, rfl, rfl, rfl, rfl, rfl, rfl⟩⟩
  · show ((s.reach s.pru.list[i.val]).ch c).presetTaken = _
    by_cases hsame : c = s.pru.list[i.val].channel
    · by_cases hb : s.pru.list[i.val].valid = true ∧ s.presetFree s.pru.list[i.val].channel = true
      · rw [State.reach_applied hb.1 hb.2, hsame, (s.applySetpoint_preset _ _).2.2]
      · rw [State.reach_skipped hb]
    · rw [honly.others c hsame]

/-! ### The reaching of a span -/

/-- The apply is over: the unit goes to IDLE and offers PRESET_DONE (R154). -/
def State.applyEnds (s : State) : State := (s.setPru s.pru.ended).offerPart .presetDone

theorem State.reach_pru (s : State) (p : PresetEntry) : (s.reach p).pru = s.pru := (s.reach_frame p).1.units.2.1

theorem State.reachEntries_succ {i : Fin 64} (fuel : Nat) (hi : s.pru.nextIndex.val = i.val) :
    State.reachEntries (fuel + 1) s =
      if s.pru.advance.remaining = 0 then ((s.reach s.pru.list[i.val]).setPru s.pru.advance).applyEnds
      else if s.mgx.config.presetSpacing = 0 then
        State.reachEntries fuel ((s.reach s.pru.list[i.val]).setPru s.pru.advance)
      else (s.reach s.pru.list[i.val]).setPru
        { s.pru.advance with spacingTimer := .running (s.mgx.config.presetSpacing.val * 1000) } := by
  have hmgx := (s.reach_frame s.pru.list[i.val]).1.units.2.2.1
  rw [State.reachEntries, State.applyOrSkip_eq hi]
  dsimp only
  rw [s.reach_pru, show ((s.reach s.pru.list[i.val]).setPru s.pru.advance).mgx = s.mgx from hmgx]
  rfl

theorem PresetUnit.advance_nextIndex (x : PresetUnit) {i : Fin 64} (h : x.nextIndex.val = i.val) :
    x.advance.nextIndex.val = i.val + 1 := by
  have hne : x.nextIndex ≠ 64 := fun e => by
    rw [e] at h
    have : (64 : Fin 65).val = 64 := rfl
    omega
  unfold PresetUnit.advance
  rw [if_neg hne]
  have hadd : (x.nextIndex + 1).val = (x.nextIndex.val + 1) % 65 := Fin.val_add _ _
  show (x.nextIndex + 1).val = i.val + 1
  omega

/-- How a reaching leaves the unit: at `b` with `r` entries left, over or waiting for the spacing timer. -/
structure State.ReachEnds (b r : Nat) (s v w : State) : Prop where
  frame : (v.setPru w.pru).OnlyReports w
  list : w.pru.list = s.pru.list
  nextIndex : w.pru.nextIndex.val = b
  remaining : w.pru.remaining.val = r
  ended : r = 0 → w.pru.state = .idle ∧ w.pru.spacingTimer = .stopped ∧ w.outgoing = s.clp.tx.toList ++ partPlaced s.rq .presetDone
  goesOn : r ≠ 0 → w.pru.state = s.pru.state ∧ w.pru.spacingTimer = .running (s.mgx.config.presetSpacing.val * 1000) ∧
    w.outgoing = s.outgoing
/-- The last entry of a span (R154). -/
theorem State.applyEnds_ends (hlaw : s.TransmitterLaw) (hlist : v.pru.list = s.pru.list) (hreports : v.clp = s.clp ∧ v.rq = s.rq)
    (hnext : v.pru.nextIndex.val = b) (hleft : v.pru.remaining.val = 0) : State.ReachEnds b 0 s v v.applyEnds := by
  have honly := State.offerPart_onlyReports (v.setPru v.pru.ended) .presetDone
  have hpru : v.applyEnds.pru = v.pru.ended := honly.units.2.1
  refine ⟨by rw [hpru]; exact honly, by rw [hpru]; exact hlist, by rw [hpru]; exact hnext, by rw [hpru]; exact hleft, fun _ => ?_,
    fun h => absurd rfl h⟩
  rw [hpru]
  have hends : (v.setPru v.pru.ended).TransmitterLaw := hlaw.congr (congrArg LinkPort.tx hreports.1) hreports.2
  refine ⟨rfl, rfl, (State.offerPart_outgoing hends _).trans ?_⟩
  rw [show (v.setPru v.pru.ended).clp = v.clp from rfl, show (v.setPru v.pru.ended).rq = v.rq from rfl, hreports.1, hreports.2]

theorem decr_val {n : Nat} (i : Fin n) : (decr i).val = i.val - 1 := rfl

/-- One entry is reached: the spacing timer runs between two entries, or it is the last of the span (R151, R154). -/
theorem State.reachEntries_one {i : Fin 64} {n : Nat} (fuel : Nat) (hlaw : s.TransmitterLaw) (hi : s.pru.nextIndex.val = i.val)
    (hn : s.pru.remaining.val = n) (hone : s.mgx.config.presetSpacing ≠ 0 ∨ n = 1) :
    ∃ v, State.Reached i.val (i.val + 1) s v ∧ State.ReachEnds (i.val + 1) (n - 1) s v (State.reachEntries (fuel + 1) s) ∧
      v = (s.reach s.pru.list[i.val]).setPru s.pru.advance := by
  have hreached := s.reached_one (i := i) s.pru.advance rfl
  have hreports := (s.reach_frame s.pru.list[i.val]).2
  have hnext := s.pru.advance_nextIndex hi
  have hleft : s.pru.advance.remaining.val = n - 1 := by rw [← hn]; rfl
  refine ⟨_, hreached, ?_, rfl⟩
  rw [State.reachEntries_succ fuel hi]
  by_cases hlast : n - 1 = 0
  · rw [if_pos (Fin.ext (hleft.trans hlast)), hlast]
    exact State.applyEnds_ends hlaw rfl hreports hnext (hleft.trans hlast)
  · have hspaced : s.mgx.config.presetSpacing ≠ 0 := hone.resolve_right fun e => hlast (by rw [e])
    rw [if_neg fun e => hlast (hleft.symm.trans (congrArg Fin.val e)), if_neg hspaced]
    refine ⟨.refl _, rfl, hnext, hleft, fun e => absurd e hlast, fun _ => ⟨rfl, rfl, ?_⟩⟩
    exact State.outgoing_of_same (congrArg LinkPort.tx hreports.1) hreports.2

/-- With spacing 0 the whole span is reached (R153). -/
theorem State.reachEntries_all : ∀ {fuel n a : Nat} {s : State}, s.TransmitterLaw → s.pru.nextIndex.val = a → s.pru.remaining.val = n →
    1 ≤ n → n ≤ fuel → a + n ≤ 64 → s.mgx.config.presetSpacing = 0 →
    ∃ v, State.Reached a (a + n) s v ∧ State.ReachEnds (a + n) 0 s v (State.reachEntries fuel s)
  | 0, n, _, _, _, _, _, h1, h2, _, _ => absurd (h1.trans h2) (by omega)
  | fuel + 1, n, a, s, hlaw, ha, hn, h1, h2, h3, hspacing => by
    obtain ⟨i, hi⟩ : ∃ i : Fin 64, i.val = a := ⟨⟨a, by omega⟩, rfl⟩
    subst hi
    by_cases hone : n = 1
    · obtain ⟨v, hreached, hends, -⟩ := State.reachEntries_one fuel hlaw ha hn (Or.inr hone)
      rw [hone] at hends ⊢
      exact ⟨v, hreached, hends⟩
    · have hfirst := s.reached_one (i := i) s.pru.advance rfl
      have hreports := (s.reach_frame s.pru.list[i.val]).2
      have hmore : ¬ s.pru.advance.remaining = 0 := fun e => by
        have := congrArg Fin.val e
        have hleft : s.pru.advance.remaining.val = n - 1 := by rw [← hn]; rfl
        rw [hleft] at this
        have hzero : (0 : Fin 65).val = 0 := rfl
        omega
      rw [State.reachEntries_succ fuel ha, if_neg hmore, if_pos hspacing]
      obtain ⟨v, hrest, hends⟩ := State.reachEntries_all (fuel := fuel) (n := n - 1)
        (s := (s.reach s.pru.list[i.val]).setPru s.pru.advance)
        (hlaw.congr (congrArg LinkPort.tx hreports.1) hreports.2) (s.pru.advance_nextIndex ha)
        ((decr_val s.pru.remaining).trans (by rw [hn])) (by omega) (by omega) (by omega)
        ((congrArg (fun x : Executor => x.config.presetSpacing) (s.reach_frame _).1.units.2.2.1).trans hspacing)
      rw [show i.val + 1 + (n - 1) = i.val + n by omega] at hrest hends
      refine ⟨v, hfirst.trans hrest (by omega) (by omega), hends.frame, hends.list, hends.nextIndex, hends.remaining, fun _ => ?_,
        fun h => absurd rfl h⟩
      obtain ⟨hstate, htimer, hout⟩ := hends.ended rfl
      exact ⟨hstate, htimer, by exact hout.trans (by rw [← hreports.1, ← hreports.2]; rfl)⟩

end Sys2Proof.Machine
end

