-- ==== Sys2Proof/Proofs/Presets.lean ====
section
/-! PROOF. APPLY_PRESET and the expiry of the preset spacing timer (R150 to R154). -/

namespace Sys2Proof.Machine

variable {s t u v w : State} {c d : ChannelNo} {k : Code} {p : PresetEntry} {a b r : Nat}

/-! ### The spacing timer -/

/-- The spacing timer has expired: nothing of it is left. -/
def State.spacingOver (s : State) : State := s.setPru { s.pru with spacingTimer := .stopped }

theorem exec_presetSpacingExpiry (hstate : s.pru.state = .applying) (ht : s.pru.spacingTimer.isRunning = true) :
    exec .presetSpacingExpiry s = .next (State.reachEntries 64 s.spacingOver).beginTransmission := by
  show s.event (s.pru.spacingTimer.isRunning && s.pru.state == .applying) (fun s => State.reachEntries 64 s.spacingOver) = _
  rw [ht, hstate]
  rfl

theorem State.ReachEnds.next (h : State.ReachEnds b r s v w) : (v.setPru w.pru).OnlyReports w.beginTransmission :=
  h.frame.trans w.beginTransmission_onlyReports

theorem State.presetFree_iff (s : State) (c : ChannelNo) :
    s.presetFree c = true ↔ (s.ch c).drive.takesSetpoints = true ∧ (s.ch c).presetTaken = false := by
  rw [State.presetFree, Bool.and_eq_true, Bool.not_eq_true']

theorem State.presetFree_eq_false (s : State) (c : ChannelNo) :
    s.presetFree c = false ↔ (s.ch c).drive.takesSetpoints = false ∨ (s.ch c).presetTaken = true := by
  rw [State.presetFree, Bool.and_eq_false_iff, Bool.not_eq_false']

theorem State.noEntryIn_empty (s : State) (a : Nat) (c : ChannelNo) : s.noEntryIn a a c := fun _ h1 h2 => absurd (h1.trans_lt h2) (lt_irrefl a)

/-- The other channels of the one entry reached. -/
theorem State.reach_next {x y : PresetUnit} (h : (((s.setPru x).reach p).setPru y).OnlyReports t) :
    State.OnlyChannel p.channel s { t with pru := s.pru } := by
  obtain ⟨honly, -⟩ := (s.setPru x).reach_frame p
  have hback : State.OnlyChannel p.channel s (((s.setPru x).reach p).setPru s.pru) :=
    ⟨honly.others, honly.isolates, honly.writes, honly.link, honly.tables, honly.field, ⟨honly.units.1, rfl, honly.units.2.2⟩,
      honly.waiting, honly.pairs⟩
  exact hback.trans ((h.setPru s.pru).onlyChannel p.channel)

/-- Settles O37: with a spacing one entry is reached, without one all that are left. -/
theorem presetSpacingExpiryReachesEntries : Obligations.PresetSpacingExpiryReachesEntries := by
  refine ⟨fun k p s hlaw hstate htimer hnext hp hleft hspacing => ?_, fun s hlaw hstate htimer hleft hspan hspacing => ?_⟩
  · obtain ⟨v, hreached, hends, hv⟩ := State.reachEntries_one (s := s.spacingOver) (i := k) (n := s.pru.remaining.val) 63
      (hlaw.congr rfl rfl) hnext rfl (Or.inl hspacing)
    have hexec := exec_presetSpacingExpiry hstate htimer
    generalize State.reachEntries 64 s.spacingOver = w at hexec hends
    have hnext := hends.next
    have hpru : w.beginTransmission.pru = w.pru := hnext.units.2.1
    have hall := (hreached.reports hends.list hnext).of_setPru rfl
    subst hp
    have hfree := s.presetFree_iff s.pru.list[k.val].channel
    refine ⟨_, hexec, ?_, ?_, ?_, fun hone => ?_, fun hmore => ?_, fun hset => ?_, fun hskip => ?_, ?_⟩
    · rw [hpru]; exact hends.list
    · rw [hpru]; exact hends.nextIndex
    · rw [hpru]; exact hends.remaining
    · rw [hpru, w.beginTransmission_outgoing]
      exact hends.ended (by rw [hone])
    · obtain ⟨h1, h2, h3⟩ := hends.goesOn (by omega)
      rw [hpru, w.beginTransmission_outgoing]
      exact ⟨h1.trans hstate, h2, h3⟩
    · obtain ⟨hvalid, htakes, htaken⟩ := hset
      obtain ⟨htarget, hclamped, hdrive⟩ := hall.set k _ le_rfl (Nat.lt_succ_self _) rfl hvalid (hfree.mpr ⟨htakes, htaken⟩)
        (s.noEntryIn_empty _ _)
      exact ⟨htarget, hclamped, (hall.taken _).trans htaken, hdrive (s.noEntryIn_empty _ _)⟩
    · have hsame : v = s.spacingOver.setPru s.spacingOver.pru.advance := by
        rw [hv]
        exact congrArg (fun u : State => u.setPru _) (State.reach_skipped fun hb => hskip ⟨hb.1, hfree.mp hb.2⟩)
      rw [hnext.channels.1, hnext.channels.2, hsame]
      exact ⟨rfl, rfl⟩
    · rw [hv] at hnext
      exact State.reach_next hnext
  · obtain ⟨v, hreached, hends⟩ := State.reachEntries_all (s := s.spacingOver) (fuel := 64)
      (hlaw.congr rfl rfl) rfl rfl hleft (by omega) hspan hspacing
    have hexec := exec_presetSpacingExpiry hstate htimer
    generalize State.reachEntries 64 s.spacingOver = w at hexec hends
    have hnext := hends.next
    have hpru : w.beginTransmission.pru = w.pru := hnext.units.2.1
    have hall := (hreached.reports hends.list hnext).of_setPru rfl
    obtain ⟨hidle, hstopped, hout⟩ := hends.ended rfl
    refine ⟨_, hexec, hall.list, ?_, ?_, ?_, ?_, ?_, fun c hc => ?_, fun k p h1 h2 hp hvalid htakes htaken hlast => ?_, hall.frame⟩
    · rw [hpru]; exact hidle
    · rw [hpru]; exact hends.nextIndex
    · rw [hpru]; exact Fin.ext hends.remaining
    · rw [hpru]; exact hstopped
    · rw [w.beginTransmission_outgoing]; exact hout
    · exact (hall.idle c (by rw [s.presetFree_eq_false, or_assoc]; exact hc)).1
    · obtain ⟨htarget, hclamped, hdrive⟩ := hall.set k p h1 h2 hp hvalid ((s.presetFree_iff _).mpr ⟨htakes, htaken⟩)
        fun j hj => hlast j hj
      exact ⟨htarget, hclamped, (hall.taken _).trans htaken, fun hfirst => hdrive fun j hja hjk => hfirst j hjk hja⟩

/-! ### The command -/

/-- The part as an accepted APPLY_PRESET finds it: no channel has a setpoint since, and the span is set (R150, R152). -/
@[irreducible] def State.spanSet (s : State) (a n : Fin 65) : State :=
  (s.modAll fun x => { x with presetTaken := false }).setPru { s.pru with state := .applying, nextIndex := a, remaining := n }

@[simp] theorem State.spanSet_ch (s : State) (a n : Fin 65) (c : ChannelNo) :
    (s.spanSet a n).ch c = { s.ch c with presetTaken := false } := by
  unfold State.spanSet
  rw [State.ch_setPru, State.ch_modAll]

@[simp] theorem State.spanSet_pru (s : State) (a n : Fin 65) :
    (s.spanSet a n).pru = { s.pru with state := .applying, nextIndex := a, remaining := n } := by
  unfold State.spanSet
  rw [State.pru_setPru]

/-- The channels and the unit apart, the part is as it was. -/
theorem State.spanSet_rest (s : State) (a n : Fin 65) : { s.spanSet a n with ctx := s.ctx, oq := s.oq, pru := s.pru } = s := by
  unfold State.spanSet
  cases s
  rfl

theorem State.spanSet_same (s : State) (a n : Fin 65) : (s.spanSet a n).clp = s.clp ∧ (s.spanSet a n).rq = s.rq ∧
    (s.spanSet a n).ct = s.ct ∧ (s.spanSet a n).mgx = s.mgx ∧ (s.spanSet a n).fbc = s.fbc ∧ (s.spanSet a n).oq = s.oq := by
  unfold State.spanSet
  simp

theorem State.spanSet_driveAlike (s : State) (a n : Fin 65) (c : ChannelNo) : State.DriveAlike c (s.spanSet a n) s := by
  obtain ⟨-, -, hct, hmgx, hfbc, hoq⟩ := s.spanSet_same a n
  refine .of_same ⟨(s.ch c).presetTaken, ?_⟩ hct.symm hmgx.symm hfbc.symm (by rw [hoq]) (by rw [hoq])
  rw [s.spanSet_ch]

theorem State.spanSet_presetFree (s : State) (a n : Fin 65) (c : ChannelNo) :
    (s.spanSet a n).presetFree c = (s.ch c).drive.takesSetpoints := by
  rw [State.presetFree, s.spanSet_ch]
  exact Bool.and_true _

/-- The entries reached after an accepted command, read beside the state before it. -/
theorem State.Reached.of_spanSet {rest : List (List Byte)} {i n : Fin 65} (h : State.Reached a b ((s.withFrames rest).spanSet i n) t) :
    (∀ c, (s.ch c).drive.takesSetpoints = false ∨ s.noEntryIn a b c → t.ch c = { s.ch c with presetTaken := false }) ∧
    ∀ (k : Fin 64) (p : PresetEntry), a ≤ k.val → k.val < b → s.pru.list[k.val] = p → p.valid = true →
      (s.ch p.channel).drive.takesSetpoints = true → s.noEntryIn (k.val + 1) b p.channel →
      (t.ch p.channel).target = some (calibrate (s.entry p.channel) p.data).1 ∧
        (t.ch p.channel).clamped = (calibrate (s.entry p.channel) p.data).2 ∧
        (s.noEntryIn a k.val p.channel → State.TargetTaken p.channel (calibrate (s.entry p.channel) p.data).1 s t) := by
  have hlist : ((s.withFrames rest).spanSet i n).pru.list = s.pru.list := by rw [State.spanSet_pru]; rfl
  have hentry : ∀ c, ((s.withFrames rest).spanSet i n).entry c = s.entry c := fun c =>
    ((s.withFrames rest).spanSet_driveAlike i n c).entry.symm
  have hfree := (s.withFrames rest).spanSet_presetFree i n
  refine ⟨fun c hc => ?_, fun k p h1 h2 hp hv hsets hlast => ?_⟩
  · have hidle := h.idle c (hc.imp (hfree c).trans (State.noEntryIn_congr hlist).mpr)
    exact hidle.1.trans ((s.withFrames rest).spanSet_ch i n c)
  · obtain ⟨htarget, hclamped, htaken⟩ := h.set k p h1 h2 (by rw [hlist]; exact hp) hv ((hfree _).trans hsets)
      ((State.noEntryIn_congr hlist).mpr hlast)
    rw [hentry] at htarget hclamped htaken
    have halike : State.DriveAlike p.channel ((s.withFrames rest).spanSet i n) s :=
      ((s.withFrames rest).spanSet_driveAlike i n p.channel).trans ⟨⟨_, rfl⟩, rfl, rfl, rfl, rfl, rfl, rfl⟩
    exact ⟨htarget, hclamped, fun hfirst => (htaken ((State.noEntryIn_congr hlist).mpr hfirst)).congr halike (.refl _ t)⟩

theorem State.startApply_eq {start count : Byte} {a n : Fin 65} (ha : start.toNat = a.val) (hn : count.toNat = n.val) :
    s.startApply start count = State.reachEntries 64 (s.spanSet a n) := by
  unfold State.startApply
  rw [finOf?_eq_some ha, finOf?_eq_some hn]
  unfold State.spanSet
  rfl

/-- How many entries of a span of `n` are reached at once (R151, R153). -/
def State.reachedAtOnce (s : State) (n : Nat) : Nat := if s.mgx.config.presetSpacing = 0 then n else 1

/-- The entries that are reached at once, and how they leave the unit. -/
theorem State.reachEntries_span {n : Nat} (hlaw : s.TransmitterLaw) (ha : s.pru.nextIndex.val = a) (hn : s.pru.remaining.val = n)
    (h1 : 1 ≤ n) (h64 : a + n ≤ 64) : ∃ v, State.Reached a (a + s.reachedAtOnce n) s v ∧
      State.ReachEnds (a + s.reachedAtOnce n) (n - s.reachedAtOnce n) s v (State.reachEntries 64 s) := by
  unfold State.reachedAtOnce
  by_cases hspacing : s.mgx.config.presetSpacing = 0
  · rw [if_pos hspacing, Nat.sub_self]
    exact State.reachEntries_all hlaw ha hn h1 (by omega) h64 hspacing
  · rw [if_neg hspacing]
    obtain ⟨v, hreached, hends, -⟩ := State.reachEntries_one (i := ⟨a, by omega⟩) 63 hlaw ha hn (Or.inl hspacing)
    exact ⟨v, hreached, hends⟩

theorem exec_applyPreset_refused {tag start count : Byte} {rest : List (List Byte)} {refusal : Completion} (hlaw : s.TransmitterLaw)
    (htakes : s.Takes (.applyPreset tag start count) rest) (h : s.applyRefusal start count = some refusal) :
    exec (.applyPreset tag start count) s = .next ((s.withFrames rest).sends (answer tag 0x0C refusal [])) := by
  show execApplyPreset tag start count s = _
  refine State.takeCommand_respond htakes hlaw ?_
  rw [show (s.withFrames rest).applyRefusal start count = some refusal from h]
  rfl

theorem exec_applyPreset_accepted {tag start count : Byte} {rest : List (List Byte)}
    (htakes : s.Takes (.applyPreset tag start count) rest) (h : s.applyRefusal start count = none) :
    exec (.applyPreset tag start count) s =
      .next (((s.withFrames rest).startApply start count).respond tag 0x0C .ok []).beginTransmission := by
  show execApplyPreset tag start count s = _
  rw [execApplyPreset, State.takeCommand_of_takes htakes, show (s.withFrames rest).applyRefusal start count = none from h]
  rfl

theorem State.applyRefusal_idle (hidle : s.pru.state = .idle) (start count : Byte) : s.applyRefusal start count =
    if count = 0 then some .badValue else if 64 < start.toNat + count.toNat then some .badIndex else none :=
  if_neg (by rw [hidle]; decide)

/-- What an accepted APPLY_PRESET does (R150 to R154). -/
theorem exec_applyPreset {tag start count : Byte} {rest : List (List Byte)} {a n : Fin 65} (hlaw : s.TransmitterLaw)
    (htakes : s.Takes (.applyPreset tag start count) rest) (hidle : s.pru.state = .idle) (hcount : count ≠ 0)
    (h64 : start.toNat + count.toNat ≤ 64) (ha : start.toNat = a.val) (hn : count.toNat = n.val) :
    ∃ v w, exec (.applyPreset tag start count) s = .next (w.respond tag 0x0C .ok []).beginTransmission ∧
      State.Reached a.val (a.val + s.reachedAtOnce n.val) ((s.withFrames rest).spanSet a n) (w.respond tag 0x0C .ok []).beginTransmission ∧
      State.ReachEnds (a.val + s.reachedAtOnce n.val) (n.val - s.reachedAtOnce n.val) ((s.withFrames rest).spanSet a n) v w := by
  have hpos : 1 ≤ n.val := by
    have : count.toNat ≠ 0 := fun h => hcount (BitVec.eq_of_toNat_eq h)
    omega
  obtain ⟨hclp, hrq, -, hmgx, -, -⟩ := (s.withFrames rest).spanSet_same a n
  obtain ⟨v, hreached, hends⟩ := State.reachEntries_span (s := (s.withFrames rest).spanSet a n)
    (hlaw.congr (congrArg LinkPort.tx hclp) hrq) (by rw [State.spanSet_pru]) (by rw [State.spanSet_pru]) hpos
    (by rw [← ha, ← hn]; exact h64)
  have honce : ((s.withFrames rest).spanSet a n).reachedAtOnce n.val = s.reachedAtOnce n.val := by
    rw [State.reachedAtOnce, hmgx]
    rfl
  rw [honce] at hreached hends
  have hrefusal : s.applyRefusal start count = none := by
    rw [State.applyRefusal_idle hidle, if_neg hcount, if_neg (Nat.not_lt.mpr h64)]
  have hexec := exec_applyPreset_accepted htakes hrefusal
  rw [State.startApply_eq ha hn] at hexec
  exact ⟨v, _, hexec, hreached.reports hends.list (hends.frame.trans (State.respond_onlyReports _ _ _ _ _)), hends⟩

/-- Settles O36: the checks in their order, and the entries that an accepted command reaches at once. -/
theorem applyPresetChecksInOrder : Obligations.ApplyPresetChecksInOrder := by
  refine ⟨fun tag start count rest s hlaw htakes => ⟨fun hbusy => ?_, fun hidle hzero => ?_, fun hidle hcount hlong => ?_⟩,
    fun tag start count rest s hlaw htakes hidle hcount h64 => ?_⟩
  · exact exec_applyPreset_refused hlaw htakes (if_pos hbusy)
  · exact exec_applyPreset_refused hlaw htakes ((State.applyRefusal_idle hidle _ _).trans (if_pos hzero))
  · exact exec_applyPreset_refused hlaw htakes ((State.applyRefusal_idle hidle _ _).trans ((if_neg hcount).trans (if_pos hlong)))
  obtain ⟨a, ha⟩ : ∃ a : Fin 65, start.toNat = a.val := ⟨⟨start.toNat, by omega⟩, rfl⟩
  obtain ⟨n, hn⟩ : ∃ n : Fin 65, count.toNat = n.val := ⟨⟨count.toNat, by omega⟩, rfl⟩
  obtain ⟨v, w, hexec, hreached, hends⟩ := exec_applyPreset hlaw htakes hidle hcount h64 ha hn
  have hpru : (w.respond tag 0x0C .ok []).beginTransmission.pru = w.pru := (w.respond_onlyReports tag 0x0C .ok []).units.2.1
  have hout := w.respond_outgoing tag 0x0C .ok []
  obtain ⟨hclp, hrq, hct, hmgx, -, -⟩ := (s.withFrames rest).spanSet_same a n
  have hlist : ((s.withFrames rest).spanSet a n).pru.list = s.pru.list := by rw [State.spanSet_pru]; rfl
  have hbefore : ((s.withFrames rest).spanSet a n).outgoing = s.outgoing := State.outgoing_of_same (congrArg LinkPort.tx hclp) hrq
  have hframe := hreached.frame.besidePresets s.ctx s.oq s.pru
  rw [show ({ (s.withFrames rest).spanSet a n with ctx := s.ctx, oq := s.oq, pru := s.pru } : State) = s.withFrames rest from
    (s.withFrames rest).spanSet_rest a n] at hframe
  have hspan : ∀ reached, reached = (if s.mgx.config.presetSpacing = 0 then count.toNat else 1) →
      a.val + s.reachedAtOnce n.val = start.toNat + reached := fun reached hr => by rw [hr, ha, hn]; rfl
  obtain ⟨hidles, hset⟩ := hreached.of_spanSet
  refine ⟨_, hexec, hreached.list.trans hlist, fun hspaced htwo => ?_, fun hone => ?_,
    fun reached hr => ⟨fun c hc => ?_, fun k p h1 h2 hp hv hsets hlast => ?_⟩, fun c => ?_, hframe⟩
  · have honce : s.reachedAtOnce n.val = 1 := if_neg hspaced
    rw [honce] at hends
    obtain ⟨hstate, htimer, hgoes⟩ := hends.goesOn (by omega)
    rw [State.spanSet_pru] at hstate
    rw [hmgx] at htimer
    rw [hpru, hout, hgoes, hbefore, ha, hn]
    exact ⟨hstate, hends.nextIndex, hends.remaining, htimer, rfl⟩
  · have honce : s.reachedAtOnce n.val = n.val := by
      unfold State.reachedAtOnce
      rcases hone with hspacing | hsingle
      · exact if_pos hspacing
      · rw [← hn, hsingle]
        exact ite_self _
    rw [honce] at hends
    obtain ⟨hstate, htimer, hover⟩ := hends.ended (Nat.sub_self _)
    rw [hclp, hrq] at hover
    rw [hpru, hout, hover, ha, hn]
    exact ⟨hstate, hends.nextIndex, Fin.ext (hends.remaining.trans (Nat.sub_self _)), htimer, rfl⟩
  · rw [hspan reached hr, ← ha] at hidles
    exact hidles c hc
  · rw [hspan reached hr, ← ha] at hset
    obtain ⟨htarget, hclamped, htaken⟩ := hset k p h1 h2 hp hv hsets fun j hj => hlast j hj
    exact ⟨htarget, hclamped, fun hfirst => htaken fun j hja hjk => hfirst j hjk hja⟩
  · rw [hreached.taken, State.spanSet_ch]

end Sys2Proof.Machine
end
